-- ==== Sys2Proof/Word.lean ====
section
/-!
DEFINITION. The value types of the PINKY-QDE (spec/00_scope.md R12, R16, R20): words, bytes, half-words, colour
triples and Lab triples. Nothing here computes; the arithmetic of the spec is in Sys2Proof/Machine/Flags.lean.
-/

namespace Sys2Proof

/-- A 32-bit command, response, progress or register word (R16). -/
abbrev Word := BitVec 32

/-- An 8-bit byte, index, name code or error code (R16, R20). -/
abbrev Byte := BitVec 8

/-- A 16-bit coordinate, width or height (R20: the engine has no negative coordinate). -/
abbrev Half := BitVec 16

/-- A Lab component: a 32-bit two's-complement Q15.16 number (R12). -/
abbrev LabNum := BitVec 32

/-- `RGB` of R20: three unsigned 8-bit channels. -/
structure RGB where
  r : Byte
  g : Byte
  b : Byte
deriving DecidableEq, Repr

/-- `Lab` of R20: a triple of LabNum. -/
structure Lab where
  L : LabNum
  a : LabNum
  b : LabNum
deriving DecidableEq, Repr

/-- `Err3` of R20: a row-buffer entry, three signed 32-bit components; LabNum components in `LAB` mode, plain integers
(the r, g, b errors in order) in `RGB` mode. -/
abbrev Err3 := Lab

/-- The triple `(0, 0, 0)`. -/
def Lab.zero : Lab := ⟨0, 0, 0⟩

/-- The storage formats of R47 and R131; code 3 never occurs. -/
inductive Fmt where
  | dense8
  | pack4
  | plane2
deriving DecidableEq, Repr

end Sys2Proof
end

