-- ==== Sys2Proof/Syntax.lean ====
section
/-!
DEFINITION. The 25 commands of spec/30_encoding.md R120, one constructor per row of spec/opcode_table.json, with the
operands of each as R111 and R112 assemble them. What a command does is in Sys2Proof/Machine.
-/

namespace Sys2Proof

/-- One entry of a `PAL_LOAD` (R112, R172): PINKY's `(symbolicName, index, RGB)` triple, the name as an 8-bit code
(R15). -/
structure PalSpec where
  name : Byte
  index : Byte
  rgb : RGB
deriving DecidableEq, Repr

/-- The commands of the engine (R2, R120). -/
inductive Instr where
  /-- `NOP` (0x00, R150). -/
  | nop
  /-- `WRCSR csr, value` (0x01, R152). -/
  | wrcsr (csr : Byte) (value : Word)
  /-- `RDCSR csr` (0x02, R153). -/
  | rdcsr (csr : Byte)
  /-- `CLRSTAT m` (0x03, R154). -/
  | clrstat (m : BitVec 3)
  /-- `PAL_LOAD mono, entries` (0x10, R172); the count `n` of the header is the length of the list. -/
  | palLoad (mono : Bool) (entries : List PalSpec)
  /-- `NEAR_LAB L, a, b` (0x11, R174). -/
  | nearLab (c : Lab)
  /-- `NEAR_RGB r, g, b` (0x12, R175). -/
  | nearRgb (c : RGB)
  /-- `TORGB index` (0x13, R176). -/
  | torgb (index : Byte)
  /-- `TOLAB index` (0x14, R177). -/
  | tolab (index : Byte)
  /-- `INDEXOF name` (0x15, R178). -/
  | indexof (name : Byte)
  /-- `NORM_RGB pinBlack, pinWhite` (0x16, R180). -/
  | normRgb (pinBlack pinWhite : Bool)
  /-- `NORM_LAB pinBlack, pinWhite` (0x17, R181). -/
  | normLab (pinBlack pinWhite : Bool)
  /-- `SURF_CFG fmt, W, H, plut` (0x20, R210). -/
  | surfCfg (fmt : Fmt) (w h : Half) (plut : Word)
  /-- `SETIDX x, y, v` (0x21, R214). -/
  | setidx (x y : Half) (v : Byte)
  /-- `GETIDX x, y` (0x22, R215). -/
  | getidx (x y : Half)
  /-- `FLUSH` (0x23, R216). -/
  | flush
  /-- `RDFB addr` (0x24, R217). -/
  | rdfb (addr : BitVec 24)
  /-- `SETPIX x, y, r, g, b` (0x30, R246). -/
  | setpix (x y : Half) (c : RGB)
  /-- `DIFF_RESET` (0x31, R250). -/
  | diffReset
  /-- `RDROW sel, x` (0x32, R251); `sel` is true for `NEXT`. -/
  | rdrow (sel : Bool) (x : Half)
  /-- `DEC_RGB565 width, height` (0x40, R280). -/
  | decRgb565 (w h : Half)
  /-- `DEC_YUYV width, height` (0x41, R285). -/
  | decYuyv (w h : Half)
  /-- `DEC_YUYVH width, height` (0x42, R290). -/
  | decYuyvh (w h : Half)
  /-- `DEC_YUV3L width, height` (0x43, R295). -/
  | decYuv3l (w h : Half)
  /-- `DEC_JPEG width, height` (0x44, R310). -/
  | decJpeg (w h : Half)
deriving DecidableEq, Repr

end Sys2Proof
end

