-- ==== Sys2Proof/WellFormed.lean ====
section
/-!
DEFINITION. Which terms of `Instr` stand for a command that words can spell. Every operand but one is a field of its
exact width, so the only check is on the entry count of `PAL_LOAD`, a 16-bit field (spec/30_encoding.md R112, R123).
-/

namespace Sys2Proof

/-- The greatest count `n` that the header of `PAL_LOAD` can carry (R112: `n = payload[15:0]`). -/
def maxPalCount : Nat := 65535

/-- A command that the encoding of R110 to R112 can spell. -/
def Instr.wellFormed : Instr → Bool
  | .nop => true
  | .wrcsr _ _ => true
  | .rdcsr _ => true
  | .clrstat _ => true
  | .palLoad _ entries => entries.length ≤ maxPalCount
  | .nearLab _ => true
  | .nearRgb _ => true
  | .torgb _ => true
  | .tolab _ => true
  | .indexof _ => true
  | .normRgb _ _ => true
  | .normLab _ _ => true
  | .surfCfg _ _ _ _ => true
  | .setidx _ _ _ => true
  | .getidx _ _ => true
  | .flush => true
  | .rdfb _ => true
  | .setpix _ _ _ => true
  | .diffReset => true
  | .rdrow _ _ => true
  | .decRgb565 _ _ => true
  | .decYuyv _ _ => true
  | .decYuyvh _ _ => true
  | .decYuv3l _ _ => true
  | .decJpeg _ _ => true

end Sys2Proof
end

