-- ==== Sys2Proof/Decode.lean ====
section
/-!
DEFINITION. From command words to commands and back (spec/30_encoding.md R110 to R123). `headerOp` is step (1) of
R113, `operandCount` the length R111 fixes, `decode` the whole; `encode` writes the words of a command from the same
tables. Every refusal has a name.
-/

namespace Sys2Proof

/-- Why words are no command. The first four are the illegal commands of R122; the last says that operand words are
still missing (R113 step 2), which is no error of the host's. -/
inductive DecodeError where
  /-- The opcode is none of the 25 of R120. -/
  | unassignedOpcode
  /-- An assigned opcode with a non-zero reserved payload bit (R114). -/
  | reservedBits
  /-- `SURF_CFG` with `fmt = 3` (R120, R122). -/
  | reservedFormat
  /-- A `PAL_LOAD` entry word with a non-zero reserved bit (R113 step 3, R122). -/
  | reservedEntryBits
  /-- Fewer words than the command has. -/
  | truncated
deriving DecidableEq, Repr

/-- The 25 rows of R120. -/
inductive Op where
  | nop | wrcsr | rdcsr | clrstat
  | palLoad | nearLab | nearRgb | torgb | tolab | indexof | normRgb | normLab
  | surfCfg | setidx | getidx | flush | rdfb
  | setpix | diffReset | rdrow
  | decRgb565 | decYuyv | decYuyvh | decYuv3l | decJpeg
deriving DecidableEq, Repr

/-- The column `match` of R120. -/
def Op.pattern : Op → Word
  | .nop => 0x00000000
  | .wrcsr => 0x01000000
  | .rdcsr => 0x02000000
  | .clrstat => 0x03000000
  | .palLoad => 0x10000000
  | .nearLab => 0x11000000
  | .nearRgb => 0x12000000
  | .torgb => 0x13000000
  | .tolab => 0x14000000
  | .indexof => 0x15000000
  | .normRgb => 0x16000000
  | .normLab => 0x17000000
  | .surfCfg => 0x20000000
  | .setidx => 0x21000000
  | .getidx => 0x22000000
  | .flush => 0x23000000
  | .rdfb => 0x24000000
  | .setpix => 0x30000000
  | .diffReset => 0x31000000
  | .rdrow => 0x32000000
  | .decRgb565 => 0x40000000
  | .decYuyv => 0x41000000
  | .decYuyvh => 0x42000000
  | .decYuv3l => 0x43000000
  | .decJpeg => 0x44000000

/-- The column `mask` of R120. -/
def Op.mask : Op → Word
  | .nop => 0xFFFFFFFF
  | .wrcsr => 0xFFFFFF00
  | .rdcsr => 0xFFFFFF00
  | .clrstat => 0xFFFFFFF8
  | .palLoad => 0xFFFE0000
  | .nearLab => 0xFFFFFFFF
  | .nearRgb => 0xFF000000
  | .torgb => 0xFFFFFF00
  | .tolab => 0xFFFFFF00
  | .indexof => 0xFFFFFF00
  | .normRgb => 0xFFFFFFFC
  | .normLab => 0xFFFFFFFC
  | .surfCfg => 0xFFFFFFFC
  | .setidx => 0xFFFFFF00
  | .getidx => 0xFFFFFFFF
  | .flush => 0xFFFFFFFF
  | .rdfb => 0xFF000000
  | .setpix => 0xFF000000
  | .diffReset => 0xFFFFFFFF
  | .rdrow => 0xFFFE0000
  | .decRgb565 => 0xFFFFFFFF
  | .decYuyv => 0xFFFFFFFF
  | .decYuyvh => 0xFFFFFFFF
  | .decYuv3l => 0xFFFFFFFF
  | .decJpeg => 0xFFFFFFFF

/-- The row whose opcode byte is `b` (the first column of R120), if there is one. -/
def opOfOpcode (b : Byte) : Option Op :=
  match b.toNat with
  | 0x00 => some .nop
  | 0x01 => some .wrcsr
  | 0x02 => some .rdcsr
  | 0x03 => some .clrstat
  | 0x10 => some .palLoad
  | 0x11 => some .nearLab
  | 0x12 => some .nearRgb
  | 0x13 => some .torgb
  | 0x14 => some .tolab
  | 0x15 => some .indexof
  | 0x16 => some .normRgb
  | 0x17 => some .normLab
  | 0x20 => some .surfCfg
  | 0x21 => some .setidx
  | 0x22 => some .getidx
  | 0x23 => some .flush
  | 0x24 => some .rdfb
  | 0x30 => some .setpix
  | 0x31 => some .diffReset
  | 0x32 => some .rdrow
  | 0x40 => some .decRgb565
  | 0x41 => some .decYuyv
  | 0x42 => some .decYuyvh
  | 0x43 => some .decYuv3l
  | 0x44 => some .decJpeg
  | _ => none

/-- The opcode of a header word, bits 31:24 (R110). -/
def opcodeOf (h : Word) : Byte := h.extractLsb' 24 8

/-- Step (1) of R113: the header word alone is tested against R120. -/
def headerOp (h : Word) : Except DecodeError Op :=
  match opOfOpcode (opcodeOf h) with
  | none => .error .unassignedOpcode
  | some op =>
    if h &&& op.mask ≠ op.pattern then .error .reservedBits
    else if op = .surfCfg ∧ h.extractLsb' 0 2 = 3 then .error .reservedFormat
    else .ok op

/-- How many operand words follow a header of row `op` (R111). -/
def operandCount (op : Op) (h : Word) : Nat :=
  match op with
  | .nop | .rdcsr | .clrstat | .nearRgb | .torgb | .tolab | .indexof | .normRgb | .normLab | .flush | .rdfb
  | .diffReset | .rdrow => 0
  | .wrcsr | .setidx | .getidx | .setpix | .decRgb565 | .decYuyv | .decYuyvh | .decYuv3l | .decJpeg => 1
  | .surfCfg => 2
  | .nearLab => 3
  | .palLoad => 2 * (h.extractLsb' 0 16).toNat

/-- The low half of a coordinate or size word: `x` or `width` (R112). -/
def loHalf (w : Word) : Half := w.extractLsb' 0 16

/-- The high half of a coordinate or size word: `y` or `height` (R112). -/
def hiHalf (w : Word) : Half := w.extractLsb' 16 16

/-- The low byte of a payload: a CSR number, an index, a name code or a pixel value (R112). -/
def lowByte (w : Word) : Byte := w.extractLsb' 0 8

/-- The RGB colour in the low 24 bits of a word (R112). -/
def rgbOf (w : Word) : RGB := ⟨w.extractLsb' 16 8, w.extractLsb' 8 8, w.extractLsb' 0 8⟩

/-- The format whose code is in the two low bits; code 3 was refused by `headerOp` (R131). -/
def fmtOf (h : Word) : Fmt :=
  match (h.extractLsb' 0 2).toNat with
  | 0 => .dense8
  | 1 => .pack4
  | _ => .plane2

/-- The `n` entry pairs of a `PAL_LOAD` (R111, R112), with step (3) of R113: the reserved bits of each pair are
tested. -/
def decodeEntries : Nat → List Word → Except DecodeError (List PalSpec × List Word)
  | 0, ws => .ok ([], ws)
  | n + 1, a :: b :: ws =>
    match decodeEntries n ws with
    | .error e => .error e
    | .ok (es, rest) =>
      if a.extractLsb' 16 16 ≠ 0 ∨ b.extractLsb' 24 8 ≠ 0 then .error .reservedEntryBits
      else .ok (⟨a.extractLsb' 8 8, a.extractLsb' 0 8, rgbOf b⟩ :: es, rest)
  | _ + 1, _ => .error .truncated

/-- The command of a tested header and the words after it, with the words that are left (R111, R112). -/
def decodeOperands (op : Op) (h : Word) (ws : List Word) : Except DecodeError (Instr × List Word) :=
  match op with
  | .nop => .ok (.nop, ws)
  | .wrcsr => match ws with
    | v :: rest => .ok (.wrcsr (lowByte h) v, rest)
    | [] => .error .truncated
  | .rdcsr => .ok (.rdcsr (lowByte h), ws)
  | .clrstat => .ok (.clrstat (h.extractLsb' 0 3), ws)
  | .palLoad =>
    match decodeEntries (h.extractLsb' 0 16).toNat ws with
    | .ok (es, rest) => .ok (.palLoad (h.getLsbD 16) es, rest)
    | .error e => .error e
  | .nearLab => match ws with
    | l :: a :: b :: rest => .ok (.nearLab ⟨l, a, b⟩, rest)
    | _ => .error .truncated
  | .nearRgb => .ok (.nearRgb (rgbOf h), ws)
  | .torgb => .ok (.torgb (lowByte h), ws)
  | .tolab => .ok (.tolab (lowByte h), ws)
  | .indexof => .ok (.indexof (lowByte h), ws)
  | .normRgb => .ok (.normRgb (h.getLsbD 0) (h.getLsbD 1), ws)
  | .normLab => .ok (.normLab (h.getLsbD 0) (h.getLsbD 1), ws)
  | .surfCfg => match ws with
    | d :: p :: rest => .ok (.surfCfg (fmtOf h) (loHalf d) (hiHalf d) p, rest)
    | _ => .error .truncated
  | .setidx => match ws with
    | c :: rest => .ok (.setidx (loHalf c) (hiHalf c) (lowByte h), rest)
    | [] => .error .truncated
  | .getidx => match ws with
    | c :: rest => .ok (.getidx (loHalf c) (hiHalf c), rest)
    | [] => .error .truncated
  | .flush => .ok (.flush, ws)
  | .rdfb => .ok (.rdfb (h.extractLsb' 0 24), ws)
  | .setpix => match ws with
    | c :: rest => .ok (.setpix (loHalf c) (hiHalf c) (rgbOf h), rest)
    | [] => .error .truncated
  | .diffReset => .ok (.diffReset, ws)
  | .rdrow => .ok (.rdrow (h.getLsbD 16) (loHalf h), ws)
  | .decRgb565 => match ws with
    | d :: rest => .ok (.decRgb565 (loHalf d) (hiHalf d), rest)
    | [] => .error .truncated
  | .decYuyv => match ws with
    | d :: rest => .ok (.decYuyv (loHalf d) (hiHalf d), rest)
    | [] => .error .truncated
  | .decYuyvh => match ws with
    | d :: rest => .ok (.decYuyvh (loHalf d) (hiHalf d), rest)
    | [] => .error .truncated
  | .decYuv3l => match ws with
    | d :: rest => .ok (.decYuv3l (loHalf d) (hiHalf d), rest)
    | [] => .error .truncated
  | .decJpeg => match ws with
    | d :: rest => .ok (.decJpeg (loHalf d) (hiHalf d), rest)
    | [] => .error .truncated

/-- The command at the head of a list of words, and the words after it. The header is tested before anything is said
of its operands (R113). -/
def decode : List Word → Except DecodeError (Instr × List Word)
  | [] => .error .truncated
  | h :: ws =>
    match headerOp h with
    | .error e => .error e
    | .ok op => decodeOperands op h ws

/-- `{hi, lo}`: a coordinate or size word (R111). -/
def pairWord (hi lo : Half) : Word := hi ++ lo

/-- A header whose payload has one byte, in bits 7:0 (R112). -/
def byteHeader (op : Op) (b : Byte) : Word := op.pattern ||| b.setWidth 32

/-- A header whose payload is an RGB colour (R112). -/
def rgbHeader (op : Op) (c : RGB) : Word := op.pattern ||| (0#8 ++ c.r ++ c.g ++ c.b)

/-- A header whose payload has the two pin bits (R120). -/
def pinHeader (op : Op) (pinBlack pinWhite : Bool) : Word :=
  op.pattern ||| (BitVec.ofBool pinWhite ++ BitVec.ofBool pinBlack).setWidth 32

/-- The code of a format (R131). -/
def Fmt.code : Fmt → BitVec 2
  | .dense8 => 0
  | .pack4 => 1
  | .plane2 => 2

/-- The two words of a `PAL_LOAD` entry (R111). -/
def encodeEntry (e : PalSpec) : List Word :=
  [0#16 ++ e.name ++ e.index, 0#8 ++ e.rgb.r ++ e.rgb.g ++ e.rgb.b]

/-- The words of a command (R111, R112, R120, R130). -/
def encode : Instr → List Word
  | .nop => [Op.nop.pattern]
  | .wrcsr csr value => [byteHeader .wrcsr csr, value]
  | .rdcsr csr => [byteHeader .rdcsr csr]
  | .clrstat m => [Op.clrstat.pattern ||| m.setWidth 32]
  | .palLoad mono entries =>
    (Op.palLoad.pattern ||| (BitVec.ofBool mono ++ BitVec.ofNat 16 entries.length).setWidth 32)
      :: entries.flatMap encodeEntry
  | .nearLab c => [Op.nearLab.pattern, c.L, c.a, c.b]
  | .nearRgb c => [rgbHeader .nearRgb c]
  | .torgb index => [byteHeader .torgb index]
  | .tolab index => [byteHeader .tolab index]
  | .indexof name => [byteHeader .indexof name]
  | .normRgb pb pw => [pinHeader .normRgb pb pw]
  | .normLab pb pw => [pinHeader .normLab pb pw]
  | .surfCfg fmt w h plut => [Op.surfCfg.pattern ||| fmt.code.setWidth 32, pairWord h w, plut]
  | .setidx x y v => [byteHeader .setidx v, pairWord y x]
  | .getidx x y => [Op.getidx.pattern, pairWord y x]
  | .flush => [Op.flush.pattern]
  | .rdfb addr => [Op.rdfb.pattern ||| addr.setWidth 32]
  | .setpix x y c => [rgbHeader .setpix c, pairWord y x]
  | .diffReset => [Op.diffReset.pattern]
  | .rdrow sel x => [Op.rdrow.pattern ||| (BitVec.ofBool sel ++ x).setWidth 32]
  | .decRgb565 w h => [Op.decRgb565.pattern, pairWord h w]
  | .decYuyv w h => [Op.decYuyv.pattern, pairWord h w]
  | .decYuyvh w h => [Op.decYuyvh.pattern, pairWord h w]
  | .decYuv3l w h => [Op.decYuv3l.pattern, pairWord h w]
  | .decJpeg w h => [Op.decJpeg.pattern, pairWord h w]

/-- Word number `k` of an instruction whose bits are `w` (the first word is bits 31:0). -/
def tableWord (nbits w k : Nat) : Word := BitVec.ofNat 32 ((w % 2 ^ nbits) >>> (32 * k))

/-- The words of a table instruction: those that `nbits` covers, and as many zero words after them as the header
announces operands. -/
def tableWords (nbits w : Nat) : List Word :=
  let h := tableWord nbits w 0
  let covered := (nbits + 31) / 32 - 1
  let need := match headerOp h with
    | .ok op => operandCount op h
    | .error _ => 0
  let given := (List.range covered).map (fun k => tableWord nbits w (k + 1))
  h :: (given ++ List.replicate (need - covered) 0)

/-- What the decoder reads from an instruction whose bits are `w` (bit 0 the least significant bit of the first
word); operand words beyond `nbits` are zero. -/
def decodeTableWord (nbits w : Nat) : Option Instr :=
  match decode (tableWords nbits w) with
  | .ok (i, _) => some i
  | .error _ => none

end Sys2Proof
end

