-- ==== Sys2Proof/Config.lean ====
section
/-!
DEFINITION. What an implementation of the PINKY-QDE fixes: the constants of spec/00_scope.md R11 and R15, the
reference values of the parameters of R10, the identity word of R41, and the free values: opaque constants with no
body, of which nothing can be proved. The parameters themselves (memory sizes and colour functions) are a field of
State that no step changes, so that a claim about every state is a claim about every value of them.
-/

namespace Sys2Proof

/-- `ID` (spec/10_state.md R41). -/
def Config.idWord : Word := 0x50514401

/-- `PAL_MAX` (R11): a palette holds at most 254 entries. -/
def Config.palMax : Nat := 254

/-- The index that means "not found" (R11). -/
def Config.notFoundIndex : Byte := 255

/-- `NAME_BLACK` (R15). -/
def Config.nameBlack : Byte := 0x00

/-- `NAME_WHITE` (R15). -/
def Config.nameWhite : Byte := 0x01

/-- `NAME_CLEAN` (R15). -/
def Config.nameClean : Byte := 0xFE

/-- The greatest request of the RGB565 decoder: 127 samples (R11). -/
def Config.ceilingRgb565 : Nat := 254

/-- The greatest request of the YUV decoders (R11). -/
def Config.ceilingYuv : Nat := 255

/-- Reset value of `ACC` (spec/10_state.md R70): 0.875. -/
def Config.accReset : Word := 0x0000E000

/-- Reference value of `FB_BYTES` (R10). -/
def Config.refFbBytes : Nat := 262144

/-- Reference value of `ROW_MAX` (R10). -/
def Config.refRowMax : Nat := 1024

/-- Reference value of `LINE_MAX` (R10). -/
def Config.refLineMax : Nat := 1024

/-- Reference value of `MROW_BYTES` (R10). -/
def Config.refMrowBytes : Nat := 49152

/-- What a frame-buffer byte that is not listed holds. `SURF_CFG` fills the surface with 0 before any command can read
it (spec/20_memory.md R96), so this is the value the spec gives every byte a command reads; for bytes outside the
surface, which the engine never reads, it is a DESIGN CHOICE (log entry 1). -/
def Config.unwrittenByte : Byte := 0

/-- FREE VALUE (log entry 2). Whether, at choice number `n`, the hardware has by itself already committed the byte at
address `a` to the DisplaySink's copy (spec/20_memory.md R95: at any moment, for any address, `FBC[a]` may take the
value `FB[a]` on its own). -/
opaque Config.commitsEarly (n : Nat) (a : Nat) : Bool

/-- FREE VALUE (log entry 3). The unspecified byte that a DisplaySink read at an address at or above `SURFBYTES`
answers, at choice number `n` (spec/60_exceptions.md R356; 93_implementation_defined.md U4). -/
opaque Config.unspecifiedByte (n : Nat) (a : Nat) : Byte

/-- FREE VALUE (log entry 15). Whether the assembler's `round` takes the tie `num / den`, or `-num / den` when
`negative`, half-way between two integers, to the one farther from zero (spec/30_encoding.md R130, R132 do not say; ties of
the two signs are free of each other). -/
opaque Config.roundsTieAway (negative : Bool) (num den : Nat) : Bool

/-- FREE VALUE (log entry 24). What `CAP2` reads when `MROW_BYTES` does not fit 32 bits: spec/00_scope.md R10 gives it no
upper bound, and spec/10_state.md R51 does not say. -/
opaque Config.capOverflow (mrowBytes : Nat) : Word

end Sys2Proof
end

