-- ==== Sys2Proof/Machine/State.lean ====
section
/-!
DEFINITION. The state of the PINKY-QDE (spec/10_state.md R30 to R65) as plain data, the reasons a step can stop, and
the machine right after reset (R70). Beside the spec's own state it holds the MODEL's own fields, said so one by one:
the implementation's parameters, the collaborators' answers, the requests issued, and the counter of free choices.
-/

namespace Sys2Proof.Machine

/-- Faults. The engine itself has none: a command that cannot do its work fails with a result code and the next one
runs (spec/60_exceptions.md R330), an illegal command leads to the halted state (R335), and both are next states. The
one fault is raised by the port operation `dsRead` of Sys2Proof/Machine/Ports.lean, never by `step`. -/
inductive Fault where
  /-- A DisplaySink read of an address that the frame buffer does not have (R356: `0 ≤ a < FB_BYTES`). Raised by
  `dsRead`. Safe: no claim about an answer can be proved where there is none. -/
  | displayAddress
deriving DecidableEq, Repr

/-- Refusals: inputs to which the spec gives no meaning. -/
inductive Refusal where
  /-- An instruction that has no meaning in the model yet, by its mnemonic. No arm of `exec` uses it. Safe. -/
  | notModelled (mnemonic : String)
  /-- The ByteSource answered a `tryRead` with more bytes than were asked for, or with a byte count that differs from
  the bytes it gave. Raised by the four byte-stream decoders. The spec gives it no meaning
  (93_implementation_defined.md U3: treatment `refuse`). Safe. -/
  | byteSourceProtocol
deriving DecidableEq, Repr

/-- The result codes of spec/60_exceptions.md R331; there are no others. -/
inductive Code where
  | ok | count | odd | palSize | palDup | io | bd | size | csr | pin | scan | dim
deriving DecidableEq, Repr

/-- A frame-buffer memory: the bytes that differ from `Config.unwrittenByte`, by strictly rising address. -/
abbrev Memory := List Host.Cell

/-- A diffusion row buffer: the entries that differ from `(0, 0, 0)`, by strictly rising column. -/
abbrev Row := List (Nat × Err3)

/-- A palette entry (R55). -/
structure PalEntry where
  name : Byte
  index : Byte
  rgb : RGB
  lab : Lab
deriving DecidableEq, Repr

/-- The implementation's parameters (spec/00_scope.md R10, R14). The four tables hold a configured colour function
where it differs from the reference function of 93_implementation_defined.md G1 to G4: an argument that a table lists
maps as it says, every other as the reference does. Every total function on these finite types is some table. -/
structure Params where
  fbBytes : Nat
  rowMax : Nat
  lineMax : Nat
  mrowBytes : Nat
  rgb2lab : List (RGB × Lab)
  l2gray : List (LabNum × Byte)
  lab2rgb : List (Lab × RGB)
  yuv2rgb : List ((Byte × Byte × Byte) × RGB)
deriving DecidableEq, Repr

/-- The reference values of R10: the parameters a model takes when none is given. -/
def Params.reference : Params where
  fbBytes := Config.refFbBytes
  rowMax := Config.refRowMax
  lineMax := Config.refLineMax
  mrowBytes := Config.refMrowBytes
  rgb2lab := []
  l2gray := []
  lab2rgb := []
  yuv2rgb := []

/-- The ByteSource's answer to one `tryRead` (R351): the count and the bytes. -/
structure ReadAnswer where
  count : Nat
  bytes : List Byte
deriving DecidableEq, Repr

/-- The block decoder's answer to `init` (R354). -/
structure InitAnswer where
  err : Byte
  scan : Byte
deriving DecidableEq, Repr

/-- The block decoder's answer to `mcu` (R355): three planes of 256 bytes. -/
structure McuAnswer where
  err : Byte
  p0 : Vector Byte 256
  p1 : Vector Byte 256
  p2 : Vector Byte 256
deriving DecidableEq, Repr

/-- A request of the engine on port BS or BD (R350, R353). -/
inductive PortReq where
  /-- `BS.totalAvailable()` (R352). -/
  | totalAvailable
  /-- `BS.tryRead(m)` (R351). -/
  | tryRead (m : Nat)
  /-- `BD.init()` (R354). -/
  | bdInit
  /-- `BD.mcu()` (R355). -/
  | bdMcu
deriving DecidableEq, Repr

/-- The four kinds of request, and of the answers to them. -/
inductive AnswerKind where
  | total | read | init | mcu
deriving DecidableEq, Repr

/-- The request that an answer answers: the pending one, or one that a reset has dropped (R371). -/
inductive Addressee where
  | pending | dropped
deriving DecidableEq, Repr

/-- The four byte-stream decoders (spec/44_stream_decode.md). -/
inductive StreamKind where
  | rgb565 | yuyv | yuyvh | yuv3l
deriving DecidableEq, Repr

/-- The five scan types (spec/45_jpeg_mcu.md R312). -/
inductive ScanType where
  | gray | h1v1 | h2v1 | h1v2 | h2v2
deriving DecidableEq, Repr

/-- A byte-stream decode that waits inside `READLINE` (R272): which decoder, the source size, the number of the line
being read, and the line buffers of R62: what `line0` holds so far, `line1` the line before it and `line2` the one
before that (used by `DEC_YUV3L` only). For `DEC_YUYVH` `line0` stands for `LINE0 ++ LINE1` (R290). -/
structure StreamJob where
  kind : StreamKind
  w : Half
  h : Half
  row : Nat
  line0 : List Byte
  line1 : List Byte
  line2 : List Byte
deriving DecidableEq, Repr

/-- A `DEC_JPEG` that waits for an MCU (R310): the size, the scan type, the MCU row and column awaited, and the
MCU-row buffer of R63, row by row. -/
structure JpegJob where
  w : Half
  h : Half
  scan : ScanType
  my : Nat
  mx : Nat
  mrow : List (List RGB)
deriving DecidableEq, Repr

/-- Where the sequencer stands between two steps (spec/30_encoding.md R113; spec/10_state.md R62, R63). -/
inductive Sequencer where
  /-- No command in execution. -/
  | idle
  /-- A header and some operand words have been taken; more are needed (R113 step 2). -/
  | operands (taken : List Word)
  /-- A byte-stream decode waits for `BS.totalAvailable` (R271). -/
  | awaitTotal (kind : StreamKind) (w h : Half)
  /-- A byte-stream decode waits for `BS.tryRead` (R272). -/
  | awaitRead (job : StreamJob)
  /-- A `DEC_JPEG` waits for `BD.init` (R310). -/
  | awaitInit (w h : Half)
  /-- A `DEC_JPEG` waits for `BD.mcu` (R310). -/
  | awaitMcu (job : JpegJob)
deriving DecidableEq, Repr

/-- The state of the engine (R30), with the model's own fields at the end. -/
structure State where
  /-- Result registers (R31). -/
  r0 : Word
  r1 : Word
  r2 : Word
  r3 : Word
  /-- `STATUS` (R42), field by field. -/
  err : Code
  bderr : Byte
  fails : Bool
  notfound : Bool
  sat : Bool
  /-- `CMDCNT` (R43). -/
  cmdcnt : Word
  /-- `CTRL` (R44). -/
  ctrl : Word
  /-- `ACC` (R45). -/
  acc : Word
  /-- `SURFFMT`, `SURFDIM`, `PLUT` (R46 to R48, R60). -/
  fmt : Fmt
  surfW : Half
  surfH : Half
  plut : Word
  /-- The palette table in storage order and its monochrome flag (R55, R57); `PAL_N` is the length of the list. -/
  pal : List PalEntry
  mono : Bool
  /-- The diffusion state (R58): `CUR_VALID`, `CUR_ROW`, `THIS`, `NEXT`. -/
  curValid : Bool
  curRow : Half
  thisRow : Row
  nextRow : Row
  /-- Of the diffusion state too: a decode has started since `SETPIX` last used the row buffers, so that the next `SETPIX` starts
  fresh rows (implied by a corner case of R246; log entry 25). -/
  rowsOfDecode : Bool
  /-- The frame buffer and the DisplaySink's copy (R61). -/
  fb : Memory
  fbc : Memory
  /-- The port queues (R64), oldest word first. -/
  cmdq : List Word
  rspq : List Word
  progq : List Word
  /-- `HALTED` (R65). -/
  halted : Bool
  /-- The command in execution, if one waits; it holds the line buffers and the MCU-row buffer (R62, R63). -/
  seq : Sequencer
  /-- MODEL's own: the implementation's parameters, constants of a run (R10, R66). -/
  params : Params
  /-- MODEL's own: the answers the collaborators will give, in order, to requests still to come (R66). -/
  bsTotals : List Word
  bsReads : List ReadAnswer
  bdInits : List InitAnswer
  bdMcus : List McuAnswer
  /-- MODEL's own: the requests issued on ports BS and BD so far, oldest first. -/
  reqs : List PortReq
  /-- MODEL's own: the kinds of the requests that a reset has dropped and whose answers have not come, oldest first
  (R371; log entry 13). -/
  dropped : List AnswerKind
  /-- MODEL's own: how many free choices have been drawn (log entry 2). -/
  choices : Nat
deriving DecidableEq, Repr

/-- The machine right after reset (R70, R370). Row buffers and frame buffers are unspecified there and unobservable
(R59, R96); the model leaves them empty (log entries 1 and 4). -/
def State.reset : State where
  r0 := 0
  r1 := 0
  r2 := 0
  r3 := 0
  err := .ok
  bderr := 0
  fails := false
  notfound := false
  sat := false
  cmdcnt := 0
  ctrl := 0
  acc := Config.accReset
  fmt := .dense8
  surfW := 0
  surfH := 0
  plut := 0
  pal := []
  mono := false
  curValid := false
  curRow := 0
  thisRow := []
  nextRow := []
  rowsOfDecode := false
  fb := []
  fbc := []
  cmdq := []
  rspq := []
  progq := []
  halted := false
  seq := .idle
  params := Params.reference
  bsTotals := []
  bsReads := []
  bdInits := []
  bdMcus := []
  reqs := []
  dropped := []
  choices := 0

/-- The outcome of a command or a step. -/
abbrev Result := Host.Outcome State Fault Refusal

end Sys2Proof.Machine
end

