-- ==== Sys2Proof/Machine/Flags.lean ====
section
/-!
DEFINITION. The arithmetic of spec/00_scope.md R17 to R19 and the flags of `STATUS` (spec/10_state.md R42): truncating
division, saturation with its sticky flag, clamps, the result codes as numbers, and the `STATUS` word.
-/

namespace Sys2Proof.Machine

/-- `tdiv(a, b)`: the quotient rounded toward zero (R17). -/
def tdiv (a b : Int) : Int := Int.tdiv a b

/-- `clamp(v, lo, hi)` (R19). -/
def clamp (v lo hi : Int) : Int := if v < lo then lo else if hi < v then hi else v

/-- `clamp8(v)` as a byte (R19). -/
def clamp8 (v : Int) : Byte := BitVec.ofNat 8 (clamp v 0 255).toNat

/-- `ceil(a / b)` for positive `b` (R19). -/
def ceilDiv (a b : Nat) : Nat := (a + b - 1) / b

/-- The least value of an `s32`. -/
def s32Min : Int := -2147483648

/-- The greatest value of an `s32`. -/
def s32Max : Int := 2147483647

/-- The word that `sat32(v)` gives (R18). -/
def sat32 (v : Int) : LabNum := BitVec.ofInt 32 (clamp v s32Min s32Max)

/-- `sat32(v)` changes its operand (R18). -/
def saturates (v : Int) : Bool := v < s32Min || s32Max < v

/-- `sat32` on the three components of a triple. -/
def sat32Triple (x y z : Int) : Err3 := ⟨sat32 x, sat32 y, sat32 z⟩

/-- `sat32` changes some component of a triple. -/
def saturatesTriple (x y z : Int) : Bool := saturates x || saturates y || saturates z

/-- `STATUS.SAT` is set when `hit` holds; it is sticky (R18, R42). -/
def State.noteSat (hit : Bool) (s : State) : State := { s with sat := s.sat || hit }

/-- `STATUS.NOTFOUND <- 1` (R42). -/
def State.noteNotFound (s : State) : State := { s with notfound := true }

/-- The number of a result code (spec/60_exceptions.md R331). -/
def Code.value : Code → Byte
  | .ok => 0
  | .count => 1
  | .odd => 2
  | .palSize => 3
  | .palDup => 4
  | .io => 5
  | .bd => 6
  | .size => 7
  | .csr => 8
  | .pin => 9
  | .scan => 10
  | .dim => 11

/-- A flag as a bit. -/
def flagBit (b : Bool) : BitVec 1 := BitVec.ofBool b

/-- The word `STATUS` reads (R42): `SAT`, `NOTFOUND`, `FAILS` in bits 18 to 16, `BDERR` in 15:8, `ERR` in 7:0. -/
def State.statusWord (s : State) : Word :=
  0#13 ++ flagBit s.sat ++ flagBit s.notfound ++ flagBit s.fails ++ s.bderr ++ s.err.value

end Sys2Proof.Machine
end

