-- ==== Sys2Proof/Machine/Colour.lean ====
section
/-!
DEFINITION. The four colour functions of spec/00_scope.md R14: `RGB2LAB`, `L2GRAY`, `LAB2RGB`, `YUV2RGB`. The engine
assumes of each only that it is a total function; the configured function is the parameter table over the reference
function of 93_implementation_defined.md G1 to G4. The reference functions are real-number formulas rounded once; here
they are computed in fixed point with 64 fraction bits, every root being the floor of the exact root (log entry 5).
-/

namespace Sys2Proof.Machine

/-- The fixed-point unit of the reference functions: `1.0` is `2^64`. -/
def fxOne : Nat := 2 ^ 64

/-- Bit by bit, from bit `i - 1` down, the greatest `r` with `r ^ k ≤ n` above the bits already set in `acc`. -/
def rootBits (k n : Nat) : Nat → Nat → Nat
  | 0, acc => acc
  | i + 1, acc => if (acc + 2 ^ i) ^ k ≤ n then rootBits k n i (acc + 2 ^ i) else rootBits k n i acc

/-- The floor of the `k`-th root of `n`, for roots below `2^72`. -/
def nthRoot (k n : Nat) : Nat := rootBits k n 72 0

/-- `lin(c)` of G1, in fixed point: `c/255/12.92` up to 0.04045 (that is, `c ≤ 10`), else
`((c/255 + 0.055)/1.055)^2.4`. -/
def linChannel (c : Byte) : Nat :=
  if c.toNat ≤ 10 then c.toNat * 100 * fxOne / (255 * 1292)
  else nthRoot 5 ((c.toNat * 1000 + 14025) ^ 12 * fxOne ^ 5 / 269025 ^ 12)

/-- `f(t)` of G1: the cube root above `(6/29)^3`, else `t / (3 (6/29)^2) + 4/29`. -/
def labF (t : Nat) : Nat :=
  if 216 * fxOne < t * 24389 then nthRoot 3 (t * fxOne ^ 2)
  else (t * 24389 + 432 * fxOne) / 3132

/-- `q(v) = floor(v * 65536 + 1/2)` of G1, as a LabNum, of a fixed-point number. -/
def quantQ16 (v : Int) : LabNum := BitVec.ofInt 32 ((v * 131072 + fxOne) / (2 * fxOne))

/-- The reference `RGB2LAB` (G1). -/
def refRgb2lab (c : RGB) : Lab :=
  let r := linChannel c.r
  let g := linChannel c.g
  let b := linChannel c.b
  let fx := labF ((4124564 * r + 3575761 * g + 1804375 * b) / 9504700)
  let fy := labF ((2126729 * r + 7151522 * g + 721750 * b) / 10000000)
  let fz := labF ((193339 * r + 1191920 * g + 9503041 * b) / 10888300)
  ⟨quantQ16 (116 * (fy : Int) - 16 * fxOne), quantQ16 (500 * ((fx : Int) - fy)), quantQ16 (200 * ((fy : Int) - fz))⟩

/-- `finv(f)` of G2: the cube above `6/29`, else `3 (6/29)^2 (f - 4/29)`. -/
def labFinv (f : Int) : Int :=
  if 6 * (fxOne : Int) < f * 29 then f ^ 3 / (fxOne : Int) ^ 2
  else (3132 * f - 432 * fxOne) / 24389

/-- `enc(v)` of G2 for `0 ≤ v ≤ 1`. -/
def gammaEnc (v : Nat) : Nat :=
  if v * 10000000 ≤ 31308 * fxOne then v * 1292 / 100
  else (1055 * nthRoot 12 (v ^ 5 * fxOne ^ 7) - 55 * fxOne) / 1000

/-- `to8(v)` of G2. -/
def to8 (v : Int) : Byte := clamp8 ((255 * 2 * gammaEnc (clamp v 0 fxOne).toNat + fxOne) / (2 * fxOne) : Nat)

/-- `(L/65536 + 16)/116` in fixed point (G2, G3). -/
def labFy (l : LabNum) : Int := (l.toInt + 1048576) * fxOne / 7602176

/-- The reference `L2GRAY` (G2). -/
def refL2gray (l : LabNum) : Byte := to8 (labFinv (labFy l))

/-- The reference `LAB2RGB` (G3). -/
def refLab2rgb (c : Lab) : RGB :=
  let fy := labFy c.L
  let fx := fy + c.a.toInt * fxOne / 32768000
  let fz := fy - c.b.toInt * fxOne / 13107200
  let x := 95047 * labFinv fx / 100000
  let y := labFinv fy
  let z := 108883 * labFinv fz / 100000
  ⟨to8 ((32404542 * x - 15371385 * y - 4985314 * z) / 10000000),
   to8 ((18760108 * y - 9692660 * x + 415560 * z) / 10000000),
   to8 ((556434 * x - 2040259 * y + 10572252 * z) / 10000000)⟩

/-- The reference `YUV2RGB` (G4). -/
def refYuv2rgb (y u v : Byte) : RGB :=
  let l : Int := y.toNat
  let d : Int := u.toNat - 128
  let e : Int := v.toNat - 128
  ⟨clamp8 (l + tdiv (359 * e) 256), clamp8 (l - tdiv (88 * d + 183 * e) 256), clamp8 (l + tdiv (454 * d) 256)⟩

/-- The configured `RGB2LAB` (R14). -/
def Params.toLab (p : Params) (c : RGB) : Lab := (p.rgb2lab.lookup c).getD (refRgb2lab c)

/-- The configured `L2GRAY` (R14). -/
def Params.toGray (p : Params) (l : LabNum) : Byte := (p.l2gray.lookup l).getD (refL2gray l)

/-- The configured `LAB2RGB` (R14). -/
def Params.toRgb (p : Params) (c : Lab) : RGB := (p.lab2rgb.lookup c).getD (refLab2rgb c)

/-- The configured `YUV2RGB` (R14). -/
def Params.fromYuv (p : Params) (y u v : Byte) : RGB := (p.yuv2rgb.lookup (y, u, v)).getD (refYuv2rgb y u v)

end Sys2Proof.Machine
end

