-- ==== Sys2Proof/Machine/Ops.lean ====
section
/-!
DEFINITION. The named operations every meaning is built from: sparse stores in canonical form, the frame buffer
(spec/20_memory.md R81, R95), result registers and ports (spec/10_state.md R31, R64), retirement and failure
(spec/40_system.md R151, spec/60_exceptions.md R330), and the halt, the engine's one exception (R335).
-/

namespace Sys2Proof.Machine

/-! ### Sparse stores: association lists by strictly rising key, no entry equal to the default `d` -/

/-- What a key holds: its entry, or the default. -/
def sparseRead {α : Type} (d : α) : List (Nat × α) → Nat → α
  | [], _ => d
  | c :: m, k => if c.1 = k then c.2 else sparseRead d m k

/-- Set what a key holds, keeping the canonical form: writing the default removes the entry. -/
def sparseWrite {α : Type} [DecidableEq α] (d : α) : List (Nat × α) → Nat → α → List (Nat × α)
  | [], k, v => if v = d then [] else [(k, v)]
  | c :: m, k, v =>
    if k < c.1 then (if v = d then c :: m else (k, v) :: c :: m)
    else if c.1 = k then (if v = d then m else (k, v) :: m)
    else c :: sparseWrite d m k v

/-- Set every key below `n` to the default. -/
def sparseClear {α : Type} (n : Nat) (m : List (Nat × α)) : List (Nat × α) := m.filter (fun c => n ≤ c.1)

/-- Give every key below `n` what it holds in `src`. -/
def sparseCopy {α : Type} (n : Nat) (src dst : List (Nat × α)) : List (Nat × α) :=
  src.filter (fun c => c.1 < n) ++ sparseClear n dst

/-- The canonical form, with every key at least `lo`. -/
def sparseWfFrom {α : Type} [DecidableEq α] (d : α) : Nat → List (Nat × α) → Bool
  | _, [] => true
  | lo, c :: m => decide (lo ≤ c.1) && decide (c.2 ≠ d) && sparseWfFrom d (c.1 + 1) m

/-- The canonical form. -/
def sparseWf {α : Type} [DecidableEq α] (d : α) (m : List (Nat × α)) : Bool := sparseWfFrom d 0 m

/-- Every key of a store is below `n`. -/
def sparseBelow {α : Type} (n : Nat) (m : List (Nat × α)) : Bool := m.all (fun c => c.1 < n)

/-! ### The frame buffer -/

/-- One byte of a memory. -/
def Memory.read (m : Memory) (a : Nat) : Byte := sparseRead Config.unwrittenByte m a

/-- Set one byte of a memory. -/
def Memory.write (m : Memory) (a : Nat) (v : Byte) : Memory := sparseWrite Config.unwrittenByte m a v

/-- The canonical form of a memory: addresses strictly rising, no entry equal to what an unlisted address reads as. -/
def Memory.wf (m : Memory) : Bool := sparseWf Config.unwrittenByte m

/-- `MemRead(addr, 1)` (R81). -/
def State.memRead (a : Nat) (s : State) : Byte := s.fb.read a

/-- A byte of `FBC`, the copy the DisplaySink sees (R61). -/
def State.sinkByte (a : Nat) (s : State) : Byte := s.fbc.read a

/-- The hardware may have committed the byte at `a` before it is overwritten (R95); whether it has is a free
choice. -/
def State.maybeCommit (a : Nat) (s : State) : State :=
  { s with
    fbc := if Config.commitsEarly s.choices a then s.fbc.write a (s.memRead a) else s.fbc
    choices := s.choices + 1 }

/-- `MemWrite(addr, 1, v)` (R81): engine writes go to `FB`; the value overwritten may or may not have reached `FBC`
(R95). -/
def State.memWrite (a : Nat) (v : Byte) (s : State) : State :=
  let t := s.maybeCommit a
  { t with fb := t.fb.write a v }

/-! ### Row buffers -/

/-- One entry of a row buffer (R58). -/
def Row.entry (r : Row) (x : Nat) : Err3 := sparseRead Lab.zero r x

/-- Set one entry of a row buffer. -/
def Row.setEntry (r : Row) (x : Nat) (e : Err3) : Row := sparseWrite Lab.zero r x e

/-- The canonical form of a row buffer. -/
def Row.wf (r : Row) : Bool := sparseWf Lab.zero r

/-! ### Result registers and ports -/

/-- `R0 <- v` (R31). -/
def State.setR0 (v : Word) (s : State) : State := { s with r0 := v }

/-- `(R1, R2, R3) <- e` (R31). -/
def State.setR123 (e : Err3) (s : State) : State := { s with r1 := e.L, r2 := e.a, r3 := e.b }

/-- `push RSP, w` (R21, R64). -/
def State.pushRsp (w : Word) (s : State) : State := { s with rspq := s.rspq ++ [w] }

/-- `push PROG, w` (R21, R64). -/
def State.pushProg (w : Word) (s : State) : State := { s with progq := s.progq ++ [w] }

/-- A request goes out on port BS or BD (R350, R353). -/
def State.request (q : PortReq) (s : State) : State := { s with reqs := s.reqs ++ [q] }

/-- `CUR_VALID <- 0`: the diffusion state is invalidated (R58); the row buffers keep their unobservable contents
(R59). -/
def State.invalidate (s : State) : State := { s with curValid := false }

/-- A decode that has passed its preconditions invalidates the diffusion state before its first pixel (R58, R271, R310). The
mark tells the next `SETPIX` that the rows it finds are those of a decode (R246; log entry 25). -/
def State.beginRows (s : State) : State := { s.invalidate with rowsOfDecode := true }

/-! ### Retirement, failure, halt -/

/-- Retirement of every command but `NOP` and `RDCSR` (R151): `ERR <- rc`, `FAILS` when `rc` is not 0, and the count. -/
def State.retire (rc : Code) (s : State) : State :=
  { s with err := rc, fails := s.fails || decide (rc ≠ .ok), cmdcnt := s.cmdcnt + 1 }

/-- Retirement of `NOP` and `RDCSR` (R151): `STATUS` is left as it was. -/
def State.retireQuiet (s : State) : State := { s with cmdcnt := s.cmdcnt + 1 }

/-- A command ends with success. -/
def succeed (s : State) : Result := .next (s.retire .ok)

/-- `fail E_x` (R330): the command ends here and retires with its code; the next command runs. -/
def failWith (rc : Code) (s : State) : Result := .next (s.retire rc)

/-- `fail E_x` of a decode command: `R0 <- 0` first (R270, R331). -/
def failDecode (rc : Code) (s : State) : Result := failWith rc (s.setR0 0)

/-- A decode command ends with success: `R0 <- 1`, the diffusion state being left as the last `VIEW_SET` left it (R275). -/
def succeedDecode (s : State) : Result := succeed (s.setR0 1)

/-- `halt` (R335): an illegal command was taken. `HALTED <- 1`, nothing else: it does not retire and does not count. -/
def State.halt (s : State) : State := { s with halted := true, seq := .idle }

end Sys2Proof.Machine
end

