-- ==== Sys2Proof/Machine/Operands.lean ====
section
/-!
DEFINITION. Operand forms and data formats: the fields of `CTRL` and the CSR map (spec/10_state.md R40 to R53), the
surface layouts (spec/20_memory.md R83 to R86), the pixel formats of the stream decoders (spec/44_stream_decode.md
R281, R286, R290, R296), the progress word (R273) and the MCU geometry (spec/45_jpeg_mcu.md R312, R313).
-/

namespace Sys2Proof.Machine

/-! ### CTRL and the CSR map -/

/-- The quantizing-view variants of `CTRL.QMODE` (R44). -/
inductive QMode where
  | direct | lab | rgb
deriving DecidableEq, Repr

/-- The field `QMODE` of a `CTRL` value, bits 1:0 (R44). -/
def qmodeField (v : Word) : BitVec 2 := v.extractLsb' 0 2

/-- The variant a field value names (R44); 3 is reserved and no `CTRL` ever holds it. -/
def qmodeOf (f : BitVec 2) : QMode :=
  match f.toNat with
  | 0 => .direct
  | 1 => .lab
  | _ => .rgb

/-- `CTRL.QMODE`. -/
def State.qmode (s : State) : QMode := qmodeOf (qmodeField s.ctrl)

/-- `CTRL.PROGEN`, bit 2 (R44). -/
def State.progen (s : State) : Bool := s.ctrl.getLsbD 2

/-- `CTRL.SWAP565`, bit 3 (R44). -/
def State.swap565 (s : State) : Bool := s.ctrl.getLsbD 3

/-- `CTRL.VFIRST`, bit 4 (R44). -/
def State.vfirst (s : State) : Bool := s.ctrl.getLsbD 4

/-- A value that `CTRL` may hold: reserved bits 0 and `QMODE` not 3 (R44). -/
def ctrlLegal (v : Word) : Bool := v.extractLsb' 5 27 == 0 && qmodeField v != 3

/-- What `WRCSR ACC` stores: `min(v, 65536)` (R45). -/
def accStored (v : Word) : Word := if v.toNat ≤ 65536 then v else 65536

/-- The word `PALINFO` reads (R49). -/
def State.palInfo (s : State) : Word := 0#23 ++ flagBit s.mono ++ BitVec.ofNat 8 s.pal.length

/-- The word `DIFFROW` reads (R50). -/
def State.diffRow (s : State) : Word := if s.curValid then 0#15 ++ 1#1 ++ s.curRow else 0

/-- The word `SURFFMT` reads (R47). -/
def State.surfFmtWord (s : State) : Word :=
  match s.fmt with
  | .dense8 => 0
  | .pack4 => 1
  | .plane2 => 2

/-- The word `CAP2` reads (R51): `MROW_BYTES`; a free value when it does not fit 32 bits, where R10 and R51 leave the word
open (DESIGN CHOICE of form, log entry 24). -/
def Params.cap2Word (p : Params) : Word :=
  if p.mrowBytes < 2 ^ 32 then BitVec.ofNat 32 p.mrowBytes else Config.capOverflow p.mrowBytes

/-- The word a CSR number reads (R40 to R53); an unassigned number reads 0. `CAP2` of a buffer too large for 32 bits is
open in the spec: log entry 24. -/
def State.readCsr (n : Byte) (s : State) : Word :=
  match n.toNat with
  | 0x00 => Config.idWord
  | 0x01 => s.statusWord
  | 0x02 => s.cmdcnt
  | 0x03 => s.ctrl
  | 0x04 => s.acc
  | 0x05 => s.surfH ++ s.surfW
  | 0x06 => s.surfFmtWord
  | 0x07 => s.plut
  | 0x08 => s.palInfo
  | 0x09 => s.diffRow
  | 0x0A => BitVec.ofNat 32 s.params.fbBytes
  | 0x0B => BitVec.ofNat 16 s.params.lineMax ++ BitVec.ofNat 16 s.params.rowMax
  | 0x0C => s.params.cap2Word
  | 0x10 => s.r0
  | 0x11 => s.r1
  | 0x12 => s.r2
  | 0x13 => s.r3
  | _ => 0

/-! ### Surface layout -/

/-- `STRIDE` of R83, in bytes. -/
def strideOf (fmt : Fmt) (w : Nat) : Nat :=
  match fmt with
  | .dense8 => w
  | .pack4 => ceilDiv w 2
  | .plane2 => ceilDiv w 8

/-- `PLANEBYTES` of R83. -/
def planeBytesOf (fmt : Fmt) (w h : Nat) : Nat := strideOf fmt w * h

/-- `SURFBYTES` of R83. -/
def surfBytesOf (fmt : Fmt) (w h : Nat) : Nat :=
  match fmt with
  | .dense8 => planeBytesOf .dense8 w h
  | .pack4 => planeBytesOf .pack4 w h
  | .plane2 => 2 * planeBytesOf .plane2 w h

/-- `STRIDE` of the configured surface. -/
def State.stride (s : State) : Nat := strideOf s.fmt s.surfW.toNat

/-- `PLANEBYTES` of the configured surface. -/
def State.planeBytes (s : State) : Nat := planeBytesOf s.fmt s.surfW.toNat s.surfH.toNat

/-- `SURFBYTES` of the configured surface. -/
def State.surfBytes (s : State) : Nat := surfBytesOf s.fmt s.surfW.toNat s.surfH.toNat

/-- A coordinate pair is inside the surface (R82). -/
def State.inside (x y : Nat) (s : State) : Bool := x < s.surfW.toNat && y < s.surfH.toNat

/-- The address of the byte that holds pixel `(x, y)`: of its only byte in `DENSE8` and `PACK4`, of its plane B byte
in `PLANE2` (R84 to R86). The plane C byte is `PLANEBYTES` above it. -/
def State.pixelAddr (x y : Nat) (s : State) : Nat :=
  match s.fmt with
  | .dense8 => y * s.stride + x
  | .pack4 => y * s.stride + x / 2
  | .plane2 => y * s.stride + x / 8

/-- Byte number `k` of a `PLUT` word (R48). -/
def plutByte (plut : Word) (k : Nat) : Byte := plut.extractLsb' (8 * k) 8

/-- The least `k` in 0..3 whose `PLUT` byte is `v` (R212). -/
def plutFind (plut : Word) (v : Byte) : Option Nat := [0, 1, 2, 3].find? (fun k => plutByte plut k == v)

/-- The byte `o` with the nibble of pixel column `x` set to the low nibble of `v` (R85, R212). -/
def setNibble (x : Nat) (o v : Byte) : Byte :=
  if x % 2 = 0 then (o &&& 0x0F) ||| ((v &&& 0x0F) <<< 4) else (o &&& 0xF0) ||| (v &&& 0x0F)

/-- The nibble of pixel column `x` in the byte `o` (R85, R213). -/
def getNibble (x : Nat) (o : Byte) : Byte := if x % 2 = 0 then o >>> 4 else o &&& 0x0F

/-- The mask of pixel column `x` in a plane byte: most significant bit first (R86). -/
def planeMask (x : Nat) : Byte := 0x80#8 >>> (x % 8)

/-- The plane byte `o` with the bit of pixel column `x` set to `b` (R86, R212). -/
def setPlaneBit (x : Nat) (o : Byte) (b : Bool) : Byte := if b then o ||| planeMask x else o &&& ~~~planeMask x

/-- The bit of pixel column `x` in a plane byte (R86, R213). -/
def getPlaneBit (x : Nat) (o : Byte) : Bool := o.getLsbD (7 - x % 8)

/-! ### Pixel formats of the byte-stream decoders -/

/-- Byte `k` of a line buffer. -/
def lineByte (line : List Byte) (k : Nat) : Byte := line.getD k 0

/-- The two stream bytes of an RGB565 sample, put together as `SWAP565` says (R281). -/
def sample565 (swap : Bool) (b0 b1 : Byte) : Half := if swap then b1 ++ b0 else b0 ++ b1

/-- An RGB565 sample as a colour: each field moved to the top of its byte, low bits zero (R281). -/
def expand565 (v : Half) : RGB :=
  ⟨(v >>> 8).setWidth 8 &&& 0xF8, (v >>> 3).setWidth 8 &&& 0xFC, (v <<< 3).setWidth 8 &&& 0xF8⟩

/-- Pixel `x` of an RGB565 line (R280, R281). -/
def pixel565 (swap : Bool) (line : List Byte) (x : Nat) : RGB :=
  expand565 (sample565 swap (lineByte line (2 * x)) (lineByte line (2 * x + 1)))

/-- The floor of the mean of two bytes. -/
def mean2 (a b : Byte) : Byte := BitVec.ofNat 8 ((a.toNat + b.toNat) / 2)

/-- The floor of the mean of four bytes. -/
def mean4 (a b c d : Byte) : Byte := BitVec.ofNat 8 ((a.toNat + b.toNat + c.toNat + d.toNat) / 4)

/-- A pixel's luma and chroma. -/
structure YUV where
  y : Byte
  u : Byte
  v : Byte
deriving DecidableEq, Repr

/-- `YUV2RGB` of a pixel (R14). -/
def Params.yuv (p : Params) (c : YUV) : RGB := p.fromYuv c.y c.u c.v

/-- Pixel `x` of a YUYV line of `w` pixels: the channel that is not its own is the mean of its own group's sample and
the neighbouring group's, but for the first and the last column (R286). -/
def pixelYuyv (w : Nat) (line : List Byte) (x : Nat) : YUV :=
  let k := x / 2
  let uk := lineByte line (4 * k + 1)
  let vk := lineByte line (4 * k + 3)
  if x % 2 = 0 then
    ⟨lineByte line (2 * x), uk, if x = 0 then vk else mean2 (lineByte line (4 * (k - 1) + 3)) vk⟩
  else
    ⟨lineByte line (2 * x), if x + 1 = w then uk else mean2 uk (lineByte line (4 * (k + 1) + 1)), vk⟩

/-- Output pixel `i` of a pair of YUYV lines of `w` pixels, the first `2w` bytes of `lines` being the upper one: the
means over the 2×2 block (R290). -/
def pixelYuyvh (w : Nat) (lines : List Byte) (i : Nat) : YUV :=
  let hi := fun k => lineByte lines k
  let lo := fun k => lineByte lines (2 * w + k)
  ⟨mean4 (hi (4 * i)) (hi (4 * i + 2)) (lo (4 * i)) (lo (4 * i + 2)),
   mean2 (hi (4 * i + 1)) (lo (4 * i + 1)),
   mean2 (hi (4 * i + 3)) (lo (4 * i + 3))⟩

/-- Row `y` of a three-line image carries U (R296). -/
def isURow (vfirst : Bool) (y : Nat) : Bool := (y % 2 == 0) == !vfirst

/-- The chroma sample of the other kind for column `x`: the mean of the lines above and below, or the one there is
(R295). -/
def otherChroma (above below : Option (List Byte)) (x : Nat) : Byte :=
  match above, below with
  | some a, some b => mean2 (lineByte a (2 * x + 1)) (lineByte b (2 * x + 1))
  | none, some b => lineByte b (2 * x + 1)
  | some a, none => lineByte a (2 * x + 1)
  | none, none => 0

/-- Pixel `x` of the pending line of a three-line image (R295). -/
def pixelYuv3l (isU : Bool) (pend : List Byte) (above below : Option (List Byte)) (x : Nat) : YUV :=
  let n := lineByte pend (2 * x + 1)
  let o := otherChroma above below x
  if isU then ⟨lineByte pend (2 * x), n, o⟩ else ⟨lineByte pend (2 * x), o, n⟩

/-- The progress word of row `r` of `n` (R273): the row number, and `floor(r * 65536 / n)`. -/
def progressWord (r n : Nat) : Word := BitVec.ofNat 16 r ++ BitVec.ofNat 16 (r * 65536 / n)

/-! ### MCU geometry -/

/-- The scan type of a code (R312); a code above 4 is none of the five. -/
def scanOf (code : Byte) : Option ScanType :=
  match code.toNat with
  | 0 => some .gray
  | 1 => some .h1v1
  | 2 => some .h2v1
  | 3 => some .h1v2
  | 4 => some .h2v2
  | _ => none

/-- `MCUW` (R312). -/
def ScanType.mcuW : ScanType → Nat
  | .gray | .h1v1 | .h1v2 => 8
  | .h2v1 | .h2v2 => 16

/-- `MCUH` (R312). -/
def ScanType.mcuH : ScanType → Nat
  | .gray | .h1v1 | .h2v1 => 8
  | .h1v2 | .h2v2 => 16

/-- `OFF(px, py)` (R313). -/
def planeOffset (px py : Nat) : Nat := (py / 8 * 2 + px / 8) * 64 + py % 8 * 8 + px % 8

/-- Byte `o` of a sample plane. -/
def planeByte (p : Vector Byte 256) (o : Nat) : Byte := p.toList.getD o 0

/-- Pixel `(px, py)` of an MCU: the one plane three times for `GRAY`, the three planes else (R310, R313). -/
def mcuPixel (scan : ScanType) (m : McuAnswer) (px py : Nat) : RGB :=
  let o := planeOffset px py
  if scan = .gray then ⟨planeByte m.p0 o, planeByte m.p0 o, planeByte m.p0 o⟩
  else ⟨planeByte m.p0 o, planeByte m.p1 o, planeByte m.p2 o⟩

/-- The rows of an MCU, top to bottom, each left to right: the copy routine of its scan type (R310, R314). -/
def mcuRows (scan : ScanType) (m : McuAnswer) : List (List RGB) :=
  (List.range scan.mcuH).map (fun py => (List.range scan.mcuW).map (fun px => mcuPixel scan m px py))

end Sys2Proof.Machine
end

