-- ==== Sys2Proof/Machine/Palette.lean ====
section
/-!
DEFINITION. The palette table and its commands (spec/41_palette.md): the lookups `FIND_INDEX` and `FIND_NAME`, the
entry builder `MKENTRY`, the search `NEAREST`, and the eight palette commands.
-/

namespace Sys2Proof.Machine

/-! ### Helpers -/

/-- `FIND_INDEX(i)`: the first entry in storage order with that index (R170). -/
def findIndex (pal : List PalEntry) (i : Byte) : Option PalEntry := pal.find? (fun e => e.index == i)

/-- `FIND_NAME(n)`: the first entry in storage order with that name (R170). -/
def findName (pal : List PalEntry) (n : Byte) : Option PalEntry := pal.find? (fun e => e.name == n)

/-- The grey colour of a level. -/
def grayRgb (g : Byte) : RGB := ⟨g, g, g⟩

/-- `MKENTRY(name, index, rgb, mono)` (R171). -/
def mkEntry (p : Params) (mono : Bool) (name index : Byte) (c : RGB) : PalEntry :=
  let lab := p.toLab c
  if mono then ⟨name, index, grayRgb (p.toGray lab.L), ⟨lab.L, 0, 0⟩⟩ else ⟨name, index, c, lab⟩

/-- The exact difference of two LabNum words. -/
def labDiff (x y : LabNum) : Int := x.toInt - y.toInt

/-- The distance of R173: squared Euclidean in Lab, or the absolute L difference in monochrome mode; exact. -/
def labDist (mono : Bool) (c e : Lab) : Nat :=
  if mono then (labDiff c.L e.L).natAbs
  else (labDiff c.L e.L).natAbs ^ 2 + (labDiff c.a e.a).natAbs ^ 2 + (labDiff c.b e.b).natAbs ^ 2

/-- The scan of `NEAREST` from storage position `p` on, `best` being the best position, entry and distance so far: a
later entry wins only when it is strictly nearer (R173). -/
def nearestScan (mono : Bool) (c : Lab) :
    List PalEntry → Nat → Option (Nat × PalEntry × Nat) → Option (Nat × PalEntry × Nat)
  | [], _, best => best
  | e :: es, p, none => nearestScan mono c es (p + 1) (some (p, e, labDist mono c e.lab))
  | e :: es, p, some (q, f, d) =>
    if labDist mono c e.lab < d then nearestScan mono c es (p + 1) (some (p, e, labDist mono c e.lab))
    else nearestScan mono c es (p + 1) (some (q, f, d))

/-- The nearest palette entry to a colour and its storage position (R173); none when the palette is empty. -/
def State.nearestEntry (c : Lab) (s : State) : Option (Nat × PalEntry) :=
  match nearestScan s.mono c s.pal 0 none with
  | none => none
  | some (p, e, _) => some (p, e)

/-- What `NEAREST` returns (R173): the entry found, with its storage position, its index, and the residual. -/
structure Nearest where
  found : Option (Nat × PalEntry)
  index : Byte
  resid : Err3
deriving DecidableEq, Repr

/-- The values `NEAREST(c)` returns (R173). -/
def State.nearest (c : Lab) (s : State) : Nearest :=
  match s.nearestEntry c with
  | none => ⟨none, Config.notFoundIndex, Lab.zero⟩
  | some (p, e) =>
    ⟨some (p, e), e.index, sat32Triple (labDiff c.L e.lab.L) (labDiff c.a e.lab.a) (labDiff c.b e.lab.b)⟩

/-- The flags `NEAREST(c)` sets (R173): `NOTFOUND` on an empty palette, `SAT` when a residual component saturates. -/
def State.nearestFlags (c : Lab) (s : State) : State :=
  match s.nearestEntry c with
  | none => s.noteNotFound
  | some (_, e) =>
    s.noteSat (saturatesTriple (labDiff c.L e.lab.L) (labDiff c.a e.lab.a) (labDiff c.b e.lab.b))

/-! ### PAL_LOAD -/

/-- Two entries of a list share an index (R172). -/
def hasDupIndex : List PalSpec → Bool
  | [] => false
  | e :: es => es.any (fun f => f.index == e.index) || hasDupIndex es

/-- The table replaced as a whole (R55). -/
def State.setPalette (pal : List PalEntry) (mono : Bool) (s : State) : State := { s with pal := pal, mono := mono }

/-- `PAL_LOAD mono, entries` (R172). A refused load leaves the palette empty. -/
def execPalLoad (mono : Bool) (entries : List PalSpec) (s : State) : Result :=
  if entries.length > Config.palMax then failWith .palSize (s.setPalette [] false)
  else if hasDupIndex entries then failWith .palDup (s.setPalette [] false)
  else succeed (s.setPalette (entries.map (fun e => mkEntry s.params mono e.name e.index e.rgb)) mono)

/-! ### Nearest-colour queries -/

/-- `NEAR_LAB L, a, b` (R174). -/
def execNearLab (c : Lab) (s : State) : Result :=
  let n := s.nearest c
  succeed (((s.nearestFlags c).setR0 (n.index.setWidth 32)).setR123 n.resid)

/-- `NEAR_RGB r, g, b` (R175): the residual is discarded. -/
def execNearRgb (c : RGB) (s : State) : Result :=
  let lab := s.params.toLab c
  succeed ((s.nearestFlags lab).setR0 ((s.nearest lab).index.setWidth 32))

/-! ### Lookups -/

/-- An RGB colour packed into a word, `{0, r, g, b}` (R176). -/
def packRgb (c : RGB) : Word := 0#8 ++ c.r ++ c.g ++ c.b

/-- `TORGB index` (R176). -/
def execTorgb (index : Byte) (s : State) : Result :=
  match findIndex s.pal index with
  | none => succeed (s.noteNotFound.setR0 0)
  | some e => succeed (s.setR0 (packRgb e.rgb))

/-- `TOLAB index` (R177). -/
def execTolab (index : Byte) (s : State) : Result :=
  match findIndex s.pal index with
  | none => succeed (s.noteNotFound.setR123 Lab.zero)
  | some e => succeed (s.setR123 e.lab)

/-- `INDEXOF name` (R178): the sentinel `CLEAN` answers `PAL_N` when no entry has that name. -/
def execIndexof (name : Byte) (s : State) : Result :=
  match findName s.pal name with
  | some e => succeed (s.setR0 (e.index.setWidth 32))
  | none =>
    if name = Config.nameClean then succeed (s.setR0 (BitVec.ofNat 32 s.pal.length))
    else succeed (s.noteNotFound.setR0 (Config.notFoundIndex.setWidth 32))

/-! ### Renormalisation -/

/-- One endpoint of a rescaling: the value at the pinned entry, which must exist, or the default (R180, R181). -/
def pinned {α : Type} (pin : Bool) (pal : List PalEntry) (name : Byte) (value : PalEntry → α) (dflt : α) : Option α :=
  if pin then (findName pal name).map value else some dflt

/-- One channel rescaled by the affine map that takes `lo` to 0 and `hi` to 255 (R180). -/
def rescaleChannel (lo hi c : Byte) : Byte :=
  clamp8 (tdiv (((c.toNat : Int) - lo.toNat) * 255) ((hi.toNat : Int) - lo.toNat))

/-- Every channel of a colour rescaled (R180). -/
def rescaleRgb (lo hi c : RGB) : RGB :=
  ⟨rescaleChannel lo.r hi.r c.r, rescaleChannel lo.g hi.g c.g, rescaleChannel lo.b hi.b c.b⟩

/-- The high endpoint is above the low one in every channel (R180). -/
def rgbRangeOk (lo hi : RGB) : Bool :=
  lo.r.toNat < hi.r.toNat && lo.g.toNat < hi.g.toNat && lo.b.toNat < hi.b.toNat

/-- `NORM_RGB pinBlack, pinWhite` (R180). -/
def execNormRgb (pinBlack pinWhite : Bool) (s : State) : Result :=
  match pinned pinBlack s.pal Config.nameBlack (·.rgb) ⟨0, 0, 0⟩,
        pinned pinWhite s.pal Config.nameWhite (·.rgb) ⟨255, 255, 255⟩ with
  | some lo, some hi =>
    if rgbRangeOk lo hi then
      succeed (s.setPalette
        (s.pal.map (fun e => mkEntry s.params s.mono e.name e.index (rescaleRgb lo hi e.rgb))) s.mono)
    else failWith .pin s
  | _, _ => failWith .pin s

/-- `L = 100` as a LabNum (R12). -/
def labHundred : Int := 6553600

/-- A lightness rescaled by the affine map that takes `lo` to 0 and `hi` to 100 (R181). -/
def rescaleL (lo hi : Int) (l : LabNum) : LabNum :=
  BitVec.ofInt 32 (clamp (tdiv ((l.toInt - lo) * labHundred) (hi - lo)) 0 labHundred)

/-- One entry rebuilt by `NORM_LAB` (R181). -/
def normLabEntry (p : Params) (mono : Bool) (lo hi : Int) (e : PalEntry) : PalEntry :=
  let lab : Lab := ⟨rescaleL lo hi e.lab.L, e.lab.a, e.lab.b⟩
  ⟨e.name, e.index, if mono then grayRgb (p.toGray lab.L) else p.toRgb lab, lab⟩

/-- `NORM_LAB pinBlack, pinWhite` (R181). -/
def execNormLab (pinBlack pinWhite : Bool) (s : State) : Result :=
  match pinned pinBlack s.pal Config.nameBlack (fun e => e.lab.L.toInt) 0,
        pinned pinWhite s.pal Config.nameWhite (fun e => e.lab.L.toInt) labHundred with
  | some lo, some hi =>
    if lo < hi then succeed (s.setPalette (s.pal.map (normLabEntry s.params s.mono lo hi)) s.mono)
    else failWith .pin s
  | _, _ => failWith .pin s

end Sys2Proof.Machine
end

