-- ==== Sys2Proof/Machine/Surface.lean ====
section
/-!
DEFINITION. The surface commands (spec/42_surface.md): the pixel access helpers `SURF_SET` and `SURF_GET`, and
`SURF_CFG`, `SETIDX`, `GETIDX`, `FLUSH`, `RDFB`.
-/

namespace Sys2Proof.Machine

/-- `SURF_SET(x, y, v)` (R212). Out of bounds it does nothing (R100); in `PLANE2` an index not in `PLUT` is not
written; plane B is written before plane C (R90). -/
def State.surfSet (x y : Nat) (v : Byte) (s : State) : State :=
  if s.inside x y then
    let a := s.pixelAddr x y
    match s.fmt with
    | .dense8 => s.memWrite a v
    | .pack4 => s.memWrite a (setNibble x (s.memRead a) v)
    | .plane2 =>
      match plutFind s.plut v with
      | none => s
      | some k =>
        let c := a + s.planeBytes
        let t := s.memWrite a (setPlaneBit x (s.memRead a) (k % 2 == 1))
        t.memWrite c (setPlaneBit x (t.memRead c) (k / 2 == 1))
  else s

/-- `SURF_GET(x, y)` (R213). Out of bounds it returns 0 (R100). -/
def State.surfGet (x y : Nat) (s : State) : Byte :=
  if s.inside x y then
    let a := s.pixelAddr x y
    match s.fmt with
    | .dense8 => s.memRead a
    | .pack4 => getNibble x (s.memRead a)
    | .plane2 =>
      let b := getPlaneBit x (s.memRead a)
      let c := getPlaneBit x (s.memRead (a + s.planeBytes))
      plutByte s.plut (b.toNat + 2 * c.toNat)
  else 0

/-- Bytes 0 to `n - 1` of `FB` and of `FBC` become 0 (R210). -/
def State.zeroFill (n : Nat) (s : State) : State :=
  { s with fb := sparseClear n s.fb, fbc := sparseClear n s.fbc }

/-- `SURF_CFG fmt, W, H, plut` (R210). -/
def execSurfCfg (fmt : Fmt) (w h : Half) (plut : Word) (s : State) : Result :=
  let need := surfBytesOf fmt w.toNat h.toNat
  if s.params.rowMax < w.toNat ∨ s.params.fbBytes < need then failWith .size s
  else succeed ({ s with fmt := fmt, surfW := w, surfH := h, plut := plut }.zeroFill need).invalidate

/-- `SETIDX x, y, v` (R214). -/
def execSetidx (x y : Half) (v : Byte) (s : State) : Result := succeed (s.surfSet x.toNat y.toNat v)

/-- `GETIDX x, y` (R215). -/
def execGetidx (x y : Half) (s : State) : Result := succeed (s.setR0 ((s.surfGet x.toNat y.toNat).setWidth 32))

/-- `FLUSH` (R216, R95): the surface bytes of `FB` go to `FBC`. -/
def execFlush (s : State) : Result := succeed { s with fbc := sparseCopy s.surfBytes s.fb s.fbc }

/-- `RDFB addr` (R217): a byte of `FB`, or 0 at or above `SURFBYTES`. -/
def execRdfb (addr : BitVec 24) (s : State) : Result :=
  if addr.toNat < s.surfBytes then succeed (s.setR0 ((s.memRead addr.toNat).setWidth 32)) else succeed (s.setR0 0)

end Sys2Proof.Machine
end

