-- ==== Sys2Proof/Machine/Quantize.lean ====
section
/-!
DEFINITION. The quantizing view and error diffusion (spec/43_quantize.md): `VIEW_SET` with `ROWMGMT`, `LABSTEP`,
`RGBSTEP` and `DIFFUSE`, and the commands `SETPIX`, `DIFF_RESET`, `RDROW`.
-/

namespace Sys2Proof.Machine

/-- `ROWMGMT(y)` (R241). -/
def State.rowMgmt (y : Nat) (s : State) : State :=
  let w := s.surfW.toNat
  if s.curValid && y == s.curRow.toNat then s
  else if s.curValid && y == s.curRow.toNat + 1 then
    { s with
      thisRow := sparseCopy w s.nextRow s.thisRow
      nextRow := sparseClear w s.nextRow
      curRow := BitVec.ofNat 16 y }
  else
    { s with
      thisRow := sparseClear w s.thisRow
      nextRow := sparseClear w s.nextRow
      curRow := BitVec.ofNat 16 y
      curValid := true }

/-- One weighted part of an error component: `tdiv(e * k, 16)` (R244). -/
def errPart (e : LabNum) (k : Int) : Int := tdiv (e.toInt * k) 16

/-- `ADD3(cell, err, k)` (R244). -/
def add3 (cell err : Err3) (k : Int) : Err3 :=
  sat32Triple (cell.L.toInt + errPart err.L k) (cell.a.toInt + errPart err.a k) (cell.b.toInt + errPart err.b k)

/-- `ADD3` saturates a component. -/
def add3Saturates (cell err : Err3) (k : Int) : Bool :=
  saturatesTriple (cell.L.toInt + errPart err.L k) (cell.a.toInt + errPart err.a k) (cell.b.toInt + errPart err.b k)

/-- `THIS[x] <- ADD3(THIS[x], err, k)`. -/
def State.addThis (x : Nat) (err : Err3) (k : Int) (s : State) : State :=
  { s with thisRow := s.thisRow.setEntry x (add3 (s.thisRow.entry x) err k) }.noteSat
    (add3Saturates (s.thisRow.entry x) err k)

/-- `NEXT[x] <- ADD3(NEXT[x], err, k)`. -/
def State.addNext (x : Nat) (err : Err3) (k : Int) (s : State) : State :=
  { s with nextRow := s.nextRow.setEntry x (add3 (s.nextRow.entry x) err k) }.noteSat
    (add3Saturates (s.nextRow.entry x) err k)

/-- An operation done only when a condition holds. -/
def State.onlyIf (p : Bool) (f : State → State) (s : State) : State := if p then f s else s

/-- `DIFFUSE(x, y, err)` (R244): the four weighted parts, each only where its target is in range. -/
def State.diffuse (x y : Nat) (err : Err3) (s : State) : State :=
  let right := decide (x + 1 < s.surfW.toNat)
  let down := decide (y + 1 < s.surfH.toNat)
  (((s.onlyIf right (State.addThis (x + 1) err 7)).onlyIf (down && right) (State.addNext (x + 1) err 1)).onlyIf
    (down && decide (1 ≤ x)) (State.addNext (x - 1) err 3)).onlyIf down (State.addNext x err 5)

/-- One component of the attenuated accumulated error: `tdiv(THIS[x].c * ACC, 65536)` (R13, R243). -/
def attenuate (acc : Word) (e : LabNum) : Int := tdiv (e.toInt * acc.toNat) 65536

/-- The adjusted colour of `LABSTEP`, before saturation, component by component (R243). -/
def State.adjusted (x : Nat) (c : Lab) (s : State) : Int × Int × Int :=
  let e := s.thisRow.entry x
  (c.L.toInt + attenuate s.acc e.L, c.a.toInt + attenuate s.acc e.a, c.b.toInt + attenuate s.acc e.b)

/-- `LABSTEP(x, y, rgb)` (R243). -/
def State.labStep (x y : Nat) (c : RGB) (s : State) : State :=
  let (l, a, b) := s.adjusted x (s.params.toLab c)
  let adj := sat32Triple l a b
  let n := s.nearest adj
  (((s.noteSat (saturatesTriple l a b)).nearestFlags adj).surfSet x y n.index).diffuse x y n.resid

/-- One channel of the desired colour of `RGBSTEP` (R245). -/
def desiredChannel (c : Byte) (e : LabNum) : Byte := clamp8 (c.toNat + e.toInt)

/-- The desired colour of `RGBSTEP` (R245). -/
def State.desired (x : Nat) (c : RGB) (s : State) : RGB :=
  let e := s.thisRow.entry x
  ⟨desiredChannel c.r e.L, desiredChannel c.g e.a, desiredChannel c.b e.b⟩

/-- The difference of two channels as an `s32`. -/
def channelError (d c : Byte) : LabNum := BitVec.ofInt 32 ((d.toNat : Int) - c.toNat)

/-- The error of `RGBSTEP`: the desired colour less the chosen entry's stored RGB, or zero when nothing is chosen
(R245). -/
def rgbError (d : RGB) : Option (Nat × PalEntry) → Err3
  | none => Lab.zero
  | some (_, e) => ⟨channelError d.r e.rgb.r, channelError d.g e.rgb.g, channelError d.b e.rgb.b⟩

/-- `RGBSTEP(x, y, rgb)` (R245). -/
def State.rgbStep (x y : Nat) (c : RGB) (s : State) : State :=
  let des := s.desired x c
  let lab := s.params.toLab des
  let n := s.nearest lab
  ((s.nearestFlags lab).surfSet x y n.index).diffuse x y (rgbError des n.found)

/-- `VIEW_SET(x, y, rgb)` (R240). -/
def State.viewSet (x y : Nat) (c : RGB) (s : State) : State :=
  if s.inside x y then
    match s.qmode with
    | .direct =>
      let lab := s.params.toLab c
      (s.nearestFlags lab).surfSet x y (s.nearest lab).index
    | .lab => (s.rowMgmt y).labStep x y c
    | .rgb => (s.rowMgmt y).rgbStep x y c
  else s

/-- `VIEW_SET` of the colours of a row, from column `x` on, left to right (R274). -/
def State.viewRow (y : Nat) : Nat → List RGB → State → State
  | _, [], s => s
  | x, c :: cs, s => State.viewRow y (x + 1) cs (s.viewSet x y c)

/-- What `SETPIX` finds in the row buffers. The first one after a decode that sets a pixel in a diffusion mode starts a fresh
pair of rows at its `y` (a corner case of R246; log entry 25); every other one leaves them to `ROWMGMT`. -/
def State.openRows (x y : Nat) (s : State) : State :=
  if s.rowsOfDecode && s.inside x y && decide (s.qmode ≠ .direct) then { s.invalidate with rowsOfDecode := false } else s

/-- `SETPIX x, y, r, g, b` (R246). -/
def execSetpix (x y : Half) (c : RGB) (s : State) : Result :=
  succeed ((s.openRows x.toNat y.toNat).viewSet x.toNat y.toNat c)

/-- `DIFF_RESET` (R250). -/
def execDiffReset (s : State) : Result := succeed s.invalidate

/-- `RDROW sel, x` (R251): `sel` chooses `NEXT`. -/
def execRdrow (sel : Bool) (x : Half) (s : State) : Result :=
  if s.curValid ∧ x.toNat < s.surfW.toNat then
    succeed (s.setR123 (if sel then s.nextRow.entry x.toNat else s.thisRow.entry x.toNat))
  else succeed (s.setR123 Lab.zero)

end Sys2Proof.Machine
end

