-- ==== Sys2Proof/Machine/Stream.lean ====
section
/-!
DEFINITION. The four byte-stream decoders (spec/44_stream_decode.md). A decode runs as far as the ByteSource's answers
go: it retires when they suffice, and waits, with everything done so far in the state, when one is missing (R272,
R385). `resumeTotal` and `resumeRead` go on from a wait.
-/

namespace Sys2Proof.Machine

/-! ### READLINE -/

/-- How a `READLINE` ends (R272), or where it waits. -/
inductive LineRead where
  /-- The line is full. -/
  | full (line : List Byte)
  /-- The ByteSource answered 0 bytes (R351: permanent failure). -/
  | dead
  /-- A request is out and its answer has not come; these bytes of the line are there. -/
  | waiting (got : List Byte)
  /-- The ByteSource broke the protocol (93_implementation_defined.md U3). -/
  | broken
deriving DecidableEq, Repr

/-- The size of the next request: no more than the ceiling, no more than the line still needs (R272). -/
def requestSize (ceiling n got : Nat) : Nat := min ceiling (n - got)

/-- An answer to a request of `m` bytes that keeps the protocol (R351). -/
def answerOk (m : Nat) (a : ReadAnswer) : Bool := a.count ≤ m && a.bytes.length == a.count

/-- `READLINE` of `n` bytes (R272): the bytes so far are `got`; `asked` says that a request is already out. It gives
how it ends, the answers left, and the requests it issued. -/
def readLine (ceiling n : Nat) : List ReadAnswer → Bool → List Byte → LineRead × List ReadAnswer × List PortReq
  | [], asked, got =>
    if n ≤ got.length then (.full got, [], [])
    else (.waiting got, [], if asked then [] else [.tryRead (requestSize ceiling n got.length)])
  | a :: rest, asked, got =>
    if n ≤ got.length then (.full got, a :: rest, [])
    else
      let m := requestSize ceiling n got.length
      let req := if asked then [] else [PortReq.tryRead m]
      if !answerOk m a then (.broken, a :: rest, req)
      else if a.count = 0 then (.dead, rest, req)
      else
        let next := readLine ceiling n rest false (got ++ a.bytes)
        (next.1, next.2.1, req ++ next.2.2)

/-! ### The contract common to the four decoders -/

/-- `LINEBYTES`: what one `READLINE` of a decoder asks for (R272). -/
def StreamKind.lineBytes (k : StreamKind) (w : Nat) : Nat :=
  match k with
  | .rgb565 | .yuyv | .yuv3l => 2 * w
  | .yuyvh => 4 * w

/-- The greatest single request of a decoder (R11, R272). -/
def StreamKind.ceiling : StreamKind → Nat
  | .rgb565 => Config.ceilingRgb565
  | .yuyv | .yuyvh | .yuv3l => Config.ceilingYuv

/-- How many `READLINE`s a frame of height `h` takes, which is also its number of output rows (R290 for the half
resolution). -/
def StreamKind.rows (k : StreamKind) (h : Nat) : Nat :=
  match k with
  | .rgb565 | .yuyv | .yuv3l => h
  | .yuyvh => h / 2

/-- The output width of a frame of width `w` (R274). -/
def StreamKind.outWidth (k : StreamKind) (w : Nat) : Nat :=
  match k with
  | .rgb565 | .yuyv | .yuv3l => w
  | .yuyvh => w / 2

/-- The parity precondition (R271 (2)). -/
def StreamKind.parityOk (k : StreamKind) (w h : Nat) : Bool :=
  match k with
  | .rgb565 | .yuv3l => true
  | .yuyv => w % 2 == 0
  | .yuyvh => w % 2 == 0 && h % 2 == 0

/-- The height precondition (R271 (3)). -/
def StreamKind.heightOk (k : StreamKind) (h : Nat) : Bool :=
  match k with
  | .rgb565 | .yuyv | .yuyvh => true
  | .yuv3l => 2 ≤ h

/-- `PROGRESS(r, n)` (R273): pushed only when `CTRL.PROGEN` is 1. -/
def State.progress (r n : Nat) (s : State) : State := if s.progen then s.pushProg (progressWord r n) else s

/-- `cw`, the clipped width (R274). -/
def State.clipW (ow : Nat) (s : State) : Nat := min ow s.surfW.toNat

/-- `ch`, the clipped height (R274). -/
def State.clipH (oh : Nat) (s : State) : Nat := min oh s.surfH.toNat

/-- Output row `y` set through the view, if it is inside the clip: `pixel x` for each column of the clip (R274). -/
def State.emitRow (ow oh y : Nat) (pixel : Nat → RGB) (s : State) : State :=
  if y < s.clipH oh then s.viewRow y 0 ((List.range (s.clipW ow)).map pixel) else s

/-- `EMIT(y, pend, above, below)` of `DEC_YUV3L` (R295): the progress word of the row, then its pixels. -/
def State.emit3l (w h y : Nat) (pend : List Byte) (above below : Option (List Byte)) (s : State) : State :=
  (s.progress y h).emitRow w h y (fun x => s.params.yuv (pixelYuv3l (isURow s.vfirst y) pend above below x))

/-- What a decoder does before it reads line `y`: the progress word of the row, but for `DEC_YUV3L`, whose rows are
emitted later (R280, R285, R290, R295). -/
def State.beforeLine (k : StreamKind) (h y : Nat) (s : State) : State :=
  match k with
  | .rgb565 | .yuyv => s.progress y h
  | .yuyvh => s.progress y (h / 2)
  | .yuv3l => s

/-- What a decoder does when line `y` has been read into `line0`; `line1` and `line2` are the two lines before it
(R280, R285, R290, R295). -/
def State.afterLine (k : StreamKind) (w h y : Nat) (line0 line1 line2 : List Byte) (s : State) : State :=
  match k with
  | .rgb565 => s.emitRow w h y (pixel565 s.swap565 line0)
  | .yuyv => s.emitRow w h y (fun x => s.params.yuv (pixelYuyv w line0 x))
  | .yuyvh => s.emitRow (w / 2) (h / 2) y (fun i => s.params.yuv (pixelYuyvh w line0 i))
  | .yuv3l =>
    if y = 0 then s
    else if y = 1 then s.emit3l w h 0 line1 none (some line0)
    else s.emit3l w h (y - 1) line1 (some line2) (some line0)

/-- What a decoder does after its last line: `DEC_YUV3L` emits the last row (R295). -/
def State.afterFrame (k : StreamKind) (w h : Nat) (last before : List Byte) (s : State) : State :=
  match k with
  | .rgb565 | .yuyv | .yuyvh => s
  | .yuv3l => s.emit3l w h (h - 1) last (some before) none

/-- The state after a `READLINE`: the answers left and the requests issued. -/
def State.afterRead (rest : List ReadAnswer) (reqs : List PortReq) (s : State) : State :=
  { s with bsReads := rest, reqs := s.reqs ++ reqs }

/-- The line loop of a decoder: `left` lines are to be read, the next is line `y`; `line1` and `line2` are the two
lines before it; `pend` holds the bytes of line `y` that a wait has left, its progress word being pushed already. -/
def runLines (k : StreamKind) (w h : Half) :
    Nat → Nat → Option (List Byte) → List Byte → List Byte → State → Result
  | 0, _, _, line1, line2, s => succeedDecode (s.afterFrame k w.toNat h.toNat line1 line2)
  | left + 1, y, pend, line1, line2, s =>
    let t := if pend.isSome then s else s.beforeLine k h.toNat y
    let r := readLine k.ceiling (k.lineBytes w.toNat) t.bsReads pend.isSome (pend.getD [])
    let u := t.afterRead r.2.1 r.2.2
    match r.1 with
    | .full line => runLines k w h left (y + 1) none line line1 (u.afterLine k w.toNat h.toNat y line line1 line2)
    | .dead => failDecode .io u
    | .waiting got => .next { u with seq := .awaitRead ⟨k, w, h, y, got, line1, line2⟩ }
    | .broken => .refused .byteSourceProtocol

/-- The first precondition of R271 that fails, in its order, for a `totalAvailable` answer. -/
def streamPrecondition (p : Params) (k : StreamKind) (w h : Half) (total : Word) : Option Code :=
  if total.toNat ≠ w.toNat * h.toNat * 2 then some .count
  else if !k.parityOk w.toNat h.toNat then some .odd
  else if !k.heightOk h.toNat then some .dim
  else if p.lineMax < w.toNat then some .size
  else none

/-- A byte-stream decode once `totalAvailable` has answered (R271): the preconditions, then the lines. The diffusion state is
invalidated here, at the start, and nowhere later in a decode (R58, R271): at the end it is as the last `VIEW_SET` left it
(R275). -/
def runStream (k : StreamKind) (w h : Half) (total : Word) (s : State) : Result :=
  match streamPrecondition s.params k w h total with
  | some rc => failDecode rc s
  | none => runLines k w h (k.rows h.toNat) 0 none [] [] s.beginRows

/-- A byte-stream decode that waits for, or finds, the answer to `totalAvailable`. -/
def resumeTotal (k : StreamKind) (w h : Half) (s : State) : Result :=
  match s.bsTotals with
  | [] => .next { s with seq := .awaitTotal k w h }
  | total :: rest => runStream k w h total { s with bsTotals := rest }

/-- A byte-stream decode goes on from a wait inside `READLINE`. -/
def resumeRead (j : StreamJob) (s : State) : Result :=
  runLines j.kind j.w j.h (j.kind.rows j.h.toNat - j.row) j.row (some j.line0) j.line1 j.line2 s

/-- A byte-stream decode starts: `totalAvailable` is requested exactly once, first of all (R271). -/
def startStream (k : StreamKind) (w h : Half) (s : State) : Result := resumeTotal k w h (s.request .totalAvailable)

/-! ### The commands -/

/-- `DEC_RGB565 width, height` (R280). -/
def execDecRgb565 (w h : Half) (s : State) : Result := startStream .rgb565 w h s

/-- `DEC_YUYV width, height` (R285). -/
def execDecYuyv (w h : Half) (s : State) : Result := startStream .yuyv w h s

/-- `DEC_YUYVH width, height` (R290). -/
def execDecYuyvh (w h : Half) (s : State) : Result := startStream .yuyvh w h s

/-- `DEC_YUV3L width, height` (R295). -/
def execDecYuv3l (w h : Half) (s : State) : Result := startStream .yuv3l w h s

end Sys2Proof.Machine
end

