-- ==== Sys2Proof/Machine/Jpeg.lean ====
section
/-!
DEFINITION. The baseline-JPEG MCU unpacker (spec/45_jpeg_mcu.md): `DEC_JPEG`. As the byte-stream decoders it runs as
far as the block decoder's answers go and waits where one is missing.
-/

namespace Sys2Proof.Machine

/-- `MPR`: MCUs per MCU row (R316). -/
def mcusPerRow (scan : ScanType) (w : Nat) : Nat := ceilDiv w scan.mcuW

/-- `MPC`: MCU rows (R316). -/
def mcuRowCount (scan : ScanType) (h : Nat) : Nat := ceilDiv h scan.mcuH

/-- The bytes the MCU-row buffer needs: `RW * MCUH * 3` (R310, R315). -/
def mrowNeed (scan : ScanType) (w : Nat) : Nat := scan.mcuW * mcusPerRow scan w * scan.mcuH * 3

/-- An empty MCU-row buffer: `MCUH` rows, no column filled. -/
def emptyMrow (scan : ScanType) : List (List RGB) := List.replicate scan.mcuH []

/-- The MCU-row buffer with one more MCU to the right (R310). -/
def addMcu (scan : ScanType) (m : McuAnswer) (mrow : List (List RGB)) : List (List RGB) :=
  List.zipWith (· ++ ·) mrow (mcuRows scan m)

/-- How the MCUs of one MCU row come in. -/
inductive McuRead where
  /-- All have come. -/
  | full (mrow : List (List RGB))
  /-- The block decoder reported an error (R311). -/
  | error (code : Byte)
  /-- A request is out and its answer has not come: the number of the MCU awaited, and the buffer so far. -/
  | waiting (mx : Nat) (mrow : List (List RGB))
deriving DecidableEq, Repr

/-- The `mx` loop of R310: `left` MCUs of the row are to come, the next is number `mx`; `asked` says that a request is
already out. It gives how it ends, the answers left, and the requests it issued. -/
def readMcus (scan : ScanType) :
    Nat → Nat → Bool → List (List RGB) → List McuAnswer → McuRead × List McuAnswer × List PortReq
  | 0, _, _, mrow, answers => (.full mrow, answers, [])
  | _ + 1, mx, asked, mrow, [] => (.waiting mx mrow, [], if asked then [] else [.bdMcu])
  | left + 1, mx, asked, mrow, a :: rest =>
    let req := if asked then [] else [PortReq.bdMcu]
    if a.err ≠ 0 then (.error a.err, rest, req)
    else
      let next := readMcus scan left (mx + 1) false (addMcu scan a mrow) rest
      (next.1, next.2.1, req ++ next.2.2)

/-- The rows of a full MCU-row buffer blitted from image row `y` on, clipped to `cw` columns and `ch` rows (R310). -/
def State.blit (cw ch : Nat) : Nat → List (List RGB) → State → State
  | _, [], s => s
  | y, row :: rows, s => State.blit cw ch (y + 1) rows (if y < ch then s.viewRow y 0 (row.take cw) else s)

/-- The state after a run of `BD.mcu` calls: the answers left and the requests issued. -/
def State.afterMcus (rest : List McuAnswer) (reqs : List PortReq) (s : State) : State :=
  { s with bdMcus := rest, reqs := s.reqs ++ reqs }

/-- `STATUS.BDERR <- code` (R311). -/
def State.setBderr (code : Byte) (s : State) : State := { s with bderr := code }

/-- The `my` loop of R310: `left` MCU rows are to come, the next is number `my`; `pend` holds the number of the MCU
awaited and the buffer so far when a wait has left them, the row's progress word being pushed already. -/
def runMcuRows (scan : ScanType) (w h : Half) : Nat → Nat → Option (Nat × List (List RGB)) → State → Result
  | 0, _, _, s => succeedDecode s
  | left + 1, my, pend, s =>
    let t := if pend.isSome then s else s.progress my (mcuRowCount scan h.toNat)
    let at0 := pend.getD (0, emptyMrow scan)
    let r := readMcus scan (mcusPerRow scan w.toNat - at0.1) at0.1 pend.isSome at0.2 t.bdMcus
    let u := t.afterMcus r.2.1 r.2.2
    match r.1 with
    | .full mrow =>
      runMcuRows scan w h left (my + 1) none (u.blit (u.clipW w.toNat) (u.clipH h.toNat) (my * scan.mcuH) mrow)
    | .error code => failDecode .bd (u.setBderr code)
    | .waiting mx mrow => .next { u with seq := .awaitMcu ⟨w, h, scan, my, mx, mrow⟩ }

/-- `DEC_JPEG` once `BD.init` has answered (R310, R316): the preconditions, then the MCU rows. The diffusion state is
invalidated at the start only (R310). -/
def runJpeg (w h : Half) (a : InitAnswer) (s : State) : Result :=
  if a.err ≠ 0 then failDecode .bd (s.setBderr a.err)
  else
    match scanOf a.scan with
    | none => failDecode .scan s
    | some scan =>
      if s.params.mrowBytes < mrowNeed scan w.toNat then failDecode .size s
      else runMcuRows scan w h (mcuRowCount scan h.toNat) 0 none s.beginRows

/-- A `DEC_JPEG` that waits for, or finds, the answer to `BD.init`. -/
def resumeInit (w h : Half) (s : State) : Result :=
  match s.bdInits with
  | [] => .next { s with seq := .awaitInit w h }
  | a :: rest => runJpeg w h a { s with bdInits := rest }

/-- A `DEC_JPEG` goes on from a wait for an MCU. -/
def resumeMcu (j : JpegJob) (s : State) : Result :=
  runMcuRows j.scan j.w j.h (mcuRowCount j.scan j.h.toNat - j.my) j.my (some (j.mx, j.mrow)) s

/-- `DEC_JPEG width, height` (R310): `BDERR <- 0`, then `BD.init()`. -/
def execDecJpeg (w h : Half) (s : State) : Result := resumeInit w h ((s.setBderr 0).request .bdInit)

end Sys2Proof.Machine
end

