-- ==== Sys2Proof/Machine/System.lean ====
section
/-!
DEFINITION. The system commands of spec/40_system.md: `NOP`, `WRCSR`, `RDCSR`, `CLRSTAT`.
-/

namespace Sys2Proof.Machine

/-- `NOP` (R150): nothing but the count. -/
def execNop (s : State) : Result := .next s.retireQuiet

/-- `WRCSR csr, value` (R152): `CTRL` and `ACC` are writable; a `CTRL` write that changes `QMODE` invalidates the
diffusion state (R44). -/
def execWrcsr (csr : Byte) (value : Word) (s : State) : Result :=
  if csr = 0x03 then
    if ctrlLegal value then
      let t := if qmodeField value = qmodeField s.ctrl then s else s.invalidate
      succeed { t with ctrl := value }
    else failWith .csr s
  else if csr = 0x04 then succeed { s with acc := accStored value }
  else failWith .csr s

/-- `RDCSR csr` (R153): one response word; `STATUS` is left as it was. -/
def execRdcsr (csr : Byte) (s : State) : Result := .next (s.pushRsp (s.readCsr csr)).retireQuiet

/-- `CLRSTAT m` (R154): bit 0 clears `FAILS`, bit 1 `NOTFOUND`, bit 2 `SAT`. -/
def execClrstat (m : BitVec 3) (s : State) : Result :=
  succeed { s with
    fails := s.fails && !m.getLsbD 0
    notfound := s.notfound && !m.getLsbD 1
    sat := s.sat && !m.getLsbD 2 }

end Sys2Proof.Machine
end

