-- ==== Sys2Proof/Machine/Dispatch.lean ====
section
/-! DEFINITION. One arm per command: which meaning executes it (spec/30_encoding.md R120, R121). -/

namespace Sys2Proof.Machine

def exec (i : Instr) (s : State) : Host.Outcome State Fault Refusal :=
  match i with
  | .nop => Sys2Proof.Machine.execNop s
  | .wrcsr csr value => Sys2Proof.Machine.execWrcsr csr value s
  | .rdcsr csr => Sys2Proof.Machine.execRdcsr csr s
  | .clrstat m => Sys2Proof.Machine.execClrstat m s
  | .palLoad mono entries => Sys2Proof.Machine.execPalLoad mono entries s
  | .nearLab c => Sys2Proof.Machine.execNearLab c s
  | .nearRgb c => Sys2Proof.Machine.execNearRgb c s
  | .torgb index => Sys2Proof.Machine.execTorgb index s
  | .tolab index => Sys2Proof.Machine.execTolab index s
  | .indexof name => Sys2Proof.Machine.execIndexof name s
  | .normRgb pinBlack pinWhite => Sys2Proof.Machine.execNormRgb pinBlack pinWhite s
  | .normLab pinBlack pinWhite => Sys2Proof.Machine.execNormLab pinBlack pinWhite s
  | .surfCfg fmt w h plut => Sys2Proof.Machine.execSurfCfg fmt w h plut s
  | .setidx x y v => Sys2Proof.Machine.execSetidx x y v s
  | .getidx x y => Sys2Proof.Machine.execGetidx x y s
  | .flush => Sys2Proof.Machine.execFlush s
  | .rdfb addr => Sys2Proof.Machine.execRdfb addr s
  | .setpix x y c => Sys2Proof.Machine.execSetpix x y c s
  | .diffReset => Sys2Proof.Machine.execDiffReset s
  | .rdrow sel x => Sys2Proof.Machine.execRdrow sel x s
  | .decRgb565 w h => Sys2Proof.Machine.execDecRgb565 w h s
  | .decYuyv w h => Sys2Proof.Machine.execDecYuyv w h s
  | .decYuyvh w h => Sys2Proof.Machine.execDecYuyvh w h s
  | .decYuv3l w h => Sys2Proof.Machine.execDecYuv3l w h s
  | .decJpeg w h => Sys2Proof.Machine.execDecJpeg w h s

end Sys2Proof.Machine
end

