-- ==== Sys2Proof/Machine/Fetch.lean ====
section
/-!
DEFINITION. How the sequencer takes a command from `CMDQ` (spec/30_encoding.md R113): the header is tested at once,
the operand words are taken as they arrive, and the command executes when all are there.
-/

namespace Sys2Proof.Machine

/-- What taking words from `CMDQ` leads to; each case with the words left in the queue. -/
inductive Fetched where
  /-- Operand words are missing: these words have been taken, and the queue is empty. -/
  | wait (taken : List Word)
  /-- An illegal command (R122). -/
  | illegal (rest : List Word)
  /-- A whole command. -/
  | command (i : Instr) (rest : List Word)
deriving DecidableEq, Repr

/-- How many words the command of a header has (R111); 1 for an illegal header, of which no operand is awaited. -/
def commandLength (h : Word) : Nat :=
  match headerOp h with
  | .ok op => 1 + operandCount op h
  | .error _ => 1

/-- Steps (2) and (3) of R113: `h` and the operand words `taken` are there; the rest of the command is taken from
`q`. -/
def fetchOperands (h : Word) (taken q : List Word) : Fetched :=
  let need := commandLength h - 1 - taken.length
  if q.length < need then .wait (h :: (taken ++ q))
  else
    match decode (h :: (taken ++ q.take need)) with
    | .ok (i, _) => .command i (q.drop need)
    | .error _ => .illegal (q.drop need)

/-- Step (1) of R113: an illegal header halts at once, without waiting for or consuming any further word. -/
def fetchHeader (h : Word) (q : List Word) : Fetched :=
  match headerOp h with
  | .error _ => .illegal q
  | .ok _ => fetchOperands h [] q

/-- The step that follows from what was taken: wait, halt (R335), or execute. -/
def runFetched (f : Fetched) (s : State) : Result :=
  match f with
  | .wait taken => .next { s with cmdq := [], seq := .operands taken }
  | .illegal rest => .next { s with cmdq := rest }.halt
  | .command i rest => exec i { s with cmdq := rest, seq := .idle }

/-- The engine with no command in execution takes the next one, or stays idle (R342). -/
def fetchNext (s : State) : Result :=
  match s.cmdq with
  | [] => .next s
  | h :: q => runFetched (fetchHeader h q) s

/-- The engine goes on taking operand words (R113 step 2). -/
def fetchMore (taken : List Word) (s : State) : Result :=
  match taken with
  | [] => fetchNext { s with seq := .idle }
  | h :: ws => runFetched (fetchOperands h ws s.cmdq) s

/-- One step of the sequencer. A halted engine consumes nothing and changes nothing (R65, R335); a command that waits
goes on as far as the answers there are allow; else the next command is taken and executed. -/
def advance (s : State) : Result :=
  if s.halted then .next s
  else
    match s.seq with
    | .idle => fetchNext s
    | .operands taken => fetchMore taken s
    | .awaitTotal k w h => resumeTotal k w h { s with seq := .idle }
    | .awaitRead j => resumeRead j { s with seq := .idle }
    | .awaitInit w h => resumeInit w h { s with seq := .idle }
    | .awaitMcu j => resumeMcu j { s with seq := .idle }

/-- A table instruction's words at the head of `CMDQ`, with the engine ready to take them. -/
def State.placeWords (ws : List Word) (s : State) : State :=
  { s with cmdq := ws ++ s.cmdq, seq := .idle, halted := false }

end Sys2Proof.Machine
end

