-- ==== Sys2Proof/Machine/Step.lean ====
section
/-! DEFINITION. The step of the engine, and how a command is placed where the next step takes it from. -/

namespace Sys2Proof.Machine

/-- One step: a command taken from `CMDQ` and executed, or one that waits going on, or no change while the engine is
idle, waits in vain or is halted (spec/10_state.md R33; spec/30_encoding.md R113). -/
def step (s : State) : Host.Outcome State Fault Refusal := advance s

/-- The instruction whose bits are `w` at the head of `CMDQ`, so that the next step takes and runs it: the host pushed
its words (spec/60_exceptions.md R357; log entry 6). -/
def State.withFetchWord (s : State) (nbits w : Nat) : State := s.placeWords (tableWords nbits w)

end Sys2Proof.Machine
end

