-- ==== Sys2Proof/Machine/Ports.lean ====
section
/-!
DEFINITION. What the outside world does to the engine between two steps (spec/60_exceptions.md R350 to R358,
spec/70_reset_and_hazards.md R370, R371): the host's pushes and pops, the collaborators' answers, the DisplaySink's
reads, and the pins.
-/

namespace Sys2Proof.Machine

/-- The host pushes a word into port CMD (R357); a halted engine keeps it queued (R335). -/
def State.hostPush (w : Word) (s : State) : State := { s with cmdq := s.cmdq ++ [w] }

/-- The host pops port RSP (R357): the oldest word, if there is one. -/
def State.popRsp (s : State) : Option (Word × State) :=
  match s.rspq with
  | [] => none
  | w :: q => some (w, { s with rspq := q })

/-- The host pops port PROG (R357). -/
def State.popProg (s : State) : Option (Word × State) :=
  match s.progq with
  | [] => none
  | w :: q => some (w, { s with progq := q })

/-- The output pin `halted` (R358). -/
def State.haltedPin (s : State) : Bool := s.halted

/-- The engine is idle: `CMDQ` is empty and no command is in execution (R342). -/
def State.isIdle (s : State) : Bool := s.cmdq.isEmpty && decide (s.seq = .idle)

/-- The answer to a request that a reset has dropped comes, and is ignored (R371); it is the oldest such of its kind, since
requests on a port are answered in order (spec/70_reset_and_hazards.md R390). Only the note of it goes; an answer that never
comes leaves the note, and nothing that the engine does depends on it. -/
def State.ignoreAnswer (k : AnswerKind) (s : State) : State := { s with dropped := s.dropped.erase k }

/-- The ByteSource answers `totalAvailable` (R352). The answer to a dropped request, or one that no request awaits, is
ignored (R371). -/
def State.answerTotal (who : Addressee) (v : Word) (s : State) : State :=
  match who, s.seq with
  | .dropped, _ => s.ignoreAnswer .total
  | .pending, .awaitTotal _ _ _ => { s with bsTotals := s.bsTotals ++ [v] }
  | .pending, _ => s

/-- The ByteSource answers `tryRead` (R351, R371). -/
def State.answerRead (who : Addressee) (a : ReadAnswer) (s : State) : State :=
  match who, s.seq with
  | .dropped, _ => s.ignoreAnswer .read
  | .pending, .awaitRead _ => { s with bsReads := s.bsReads ++ [a] }
  | .pending, _ => s

/-- The block decoder answers `init` (R354, R371). -/
def State.answerInit (who : Addressee) (a : InitAnswer) (s : State) : State :=
  match who, s.seq with
  | .dropped, _ => s.ignoreAnswer .init
  | .pending, .awaitInit _ _ => { s with bdInits := s.bdInits ++ [a] }
  | .pending, _ => s

/-- The block decoder answers `mcu` (R355, R371). -/
def State.answerMcu (who : Addressee) (a : McuAnswer) (s : State) : State :=
  match who, s.seq with
  | .dropped, _ => s.ignoreAnswer .mcu
  | .pending, .awaitMcu _ => { s with bdMcus := s.bdMcus ++ [a] }
  | .pending, _ => s

/-- A request is dropped: its answer is ignored, if it has come, and the request is noted, if it has not (R371). -/
def State.dropRequest {α : Type} (k : AnswerKind) (answers : List α) (s : State) : State :=
  if answers.isEmpty then { s with dropped := s.dropped ++ [k] } else s

/-- The pending request, if there is one, is dropped (R371). -/
def State.dropPending (s : State) : State :=
  match s.seq with
  | .idle => s
  | .operands _ => s
  | .awaitTotal _ _ _ => { s.dropRequest .total s.bsTotals with bsTotals := s.bsTotals.tail }
  | .awaitRead _ => { s.dropRequest .read s.bsReads with bsReads := s.bsReads.tail }
  | .awaitInit _ _ => { s.dropRequest .init s.bdInits with bdInits := s.bdInits.tail }
  | .awaitMcu _ => { s.dropRequest .mcu s.bdMcus with bdMcus := s.bdMcus.tail }

/-- The `reset` pin is asserted (R370, R371): every piece of state at its reset value, whatever the engine was doing.
The implementation's parameters stay, and so do the answers the collaborators will give to requests still to come and the
note of the requests dropped (log entry 13). -/
def State.assertReset (s : State) : State :=
  { State.reset with
    params := s.params
    bsTotals := s.dropPending.bsTotals
    bsReads := s.dropPending.bsReads
    bdInits := s.dropPending.bdInits
    bdMcus := s.dropPending.bdMcus
    dropped := s.dropPending.dropped
    reqs := s.reqs
    choices := s.choices }

/-- A free choice has been drawn. -/
def State.drawChoice (s : State) : State := { s with choices := s.choices + 1 }

/-- `DS.read(a)` (R356): the byte of `FBC`, which the hardware may by itself have brought up to date just before
(R95); an unspecified byte at or above `SURFBYTES`. -/
def State.dsRead (a : Nat) (s : State) : Except Fault (Byte × State) :=
  if s.params.fbBytes ≤ a then .error .displayAddress
  else if s.surfBytes ≤ a then .ok (Config.unspecifiedByte s.choices a, s.drawChoice)
  else .ok ((s.maybeCommit a).sinkByte a, s.maybeCommit a)

end Sys2Proof.Machine
end

