-- ==== Sys2Proof/Machine/Pseudo.lean ====
section
/-!
DEFINITION. The pseudo-instructions of spec/30_encoding.md R132, each with its expansion, and the host procedure
`DERIVE` of spec/41_palette.md R185. None of them is a command: they are what a host pushes.
-/

namespace Sys2Proof.Machine

/-- A non-negative real operand of the assembler, as a fraction. -/
structure AsmReal where
  num : Nat
  den : Nat
deriving DecidableEq, Repr

/-- The magnitude of `round(v)` for a fraction `v`, or for its negative (R130, R132): the nearest integer. The spec does not
say which way a tie goes, for either sign: a free value decides, one for each sign (log entry 15). -/
def roundNat (negative : Bool) (num den : Nat) : Nat :=
  let q := num / den
  let r := num % den
  if 2 * r < den then q
  else if den < 2 * r then q + 1
  else if Config.roundsTieAway negative num den then q + 1 else q

/-- The magnitude of `round(v * 65536)` of a real with the sign given (R130, R132). -/
def AsmReal.q16 (negative : Bool) (v : AsmReal) : Nat := roundNat negative (v.num * 65536) v.den

/-- A LabNum operand written as a signed decimal real, as the assembler converts it (R130). Where a negative tie goes is not
fixed by where the positive one does (log entry 15). -/
def labLiteral (negative : Bool) (v : AsmReal) : LabNum :=
  if negative then BitVec.ofInt 32 (-(v.q16 true : Int)) else BitVec.ofNat 32 (v.q16 false)

/-- `RDRES i`: `RDCSR 0x10 + i` (R132). -/
def rdres (i : Fin 4) : Instr := .rdcsr (BitVec.ofNat 8 (0x10 + i.val))

/-- `SETMODE qmode, progen, swap565, vfirst`: `WRCSR CTRL, qmode + 4*progen + 8*swap565 + 16*vfirst` (R132). -/
def setmode (qmode : BitVec 2) (progen swap565 vfirst : Bool) : Instr :=
  .wrcsr 0x03 (BitVec.ofNat 32 (qmode.toNat + 4 * progen.toNat + 8 * swap565.toNat + 16 * vfirst.toNat))

/-- `SETACC v`: `WRCSR ACC, round(v * 65536)` (R132). -/
def setacc (v : AsmReal) : Instr := .wrcsr 0x04 (BitVec.ofNat 32 (v.q16 false))

/-- The state after a command that a host waits for; a command that stops leaves the state as it was. -/
def stateAfter (s : State) : Result → State
  | .next t => t
  | .fault _ => s
  | .refused _ => s

/-- The host issues `RDRES 0` and takes the response, which is the last word of port RSP (R381). -/
def State.hostReadR0 (s : State) : Word × State :=
  let t := stateAfter s (execRdcsr 0x10 s)
  (t.rspq.getLastD 0, { t with rspq := t.rspq.dropLast })

/-- The loop of `DERIVE` (R185): each desired name is looked up; `none` when one is missing and may not be. The base
palette is the one the engine holds. -/
def deriveEntries (allowMissing : Bool) : List (Byte × RGB) → State → Option (List PalSpec) × State
  | [], s => (some [], s)
  | (name, target) :: more, s =>
    let t := stateAfter s (execIndexof name s)
    let r := t.hostReadR0
    let i := r.1
    let missing := i == 255#32 || (name == Config.nameClean && i == BitVec.ofNat 32 s.pal.length)
    if missing && !allowMissing then (none, r.2)
    else
      let tail := deriveEntries allowMissing more r.2
      (if missing then tail.1 else tail.1.map (fun es => ⟨name, lowByte i, target⟩ :: es), tail.2)

/-- `DERIVE desired, allowMissing, forceMono` (R185): the entries of the derived palette, loaded into the engine; or
nothing, the engine still holding the base. More than 65535 entries have no `PAL_LOAD` that words can spell, and the spec does
not say what becomes of them: they are given to the meaning of `PAL_LOAD` all the same, which fails with `E_PALSIZE`
(DESIGN CHOICE, log entry 26). -/
def derive (desired : List (Byte × RGB)) (allowMissing forceMono : Bool) (s : State) : Option (List PalSpec) × State :=
  match deriveEntries allowMissing desired s with
  | (none, t) => (none, t)
  | (some es, t) => (some es, stateAfter t (execPalLoad forceMono es t))

end Sys2Proof.Machine
end

