-- ==== Sys2Proof/Safety.lean ====
section
/-!
DEFINITION. What a sound state of the engine is: the invariants the spec states of its tables, registers and memories
(R10, R44, R45, R56, R58, R62, R63, R65, R87, R113), each under its own name, and `State.Inv`, all of them together. No run is
asked for: every step from a state with `Inv` leads to one (a statement for the provers), and the reset state has it.
-/

namespace Sys2Proof.Machine

/-- The constraints of R10 on the implementation's parameters. -/
def Params.legal (p : Params) : Bool :=
  1 ≤ p.fbBytes && p.fbBytes ≤ 2 ^ 24 && 1 ≤ p.rowMax && p.rowMax ≤ 65535 && 1 ≤ p.lineMax && p.lineMax ≤ 65535 &&
    768 ≤ p.mrowBytes

/-- The memories and the row buffers are in canonical form. -/
def State.memoriesWf (s : State) : Bool := s.fb.wf && s.fbc.wf && s.thisRow.wf && s.nextRow.wf

/-- No byte beyond `FB_BYTES` and no row-buffer entry beyond `ROW_MAX` exists (R58, R61). -/
def State.memoriesFit (s : State) : Bool :=
  sparseBelow s.params.fbBytes s.fb && sparseBelow s.params.fbBytes s.fbc &&
    sparseBelow s.params.rowMax s.thisRow && sparseBelow s.params.rowMax s.nextRow

/-- `CTRL` and `ACC` hold legal values (R44, R45). -/
def State.controlLegal (s : State) : Bool := ctrlLegal s.ctrl && s.acc.toNat ≤ 65536

/-- The surface fits the row buffers and the frame buffer (R210). -/
def State.surfaceFits (s : State) : Bool := s.surfW.toNat ≤ s.params.rowMax && s.surfBytes ≤ s.params.fbBytes

/-- No two entries share an index (R56). -/
def indicesUnique : List PalEntry → Bool
  | [] => true
  | e :: es => es.all (fun f => f.index != e.index) && indicesUnique es

/-- A monochrome entry: no chroma, and the grey of its lightness (R56). -/
def PalEntry.isGray (p : Params) (e : PalEntry) : Bool :=
  e.lab.a == 0 && e.lab.b == 0 && e.rgb == grayRgb (p.toGray e.lab.L)

/-- The invariants of the palette table (R56). -/
def State.paletteLegal (s : State) : Bool :=
  s.pal.length ≤ Config.palMax && indicesUnique s.pal && (!s.mono || s.pal.all (PalEntry.isGray s.params))

/-- A valid diffusion state has a row of the surface as its current row, and a diffusion mode is set (R241, R251). -/
def State.diffusionLegal (s : State) : Bool :=
  !s.curValid || (s.curRow.toNat < s.surfH.toNat && decide (s.qmode ≠ .direct))

/-- A failure leaves `FAILS` set (R330). -/
def State.statusLegal (s : State) : Bool := decide (s.err = .ok) || s.fails

/-- A halted engine has no command in execution (R335). -/
def State.haltLegal (s : State) : Bool := !s.halted || decide (s.seq = .idle)

/-- The unused bits of the byte at address `a` of a surface (R87): in the last byte of a row, the low nibble when `W` is odd
in `PACK4`, the low `8 * STRIDE - W` bits in `PLANE2`. -/
def paddingMask (fmt : Fmt) (w a : Nat) : Byte :=
  match fmt with
  | .dense8 => 0
  | .pack4 => if w % 2 = 1 ∧ a % strideOf .pack4 w + 1 = strideOf .pack4 w then 0x0F else 0
  | .plane2 =>
    if a % strideOf .plane2 w + 1 = strideOf .plane2 w then BitVec.ofNat 8 (2 ^ (8 * strideOf .plane2 w - w) - 1) else 0

/-- The unused bits of the surface read 0, in `FB` and in `FBC` (R87). -/
def State.paddingZero (s : State) : Prop :=
  ∀ a, a < s.surfBytes →
    s.memRead a &&& paddingMask s.fmt s.surfW.toNat a = 0 ∧ s.sinkByte a &&& paddingMask s.fmt s.surfW.toNat a = 0

/-- A waiting byte-stream decode keeps inside its line buffers (R62, R271, R272). -/
def StreamJob.fits (p : Params) (j : StreamJob) : Bool :=
  j.w.toNat ≤ p.lineMax && j.row < j.kind.rows j.h.toNat && j.line0.length < j.kind.lineBytes j.w.toNat &&
    j.line1.length ≤ j.kind.lineBytes j.w.toNat && j.line2.length ≤ j.kind.lineBytes j.w.toNat

/-- A waiting `DEC_JPEG` keeps inside its MCU-row buffer (R63, R316). -/
def JpegJob.fits (p : Params) (j : JpegJob) : Bool :=
  mrowNeed j.scan j.w.toNat ≤ p.mrowBytes && j.my < mcuRowCount j.scan j.h.toNat &&
    j.mx < mcusPerRow j.scan j.w.toNat && j.mrow.length == j.scan.mcuH &&
    j.mrow.all (fun r => r.length == j.mx * j.scan.mcuW)

/-- Words taken so far are a legal header and fewer operand words than it announces (R113). -/
def operandsPending : List Word → Bool
  | [] => false
  | h :: ws =>
    match headerOp h with
    | .ok op => ws.length < operandCount op h
    | .error _ => false

/-- What waits is within its bounds. -/
def State.sequencerFits (s : State) : Bool :=
  match s.seq with
  | .idle => true
  | .operands taken => operandsPending taken
  | .awaitTotal _ _ _ => true
  | .awaitRead j => j.fits s.params
  | .awaitInit _ _ => true
  | .awaitMcu j => j.fits s.params

/-- A sound state. -/
structure State.Inv (s : State) : Prop where
  params : s.params.legal = true
  memoriesWf : s.memoriesWf = true
  memoriesFit : s.memoriesFit = true
  control : s.controlLegal = true
  surface : s.surfaceFits = true
  palette : s.paletteLegal = true
  diffusion : s.diffusionLegal = true
  status : s.statusLegal = true
  halt : s.haltLegal = true
  padding : s.paddingZero
  sequencer : s.sequencerFits = true

/-- The engine is ready to take a command: not halted, none in execution. -/
def State.ready (s : State) : Bool := !s.halted && decide (s.seq = .idle)

/-- A decode command is in execution and waits for an answer. -/
def State.decoding (s : State) : Bool :=
  match s.seq with
  | .idle | .operands _ => false
  | .awaitTotal _ _ _ | .awaitRead _ | .awaitInit _ _ | .awaitMcu _ => true

/-- A step goes on: it ends neither in a fault nor in a refusal. -/
def State.goesOn (s : State) : Prop := ∃ t, step s = .next t

/-! ### The terms in which whole frames are spoken of -/

/-- The byte-stream decode command of a kind. -/
def StreamKind.instr : StreamKind → Half → Half → Instr
  | .rgb565 => .decRgb565
  | .yuyv => .decYuyv
  | .yuyvh => .decYuyvh
  | .yuv3l => .decYuv3l

/-- The answers of a ByteSource that serves lines of `n` bytes from byte number `pos` of the frame on: none is empty, none is
longer than the request R272 makes at that point (the rest of the line, and at most `ceiling`), and each has the bytes it
counts (R351). -/
def answersServe (ceiling n : Nat) : Nat → List ReadAnswer → Bool
  | _, [] => true
  | pos, a :: as =>
    decide (0 < a.count) && decide (a.count ≤ min ceiling (n - pos % n)) && a.bytes.length == a.count &&
      answersServe ceiling n (pos + a.count) as

/-- The bytes of some answers, in the order they came (R101). -/
def streamOf (as : List ReadAnswer) : List Byte := as.flatMap (·.bytes)

/-- The requests that some answers answered (R272). -/
def requestsFor (ceiling n : Nat) : Nat → List ReadAnswer → List PortReq
  | _, [] => []
  | pos, a :: as => .tryRead (min ceiling (n - pos % n)) :: requestsFor ceiling n (pos + a.count) as

/-- The next step starts, or goes on with, a byte-stream decode of this kind and size, and the next byte it needs is number
`pos` of the frame (R113, R271, R272). -/
def State.runsStream (s : State) (k : StreamKind) (w h : Half) (pos : Nat) : Prop :=
  (∃ rest, s.seq = .idle ∧ decode s.cmdq = .ok (k.instr w h, rest) ∧ pos = 0) ∨
  (∃ taken rest, s.seq = .operands taken ∧ decode (taken ++ s.cmdq) = .ok (k.instr w h, rest) ∧ pos = 0) ∨
  (s.seq = .awaitTotal k w h ∧ pos = 0) ∨
  (∃ j, s.seq = .awaitRead j ∧ j.kind = k ∧ j.w = w ∧ j.h = h ∧ pos = k.lineBytes w.toNat * j.row + j.line0.length)

/-- An answer breaks the protocol of a `tryRead` at byte number `pos` of a frame of lines of `n` bytes: its bytes are not as
many as it counts, or they are more than the rest of the line or than the ceiling (R272, R351). -/
def breaksProtocol (ceiling n pos : Nat) (a : ReadAnswer) : Prop :=
  a.bytes.length ≠ a.count ∨ min ceiling (n - pos % n) < a.count

/-- Answers that come late, of each kind. -/
structure LateAnswers where
  totals : List Word
  reads : List ReadAnswer
  inits : List InitAnswer
  mcus : List McuAnswer
deriving DecidableEq, Repr

/-- More answers have come. -/
def State.withMore (a : LateAnswers) (s : State) : State :=
  { s with
    bsTotals := s.bsTotals ++ a.totals, bsReads := s.bsReads ++ a.reads, bdInits := s.bdInits ++ a.inits
    bdMcus := s.bdMcus ++ a.mcus }

/-- A pending request of a kind is dropped (R371): its answer, if it has come, is gone; if it has not, the request is
noted. -/
def RequestDropped {α : Type} (k : AnswerKind) (answers answers' : List α) (dropped dropped' : List AnswerKind) : Prop :=
  (∀ a as, answers = a :: as → answers' = as ∧ dropped' = dropped) ∧
  (answers = [] → answers' = [] ∧ dropped' = dropped ++ [k])

/-- Byte number `k` of a frame. -/
def frameByte (stream : List Byte) (k : Nat) : Byte := stream.getD k 0

/-- The colour of pixel `(x, y)` of an RGB565 frame of width `w` (R281). -/
def frame565 (swap : Bool) (w : Nat) (stream : List Byte) (y x : Nat) : RGB :=
  let b0 := frameByte stream (2 * w * y + 2 * x)
  let b1 := frameByte stream (2 * w * y + 2 * x + 1)
  let v : Half := if swap then b1 ++ b0 else b0 ++ b1
  ⟨((v >>> 8) &&& 0xF8).setWidth 8, ((v >>> 3) &&& 0xFC).setWidth 8, ((v <<< 3) &&& 0xF8).setWidth 8⟩

/-- The colour of pixel `(x, y)` of a YUYV frame of width `w` (R286). -/
def frameYuyv (p : Params) (w : Nat) (stream : List Byte) (y x : Nat) : RGB :=
  let group := fun k c => frameByte stream (2 * w * y + 4 * k + c)
  let k := x / 2
  if x % 2 = 0 then
    p.fromYuv (group k 0) (group k 1) (if x = 0 then group 0 3 else mean2 (group (k - 1) 3) (group k 3))
  else
    p.fromYuv (group k 2) (if x = w - 1 then group k 1 else mean2 (group k 1) (group (k + 1) 1)) (group k 3)

/-- The colour of output pixel `(i, j)` of a YUYV frame of source width `w` at half resolution (R290). -/
def frameYuyvh (p : Params) (w : Nat) (stream : List Byte) (j i : Nat) : RGB :=
  let upper := fun k => frameByte stream (2 * w * (2 * j) + k)
  let lower := fun k => frameByte stream (2 * w * (2 * j + 1) + k)
  p.fromYuv (mean4 (upper (4 * i)) (upper (4 * i + 2)) (lower (4 * i)) (lower (4 * i + 2)))
    (mean2 (upper (4 * i + 1)) (lower (4 * i + 1))) (mean2 (upper (4 * i + 3)) (lower (4 * i + 3)))

/-- The colour of pixel `(x, y)` of a three-line frame of `h` rows of width `w` (R295, R296). -/
def frameYuv3l (p : Params) (vfirst : Bool) (w h : Nat) (stream : List Byte) (y x : Nat) : RGB :=
  let luma := frameByte stream (2 * w * y + 2 * x)
  let chroma := fun r => frameByte stream (2 * w * r + 2 * x + 1)
  let other := if y = 0 then chroma 1 else if y = h - 1 then chroma (y - 1) else mean2 (chroma (y - 1)) (chroma (y + 1))
  if (y % 2 = 0) = (vfirst = false) then p.fromYuv luma (chroma y) other else p.fromYuv luma other (chroma y)

/-- The colour of pixel `(x, y)` of an image of MCUs of `mw` by `mh` pixels, `mpr` to a row, in raster order; a grey image has
one plane (R313, R314, R316). -/
def mcuImage (gray : Bool) (mw mh mpr : Nat) (mcus : List McuAnswer) (y x : Nat) : RGB :=
  let m := mcus.getD (y / mh * mpr + x / mw)
    ⟨0, Vector.replicate 256 0, Vector.replicate 256 0, Vector.replicate 256 0⟩
  let px := x % mw
  let py := y % mh
  let at0 := fun p => planeByte p ((py / 8 * 2 + px / 8) * 64 + py % 8 * 8 + px % 8)
  if gray then ⟨at0 m.p0, at0 m.p0, at0 m.p0⟩ else ⟨at0 m.p0, at0 m.p1, at0 m.p2⟩

/-- The scan codes (R312): each with whether its image is grey, and the width and the height of its MCU. -/
def scanTable : List (Nat × Bool × Nat × Nat) :=
  [(0, true, 8, 8), (1, false, 8, 8), (2, false, 16, 8), (3, false, 8, 16), (4, false, 16, 16)]

/-- Something done for the rows `0` to `n - 1`, in order. -/
def State.forRows (n : Nat) (f : Nat → State → State) (s : State) : State :=
  (List.range n).foldl (fun t y => f y t) s

/-- `n` output rows of a frame of `ow` by `oh` pixels: for each the progress word (R273), then its pixels in the clip
(R274). -/
def State.decodeRows (n ow oh : Nat) (colour : Nat → Nat → RGB) (s : State) : State :=
  s.forRows n (fun y t => (t.progress y n).emitRow ow oh y (colour y))

/-- The MCU rows of a JPEG image of `w` by `h` pixels: for each the progress word, then its image rows in the clip
(R310). -/
def State.decodeMcuRows (n mcuH w h : Nat) (colour : Nat → Nat → RGB) (s : State) : State :=
  s.forRows n (fun my t =>
    (t.progress my n).forRows mcuH (fun ly u => u.emitRow w h (my * mcuH + ly) (colour (my * mcuH + ly))))

/-! ### The terms of the other statements -/

/-- The columns `match` and `mask` of R120, row by row. -/
def opcodeMap : List (Word × Word) :=
  [(0x00000000, 0xFFFFFFFF), (0x01000000, 0xFFFFFF00), (0x02000000, 0xFFFFFF00), (0x03000000, 0xFFFFFFF8),
   (0x10000000, 0xFFFE0000), (0x11000000, 0xFFFFFFFF), (0x12000000, 0xFF000000), (0x13000000, 0xFFFFFF00),
   (0x14000000, 0xFFFFFF00), (0x15000000, 0xFFFFFF00), (0x16000000, 0xFFFFFFFC), (0x17000000, 0xFFFFFFFC),
   (0x20000000, 0xFFFFFFFC), (0x21000000, 0xFFFFFF00), (0x22000000, 0xFFFFFFFF), (0x23000000, 0xFFFFFFFF),
   (0x24000000, 0xFF000000), (0x30000000, 0xFF000000), (0x31000000, 0xFFFFFFFF), (0x32000000, 0xFFFE0000),
   (0x40000000, 0xFFFFFFFF), (0x41000000, 0xFFFFFFFF), (0x42000000, 0xFFFFFFFF), (0x43000000, 0xFFFFFFFF),
   (0x44000000, 0xFFFFFFFF)]

/-- The row of R120 selected by a header: `h & mask = match`. -/
def selects (row : Word × Word) (h : Word) : Prop := h &&& row.2 = row.1

end Sys2Proof.Machine

namespace Sys2Proof

/-- `PAL_LOAD`, `NORM_RGB`, `NORM_LAB`: the commands that write the palette table (R55). -/
def Instr.writesPalette : Instr → Bool
  | .palLoad _ _ | .normRgb _ _ | .normLab _ _ => true
  | _ => false

/-- The four byte-stream decoders. -/
def Instr.isStream : Instr → Bool
  | .decRgb565 _ _ | .decYuyv _ _ | .decYuyvh _ _ | .decYuv3l _ _ => true
  | _ => false

/-- The five decode commands. -/
def Instr.isDecode : Instr → Bool
  | .decJpeg _ _ => true
  | i => i.isStream

/-- `SETPIX` and the five decode commands: the users of the quantizing view (R240). -/
def Instr.usesView : Instr → Bool
  | .setpix _ _ _ => true
  | i => i.isDecode

/-- The commands with a result in `R0`. -/
def Instr.writesR0 (i : Instr) : Bool :=
  i.isDecode || match i with
    | .nearLab _ | .nearRgb _ | .torgb _ | .indexof _ | .getidx _ _ | .rdfb _ => true
    | _ => false

/-- The commands with a result in `R1`, `R2` and `R3`. -/
def Instr.writesR123 : Instr → Bool
  | .nearLab _ | .tolab _ | .rdrow _ _ => true
  | _ => false

/-- The commands that can validate or invalidate the diffusion state (R44, R58). -/
def Instr.writesCurValid (i : Instr) : Bool :=
  i.usesView || match i with
    | .diffReset | .wrcsr _ _ | .surfCfg _ _ _ _ => true
    | _ => false

/-- The commands that can set or clear `NOTFOUND` (R42). -/
def Instr.writesNotfound (i : Instr) : Bool :=
  i.usesView || match i with
    | .clrstat _ | .nearLab _ | .nearRgb _ | .torgb _ | .tolab _ | .indexof _ => true
    | _ => false

/-- The commands that can set or clear `SAT` (R42). -/
def Instr.writesSat (i : Instr) : Bool :=
  i.usesView || match i with
    | .clrstat _ | .nearLab _ | .nearRgb _ => true
    | _ => false

/-- `NOP` and `RDCSR`: the commands that leave `STATUS` as it was (R151). -/
def Instr.isQuiet : Instr → Bool
  | .nop | .rdcsr _ => true
  | _ => false

end Sys2Proof

namespace Sys2Proof.Machine

/-- An integer clamped to the range of an `s32` (R18). -/
def clampS32 (v : Int) : Int := max (-2147483648) (min v 2147483647)

/-- A word holds the `sat32` of an integer. -/
def Holds (w : LabNum) (v : Int) : Prop := w.toInt = clampS32 v

/-- Each component of a triple holds the `sat32` of an integer. -/
def HoldsTriple (e : Err3) (l a b : Int) : Prop := Holds e.L l ∧ Holds e.a a ∧ Holds e.b b

/-- `sat32` changes one of three integers. -/
def Clamps (l a b : Int) : Prop := clampS32 l ≠ l ∨ clampS32 a ≠ a ∨ clampS32 b ≠ b

/-- The distance of R173. -/
def distance (mono : Bool) (c e : Lab) : Int :=
  if mono then ((c.L.toInt - e.L.toInt).natAbs : Int)
  else (c.L.toInt - e.L.toInt) ^ 2 + (c.a.toInt - e.a.toInt) ^ 2 + (c.b.toInt - e.b.toInt) ^ 2

/-- Entry `e` at storage position `p` is the first of the nearest to `c` (R173). -/
def FirstNearest (mono : Bool) (pal : List PalEntry) (c : Lab) (p : Nat) (e : PalEntry) : Prop :=
  pal[p]? = some e ∧
    ∀ (q : Nat) (f : PalEntry), pal[q]? = some f → distance mono c e.lab ≤ distance mono c f.lab ∧
      (q < p → distance mono c e.lab < distance mono c f.lab)

/-- The first entry in storage order with some property (R170). -/
def FirstWith (pal : List PalEntry) (has : PalEntry → Prop) (e : PalEntry) : Prop :=
  ∃ p : Nat, pal[p]? = some e ∧ has e ∧ ∀ (q : Nat) (f : PalEntry), q < p → pal[q]? = some f → ¬ has f

/-- An entry is what `MKENTRY(name, index, rgb, mono)` builds (R171). -/
def BuiltFrom (p : Params) (mono : Bool) (name index : Byte) (c : RGB) (e : PalEntry) : Prop :=
  e.name = name ∧ e.index = index ∧ e.lab.L = (p.toLab c).L ∧
    (mono = false → e.rgb = c ∧ e.lab = p.toLab c) ∧
    (mono = true → e.rgb.r = p.toGray e.lab.L ∧ e.rgb.g = e.rgb.r ∧ e.rgb.b = e.rgb.r ∧ e.lab.a = 0 ∧ e.lab.b = 0)

/-- `DERIVE` finds a name in the base palette, with this index (R185): the first entry of that name has it, and the index is not
one that `INDEXOF` also answers for a missing name. -/
def DeriveFinds (pal : List PalEntry) (name i : Byte) : Prop :=
  (∃ e, FirstWith pal (fun f => f.name = name) e ∧ e.index = i) ∧ i.toNat ≠ 255 ∧ ¬ (name = 0xFE ∧ i.toNat = pal.length)

/-- The entries that `DERIVE` makes of the desired colours: those of the names found, in order, at the base's indices, with the
colours desired (R185). -/
def DeriveEntries (pal : List PalEntry) : List (Byte × RGB) → List PalSpec → Prop
  | [], es => es = []
  | (name, target) :: more, es =>
    (∃ i tail, DeriveFinds pal name i ∧ DeriveEntries pal more tail ∧ es = ⟨name, i, target⟩ :: tail) ∨
    ((∀ i, ¬ DeriveFinds pal name i) ∧ DeriveEntries pal more es)

/-- A channel rescaled by the affine map that takes `lo` to 0 and `hi` to 255 (R180). -/
def ChannelRescaled (lo hi c n : Byte) : Prop :=
  (n.toNat : Int) = max 0 (min (Int.tdiv (((c.toNat : Int) - lo.toNat) * 255) ((hi.toNat : Int) - lo.toNat)) 255)

/-- Every channel of a colour rescaled (R180). -/
def RgbRescaled (lo hi c n : RGB) : Prop :=
  ChannelRescaled lo.r hi.r c.r n.r ∧ ChannelRescaled lo.g hi.g c.g n.g ∧ ChannelRescaled lo.b hi.b c.b n.b

/-- One endpoint of a renormalisation: the pinned entry's value, or the default (R180, R181). -/
def Endpoint {α : Type} (pin : Bool) (pal : List PalEntry) (name : Byte) (value : PalEntry → α) (dflt v : α) : Prop :=
  (pin = false → v = dflt) ∧ (pin = true → ∃ e, FirstWith pal (fun f => f.name = name) e ∧ v = value e)

/-- A row-buffer cell after `ADD3(old, err, k)` (R244). -/
def CellAdded (old err : Err3) (k : Int) (new : Err3) : Prop :=
  HoldsTriple new (old.L.toInt + Int.tdiv (err.L.toInt * k) 16) (old.a.toInt + Int.tdiv (err.a.toInt * k) 16)
    (old.b.toInt + Int.tdiv (err.b.toInt * k) 16)

/-- `ADD3(old, err, k)` saturates (R18, R244). -/
def CellClamps (old err : Err3) (k : Int) : Prop :=
  Clamps (old.L.toInt + Int.tdiv (err.L.toInt * k) 16) (old.a.toInt + Int.tdiv (err.a.toInt * k) 16)
    (old.b.toInt + Int.tdiv (err.b.toInt * k) 16)

/-- The row buffers `this1`, `next1` are `this0`, `next0` after `DIFFUSE(x, y, err)` on a surface of `w` by `h` pixels
(R244). -/
def Diffused (w h x y : Nat) (err : Err3) (this0 next0 this1 next1 : Row) : Prop :=
  (∀ j, j = x + 1 → j < w → CellAdded (this0.entry j) err 7 (this1.entry j)) ∧
  (∀ j, ¬ (j = x + 1 ∧ j < w) → this1.entry j = this0.entry j) ∧
  (∀ j, j = x + 1 → j < w → y + 1 < h → CellAdded (next0.entry j) err 1 (next1.entry j)) ∧
  (∀ j, j + 1 = x → y + 1 < h → CellAdded (next0.entry j) err 3 (next1.entry j)) ∧
  (∀ j, j = x → y + 1 < h → CellAdded (next0.entry j) err 5 (next1.entry j)) ∧
  (∀ j, ¬ (y + 1 < h ∧ (j = x + 1 ∧ j < w ∨ j + 1 = x ∨ j = x)) → next1.entry j = next0.entry j)

/-- `DIFFUSE(x, y, err)` saturates a cell (R18, R244). -/
def DiffusionClamps (w h x y : Nat) (err : Err3) (this0 next0 : Row) : Prop :=
  (x + 1 < w ∧ CellClamps (this0.entry (x + 1)) err 7) ∨
  (y + 1 < h ∧ x + 1 < w ∧ CellClamps (next0.entry (x + 1)) err 1) ∨
  (y + 1 < h ∧ 1 ≤ x ∧ CellClamps (next0.entry (x - 1)) err 3) ∨
  (y + 1 < h ∧ CellClamps (next0.entry x) err 5)

/-- The row buffers `this1`, `next1` are those of a state after `ROWMGMT(y)` (R241). -/
def RowsManaged (s : State) (y : Nat) (this1 next1 : Row) : Prop :=
  (∀ x, s.surfW.toNat ≤ x → this1.entry x = s.thisRow.entry x ∧ next1.entry x = s.nextRow.entry x) ∧
  ∀ x, x < s.surfW.toNat →
    (s.curValid = true → y = s.curRow.toNat →
      this1.entry x = s.thisRow.entry x ∧ next1.entry x = s.nextRow.entry x) ∧
    (s.curValid = true → y = s.curRow.toNat + 1 → this1.entry x = s.nextRow.entry x ∧ next1.entry x = Lab.zero) ∧
    (s.curValid = false ∨ y ≠ s.curRow.toNat ∧ y ≠ s.curRow.toNat + 1 →
      this1.entry x = Lab.zero ∧ next1.entry x = Lab.zero)

/-- The row buffers `this1`, `next1` are those that `SETPIX` works on in row `y`: those after `ROWMGMT(y)` (R241), and a fresh pair
where a decode has left the rows (a corner case of R246; log entry 25). -/
def RowsForSetpix (s : State) (y : Nat) (this1 next1 : Row) : Prop :=
  (s.rowsOfDecode = false → RowsManaged s y this1 next1) ∧
  (s.rowsOfDecode = true → RowsManaged { s with curValid := false } y this1 next1)

/-- The bytes a pixel write goes to: one byte, and in `PLANE2` one byte in each plane (R84 to R86, R90). -/
def State.pixelBytes (x y : Nat) (s : State) : List Nat :=
  match s.fmt with
  | .dense8 => [y * s.surfW.toNat + x]
  | .pack4 => [y * ((s.surfW.toNat + 1) / 2) + x / 2]
  | .plane2 =>
    [y * ((s.surfW.toNat + 7) / 8) + x / 8, (s.surfW.toNat + 7) / 8 * s.surfH.toNat + y * ((s.surfW.toNat + 7) / 8) + x / 8]

/-- The surface size of R83, in closed form. -/
def surfaceSize (fmt : Fmt) (w h : Nat) : Nat :=
  match fmt with
  | .dense8 => w * h
  | .pack4 => (w + 1) / 2 * h
  | .plane2 => 2 * ((w + 7) / 8) * h

end Sys2Proof.Machine
end

