-- ==== Sys2Proof/Certificates/Slice0/Obligations.lean ====
section
/-!
DEFINITION. The statements for the provers, one `def Obligations.<Name> : Prop` each, in the order of OBLIGATIONS.json.
The terms they use beyond the machine's own are in Sys2Proof/Safety.lean.
-/

section
open Sys2Proof Sys2Proof.Machine

/-! ### Encoding -/

/-- Decoding the words of a well-formed command gives it back and leaves the words after it (R110 to R112). -/
def Obligations.DecodeReadsBackEncode : Prop :=
  ∀ (i : Instr) (rest : List Word), i.wellFormed = true → decode (encode i ++ rest) = .ok (i, rest)

/-- Whatever decodes was spelled by exactly the words of what it decodes to, and that is well formed: no bit of a word is
dropped (R114). -/
def Obligations.EncodeReadsBackDecode : Prop :=
  ∀ (ws rest : List Word) (i : Instr), decode ws = .ok (i, rest) → ws = encode i ++ rest ∧ i.wellFormed = true

/-- The headers accepted are exactly those that a row of R120's table selects, `SURF_CFG` with `fmt = 3` apart; no header
is selected twice; the row accepted is the one that selects. -/
def Obligations.HeaderAcceptedByOpcodeMap : Prop :=
  ∀ h : Word,
    ((∃ op, headerOp h = .ok op) ↔
      ∃ row ∈ opcodeMap, selects row h ∧ ¬ (row.1 = 0x20000000 ∧ h.extractLsb' 0 2 = 3)) ∧
    (∀ r1 ∈ opcodeMap, ∀ r2 ∈ opcodeMap, selects r1 h → selects r2 h → r1 = r2) ∧
    (∀ op, headerOp h = .ok op → (op.pattern, op.mask) ∈ opcodeMap ∧ selects (op.pattern, op.mask) h)

/-- A few words of R130's table and of the rules' examples, written out. -/
def Obligations.ExampleWordsDecode : Prop :=
  decode [0x01000003, 0x00000005] = .ok (.wrcsr 0x03 5, []) ∧
  decode [0x10000002, 0x00000000, 0x00000000, 0x00000101, 0x00FFFFFF] =
    .ok (.palLoad false [⟨0x00, 0, ⟨0, 0, 0⟩⟩, ⟨0x01, 1, ⟨255, 255, 255⟩⟩], []) ∧
  decode [0x20000001, 0x00020005, 0x00000000] = .ok (.surfCfg .pack4 5 2 0, []) ∧
  decode [0x30808080, 0x00010002] = .ok (.setpix 2 1 ⟨128, 128, 128⟩, []) ∧
  decode [0x42000000, 0x00020004] = .ok (.decYuyvh 4 2, [])

/-- An illegal header halts the engine with nothing but itself consumed; a `PAL_LOAD` with a reserved bit set in an entry
word halts it when its `2n` operand words are taken, whether they were all queued or the last of them came after a wait;
nothing else changes (R113, R122, R335). Which words are consumed is read from R113 (log entry 20). -/
def Obligations.IllegalCommandHalts : Prop :=
  ∀ (s : State) (h : Word),
    (∀ q, s.ready = true → s.cmdq = h :: q → (∀ op, headerOp h ≠ .ok op) →
      step s = .next { s with cmdq := q, halted := true }) ∧
    (headerOp h = .ok .palLoad → ∀ n (words : List Word), n = (h.extractLsb' 0 16).toNat → 2 * n ≤ words.length →
      (∃ k, k < n ∧
        ((words.getD (2 * k) 0).extractLsb' 16 16 ≠ 0 ∨ (words.getD (2 * k + 1) 0).extractLsb' 24 8 ≠ 0)) →
      (s.ready = true → s.cmdq = h :: words → step s = .next { s with cmdq := words.drop (2 * n), halted := true }) ∧
      (∀ taken, s.halted = false → s.seq = .operands (h :: taken) → taken.length ≤ 2 * n → words = taken ++ s.cmdq →
        step s = .next { s with cmdq := words.drop (2 * n), halted := true, seq := .idle }))

/-- `HALTED`: 0 at reset; an illegal command sets it, and a step sets it only on words that are no command; a halted engine,
whatever is pushed to it and however many steps it is given, consumes no word and changes no state; no answer of a
collaborator, no pop and no DisplaySink read clears it, reset does; the pin shows it, `STATUS` does not (R65). -/
def Obligations.HaltedBit : Prop :=
  State.reset.halted = false ∧
  (∀ (s : State) (h : Word) (q : List Word), s.ready = true → s.cmdq = h :: q → (∀ op, headerOp h ≠ .ok op) →
    ∃ t, step s = .next t ∧ t.halted = true) ∧
  (∀ (s t : State), step s = .next t → s.halted = false → t.halted = true →
    ∃ ws, decode ws ≠ .error .truncated ∧ (∀ r, decode ws ≠ .ok r) ∧
      (ws = s.cmdq ∨ ∃ taken, s.seq = .operands taken ∧ ws = taken ++ s.cmdq)) ∧
  (∀ (k : Nat) (ws : List Word) (s : State), s.halted = true →
    Host.Core.run Sys2Proof.core k (ws.foldl (fun t w => t.hostPush w) s) = .next { s with cmdq := s.cmdq ++ ws }) ∧
  (∀ (s : State) (who : Addressee) (v : Word) (a : ReadAnswer) (i : InitAnswer) (m : McuAnswer),
    (s.answerTotal who v).halted = s.halted ∧ (s.answerRead who a).halted = s.halted ∧
      (s.answerInit who i).halted = s.halted ∧ (s.answerMcu who m).halted = s.halted) ∧
  (∀ (s t : State) (w : Word), s.popRsp = some (w, t) ∨ s.popProg = some (w, t) → t.halted = s.halted) ∧
  (∀ (s t : State) (a : Nat) (b : Byte), s.dsRead a = .ok (b, t) → t.halted = s.halted) ∧
  (∀ (s : State) (b : Bool), s.haltedPin = s.halted ∧ s.assertReset.halted = false ∧
    ({ s with halted := b } : State).statusWord = s.statusWord)

/-- One step of an engine that is ready runs exactly the command that the words at the head of `CMDQ` spell, with those
words consumed; so does one whose header and some operand words were taken before (R33, R113). -/
def Obligations.StepRunsDecodedCommand : Prop :=
  ∀ (s : State) (i : Instr) (rest : List Word), i.wellFormed = true → s.halted = false →
    (s.seq = .idle → s.cmdq = encode i ++ rest → step s = exec i { s with cmdq := rest }) ∧
    (∀ taken, s.seq = .operands taken → operandsPending taken = true → taken ++ s.cmdq = encode i ++ rest →
      step s = exec i { s with cmdq := rest, seq := .idle })

/-- While operand words are missing the engine takes those that are there and waits, with no other change of state;
words that come later are added to them (R113 step 2, R386). The form of the wait is the model's (log entry 10). -/
def Obligations.OperandWordsAwaited : Prop :=
  ∀ (s : State) (words : List Word), s.halted = false → operandsPending words = true →
    (s.seq = .idle → s.cmdq = words → step s = .next { s with cmdq := [], seq := .operands words }) ∧
    (∀ taken, s.seq = .operands taken → taken ≠ [] → taken ++ s.cmdq = words →
      step s = .next { s with cmdq := [], seq := .operands words })

/-! ### The whole machine -/

/-- Every step from a sound state leads to a sound state: canonical memories and row buffers inside their sizes, legal
`CTRL` and `ACC`, a surface that fits, the palette's invariants, a diffusion row inside the surface, `FAILS` beside a
failure code, unused bits zero, waiting jobs inside their buffers. -/
def Obligations.EveryStepKeepsTheInvariant : Prop :=
  ∀ s t : State, s.Inv → step s = .next t → t.Inv

/-- The reset state is sound. -/
def Obligations.ResetStateIsSound : Prop := State.reset.Inv

/-- A step never faults, and the one refusal is that of an answer of the ByteSource that breaks the protocol (R330, R351). From a
sound state it is refused only where a byte-stream decode runs and needs a byte of its frame, the answers before it have
served the bytes up to there, and the answer that is to bring it has a wrong byte count, or more bytes than the request: the
rest of the line, or the ceiling. The refusal is the model's form of U3 (log entry 12). -/
def Obligations.StepStopsOnlyOnBrokenProtocol : Prop :=
  (∀ s : State, (∃ t, step s = .next t) ∨ step s = .refused .byteSourceProtocol) ∧
  (∀ s : State, s.Inv → step s = .refused .byteSourceProtocol → s.halted = false ∧
    ∃ k w h pos as bad rest, s.runsStream k w h pos ∧ s.bsReads = as ++ bad :: rest ∧
      answersServe k.ceiling (k.lineBytes w.toNat) pos as = true ∧
      pos + (streamOf as).length < k.lineBytes w.toNat * k.rows h.toNat ∧
      breaksProtocol k.ceiling (k.lineBytes w.toNat) (pos + (streamOf as).length) bad)

/-- `CMDCNT`: every command that retires adds 1 modulo 2^32, `NOP` and `RDCSR` included; one that still waits has not
counted, and counts when it has gone on to its end; an illegal command does not count; `RDCSR CMDCNT` reads the count
before itself (R43). -/
def Obligations.CmdcntCountsRetiredCommands : Prop :=
  (∀ (i : Instr) (s t : State), s.seq = .idle → exec i s = .next t →
    t.cmdcnt = if t.seq = .idle then s.cmdcnt + 1 else s.cmdcnt) ∧
  (∀ s t : State, s.halted = false → s.decoding = true → step s = .next t →
    t.cmdcnt = if t.seq = .idle then s.cmdcnt + 1 else s.cmdcnt) ∧
  (∀ s t : State, step s = .next t → s.halted = false → t.halted = true → t.cmdcnt = s.cmdcnt) ∧
  (∀ s : State, ∃ t, exec (.rdcsr 0x02) s = .next t ∧ t.rspq = s.rspq ++ [s.cmdcnt] ∧ t.cmdcnt = s.cmdcnt + 1) ∧
  State.reset.cmdcnt = 0

/-- `STATUS` after a command has retired: `NOP` and `RDCSR` leave it; any other with a failure code has `FAILS` set; the
sticky flags are cleared by `CLRSTAT` alone, and `FAILS` is set by a failure alone (R34, R42, R151). -/
def Obligations.StatusFlagsAreSticky : Prop :=
  ∀ (i : Instr) (s t : State), exec i s = .next t →
    (i.isQuiet = true → t.statusWord = s.statusWord) ∧
    (i.isQuiet = false → s.seq = .idle → t.seq = .idle → t.fails = true ∨ t.err = .ok) ∧
    ((∀ m, i ≠ .clrstat m) →
      (s.fails = true → t.fails = true) ∧ (s.notfound = true → t.notfound = true) ∧ (s.sat = true → t.sat = true)) ∧
    (t.err = .ok → t.fails = true → s.fails = true)

/-- What each kind of command leaves alone, register by register and queue by queue (R31, R40, R42, R55, R58, R60, R64, R151, R153,
R311): the result registers are written by the commands with a result there; `ERR` and `FAILS` by all but `NOP` and `RDCSR`,
`NOTFOUND` and `SAT` by the searches, the lookups and `CLRSTAT`; the palette by the three commands that rebuild it, the
surface configuration by `SURF_CFG`, `CTRL` and `ACC` by `WRCSR`, `BDERR` and the block decoder's answers by `DEC_JPEG`, `RSPQ`
by `RDCSR`, `PROGQ` and the requests by the decode commands, the ByteSource's answers by the byte-stream decoders,
`CUR_VALID` by the users of the view and the commands that invalidate it, the row buffers, the current row and the model's mark
of a decode's rows by the users of the view; the parameters, `CMDQ`, `HALTED` and the note of dropped requests by none. The
memories have a statement of their own. -/
def Obligations.OnlyItsCommandsWriteIt : Prop :=
  ∀ (i : Instr) (s t : State), exec i s = .next t →
    (i.writesR0 = false → t.r0 = s.r0) ∧
    (i.writesR123 = false → t.r1 = s.r1 ∧ t.r2 = s.r2 ∧ t.r3 = s.r3) ∧
    (i.isQuiet = true → t.err = s.err ∧ t.fails = s.fails) ∧
    (i.writesNotfound = false → t.notfound = s.notfound) ∧
    (i.writesSat = false → t.sat = s.sat) ∧
    (i.writesPalette = false → t.pal = s.pal ∧ t.mono = s.mono) ∧
    ((∀ f w h p, i ≠ .surfCfg f w h p) → t.fmt = s.fmt ∧ t.surfW = s.surfW ∧ t.surfH = s.surfH ∧ t.plut = s.plut) ∧
    ((∀ c v, i ≠ .wrcsr c v) → t.ctrl = s.ctrl ∧ t.acc = s.acc) ∧
    ((∀ w h, i ≠ .decJpeg w h) → t.bderr = s.bderr ∧ t.bdInits = s.bdInits ∧ t.bdMcus = s.bdMcus) ∧
    ((∀ n, i ≠ .rdcsr n) → t.rspq = s.rspq) ∧
    (i.isDecode = false → t.progq = s.progq ∧ t.reqs = s.reqs ∧ t.seq = s.seq) ∧
    (i.isStream = false → t.bsTotals = s.bsTotals ∧ t.bsReads = s.bsReads) ∧
    (i.writesCurValid = false → t.curValid = s.curValid) ∧
    (i.usesView = false → t.thisRow = s.thisRow ∧ t.nextRow = s.nextRow ∧ t.curRow = s.curRow) ∧
    (i.usesView = false → t.rowsOfDecode = s.rowsOfDecode) ∧
    (i.usesView = false → (∀ x y v, i ≠ .setidx x y v) → t.choices = s.choices) ∧
    t.params = s.params ∧ t.cmdq = s.cmdq ∧ t.halted = s.halted ∧ t.dropped = s.dropped

/-- Which bytes a command may change (R61, R81, R91, R216): none outside the surface, in the frame buffer or in the
DisplaySink's copy; and a command that neither writes a pixel nor configures a surface leaves every byte of the frame buffer
as it was, and, `FLUSH` apart, every byte of the copy. That the copy changes at no other command is the model's choice: R95
lets the hardware commit a byte at any moment, and the model draws that only where it can be seen, at a pixel write and at a
DisplaySink read (log entry 2). -/
def Obligations.OnlyPixelWritersChangeMemory : Prop :=
  ∀ (i : Instr) (s t : State), exec i s = .next t →
    (∀ a, s.surfBytes ≤ a → t.surfBytes ≤ a → t.memRead a = s.memRead a ∧ t.sinkByte a = s.sinkByte a) ∧
    (i.usesView = false → (∀ x y v, i ≠ .setidx x y v) → (∀ f w h p, i ≠ .surfCfg f w h p) →
      ∀ a, t.memRead a = s.memRead a ∧ (i ≠ .flush → t.sinkByte a = s.sinkByte a))

/-! ### Reset -/

/-- What `RDCSR` reads of each register right after reset, and the rest of the reset state (R70). The values of `CAP0` to `CAP2`
are those of R10's reference parameters, which the model takes at reset (log entries 7 and 14). The row buffers and the frame
buffers are not spoken of: the spec leaves them unspecified. -/
def Obligations.ResetValues : Prop :=
  (∀ n v, (n, v) ∈ [((0x00 : Byte), (0x50514401 : Word)), (0x01, 0), (0x02, 0), (0x03, 0), (0x04, 0x0000E000), (0x05, 0),
      (0x06, 0), (0x07, 0), (0x08, 0), (0x09, 0), (0x0A, 262144), (0x0B, 0x04000400), (0x0C, 49152), (0x10, 0), (0x11, 0),
      (0x12, 0), (0x13, 0)] →
    ∃ t, exec (.rdcsr n) State.reset = .next t ∧ t.rspq = [v]) ∧
  State.reset.pal = [] ∧ State.reset.cmdq = [] ∧ State.reset.rspq = [] ∧ State.reset.progq = [] ∧
  State.reset.halted = false ∧ State.reset.seq = .idle

/-- Asserting the reset pin, whatever the engine was doing, gives the reset state but for the implementation's parameters, what
belongs to the world outside and the model's own counters; a request that was pending is dropped, whichever of the four it
is: its answer, if it has come, is gone, and if it has not, the request is noted; the answer to a dropped request is ignored
whenever it comes, and only the note goes, whatever the engine does then; and that it never comes changes nothing for the
answer to a pending request (R370, R371). R371 names `tryRead`, `init` and `mcu`: that a pending `totalAvailable` is dropped
too, and its answer ignored, is the inference of log entry 13. That the unspecified memories and row buffers are empty then,
and that those fields of the model's own are kept, is the model's choice (log entries 1, 4 and 13). -/
def Obligations.ResetPinFromAnyState : Prop :=
  ∀ s : State,
    { s.assertReset with
      params := Params.reference, bsTotals := [], bsReads := [], bdInits := [], bdMcus := [], reqs := [], dropped := []
      choices := 0 } = State.reset ∧
    s.assertReset.params = s.params ∧ s.assertReset.reqs = s.reqs ∧ s.assertReset.choices = s.choices ∧
    (s.decoding = false → s.assertReset.dropped = s.dropped) ∧
    ((∀ k w h, s.seq ≠ .awaitTotal k w h) → s.assertReset.bsTotals = s.bsTotals) ∧
    ((∀ j, s.seq ≠ .awaitRead j) → s.assertReset.bsReads = s.bsReads) ∧
    ((∀ w h, s.seq ≠ .awaitInit w h) → s.assertReset.bdInits = s.bdInits) ∧
    ((∀ j, s.seq ≠ .awaitMcu j) → s.assertReset.bdMcus = s.bdMcus) ∧
    (∀ k w h, s.seq = .awaitTotal k w h →
      RequestDropped .total s.bsTotals s.assertReset.bsTotals s.dropped s.assertReset.dropped) ∧
    (∀ j, s.seq = .awaitRead j → RequestDropped .read s.bsReads s.assertReset.bsReads s.dropped s.assertReset.dropped) ∧
    (∀ w h, s.seq = .awaitInit w h →
      RequestDropped .init s.bdInits s.assertReset.bdInits s.dropped s.assertReset.dropped) ∧
    (∀ j, s.seq = .awaitMcu j → RequestDropped .mcu s.bdMcus s.assertReset.bdMcus s.dropped s.assertReset.dropped) ∧
    (∀ v, s.answerTotal .dropped v = { s with dropped := s.dropped.erase .total }) ∧
    (∀ a, s.answerRead .dropped a = { s with dropped := s.dropped.erase .read }) ∧
    (∀ a, s.answerInit .dropped a = { s with dropped := s.dropped.erase .init }) ∧
    (∀ a, s.answerMcu .dropped a = { s with dropped := s.dropped.erase .mcu }) ∧
    (∀ k w h v, s.seq = .awaitTotal k w h → s.answerTotal .pending v = { s with bsTotals := s.bsTotals ++ [v] }) ∧
    (∀ j a, s.seq = .awaitRead j → s.answerRead .pending a = { s with bsReads := s.bsReads ++ [a] }) ∧
    (∀ w h a, s.seq = .awaitInit w h → s.answerInit .pending a = { s with bdInits := s.bdInits ++ [a] }) ∧
    (∀ j a, s.seq = .awaitMcu j → s.answerMcu .pending a = { s with bdMcus := s.bdMcus ++ [a] })

/-! ### System commands -/

/-- `WRCSR` (R152, R44, R45): `CTRL` takes a legal value, and the diffusion state is invalidated when `QMODE` changes; `ACC`
takes the lesser of the value and 65536; every other number, and an illegal `CTRL` value, fails with `E_CSR` and changes
nothing else. -/
def Obligations.WrcsrWritesCtrlAndAcc : Prop :=
  ∀ (csr : Byte) (v : Word) (s : State),
    exec (.wrcsr csr v) s = .next
      (if csr = 0x03 ∧ v.toNat < 32 ∧ v.toNat % 4 ≠ 3 then
        { s with
          ctrl := v, curValid := decide (v.toNat % 4 = s.ctrl.toNat % 4) && s.curValid, err := .ok
          cmdcnt := s.cmdcnt + 1 }
      else if csr = 0x04 then
        { s with acc := BitVec.ofNat 32 (min v.toNat 65536), err := .ok, cmdcnt := s.cmdcnt + 1 }
      else { s with err := .csr, fails := true, cmdcnt := s.cmdcnt + 1 })

/-- `RDCSR` pushes one word, counts, and changes nothing else; the word is, register by register, what R41 to R52 say, and 0 for
an unassigned number (R53, R153). -/
def Obligations.RdcsrReadsEachRegister : Prop :=
  ∀ (n : Byte) (s : State), ∃ v, exec (.rdcsr n) s = .next { s with rspq := s.rspq ++ [v], cmdcnt := s.cmdcnt + 1 } ∧
    (n = 0x00 → v = 0x50514401) ∧
    (n = 0x01 → v.toNat = s.err.value.toNat + 256 * s.bderr.toNat + 65536 * s.fails.toNat + 131072 * s.notfound.toNat +
      262144 * s.sat.toNat) ∧
    (n = 0x02 → v = s.cmdcnt) ∧ (n = 0x03 → v = s.ctrl) ∧ (n = 0x04 → v = s.acc) ∧
    (n = 0x05 → v.toNat = s.surfW.toNat + 65536 * s.surfH.toNat) ∧
    (n = 0x06 → v.toNat = match s.fmt with | .dense8 => 0 | .pack4 => 1 | .plane2 => 2) ∧
    (n = 0x07 → v = s.plut) ∧
    (n = 0x08 → s.pal.length ≤ 254 → v.toNat = s.pal.length + 256 * s.mono.toNat) ∧
    (n = 0x09 → v.toNat = if s.curValid then s.curRow.toNat + 65536 else 0) ∧
    (s.params.legal = true →
      (n = 0x0A → v.toNat = s.params.fbBytes) ∧ (n = 0x0B → v.toNat = s.params.rowMax + 65536 * s.params.lineMax)) ∧
    (n = 0x0C → s.params.mrowBytes < 2 ^ 32 → v.toNat = s.params.mrowBytes) ∧
    (n = 0x10 → v = s.r0) ∧ (n = 0x11 → v = s.r1) ∧ (n = 0x12 → v = s.r2) ∧ (n = 0x13 → v = s.r3) ∧
    (0x0D ≤ n.toNat → n.toNat ≤ 0x0F ∨ 0x14 ≤ n.toNat → v = 0)

/-- `NOP` changes nothing but the count (R150). `CLRSTAT` clears the flags of its mask and `ERR`, as `STATUS` reads, and
changes nothing else (R154). -/
def Obligations.NopAndClrstat : Prop :=
  ∀ s : State,
    exec .nop s = .next { s with cmdcnt := s.cmdcnt + 1 } ∧
    ∀ m : BitVec 3, ∃ t, exec (.clrstat m) s = .next t ∧
      t.statusWord = s.statusWord &&& ~~~(m.setWidth 32 <<< 16) &&& 0xFFFFFF00 ∧ t.err = .ok ∧
      { t with err := s.err, fails := s.fails, notfound := s.notfound, sat := s.sat } = { s with cmdcnt := s.cmdcnt + 1 }

/-! ### Palette -/

/-- `PAL_LOAD` (R172): more than 254 entries fail with `E_PALSIZE`, else a repeated index fails with `E_PALDUP`, both leaving
the palette empty; else entry `k` is built from the `k`-th triple (R171). Nothing else changes. -/
def Obligations.PalLoadBuildsTheTable : Prop :=
  ∀ (mono : Bool) (es : List PalSpec) (s : State),
    (254 < es.length → exec (.palLoad mono es) s =
      .next { s with pal := [], mono := false, err := .palSize, fails := true, cmdcnt := s.cmdcnt + 1 }) ∧
    (es.length ≤ 254 → ¬ (es.map (·.index)).Nodup → exec (.palLoad mono es) s =
      .next { s with pal := [], mono := false, err := .palDup, fails := true, cmdcnt := s.cmdcnt + 1 }) ∧
    (es.length ≤ 254 → (es.map (·.index)).Nodup → ∃ pal, exec (.palLoad mono es) s =
        .next { s with pal := pal, mono := mono, err := .ok, cmdcnt := s.cmdcnt + 1 } ∧
      pal.length = es.length ∧
      ∀ (k : Nat) (x : PalSpec), es[k]? = some x →
        ∃ e, pal[k]? = some e ∧ BuiltFrom s.params mono x.name x.index x.rgb e)

/-- `NEAR_LAB` (R173, R174): on an empty palette 255, a zero residual and `NOTFOUND`; else the first of the nearest entries,
which exists, with the saturated residual, `SAT` noting a saturation. Nothing else changes. -/
def Obligations.NearLabFindsTheFirstNearest : Prop :=
  ∀ (c : Lab) (s : State),
    (s.pal = [] → exec (.nearLab c) s = .next
      { s with r0 := 255, r1 := 0, r2 := 0, r3 := 0, notfound := true, err := .ok, cmdcnt := s.cmdcnt + 1 }) ∧
    (s.pal ≠ [] → ∃ p e, FirstNearest s.mono s.pal c p e) ∧
    (∀ p e, FirstNearest s.mono s.pal c p e → ∃ resid sat,
      exec (.nearLab c) s = .next
        { s with
          r0 := BitVec.ofNat 32 e.index.toNat, r1 := resid.L, r2 := resid.a, r3 := resid.b, sat := sat, err := .ok
          cmdcnt := s.cmdcnt + 1 } ∧
      HoldsTriple resid (c.L.toInt - e.lab.L.toInt) (c.a.toInt - e.lab.a.toInt) (c.b.toInt - e.lab.b.toInt) ∧
      (sat = true ↔ s.sat = true ∨
        Clamps (c.L.toInt - e.lab.L.toInt) (c.a.toInt - e.lab.a.toInt) (c.b.toInt - e.lab.b.toInt)))

/-- `NEAR_RGB` (R175): `R0` is what `NEAR_LAB` of the converted colour gives; the other result registers keep their values;
everything else is as after that `NEAR_LAB`. That `SAT` is among it is read from R173 and R42 (log entry 9). -/
def Obligations.NearRgbConvertsAndSearches : Prop :=
  ∀ (c : RGB) (s : State), ∃ t u, exec (.nearRgb c) s = .next t ∧ exec (.nearLab (s.params.toLab c)) s = .next u ∧
    t = { u with r1 := s.r1, r2 := s.r2, r3 := s.r3 } ∧
    (s.pal = [] → t.r0 = 255 ∧ t.notfound = true) ∧
    (∀ p e, FirstNearest s.mono s.pal (s.params.toLab c) p e → t.r0.toNat = e.index.toNat ∧ t.notfound = s.notfound)

/-- The palette round trip (R182): searching the stored Lab of an entry that differs from every earlier one (in `L`, in
monochrome mode) finds that entry with zero residual. -/
def Obligations.PaletteRoundTrip : Prop :=
  ∀ (s : State) (p : Nat) (e : PalEntry), s.pal[p]? = some e →
    (∀ (q : Nat) (f : PalEntry), q < p → s.pal[q]? = some f → if s.mono then f.lab.L ≠ e.lab.L else f.lab ≠ e.lab) →
    (s.mono = true → ∀ f ∈ s.pal, f.lab.a = 0 ∧ f.lab.b = 0) →
    exec (.nearLab e.lab) s = .next
      { s with
        r0 := BitVec.ofNat 32 e.index.toNat, r1 := 0, r2 := 0, r3 := 0, err := .ok, cmdcnt := s.cmdcnt + 1 }

/-- `TORGB`, `TOLAB`, `INDEXOF` (R170, R176 to R178): the entry found is the first in storage order; a miss gives the sentinel and
`NOTFOUND`, but `CLEAN` gives the palette size. Nothing else changes. -/
def Obligations.LookupsFindTheFirstEntry : Prop :=
  ∀ (k : Byte) (s : State),
    (∀ e, FirstWith s.pal (fun f => f.index = k) e →
      exec (.torgb k) s = .next
        { s with
          r0 := BitVec.ofNat 32 (e.rgb.r.toNat * 65536 + e.rgb.g.toNat * 256 + e.rgb.b.toNat), err := .ok
          cmdcnt := s.cmdcnt + 1 } ∧
      exec (.tolab k) s = .next
        { s with r1 := e.lab.L, r2 := e.lab.a, r3 := e.lab.b, err := .ok, cmdcnt := s.cmdcnt + 1 }) ∧
    ((∀ e ∈ s.pal, e.index ≠ k) →
      exec (.torgb k) s = .next { s with r0 := 0, notfound := true, err := .ok, cmdcnt := s.cmdcnt + 1 } ∧
      exec (.tolab k) s = .next
        { s with r1 := 0, r2 := 0, r3 := 0, notfound := true, err := .ok, cmdcnt := s.cmdcnt + 1 }) ∧
    (∀ e, FirstWith s.pal (fun f => f.name = k) e →
      exec (.indexof k) s = .next
        { s with r0 := BitVec.ofNat 32 e.index.toNat, err := .ok, cmdcnt := s.cmdcnt + 1 }) ∧
    ((∀ e ∈ s.pal, e.name ≠ k) →
      exec (.indexof k) s = .next
        (if k = 0xFE then { s with r0 := BitVec.ofNat 32 s.pal.length, err := .ok, cmdcnt := s.cmdcnt + 1 }
        else { s with r0 := 255, notfound := true, err := .ok, cmdcnt := s.cmdcnt + 1 }))

/-- `NORM_RGB` (R180): between endpoints that exist and are in order in every channel, every entry is rebuilt from its rescaled
colour, all from the old table; else it fails with `E_PIN` and changes nothing else. -/
def Obligations.NormRgbRescalesEveryEntry : Prop :=
  ∀ (pb pw : Bool) (s : State),
    (∀ lo hi, Endpoint pb s.pal 0x00 (·.rgb) ⟨0, 0, 0⟩ lo → Endpoint pw s.pal 0x01 (·.rgb) ⟨255, 255, 255⟩ hi →
      lo.r.toNat < hi.r.toNat → lo.g.toNat < hi.g.toNat → lo.b.toNat < hi.b.toNat →
      ∃ pal, exec (.normRgb pb pw) s = .next { s with pal := pal, err := .ok, cmdcnt := s.cmdcnt + 1 } ∧
        pal.length = s.pal.length ∧
        ∀ (k : Nat) (e : PalEntry), s.pal[k]? = some e →
          ∃ f c, pal[k]? = some f ∧ RgbRescaled lo hi e.rgb c ∧ BuiltFrom s.params s.mono e.name e.index c f) ∧
    ((¬ ∃ lo hi, Endpoint pb s.pal 0x00 (·.rgb) ⟨0, 0, 0⟩ lo ∧ Endpoint pw s.pal 0x01 (·.rgb) ⟨255, 255, 255⟩ hi ∧
        lo.r.toNat < hi.r.toNat ∧ lo.g.toNat < hi.g.toNat ∧ lo.b.toNat < hi.b.toNat) →
      exec (.normRgb pb pw) s = .next { s with err := .pin, fails := true, cmdcnt := s.cmdcnt + 1 })

/-- `NORM_RGB 1, 1` on a colour palette makes the first entry named Black exactly (0, 0, 0) and the first named White exactly
(255, 255, 255) (R180). -/
def Obligations.NormRgbPinsBlackAndWhite : Prop :=
  ∀ (s t : State), s.mono = false → exec (.normRgb true true) s = .next t → t.err = .ok →
    (∃ e, FirstWith t.pal (fun f => f.name = 0x00) e ∧ e.rgb = ⟨0, 0, 0⟩) ∧
    (∃ e, FirstWith t.pal (fun f => f.name = 0x01) e ∧ e.rgb = ⟨255, 255, 255⟩)

/-- `NORM_LAB` (R181): between endpoints that exist and are in order, the lightness of every entry is rescaled to 0 to 100 and
clamped, `a` and `b` are kept, and the colour is recomputed, as the grey of the lightness in monochrome mode; else it fails
with `E_PIN` and changes nothing else. -/
def Obligations.NormLabRescalesEveryEntry : Prop :=
  ∀ (pb pw : Bool) (s : State),
    (∀ lo hi, Endpoint pb s.pal 0x00 (fun e => e.lab.L.toInt) 0 lo →
      Endpoint pw s.pal 0x01 (fun e => e.lab.L.toInt) 6553600 hi → lo < hi →
      ∃ pal, exec (.normLab pb pw) s = .next { s with pal := pal, err := .ok, cmdcnt := s.cmdcnt + 1 } ∧
        pal.length = s.pal.length ∧
        ∀ (k : Nat) (e : PalEntry), s.pal[k]? = some e →
          ∃ f, pal[k]? = some f ∧ f.name = e.name ∧ f.index = e.index ∧ f.lab.a = e.lab.a ∧ f.lab.b = e.lab.b ∧
            f.lab.L.toInt = max 0 (min (Int.tdiv ((e.lab.L.toInt - lo) * 6553600) (hi - lo)) 6553600) ∧
            f.rgb = if s.mono then
              ⟨s.params.toGray f.lab.L, s.params.toGray f.lab.L, s.params.toGray f.lab.L⟩
              else s.params.toRgb f.lab) ∧
    ((¬ ∃ lo hi, Endpoint pb s.pal 0x00 (fun e => e.lab.L.toInt) 0 lo ∧
        Endpoint pw s.pal 0x01 (fun e => e.lab.L.toInt) 6553600 hi ∧ lo < hi) →
      exec (.normLab pb pw) s = .next { s with err := .pin, fails := true, cmdcnt := s.cmdcnt + 1 })

/-- `DERIVE` (R185, as a host procedure: log entry 21). A desired name that the base palette lacks, not allowed to be missing:
nothing is returned and nothing loaded, the engine still holds the base. Otherwise the entries of the names found are
returned, with the base's indices and the colours desired, a missing name being left out, and they are loaded as `PAL_LOAD`
loads them; that this holds of more than 65535 of them too, which no words spell, is the model's choice (log entry 26). -/
def Obligations.DeriveBuildsOrRefuses : Prop :=
  ∀ (s : State) (desired : List (Byte × RGB)) (allowMissing forceMono : Bool), s.pal.length ≤ 254 →
    ((∃ d ∈ desired, ∀ i, ¬ DeriveFinds s.pal d.1 i) → allowMissing = false →
      ∃ t, derive desired allowMissing forceMono s = (none, t) ∧ t.pal = s.pal ∧ t.mono = s.mono ∧ t.rspq = s.rspq) ∧
    ((∀ d ∈ desired, ∃ i, DeriveFinds s.pal d.1 i) ∨ allowMissing = true →
      ∃ es t u, derive desired allowMissing forceMono s = (some es, t) ∧ DeriveEntries s.pal desired es ∧
        exec (.palLoad forceMono es) s = .next u ∧ t.pal = u.pal ∧ t.mono = u.mono ∧ t.err = u.err ∧ t.rspq = s.rspq)

/-! ### Surface -/

/-- `SURF_CFG` (R210, R83): a surface that fits is configured, its bytes are 0 in `FB` and in `FBC`, the diffusion state is
invalidated; one that does not fit fails with `E_SIZE` and changes nothing else. -/
def Obligations.SurfCfgConfiguresAndClears : Prop :=
  ∀ (fmt : Fmt) (w h : Half) (plut : Word) (s : State),
    (w.toNat ≤ s.params.rowMax → surfaceSize fmt w.toNat h.toNat ≤ s.params.fbBytes →
      ∃ t, exec (.surfCfg fmt w h plut) s = .next t ∧
        t = { s with
          fmt := fmt, surfW := w, surfH := h, plut := plut, curValid := false, err := .ok, cmdcnt := s.cmdcnt + 1
          fb := t.fb, fbc := t.fbc } ∧
        ∀ a, t.memRead a = (if a < surfaceSize fmt w.toNat h.toNat then 0 else s.memRead a) ∧
          t.sinkByte a = (if a < surfaceSize fmt w.toNat h.toNat then 0 else s.sinkByte a)) ∧
    (s.params.rowMax < w.toNat ∨ s.params.fbBytes < surfaceSize fmt w.toNat h.toNat →
      exec (.surfCfg fmt w h plut) s = .next { s with err := .size, fails := true, cmdcnt := s.cmdcnt + 1 })

/-- `SETIDX` (R212, R214, R84 to R86): outside the surface nothing but retirement; inside, only the bytes of the pixel change,
each as its format says: the whole byte, one nibble, or one bit in each plane by the least matching `PLUT` byte. The
DisplaySink's copy of such a byte stays, or takes the value overwritten (R95); that it stays at every other byte is the
model's choice (log entry 2). -/
def Obligations.SetidxWritesOnlyItsPixel : Prop :=
  ∀ (x y : Half) (v : Byte) (s : State),
    (¬ (x.toNat < s.surfW.toNat ∧ y.toNat < s.surfH.toNat) →
      exec (.setidx x y v) s = .next { s with err := .ok, cmdcnt := s.cmdcnt + 1 }) ∧
    (x.toNat < s.surfW.toNat → y.toNat < s.surfH.toNat →
      ∃ t, exec (.setidx x y v) s = .next t ∧
        t = { s with err := .ok, cmdcnt := s.cmdcnt + 1, fb := t.fb, fbc := t.fbc, choices := t.choices } ∧
        (∀ a, a ∉ s.pixelBytes x.toNat y.toNat → t.memRead a = s.memRead a ∧ t.sinkByte a = s.sinkByte a) ∧
        (s.fbc.wf = true → ∀ a ∈ s.pixelBytes x.toNat y.toNat, t.sinkByte a = s.sinkByte a ∨ t.sinkByte a = s.memRead a) ∧
        (s.fb.wf = true → ∀ (k : Nat) (a : Nat), (s.pixelBytes x.toNat y.toNat)[k]? = some a →
          (s.fmt = .dense8 → t.memRead a = v) ∧
          (s.fmt = .pack4 → (t.memRead a).toNat =
            if x.toNat % 2 = 0 then v.toNat % 16 * 16 + (s.memRead a).toNat % 16
            else (s.memRead a).toNat / 16 * 16 + v.toNat % 16) ∧
          (s.fmt = .plane2 → (∀ j < 4, plutByte s.plut j ≠ v) → t.memRead a = s.memRead a) ∧
          (s.fmt = .plane2 → ∀ j < 4, plutByte s.plut j = v → (∀ i < j, plutByte s.plut i ≠ v) →
            ∀ b < 8, (t.memRead a).getLsbD b =
              if b = 7 - x.toNat % 8 then decide (j / 2 ^ k % 2 = 1) else (s.memRead a).getLsbD b)))

/-- `GETIDX` (R213, R215): 0 outside the surface; inside, the byte, the nibble, or the `PLUT` byte of the pixel's bit pair. Nothing
else changes. -/
def Obligations.GetidxReadsThePixel : Prop :=
  ∀ (x y : Half) (s : State), ∃ v : Byte,
    exec (.getidx x y) s = .next { s with r0 := BitVec.ofNat 32 v.toNat, err := .ok, cmdcnt := s.cmdcnt + 1 } ∧
    (¬ (x.toNat < s.surfW.toNat ∧ y.toNat < s.surfH.toNat) → v = 0) ∧
    (x.toNat < s.surfW.toNat → y.toNat < s.surfH.toNat →
      ∀ a, (s.pixelBytes x.toNat y.toNat)[0]? = some a →
        (s.fmt = .dense8 → v = s.memRead a) ∧
        (s.fmt = .pack4 → v.toNat =
          if x.toNat % 2 = 0 then (s.memRead a).toNat / 16 else (s.memRead a).toNat % 16) ∧
        (s.fmt = .plane2 → ∀ c, (s.pixelBytes x.toNat y.toNat)[1]? = some c →
          v = plutByte s.plut (((s.memRead a).getLsbD (7 - x.toNat % 8)).toNat +
            2 * ((s.memRead c).getLsbD (7 - x.toNat % 8)).toNat)))

/-- Round trips (R218): what `GETIDX` reads after `SETIDX` at the same pixel: the index in `DENSE8`, its low nibble in `PACK4`,
the index in `PLANE2` when `PLUT` has it. -/
def Obligations.PixelRoundTrip : Prop :=
  ∀ (x y : Half) (v : Byte) (s t u : State), s.fb.wf = true → x.toNat < s.surfW.toNat → y.toNat < s.surfH.toNat →
    exec (.setidx x y v) s = .next t → exec (.getidx x y) t = .next u →
    (s.fmt = .dense8 → u.r0.toNat = v.toNat) ∧
    (s.fmt = .pack4 → u.r0.toNat = v.toNat % 16) ∧
    (s.fmt = .plane2 → (∃ j, j < 4 ∧ plutByte s.plut j = v) → u.r0.toNat = v.toNat)

/-- Pixels do not disturb each other (R85, R86, R218): after `SETIDX` at one pixel, `GETIDX` of any other pixel, inside the surface
or outside it, reads what it read before. -/
def Obligations.PixelsAreIndependent : Prop :=
  ∀ (x y x' y' : Half) (v : Byte) (s t u w : State), s.fb.wf = true → ¬ (x' = x ∧ y' = y) →
    exec (.setidx x y v) s = .next t → exec (.getidx x' y') t = .next u → exec (.getidx x' y') s = .next w → u.r0 = w.r0

/-- `FLUSH` (R95, R216): the surface bytes of the DisplaySink's copy become those of the frame buffer; nothing else changes. -/
def Obligations.FlushCommitsTheSurface : Prop :=
  ∀ s : State, ∃ t, exec .flush s = .next t ∧
    t = { s with err := .ok, cmdcnt := s.cmdcnt + 1, fbc := t.fbc } ∧
    ∀ a, t.sinkByte a = if a < s.surfBytes then s.memRead a else s.sinkByte a

/-- `RDFB` (R217): a byte of the frame buffer, 0 at or above `SURFBYTES`; nothing else changes. -/
def Obligations.RdfbReadsAByte : Prop :=
  ∀ (addr : BitVec 24) (s : State),
    exec (.rdfb addr) s = .next
      { s with
        r0 := if addr.toNat < surfaceSize s.fmt s.surfW.toNat s.surfH.toNat then
          BitVec.ofNat 32 (s.memRead addr.toNat).toNat else 0
        err := .ok, cmdcnt := s.cmdcnt + 1 }

/-- After a `FLUSH` the DisplaySink reads at every surface address what the engine wrote (R95, R382). -/
def Obligations.DisplayReadsAfterFlush : Prop :=
  ∀ (s t u : State) (a : Nat) (b : Byte), s.fb.wf = true → s.fbc.wf = true → exec .flush s = .next t →
    a < s.surfBytes → a < s.params.fbBytes → t.dsRead a = .ok (b, u) → b = s.memRead a

/-- A DisplaySink read answers, at a surface address, the committed byte or the engine's current one, faults beyond the frame
buffer, and disturbs nothing the engine can see (R95, R97, R356). The fault is the model's form of R356's bound, the early
commit that of R95 (log entries 22 and 2). -/
def Obligations.DisplayReadIsHarmless : Prop :=
  ∀ (s : State) (a : Nat), s.fbc.wf = true →
    (s.params.fbBytes ≤ a → s.dsRead a = .error .displayAddress) ∧
    (a < s.params.fbBytes → ∃ b u, s.dsRead a = .ok (b, u) ∧
      (a < s.surfBytes → b = s.sinkByte a ∨ b = s.memRead a) ∧
      { u with fbc := s.fbc, choices := s.choices } = s ∧ (∀ c, c ≠ a → u.sinkByte c = s.sinkByte c))

/-! ### Quantizing view -/

/-- `DIFF_RESET` clears `CUR_VALID` and nothing else (R250). `RDROW` reads a cell of `THIS` or `NEXT` while the diffusion state is
valid and the column inside the surface, else zeros, and changes nothing else (R251); so after `DIFF_RESET` it reads
zeros. -/
def Obligations.DiffResetAndRdrow : Prop :=
  ∀ s : State,
    exec .diffReset s = .next { s with curValid := false, err := .ok, cmdcnt := s.cmdcnt + 1 } ∧
    ∀ (sel : Bool) (x : Half), ∃ e, exec (.rdrow sel x) s = .next
        { s with r1 := e.L, r2 := e.a, r3 := e.b, err := .ok, cmdcnt := s.cmdcnt + 1 } ∧
      (s.curValid = true → x.toNat < s.surfW.toNat →
        e = if sel then s.nextRow.entry x.toNat else s.thisRow.entry x.toNat) ∧
      (s.curValid = false ∨ s.surfW.toNat ≤ x.toNat → e = Lab.zero)

/-- `SETPIX` outside the surface does nothing but retire: no row management, no search, no flag (R240). -/
def Obligations.SetpixOutsideDoesNothing : Prop :=
  ∀ (x y : Half) (c : RGB) (s : State), ¬ (x.toNat < s.surfW.toNat ∧ y.toNat < s.surfH.toNat) →
    exec (.setpix x y c) s = .next { s with err := .ok, cmdcnt := s.cmdcnt + 1 }

/-- `SETPIX` inside the surface in `DIRECT` mode (R240, R246): the index `NEAR_RGB` finds is stored as `SETIDX` stores it, with
the flags of that search, `SAT` among them (log entry 9); nothing else changes. -/
def Obligations.SetpixDirectStoresTheNearest : Prop :=
  ∀ (x y : Half) (c : RGB) (s : State), x.toNat < s.surfW.toNat → y.toNat < s.surfH.toNat → s.ctrl.toNat % 4 = 0 →
    ∃ t n m, exec (.setpix x y c) s = .next t ∧ exec (.nearRgb c) s = .next n ∧
      exec (.setidx x y (n.r0.setWidth 8)) s = .next m ∧
      t = { s with
        fb := m.fb, fbc := m.fbc, choices := m.choices, notfound := n.notfound, sat := n.sat, err := .ok
        cmdcnt := s.cmdcnt + 1 }

/-- `SETPIX` inside the surface in `LAB` mode (R240, R241, R243, R244): the rows are managed; the converted colour plus the
attenuated error of the cell, saturated, is searched; the index found is stored as `SETIDX` stores it; the residual is
diffused, unattenuated. Nothing else changes. That the first one after a decode starts fresh rows, also where R241 would go
on with the rows there are, is the model's reading of a corner case of R246, and the mark `rowsOfDecode` of such a state the
model's form of it (log entry 25). -/
def Obligations.SetpixLabStep : Prop :=
  ∀ (x y : Half) (c : RGB) (s : State), x.toNat < s.surfW.toNat → y.toNat < s.surfH.toNat → s.ctrl.toNat % 4 = 1 →
    s.thisRow.wf = true → s.nextRow.wf = true →
    ∃ (t m : State) (this0 next0 : Row) (adj resid : Lab) (index : Byte),
      exec (.setpix x y c) s = .next t ∧ exec (.setidx x y index) s = .next m ∧
      RowsForSetpix s y.toNat this0 next0 ∧
      (let l := s.params.toLab c
       let e := this0.entry x.toNat
       let al := l.L.toInt + Int.tdiv (e.L.toInt * s.acc.toNat) 65536
       let aa := l.a.toInt + Int.tdiv (e.a.toInt * s.acc.toNat) 65536
       let ab := l.b.toInt + Int.tdiv (e.b.toInt * s.acc.toNat) 65536
       HoldsTriple adj al aa ab ∧
       (s.pal = [] → index = 255 ∧ resid = Lab.zero ∧ t.notfound = true) ∧
       (∀ p f, FirstNearest s.mono s.pal adj p f → index = f.index ∧ t.notfound = s.notfound ∧
         HoldsTriple resid (adj.L.toInt - f.lab.L.toInt) (adj.a.toInt - f.lab.a.toInt) (adj.b.toInt - f.lab.b.toInt)) ∧
       Diffused s.surfW.toNat s.surfH.toNat x.toNat y.toNat resid this0 next0 t.thisRow t.nextRow ∧
       (t.sat = true ↔ s.sat = true ∨ Clamps al aa ab ∨
         (∃ p f, FirstNearest s.mono s.pal adj p f ∧ Clamps (adj.L.toInt - f.lab.L.toInt)
           (adj.a.toInt - f.lab.a.toInt) (adj.b.toInt - f.lab.b.toInt)) ∨
         DiffusionClamps s.surfW.toNat s.surfH.toNat x.toNat y.toNat resid this0 next0)) ∧
      t = { s with
        fb := m.fb, fbc := m.fbc, choices := m.choices, curValid := true, curRow := y, thisRow := t.thisRow
        nextRow := t.nextRow, notfound := t.notfound, sat := t.sat, rowsOfDecode := false, err := .ok
        cmdcnt := s.cmdcnt + 1 }

/-- `SETPIX` inside the surface in `RGB` mode (R240, R241, R244, R245): the rows are managed; the colour plus the error of the cell,
clamped to a byte by channel, is converted and searched; the index found is stored as `SETIDX` stores it; the difference to
the stored colour of the entry is diffused. `SAT` stays when set, is set by a diffusion that saturates, and by nothing else but a
residual of the search that saturates (which log entry 9 speaks of). Nothing else changes. That the first one after a
decode starts fresh rows is the model's reading of a corner case of R246, as in `SetpixLabStep` (log entry 25). -/
def Obligations.SetpixRgbStep : Prop :=
  ∀ (x y : Half) (c : RGB) (s : State), x.toNat < s.surfW.toNat → y.toNat < s.surfH.toNat → s.ctrl.toNat % 4 = 2 →
    s.thisRow.wf = true → s.nextRow.wf = true →
    ∃ (t m : State) (this0 next0 : Row) (des : RGB) (err : Err3) (index : Byte),
      exec (.setpix x y c) s = .next t ∧ exec (.setidx x y index) s = .next m ∧
      RowsForSetpix s y.toNat this0 next0 ∧
      (des.r.toNat : Int) = max 0 (min (c.r.toNat + (this0.entry x.toNat).L.toInt) 255) ∧
      (des.g.toNat : Int) = max 0 (min (c.g.toNat + (this0.entry x.toNat).a.toInt) 255) ∧
      (des.b.toNat : Int) = max 0 (min (c.b.toNat + (this0.entry x.toNat).b.toInt) 255) ∧
      (s.pal = [] → index = 255 ∧ err = Lab.zero ∧ t.notfound = true) ∧
      (∀ p f, FirstNearest s.mono s.pal (s.params.toLab des) p f → index = f.index ∧ t.notfound = s.notfound ∧
        err.L.toInt = des.r.toNat - f.rgb.r.toNat ∧ err.a.toInt = des.g.toNat - f.rgb.g.toNat ∧
        err.b.toInt = des.b.toNat - f.rgb.b.toNat) ∧
      Diffused s.surfW.toNat s.surfH.toNat x.toNat y.toNat err this0 next0 t.thisRow t.nextRow ∧
      (s.sat = true → t.sat = true) ∧
      (DiffusionClamps s.surfW.toNat s.surfH.toNat x.toNat y.toNat err this0 next0 → t.sat = true) ∧
      (t.sat = true → s.sat = true ∨ DiffusionClamps s.surfW.toNat s.surfH.toNat x.toNat y.toNat err this0 next0 ∨
        ∃ p f, FirstNearest s.mono s.pal (s.params.toLab des) p f ∧
          Clamps ((s.params.toLab des).L.toInt - f.lab.L.toInt) ((s.params.toLab des).a.toInt - f.lab.a.toInt)
            ((s.params.toLab des).b.toInt - f.lab.b.toInt)) ∧
      t = { s with
        fb := m.fb, fbc := m.fbc, choices := m.choices, curValid := true, curRow := y, thisRow := t.thisRow
        nextRow := t.nextRow, notfound := t.notfound, sat := t.sat, rowsOfDecode := false, err := .ok
        cmdcnt := s.cmdcnt + 1 }

/-- The four diffused parts of an error sum to it but for at most 3 units lost toward zero, and none has the opposite sign
(R247). -/
def Obligations.DiffusionConservesWeight : Prop :=
  ∀ e : LabNum,
    let total := errPart e 7 + errPart e 1 + errPart e 3 + errPart e 5
    (0 ≤ e.toInt → e.toInt - 3 ≤ total ∧ total ≤ e.toInt ∧ ∀ k ∈ [7, 1, 3, 5], 0 ≤ errPart e k) ∧
    (e.toInt < 0 → e.toInt ≤ total ∧ total ≤ e.toInt + 3 ∧ ∀ k ∈ [7, 1, 3, 5], errPart e k ≤ 0)

/-! ### Byte-stream decoders -/

/-- The preconditions of the four byte-stream decoders in their order (R271, R333): the byte count, then parity, then height, then
width; the first that fails ends the command with its code and `R0 = 0`, and nothing else is changed but the one request
for the total and its answer taken. -/
def Obligations.StreamPreconditionsInOrder : Prop :=
  ∀ (k : StreamKind) (w h : Half) (s : State) (total : Word) (totals : List Word) (rc : Code),
    s.bsTotals = total :: totals →
    (rc = .count ∧ total.toNat ≠ w.toNat * h.toNat * 2 ∨
      total.toNat = w.toNat * h.toNat * 2 ∧
        (rc = .odd ∧ (k = .yuyvh ∧ (w.toNat % 2 = 1 ∨ h.toNat % 2 = 1) ∨ k = .yuyv ∧ w.toNat % 2 = 1) ∨
          (k = .yuyvh → w.toNat % 2 = 0 ∧ h.toNat % 2 = 0) ∧ (k = .yuyv → w.toNat % 2 = 0) ∧
            (rc = .dim ∧ k = .yuv3l ∧ h.toNat < 2 ∨
              (k = .yuv3l → 2 ≤ h.toNat) ∧ rc = .size ∧ s.params.lineMax < w.toNat))) →
    exec (k.instr w h) s = .next
      { s with
        bsTotals := totals, reqs := s.reqs ++ [.totalAvailable], r0 := 0, err := rc, fails := true
        cmdcnt := s.cmdcnt + 1 }

/-- `DEC_RGB565` of a frame that the ByteSource serves, in answers of any sizes, completes: every row makes its progress word and
its pixels in the clip get the colours of the stream; `R0` is 1 (R101, R271 to R275, R280, R281). And
the mark `rowsOfDecode` is set for the next `SETPIX`: the model's reading of R246 (log entry 25). -/
def Obligations.DecRgb565DecodesAServedFrame : Prop :=
  ∀ (w h : Half) (s : State) (total : Word) (totals : List Word) (as rest : List ReadAnswer),
    s.bsTotals = total :: totals → total.toNat = w.toNat * h.toNat * 2 → w.toNat ≤ s.params.lineMax →
    s.bsReads = as ++ rest → answersServe 254 (2 * w.toNat) 0 as = true →
    (streamOf as).length = h.toNat * (2 * w.toNat) →
    ∃ t, exec (.decRgb565 w h) s = .next t ∧
      t = { { s with curValid := false, rowsOfDecode := true }.decodeRows h.toNat w.toNat h.toNat
          (frame565 s.swap565 w.toNat (streamOf as)) with
        bsTotals := totals, bsReads := rest
        reqs := s.reqs ++ .totalAvailable :: requestsFor 254 (2 * w.toNat) 0 as
        r0 := 1, err := .ok, cmdcnt := s.cmdcnt + 1 }

/-- `DEC_YUYV` of a served frame completes (R285, R286). And
the mark `rowsOfDecode` is set for the next `SETPIX`: the model's reading of R246 (log entry 25). -/
def Obligations.DecYuyvDecodesAServedFrame : Prop :=
  ∀ (w h : Half) (s : State) (total : Word) (totals : List Word) (as rest : List ReadAnswer),
    s.bsTotals = total :: totals → total.toNat = w.toNat * h.toNat * 2 → w.toNat % 2 = 0 →
    w.toNat ≤ s.params.lineMax →
    s.bsReads = as ++ rest → answersServe 255 (2 * w.toNat) 0 as = true →
    (streamOf as).length = h.toNat * (2 * w.toNat) →
    ∃ t, exec (.decYuyv w h) s = .next t ∧
      t = { { s with curValid := false, rowsOfDecode := true }.decodeRows h.toNat w.toNat h.toNat
          (frameYuyv s.params w.toNat (streamOf as)) with
        bsTotals := totals, bsReads := rest
        reqs := s.reqs ++ .totalAvailable :: requestsFor 255 (2 * w.toNat) 0 as
        r0 := 1, err := .ok, cmdcnt := s.cmdcnt + 1 }

/-- `DEC_YUYVH` of a served frame completes, at half width and half height (R290). And
the mark `rowsOfDecode` is set for the next `SETPIX`: the model's reading of R246 (log entry 25). -/
def Obligations.DecYuyvhDecodesAServedFrame : Prop :=
  ∀ (w h : Half) (s : State) (total : Word) (totals : List Word) (as rest : List ReadAnswer),
    s.bsTotals = total :: totals → total.toNat = w.toNat * h.toNat * 2 → w.toNat % 2 = 0 → h.toNat % 2 = 0 →
    w.toNat ≤ s.params.lineMax →
    s.bsReads = as ++ rest → answersServe 255 (4 * w.toNat) 0 as = true →
    (streamOf as).length = h.toNat / 2 * (4 * w.toNat) →
    ∃ t, exec (.decYuyvh w h) s = .next t ∧
      t = { { s with curValid := false, rowsOfDecode := true }.decodeRows (h.toNat / 2) (w.toNat / 2) (h.toNat / 2)
          (frameYuyvh s.params w.toNat (streamOf as)) with
        bsTotals := totals, bsReads := rest
        reqs := s.reqs ++ .totalAvailable :: requestsFor 255 (4 * w.toNat) 0 as
        r0 := 1, err := .ok, cmdcnt := s.cmdcnt + 1 }

/-- `DEC_YUV3L` of a served frame completes (R295, R296). And
the mark `rowsOfDecode` is set for the next `SETPIX`: the model's reading of R246 (log entry 25). -/
def Obligations.DecYuv3lDecodesAServedFrame : Prop :=
  ∀ (w h : Half) (s : State) (total : Word) (totals : List Word) (as rest : List ReadAnswer),
    s.bsTotals = total :: totals → total.toNat = w.toNat * h.toNat * 2 → 2 ≤ h.toNat →
    w.toNat ≤ s.params.lineMax →
    s.bsReads = as ++ rest → answersServe 255 (2 * w.toNat) 0 as = true →
    (streamOf as).length = h.toNat * (2 * w.toNat) →
    ∃ t, exec (.decYuv3l w h) s = .next t ∧
      t = { { s with curValid := false, rowsOfDecode := true }.decodeRows h.toNat w.toNat h.toNat
          (frameYuv3l s.params s.vfirst w.toNat h.toNat (streamOf as)) with
        bsTotals := totals, bsReads := rest
        reqs := s.reqs ++ .totalAvailable :: requestsFor 255 (2 * w.toNat) 0 as
        r0 := 1, err := .ok, cmdcnt := s.cmdcnt + 1 }

/-- A ByteSource that gives out in mid-frame (an answer of 0 bytes) ends `DEC_RGB565` with `E_IO` and `R0 = 0`: the rows whose
lines were complete are set, the progress word of the row being read is pushed, no later row is touched, and the answers
after the empty one stay (R272, R275, R389). And
the mark `rowsOfDecode` is set for the next `SETPIX`: the model's reading of R246 (log entry 25). -/
def Obligations.DecRgb565StopsOnADeadSource : Prop :=
  ∀ (w h : Half) (s : State) (total : Word) (totals : List Word) (as rest : List ReadAnswer),
    s.bsTotals = total :: totals → total.toNat = w.toNat * h.toNat * 2 → w.toNat ≤ s.params.lineMax →
    s.bsReads = as ++ ⟨0, []⟩ :: rest → answersServe 254 (2 * w.toNat) 0 as = true →
    (streamOf as).length < h.toNat * (2 * w.toNat) →
    ∃ t reqs, exec (.decRgb565 w h) s = .next t ∧
      t = { ({ s with curValid := false, rowsOfDecode := true }.forRows ((streamOf as).length / (2 * w.toNat)) (fun y u =>
            (u.progress y h.toNat).emitRow w.toNat h.toNat y
              (frame565 s.swap565 w.toNat (streamOf as) y))).progress ((streamOf as).length / (2 * w.toNat)) h.toNat with
        bsTotals := totals, bsReads := rest, reqs := reqs
        r0 := 0, err := .io, fails := true, cmdcnt := s.cmdcnt + 1 }

/-- A dead source ends each of the four byte-stream decoders with `E_IO` and `R0 = 0` (R272, R331). -/
def Obligations.DeadSourceFailsEveryDecoder : Prop :=
  ∀ (k : StreamKind) (w h : Half) (s : State) (total : Word) (totals : List Word) (as rest : List ReadAnswer),
    s.bsTotals = total :: totals → streamPrecondition s.params k w h total = none →
    s.bsReads = as ++ ⟨0, []⟩ :: rest → answersServe k.ceiling (k.lineBytes w.toNat) 0 as = true →
    (streamOf as).length < k.rows h.toNat * k.lineBytes w.toNat →
    ∃ t, exec (k.instr w h) s = .next t ∧ t.r0 = 0 ∧ t.err = .io ∧ t.fails = true ∧ t.cmdcnt = s.cmdcnt + 1 ∧
      t.bsTotals = totals ∧ t.bsReads = rest ∧ t.seq = s.seq

/-- An answer that breaks the protocol, where a decoder needs one, is refused by name (R351; U3 in the form of log entry
12). -/
def Obligations.BrokenAnswerIsRefused : Prop :=
  ∀ (k : StreamKind) (w h : Half) (s : State) (total : Word) (totals : List Word) (as rest : List ReadAnswer)
    (bad : ReadAnswer),
    s.bsTotals = total :: totals → streamPrecondition s.params k w h total = none →
    s.bsReads = as ++ bad :: rest → answersServe k.ceiling (k.lineBytes w.toNat) 0 as = true →
    (streamOf as).length < k.rows h.toNat * k.lineBytes w.toNat →
    breaksProtocol k.ceiling (k.lineBytes w.toNat) (streamOf as).length bad →
    exec (k.instr w h) s = .refused .byteSourceProtocol

/-- A decode command without an answer waits, its one request made (R271, R310, R385); a step without an answer changes nothing,
however often it is taken. The form of the wait is the model's (log entries 8 and 10). -/
def Obligations.DecodersWaitForTheirAnswers : Prop :=
  (∀ (k : StreamKind) (w h : Half) (s : State), s.bsTotals = [] →
    exec (k.instr w h) s = .next { s with reqs := s.reqs ++ [.totalAvailable], seq := .awaitTotal k w h }) ∧
  (∀ (w h : Half) (s : State), s.bdInits = [] →
    exec (.decJpeg w h) s = .next { s with bderr := 0, reqs := s.reqs ++ [.bdInit], seq := .awaitInit w h }) ∧
  (∀ (n : Nat) (s : State), s.Inv → s.halted = false →
    (∃ k w h, s.seq = .awaitTotal k w h ∧ s.bsTotals = []) ∨ (∃ j, s.seq = .awaitRead j ∧ s.bsReads = []) ∨
      (∃ w h, s.seq = .awaitInit w h ∧ s.bdInits = []) ∨ (∃ j, s.seq = .awaitMcu j ∧ s.bdMcus = []) →
    Host.Core.run Sys2Proof.core n s = .next s)

/-- When an answer comes makes no difference (R272, R390). A decode command that runs out of answers, of whichever of the four
kinds, and gets more later, does in the steps after it what it would have done had they been there from the start; so does
a step that goes on with a decode; and one that has ended has not looked at them. The answer to the request for which the
engine waits is such an answer, whatever a reset has dropped before (R371). Answers as queues are the model's form of the
oracle (log entry 8). -/
def Obligations.LateAnswersChangeNothing : Prop :=
  (∀ (i : Instr) (s t : State) (a : LateAnswers), i.isDecode = true → s.halted = false → s.seq = .idle →
    exec i s = .next t →
    t.decoding = true ∧ step (t.withMore a) = exec i (s.withMore a) ∨
      t.seq = .idle ∧ exec i (s.withMore a) = .next (t.withMore a)) ∧
  (∀ (s t : State) (a : LateAnswers), s.Inv → s.halted = false → s.decoding = true → step s = .next t →
    t.decoding = true ∧ step (t.withMore a) = step (s.withMore a) ∨
      t.seq = .idle ∧ step (s.withMore a) = .next (t.withMore a)) ∧
  (∀ s : State,
    (∀ k w h v, s.seq = .awaitTotal k w h → s.answerTotal .pending v = s.withMore ⟨[v], [], [], []⟩) ∧
    (∀ j a, s.seq = .awaitRead j → s.answerRead .pending a = s.withMore ⟨[], [a], [], []⟩) ∧
    (∀ w h a, s.seq = .awaitInit w h → s.answerInit .pending a = s.withMore ⟨[], [], [a], []⟩) ∧
    (∀ j a, s.seq = .awaitMcu j → s.answerMcu .pending a = s.withMore ⟨[], [], [], [a]⟩))

/-- The requests of a byte-stream decoder (R271, R272, R351): the total once and first, then reads of at least 1 byte, at most the
decoder's ceiling (254 for RGB565, 255 for the others) and at most a line. -/
def Obligations.StreamRequestsAreBounded : Prop :=
  ∀ (k : StreamKind) (w h : Half) (s t : State), exec (k.instr w h) s = .next t →
    ∃ reads, t.reqs = s.reqs ++ .totalAvailable :: reads ∧
      ∀ q ∈ reads, ∃ m, q = .tryRead m ∧ 1 ≤ m ∧ m ≤ (if k = .rgb565 then 254 else 255) ∧
        m ≤ (if k = .yuyvh then 4 * w.toNat else 2 * w.toNat)

/-- The progress words of a frame of at most 65535 rows (R273): with `PROGEN` set each row pushes one, the row number and the
fraction `floor(r * 65536 / R)`, the first being 0, and the fraction strictly increases from row to row; without it none is
pushed. -/
def Obligations.ProgressWordsIncrease : Prop :=
  ∀ (s : State) (n r : Nat), n ≤ 65535 → r < n →
    (s.progen = true → ∃ w, s.progress r n = { s with progq := s.progq ++ [w] } ∧
      w.toNat / 65536 = r ∧ w.toNat % 65536 = r * 65536 / n ∧ (r = 0 → w = 0) ∧
      ∀ r', r < r' → r' < n → ∃ w', s.progress r' n = { s with progq := s.progq ++ [w'] } ∧
        w.toNat % 65536 < w'.toNat % 65536) ∧
    (s.progen = false → s.progress r n = s)

/-- The clip of a decode (R274). From inside: row `y` of a frame of `ow` by `oh` pixels is set when `y < min(oh, H)`, in the columns
`x < min(ow, W)`, left to right, each pixel as `SETPIX` sets it, but for its retirement and the mark `rowsOfDecode` of R246's
corner case (log entry 25). From outside: pixels of the surface outside it keep what they hold, for every decode command and
however it ends. -/
def Obligations.PixelsOutsideTheClipAreKept : Prop :=
  (∀ (ow oh y : Nat) (colour : Nat → RGB) (s : State), s.emitRow ow oh y colour =
    if y < min oh s.surfH.toNat then (List.range (min ow s.surfW.toNat)).foldl (fun t x => t.viewSet x y (colour x)) s
    else s) ∧
  (∀ (x y : Half) (c : RGB) (s : State), ∃ t, exec (.setpix x y c) { s with rowsOfDecode := false } = .next t ∧
    s.viewSet x.toNat y.toNat c = { t with rowsOfDecode := s.rowsOfDecode, err := s.err, cmdcnt := s.cmdcnt }) ∧
  (∀ (i : Instr) (w h ow oh : Nat) (x y : Nat) (s t : State), s.fb.wf = true → exec i s = .next t →
    (∃ a b : Half, a.toNat = w ∧ b.toNat = h ∧
      (i = .decRgb565 a b ∨ i = .decYuyv a b ∨ i = .decYuv3l a b ∨ i = .decJpeg a b) ∧ ow = w ∧ oh = h ∨
      a.toNat = w ∧ b.toNat = h ∧ i = .decYuyvh a b ∧ ow = w / 2 ∧ oh = h / 2) →
    ow ≤ x ∨ oh ≤ y → t.surfGet x y = s.surfGet x y)

/-! ### JPEG -/

/-- The preconditions of `DEC_JPEG` in their order (R316, R333, R311): an error of `init`, then a scan code above 4, then an MCU row too
big for the buffer; the first that fails ends the command with its code and `R0 = 0`. -/
def Obligations.JpegPreconditionsInOrder : Prop :=
  ∀ (w h : Half) (s : State) (a : InitAnswer) (inits : List InitAnswer) (rc : Code) (code : Byte),
    s.bdInits = a :: inits →
    (a.err ≠ 0 ∧ rc = .bd ∧ code = a.err ∨
      a.err = 0 ∧ code = 0 ∧ (4 < a.scan.toNat ∧ rc = .scan ∨
        ∃ gray mw mh, (a.scan.toNat, gray, mw, mh) ∈ scanTable ∧
          s.params.mrowBytes < mw * ((w.toNat + mw - 1) / mw) * mh * 3 ∧ rc = .size)) →
    exec (.decJpeg w h) s = .next
      { s with
        bdInits := inits, reqs := s.reqs ++ [.bdInit], bderr := code, r0 := 0, err := rc, fails := true
        cmdcnt := s.cmdcnt + 1 }

/-- `DEC_JPEG` of an image whose MCUs all come completes (R310, R312, R313, R316), for each scan code with the geometry of its MCU:
`mcu` is asked for once per MCU; each MCU row makes its progress word and its image rows in the clip get the colours of the
MCUs in raster order; `R0` is 1 and `BDERR` 0. And
the mark `rowsOfDecode` is set for the next `SETPIX`: the model's reading of R246 (log entry 25). -/
def Obligations.DecJpegDecodesAServedImage : Prop :=
  ∀ (w h : Half) (s : State) (a : InitAnswer) (inits : List InitAnswer) (gray : Bool) (mw mh : Nat)
    (ms rest : List McuAnswer),
    s.bdInits = a :: inits → a.err = 0 → (a.scan.toNat, gray, mw, mh) ∈ scanTable →
    mw * ((w.toNat + mw - 1) / mw) * mh * 3 ≤ s.params.mrowBytes →
    s.bdMcus = ms ++ rest → (∀ m ∈ ms, m.err = 0) →
    ms.length = (h.toNat + mh - 1) / mh * ((w.toNat + mw - 1) / mw) →
    ∃ t, exec (.decJpeg w h) s = .next t ∧
      t = { { s with curValid := false, rowsOfDecode := true, bderr := 0 }.decodeMcuRows ((h.toNat + mh - 1) / mh) mh w.toNat h.toNat
          (mcuImage gray mw mh ((w.toNat + mw - 1) / mw) ms) with
        bdInits := inits, bdMcus := rest, reqs := s.reqs ++ .bdInit :: List.replicate ms.length .bdMcu
        bderr := 0, r0 := 1, err := .ok, cmdcnt := s.cmdcnt + 1 }

/-- An error of the block decoder in mid-image ends `DEC_JPEG` with `E_BD`, its code in `BDERR` and `R0 = 0` (R310, R311): the MCU
rows that were complete are set, the progress word of the one being read is pushed, and none of its rows is written. And
the mark `rowsOfDecode` is set for the next `SETPIX`: the model's reading of R246 (log entry 25). -/
def Obligations.DecJpegStopsOnABlockError : Prop :=
  ∀ (w h : Half) (s : State) (a : InitAnswer) (inits : List InitAnswer) (gray : Bool) (mw mh : Nat)
    (ms rest : List McuAnswer) (bad : McuAnswer),
    s.bdInits = a :: inits → a.err = 0 → (a.scan.toNat, gray, mw, mh) ∈ scanTable →
    mw * ((w.toNat + mw - 1) / mw) * mh * 3 ≤ s.params.mrowBytes →
    s.bdMcus = ms ++ bad :: rest → (∀ m ∈ ms, m.err = 0) → bad.err ≠ 0 →
    ms.length < (h.toNat + mh - 1) / mh * ((w.toNat + mw - 1) / mw) →
    ∃ t, exec (.decJpeg w h) s = .next t ∧
      t = { ({ s with curValid := false, rowsOfDecode := true, bderr := 0 }.forRows (ms.length / ((w.toNat + mw - 1) / mw)) (fun my u =>
            (u.progress my ((h.toNat + mh - 1) / mh)).forRows mh (fun ly v =>
              v.emitRow w.toNat h.toNat (my * mh + ly)
                (mcuImage gray mw mh ((w.toNat + mw - 1) / mw) ms (my * mh + ly))))).progress
            (ms.length / ((w.toNat + mw - 1) / mw)) ((h.toNat + mh - 1) / mh) with
        bdInits := inits, bdMcus := rest, reqs := s.reqs ++ .bdInit :: List.replicate (ms.length + 1) .bdMcu
        bderr := bad.err, r0 := 0, err := .bd, fails := true, cmdcnt := s.cmdcnt + 1 }

end
end

