-- ==== Sys2Proof/Laws/Decode.lean ====
section
/-!
SUPPORT. What the header test, the entry decoder and the whole decoder do: which headers are accepted, how many words a
command takes, and that words beyond it do not matter.
-/

namespace Sys2Proof

theorem opcodeOf_pattern {h : Word} {op : Op} (hm : h &&& op.mask = op.pattern) : opcodeOf h = opcodeOf op.pattern := by
  have hmask : op.mask &&& 0xFF000000#32 = 0xFF000000#32 := by cases op <;> rfl
  have : opcodeOf (h &&& op.mask) = opcodeOf h := by
    have h1 : opcodeOf (h &&& op.mask) = opcodeOf h &&& opcodeOf op.mask := by
      unfold opcodeOf; exact BitVec.extractLsb'_and
    have h2 : opcodeOf op.mask = 0xFF#8 := by cases op <;> rfl
    rw [h1, h2]; exact BitVec.and_allOnes
  rw [← this, hm]

theorem opOfOpcode_pattern (op : Op) : opOfOpcode (opcodeOf op.pattern) = some op := by cases op <;> rfl

theorem opOfOpcode_some {b : Byte} {op : Op} (h : opOfOpcode b = some op) : b = opcodeOf op.pattern := by
  revert h; unfold opOfOpcode
  split <;> intro h <;> first | (cases h; apply BitVec.eq_of_toNat_eq; assumption) | cases h

theorem headerOp_ok_iff {h : Word} {op : Op} :
    headerOp h = .ok op ↔ h &&& op.mask = op.pattern ∧ ¬ (op = .surfCfg ∧ h.extractLsb' 0 2 = 3) := by
  constructor
  · unfold headerOp
    intro hh
    split at hh
    · cases hh
    · split at hh
      · cases hh
      · split at hh
        · cases hh
        · cases hh; exact ⟨not_not.mp ‹_›, ‹_›⟩
  · rintro ⟨hm, hf⟩
    unfold headerOp
    rw [opcodeOf_pattern hm, opOfOpcode_pattern]
    simpa [hm] using hf

theorem decodeEntries_truncated_iff (n : Nat) : ∀ ws, decodeEntries n ws = .error .truncated ↔ ws.length < 2 * n := by
  induction n with
  | zero => intro ws; simp [decodeEntries]
  | succ n ih =>
    intro ws
    match ws with
    | [] => simp [decodeEntries]
    | [a] => simp [decodeEntries]; omega
    | a :: b :: ws =>
      rw [decodeEntries]
      have := ih ws
      cases hd : decodeEntries n ws with
      | error e =>
        rw [hd] at this
        simp only [List.length_cons]
        simp at this ⊢; rw [this]; omega
      | ok r =>
        rw [hd] at this
        simp at this
        simp only [List.length_cons]
        split
        · simp; omega
        · simp; omega

theorem word_bytes (w : Word) :
    w.extractLsb' 24 8 ++ w.extractLsb' 16 8 ++ w.extractLsb' 8 8 ++ w.extractLsb' 0 8 = w := by
  apply BitVec.eq_of_getLsbD_eq; intro i hi
  interval_cases i <;> simp only [BitVec.getLsbD_append, BitVec.getLsbD_extractLsb'] <;> simp

theorem word_half_bytes (w : Word) :
    w.extractLsb' 16 16 ++ w.extractLsb' 8 8 ++ w.extractLsb' 0 8 = w := by
  apply BitVec.eq_of_getLsbD_eq; intro i hi
  interval_cases i <;> simp only [BitVec.getLsbD_append, BitVec.getLsbD_extractLsb'] <;> simp

theorem pairWord_halves (w : Word) : pairWord (hiHalf w) (loHalf w) = w := by
  unfold pairWord hiHalf loHalf
  apply BitVec.eq_of_getLsbD_eq; intro i hi
  interval_cases i <;> simp only [BitVec.getLsbD_append, BitVec.getLsbD_extractLsb'] <;> simp

theorem decodeEntries_ok {n : Nat} : ∀ {ws : List Word} {es : List PalSpec} {rest : List Word},
    decodeEntries n ws = .ok (es, rest) → ws = es.flatMap encodeEntry ++ rest ∧ es.length = n := by
  induction n with
  | zero => intro ws es rest h; simp [decodeEntries] at h; simp [h]
  | succ n ih =>
    intro ws es rest h
    match ws with
    | [] => simp [decodeEntries] at h
    | [a] => simp [decodeEntries] at h
    | a :: b :: ws =>
      rw [decodeEntries] at h
      cases hd : decodeEntries n ws with
      | error e => rw [hd] at h; simp at h
      | ok r =>
        obtain ⟨es', rest'⟩ := r
        rw [hd] at h
        simp only at h
        split at h
        · cases h
        · rename_i hn
          cases h
          obtain ⟨h1, h2⟩ := ih hd
          push Not at hn
          refine ⟨?_, by simp [h2]⟩
          rw [List.flatMap_cons, List.append_assoc, ← h1]
          obtain ⟨ha, hb⟩ := hn
          have e1 : (0#16 ++ a.extractLsb' 8 8 ++ a.extractLsb' 0 8 : Word) = a := by
            have h0 : (0#16) = a.extractLsb' 16 16 := ha.symm
            rw [h0]; exact word_half_bytes a
          have e2 : (0#8 ++ b.extractLsb' 16 8 ++ b.extractLsb' 8 8 ++ b.extractLsb' 0 8 : Word) = b := by
            have h0 : (0#8) = b.extractLsb' 24 8 := hb.symm
            rw [h0]; exact word_bytes b
          simp only [encodeEntry, rgbOf, e1, e2]; rfl


theorem split_mask (h m : Word) : (h &&& m) ||| (h &&& ~~~m) = h := by
  rw [← BitVec.and_or_distrib_left, BitVec.or_not_self]; exact BitVec.and_allOnes

theorem low_bits (h : Word) (k : Nat) (m : Word) (hm : ∀ i < 32, m.getLsbD i = decide (i < k)) :
    h &&& m = (h.extractLsb' 0 k).setWidth 32 := by
  apply BitVec.eq_of_getLsbD_eq; intro i hi
  rw [BitVec.getLsbD_and, BitVec.getLsbD_setWidth, BitVec.getLsbD_extractLsb', hm i hi]
  simp [hi, Bool.and_comm]

theorem header_low {h : Word} {op : Op} (hm : h &&& op.mask = op.pattern) (k : Nat)
    (hl : ∀ i < 32, (~~~op.mask).getLsbD i = decide (i < k)) : op.pattern ||| (h.extractLsb' 0 k).setWidth 32 = h := by
  rw [← hm, ← low_bits h k _ hl, split_mask]

theorem header_none {h : Word} {op : Op} (hm : h &&& op.mask = op.pattern) (hl : op.mask = 0xFFFFFFFF#32) : op.pattern = h := by
  rw [← hm, hl]; exact BitVec.and_allOnes.symm ▸ rfl

theorem loHalf_pairWord (a b : Half) : loHalf (pairWord a b) = b := by
  unfold loHalf pairWord
  exact BitVec.extractLsb'_append_eq_right

theorem hiHalf_pairWord (a b : Half) : hiHalf (pairWord a b) = a := by
  unfold hiHalf pairWord
  exact BitVec.extractLsb'_append_eq_left

/-- Entry words beyond the `2n` that are read do not matter. -/
theorem decodeEntries_append {n : Nat} : ∀ {ws : List Word} (q : List Word), 2 * n ≤ ws.length →
    decodeEntries n (ws ++ q) =
      match decodeEntries n ws with
      | .ok (es, rest) => .ok (es, rest ++ q)
      | .error e => .error e := by
  induction n with
  | zero => intro ws q _; rfl
  | succ n ih =>
    intro ws q hl
    match ws with
    | [] => simp at hl
    | [a] => simp at hl; omega
    | a :: b :: ws =>
      simp only [List.cons_append, decodeEntries]
      rw [ih q (by simp at hl; omega)]
      cases decodeEntries n ws with
      | error e => rfl
      | ok r =>
        dsimp only
        split <;> rfl

/-- An entry list is refused for a reserved bit exactly when some pair of words has one (R122). -/
theorem decodeEntries_reserved_iff {n : Nat} : ∀ {ws : List Word}, 2 * n ≤ ws.length →
    ((∃ r, decodeEntries n ws = .ok r) ↔
      ∀ k < n, (ws.getD (2 * k) 0).extractLsb' 16 16 = 0 ∧ (ws.getD (2 * k + 1) 0).extractLsb' 24 8 = 0) := by
  induction n with
  | zero => intro ws _; exact ⟨fun _ k hk => absurd hk (Nat.not_lt_zero k), fun _ => ⟨_, rfl⟩⟩
  | succ n ih =>
    intro ws hl
    match ws with
    | [] => simp at hl
    | [a] => simp at hl; omega
    | a :: b :: ws =>
      have ih' := ih (ws := ws) (by simp at hl; omega)
      have hsplit : (∀ k < n + 1, ((a :: b :: ws).getD (2 * k) 0).extractLsb' 16 16 = 0 ∧
          ((a :: b :: ws).getD (2 * k + 1) 0).extractLsb' 24 8 = 0) ↔
          (a.extractLsb' 16 16 = 0 ∧ b.extractLsb' 24 8 = 0) ∧
            ∀ k < n, (ws.getD (2 * k) 0).extractLsb' 16 16 = 0 ∧ (ws.getD (2 * k + 1) 0).extractLsb' 24 8 = 0 := by
        constructor
        · intro h
          exact ⟨h 0 (Nat.succ_pos n), fun k hk => h (k + 1) (Nat.succ_lt_succ hk)⟩
        · rintro ⟨h0, h1⟩ k hk
          cases k with
          | zero => exact h0
          | succ k => exact h1 k (Nat.lt_of_succ_lt_succ hk)
      rw [hsplit, ← ih', decodeEntries]
      cases decodeEntries n ws with
      | error e => simp
      | ok r =>
        dsimp only
        split
        · rename_i hb
          constructor
          · rintro ⟨r, hr⟩; cases hr
          · rintro ⟨⟨ha, hb'⟩, -⟩
            rcases hb with hb | hb
            · exact absurd ha hb
            · exact absurd hb' hb
        · rename_i hb
          rw [not_or, not_not, not_not] at hb
          exact ⟨fun _ => ⟨hb, _, rfl⟩, fun _ => ⟨_, rfl⟩⟩

/-- The encoded entries decode to the entries, and the words after them are left. -/
theorem decodeEntries_encode (es : List PalSpec) (rest : List Word) :
    decodeEntries es.length (es.flatMap encodeEntry ++ rest) = .ok (es, rest) := by
  induction es with
  | nil => rfl
  | cons e es ih =>
    simp only [List.flatMap_cons, encodeEntry, List.cons_append, List.nil_append, List.length_cons, decodeEntries, ih]
    have h1 : (0#16 ++ e.name ++ e.index : Word).extractLsb' 16 16 = 0 := by
      apply BitVec.eq_of_getLsbD_eq; intro i hi
      interval_cases i <;> simp only [BitVec.getLsbD_append, BitVec.getLsbD_extractLsb'] <;> simp
    have h2 : (0#8 ++ e.rgb.r ++ e.rgb.g ++ e.rgb.b : Word).extractLsb' 24 8 = 0 := by
      apply BitVec.eq_of_getLsbD_eq; intro i hi
      interval_cases i <;> simp only [BitVec.getLsbD_append, BitVec.getLsbD_extractLsb'] <;> simp
    have h3 : (0#16 ++ e.name ++ e.index : Word).extractLsb' 8 8 = e.name := by
      apply BitVec.eq_of_getLsbD_eq; intro i hi
      interval_cases i <;> simp only [BitVec.getLsbD_append, BitVec.getLsbD_extractLsb'] <;> simp
    have h4 : (0#16 ++ e.name ++ e.index : Word).extractLsb' 0 8 = e.index := by
      apply BitVec.eq_of_getLsbD_eq; intro i hi
      interval_cases i <;> simp only [BitVec.getLsbD_append, BitVec.getLsbD_extractLsb'] <;> simp
    have h5 : rgbOf (0#8 ++ e.rgb.r ++ e.rgb.g ++ e.rgb.b) = e.rgb := by
      obtain ⟨_, _, r, g, b⟩ := e
      simp only [rgbOf, RGB.mk.injEq]
      refine ⟨?_, ?_, ?_⟩ <;> apply BitVec.eq_of_getLsbD_eq <;> intro i hi <;>
        interval_cases i <;> simp only [BitVec.getLsbD_append, BitVec.getLsbD_extractLsb'] <;> simp
    simp [h1, h2, h3, h4, h5]

/-! ### The whole decoder -/

/-- Operand words are missing exactly when the header is legal and announces more than there are (R113 step 2). -/
theorem decodeOperands_truncated_iff (op : Op) (h : Word) (ws : List Word) :
    decodeOperands op h ws = .error .truncated ↔ ws.length < operandCount op h := by
  cases op with
  | palLoad =>
    simp only [decodeOperands, operandCount]
    rw [← decodeEntries_truncated_iff]
    cases decodeEntries (h.extractLsb' 0 16).toNat ws with
    | error e => simp
    | ok r => simp
  | nearLab => rcases ws with _ | ⟨a, _ | ⟨b, _ | ⟨c, ws⟩⟩⟩ <;> simp [decodeOperands, operandCount]
  | surfCfg => rcases ws with _ | ⟨a, _ | ⟨b, ws⟩⟩ <;> simp [decodeOperands, operandCount]
  | nop | rdcsr | clrstat | nearRgb | torgb | tolab | indexof | normRgb | normLab | flush | rdfb | diffReset | rdrow =>
    simp [decodeOperands, operandCount]
  | wrcsr | setidx | getidx | setpix | decRgb565 | decYuyv | decYuyvh | decYuv3l | decJpeg =>
    rcases ws with _ | ⟨a, ws⟩ <;> simp [decodeOperands, operandCount]

/-- Words beyond those a command takes do not matter to its decoding. -/
theorem decodeOperands_append {op : Op} {h : Word} {ws : List Word} (q : List Word)
    (hl : operandCount op h ≤ ws.length) :
    decodeOperands op h (ws ++ q) =
      match decodeOperands op h ws with
      | .ok (i, rest) => .ok (i, rest ++ q)
      | .error e => .error e := by
  cases op with
  | palLoad =>
    simp only [decodeOperands]
    rw [decodeEntries_append q hl]
    cases decodeEntries (h.extractLsb' 0 16).toNat ws <;> rfl
  | nearLab => rcases ws with _ | ⟨a, _ | ⟨b, _ | ⟨c, ws⟩⟩⟩ <;> simp [decodeOperands, operandCount] at hl ⊢
  | surfCfg => rcases ws with _ | ⟨a, _ | ⟨b, ws⟩⟩ <;> simp [decodeOperands, operandCount] at hl ⊢
  | nop | rdcsr | clrstat | nearRgb | torgb | tolab | indexof | normRgb | normLab | flush | rdfb | diffReset | rdrow =>
    rfl
  | wrcsr | setidx | getidx | setpix | decRgb565 | decYuyv | decYuyvh | decYuv3l | decJpeg =>
    rcases ws with _ | ⟨a, ws⟩ <;> simp [decodeOperands, operandCount] at hl ⊢

/-- A command takes exactly the operand words that its header announces (R111). -/
theorem decodeOperands_rest {op : Op} {h : Word} {ws rest : List Word} {i : Instr}
    (hd : decodeOperands op h ws = .ok (i, rest)) : rest = ws.drop (operandCount op h) := by
  cases op with
  | palLoad =>
    simp only [decodeOperands] at hd
    split at hd
    · rename_i es r he
      cases hd
      obtain ⟨h1, h2⟩ := decodeEntries_ok he
      have : (es.flatMap encodeEntry).length = 2 * es.length := by
        clear h1 h2 he
        induction es with
        | nil => rfl
        | cons e es ih => simp [List.flatMap_cons, encodeEntry] at ih ⊢; omega
      rw [h1, operandCount, ← h2, ← this, List.drop_left]
    · cases hd
  | nearLab => rcases ws with _ | ⟨a, _ | ⟨b, _ | ⟨c, ws⟩⟩⟩ <;> simp_all [decodeOperands, operandCount]
  | surfCfg => rcases ws with _ | ⟨a, _ | ⟨b, ws⟩⟩ <;> simp_all [decodeOperands, operandCount]
  | nop | rdcsr | clrstat | nearRgb | torgb | tolab | indexof | normRgb | normLab | flush | rdfb | diffReset | rdrow =>
    cases hd; rfl
  | wrcsr | setidx | getidx | setpix | decRgb565 | decYuyv | decYuyvh | decYuv3l | decJpeg =>
    rcases ws with _ | ⟨a, ws⟩ <;> simp_all [decodeOperands, operandCount]

/-- What the words at the head of a queue decode to does not depend on the words after the command. -/
theorem decode_append {h : Word} {op : Op} {ws : List Word} (q : List Word) (ho : headerOp h = .ok op)
    (hl : operandCount op h ≤ ws.length) :
    decode (h :: (ws ++ q)) =
      match decode (h :: ws) with
      | .ok (i, rest) => .ok (i, rest ++ q)
      | .error e => .error e := by
  simp only [decode, ho]
  exact decodeOperands_append q hl

end Sys2Proof
end

