-- ==== Sys2Proof/Laws/Fetch.lean ====
section
/-!
SUPPORT. How the sequencer takes a command (spec/30_encoding.md R113): for whole commands, missing operand words and
illegal commands, what `fetchHeader` and `fetchOperands` answer; and where `step` goes from each state of the
sequencer.
-/

namespace Sys2Proof.Machine

/-- Enough operand words are in the queue: the rest of the command is cut from it. -/
theorem fetchOperands_of_enough {h : Word} {op : Op} {taken q : List Word} (ho : headerOp h = .ok op)
    (ht : taken.length ≤ operandCount op h) (hl : operandCount op h ≤ (taken ++ q).length) :
    fetchOperands h taken q =
      match decode (h :: (taken ++ q)) with
      | .ok (i, rest) => .command i rest
      | .error _ => .illegal ((taken ++ q).drop (operandCount op h)) := by
  have hneed : commandLength h - 1 - taken.length = operandCount op h - taken.length := by
    simp [commandLength, ho]
  have hq : ¬ q.length < operandCount op h - taken.length := by
    rw [List.length_append] at hl; omega
  have hlen : (taken ++ q.take (operandCount op h - taken.length)).length = operandCount op h := by
    rw [List.length_append, List.length_take] at *; omega
  have hsplit : taken ++ q = (taken ++ q.take (operandCount op h - taken.length)) ++
      q.drop (operandCount op h - taken.length) := by
    rw [List.append_assoc, List.take_append_drop]
  have hdrop : (taken ++ q).drop (operandCount op h) = q.drop (operandCount op h - taken.length) := by
    rw [List.drop_append, List.drop_eq_nil_of_le ht, List.nil_append]
  unfold fetchOperands
  simp only [hneed, hq, if_false]
  have happ := decode_append (ws := taken ++ q.take (operandCount op h - taken.length))
    (q.drop (operandCount op h - taken.length)) ho (by rw [hlen])
  rw [← hsplit] at happ
  rw [hdrop, happ]
  cases hd : decode (h :: (taken ++ q.take (operandCount op h - taken.length))) with
  | error e => rfl
  | ok r =>
    obtain ⟨i, rest⟩ := r
    dsimp only
    have : rest = [] := by
      simp only [decode, ho] at hd
      rw [decodeOperands_rest hd, List.drop_eq_nil_of_le (by rw [hlen])]
    rw [this, List.nil_append]

/-- Operand words are missing: those there are are taken. -/
theorem fetchOperands_of_missing {h : Word} {op : Op} {taken q : List Word} (ho : headerOp h = .ok op)
    (hl : (taken ++ q).length < operandCount op h) : fetchOperands h taken q = .wait (h :: (taken ++ q)) := by
  have : q.length < commandLength h - 1 - taken.length := by
    simp [commandLength, ho] at hl ⊢; omega
  simp [fetchOperands, this]

theorem fetchHeader_of_ok {h : Word} {op : Op} (q : List Word) (ho : headerOp h = .ok op) :
    fetchHeader h q = fetchOperands h [] q := by
  simp [fetchHeader, ho]

theorem fetchHeader_of_error {h : Word} {e : DecodeError} (q : List Word) (ho : headerOp h = .error e) :
    fetchHeader h q = .illegal q := by
  simp [fetchHeader, ho]

theorem operandsPending_cons {h : Word} {ws : List Word} :
    operandsPending (h :: ws) = true ↔ ∃ op, headerOp h = .ok op ∧ ws.length < operandCount op h := by
  cases ho : headerOp h with
  | error e => simp [operandsPending, ho]
  | ok op => simp [operandsPending, ho]

theorem step_of_halted {s : State} (h : s.halted = true) : step s = .next s := by
  simp [step, advance, h]

theorem step_of_idle {s : State} (h : s.halted = false) (hs : s.seq = .idle) : step s = fetchNext s := by
  simp [step, advance, h, hs]

theorem step_of_operands {s : State} {taken : List Word} (h : s.halted = false) (hs : s.seq = .operands taken) :
    step s = fetchMore taken s := by
  simp [step, advance, h, hs]

theorem step_of_awaitTotal {s : State} {k : StreamKind} {w h : Half} (hh : s.halted = false)
    (hs : s.seq = .awaitTotal k w h) : step s = resumeTotal k w h { s with seq := .idle } := by
  unfold step advance
  rw [if_neg (by simp [hh]), hs]

theorem step_of_awaitRead {s : State} {j : StreamJob} (hh : s.halted = false) (hs : s.seq = .awaitRead j) :
    step s = resumeRead j { s with seq := .idle } := by
  unfold step advance
  rw [if_neg (by simp [hh]), hs]

theorem step_of_awaitInit {s : State} {w h : Half} (hh : s.halted = false) (hs : s.seq = .awaitInit w h) :
    step s = resumeInit w h { s with seq := .idle } := by
  unfold step advance
  rw [if_neg (by simp [hh]), hs]

theorem step_of_awaitMcu {s : State} {j : JpegJob} (hh : s.halted = false) (hs : s.seq = .awaitMcu j) :
    step s = resumeMcu j { s with seq := .idle } := by
  unfold step advance
  rw [if_neg (by simp [hh]), hs]

/-- A whole command at the head of the queue (R113). -/
theorem fetchHeader_of_decode {h : Word} {q rest : List Word} {i : Instr} (hd : decode (h :: q) = .ok (i, rest)) :
    fetchHeader h q = .command i rest := by
  cases ho : headerOp h with
  | error e => simp [decode, ho] at hd
  | ok op =>
    have hl : operandCount op h ≤ ([] ++ q : List Word).length := by
      by_contra hc
      have := (decodeOperands_truncated_iff op h q).mpr (by simpa using hc)
      simp [decode, ho, this] at hd
    rw [fetchHeader_of_ok _ ho, fetchOperands_of_enough ho (Nat.zero_le _) hl, List.nil_append, hd]

end Sys2Proof.Machine
end

