-- ==== Sys2Proof/Laws/State.lean ====
section
/-!
SUPPORT. What each update of State leaves in each field and what each accessor reads after it, every line true by
unfolding: the small lemmas that keep later proofs from unfolding a record update.
-/

namespace Sys2Proof.Machine

variable (s : State)

/-! `setR0` -/

@[simp] theorem setR0_r0 (v : Word) : (s.setR0 v).r0 = v := rfl
@[simp] theorem setR0_r1 (v : Word) : (s.setR0 v).r1 = s.r1 := rfl
@[simp] theorem setR0_r2 (v : Word) : (s.setR0 v).r2 = s.r2 := rfl
@[simp] theorem setR0_r3 (v : Word) : (s.setR0 v).r3 = s.r3 := rfl
@[simp] theorem setR0_err (v : Word) : (s.setR0 v).err = s.err := rfl
@[simp] theorem setR0_bderr (v : Word) : (s.setR0 v).bderr = s.bderr := rfl
@[simp] theorem setR0_fails (v : Word) : (s.setR0 v).fails = s.fails := rfl
@[simp] theorem setR0_notfound (v : Word) : (s.setR0 v).notfound = s.notfound := rfl
@[simp] theorem setR0_sat (v : Word) : (s.setR0 v).sat = s.sat := rfl
@[simp] theorem setR0_cmdcnt (v : Word) : (s.setR0 v).cmdcnt = s.cmdcnt := rfl
@[simp] theorem setR0_ctrl (v : Word) : (s.setR0 v).ctrl = s.ctrl := rfl
@[simp] theorem setR0_acc (v : Word) : (s.setR0 v).acc = s.acc := rfl
@[simp] theorem setR0_fmt (v : Word) : (s.setR0 v).fmt = s.fmt := rfl
@[simp] theorem setR0_surfW (v : Word) : (s.setR0 v).surfW = s.surfW := rfl
@[simp] theorem setR0_surfH (v : Word) : (s.setR0 v).surfH = s.surfH := rfl
@[simp] theorem setR0_plut (v : Word) : (s.setR0 v).plut = s.plut := rfl
@[simp] theorem setR0_pal (v : Word) : (s.setR0 v).pal = s.pal := rfl
@[simp] theorem setR0_mono (v : Word) : (s.setR0 v).mono = s.mono := rfl
@[simp] theorem setR0_curValid (v : Word) : (s.setR0 v).curValid = s.curValid := rfl
@[simp] theorem setR0_curRow (v : Word) : (s.setR0 v).curRow = s.curRow := rfl
@[simp] theorem setR0_thisRow (v : Word) : (s.setR0 v).thisRow = s.thisRow := rfl
@[simp] theorem setR0_nextRow (v : Word) : (s.setR0 v).nextRow = s.nextRow := rfl
@[simp] theorem setR0_fb (v : Word) : (s.setR0 v).fb = s.fb := rfl
@[simp] theorem setR0_fbc (v : Word) : (s.setR0 v).fbc = s.fbc := rfl
@[simp] theorem setR0_cmdq (v : Word) : (s.setR0 v).cmdq = s.cmdq := rfl
@[simp] theorem setR0_rspq (v : Word) : (s.setR0 v).rspq = s.rspq := rfl
@[simp] theorem setR0_progq (v : Word) : (s.setR0 v).progq = s.progq := rfl
@[simp] theorem setR0_halted (v : Word) : (s.setR0 v).halted = s.halted := rfl
@[simp] theorem setR0_seq (v : Word) : (s.setR0 v).seq = s.seq := rfl
@[simp] theorem setR0_params (v : Word) : (s.setR0 v).params = s.params := rfl
@[simp] theorem setR0_bsTotals (v : Word) : (s.setR0 v).bsTotals = s.bsTotals := rfl
@[simp] theorem setR0_bsReads (v : Word) : (s.setR0 v).bsReads = s.bsReads := rfl
@[simp] theorem setR0_bdInits (v : Word) : (s.setR0 v).bdInits = s.bdInits := rfl
@[simp] theorem setR0_dropped (v : Word) : (s.setR0 v).dropped = s.dropped := rfl
@[simp] theorem setR0_rowsOfDecode (v : Word) : (s.setR0 v).rowsOfDecode = s.rowsOfDecode := rfl
@[simp] theorem setR0_bdMcus (v : Word) : (s.setR0 v).bdMcus = s.bdMcus := rfl
@[simp] theorem setR0_reqs (v : Word) : (s.setR0 v).reqs = s.reqs := rfl
@[simp] theorem setR0_choices (v : Word) : (s.setR0 v).choices = s.choices := rfl
@[simp] theorem setR0_qmode (v : Word) : (s.setR0 v).qmode = s.qmode := rfl
@[simp] theorem setR0_progen (v : Word) : (s.setR0 v).progen = s.progen := rfl
@[simp] theorem setR0_swap565 (v : Word) : (s.setR0 v).swap565 = s.swap565 := rfl
@[simp] theorem setR0_vfirst (v : Word) : (s.setR0 v).vfirst = s.vfirst := rfl
@[simp] theorem setR0_stride (v : Word) : (s.setR0 v).stride = s.stride := rfl
@[simp] theorem setR0_planeBytes (v : Word) : (s.setR0 v).planeBytes = s.planeBytes := rfl
@[simp] theorem setR0_surfBytes (v : Word) : (s.setR0 v).surfBytes = s.surfBytes := rfl
@[simp] theorem setR0_inside (v : Word) (x y : Nat) : (s.setR0 v).inside x y = s.inside x y := rfl
@[simp] theorem setR0_pixelAddr (v : Word) (x y : Nat) : (s.setR0 v).pixelAddr x y = s.pixelAddr x y := rfl
@[simp] theorem setR0_memRead (v : Word) (a : Nat) : (s.setR0 v).memRead a = s.memRead a := rfl
@[simp] theorem setR0_sinkByte (v : Word) (a : Nat) : (s.setR0 v).sinkByte a = s.sinkByte a := rfl
@[simp] theorem setR0_nearest (v : Word) (c : Lab) : (s.setR0 v).nearest c = s.nearest c := rfl
@[simp] theorem setR0_nearestEntry (v : Word) (c : Lab) : (s.setR0 v).nearestEntry c = s.nearestEntry c := rfl
@[simp] theorem setR0_clipW (v : Word) (n : Nat) : (s.setR0 v).clipW n = s.clipW n := rfl
@[simp] theorem setR0_clipH (v : Word) (n : Nat) : (s.setR0 v).clipH n = s.clipH n := rfl
@[simp] theorem setR0_surfGet (v : Word) (x y : Nat) : (s.setR0 v).surfGet x y = s.surfGet x y := rfl

/-! `setR123` -/

@[simp] theorem setR123_r0 (e : Err3) : (s.setR123 e).r0 = s.r0 := rfl
@[simp] theorem setR123_r1 (e : Err3) : (s.setR123 e).r1 = e.L := rfl
@[simp] theorem setR123_r2 (e : Err3) : (s.setR123 e).r2 = e.a := rfl
@[simp] theorem setR123_r3 (e : Err3) : (s.setR123 e).r3 = e.b := rfl
@[simp] theorem setR123_err (e : Err3) : (s.setR123 e).err = s.err := rfl
@[simp] theorem setR123_bderr (e : Err3) : (s.setR123 e).bderr = s.bderr := rfl
@[simp] theorem setR123_fails (e : Err3) : (s.setR123 e).fails = s.fails := rfl
@[simp] theorem setR123_notfound (e : Err3) : (s.setR123 e).notfound = s.notfound := rfl
@[simp] theorem setR123_sat (e : Err3) : (s.setR123 e).sat = s.sat := rfl
@[simp] theorem setR123_cmdcnt (e : Err3) : (s.setR123 e).cmdcnt = s.cmdcnt := rfl
@[simp] theorem setR123_ctrl (e : Err3) : (s.setR123 e).ctrl = s.ctrl := rfl
@[simp] theorem setR123_acc (e : Err3) : (s.setR123 e).acc = s.acc := rfl
@[simp] theorem setR123_fmt (e : Err3) : (s.setR123 e).fmt = s.fmt := rfl
@[simp] theorem setR123_surfW (e : Err3) : (s.setR123 e).surfW = s.surfW := rfl
@[simp] theorem setR123_surfH (e : Err3) : (s.setR123 e).surfH = s.surfH := rfl
@[simp] theorem setR123_plut (e : Err3) : (s.setR123 e).plut = s.plut := rfl
@[simp] theorem setR123_pal (e : Err3) : (s.setR123 e).pal = s.pal := rfl
@[simp] theorem setR123_mono (e : Err3) : (s.setR123 e).mono = s.mono := rfl
@[simp] theorem setR123_curValid (e : Err3) : (s.setR123 e).curValid = s.curValid := rfl
@[simp] theorem setR123_curRow (e : Err3) : (s.setR123 e).curRow = s.curRow := rfl
@[simp] theorem setR123_thisRow (e : Err3) : (s.setR123 e).thisRow = s.thisRow := rfl
@[simp] theorem setR123_nextRow (e : Err3) : (s.setR123 e).nextRow = s.nextRow := rfl
@[simp] theorem setR123_fb (e : Err3) : (s.setR123 e).fb = s.fb := rfl
@[simp] theorem setR123_fbc (e : Err3) : (s.setR123 e).fbc = s.fbc := rfl
@[simp] theorem setR123_cmdq (e : Err3) : (s.setR123 e).cmdq = s.cmdq := rfl
@[simp] theorem setR123_rspq (e : Err3) : (s.setR123 e).rspq = s.rspq := rfl
@[simp] theorem setR123_progq (e : Err3) : (s.setR123 e).progq = s.progq := rfl
@[simp] theorem setR123_halted (e : Err3) : (s.setR123 e).halted = s.halted := rfl
@[simp] theorem setR123_seq (e : Err3) : (s.setR123 e).seq = s.seq := rfl
@[simp] theorem setR123_params (e : Err3) : (s.setR123 e).params = s.params := rfl
@[simp] theorem setR123_bsTotals (e : Err3) : (s.setR123 e).bsTotals = s.bsTotals := rfl
@[simp] theorem setR123_bsReads (e : Err3) : (s.setR123 e).bsReads = s.bsReads := rfl
@[simp] theorem setR123_bdInits (e : Err3) : (s.setR123 e).bdInits = s.bdInits := rfl
@[simp] theorem setR123_dropped (e : Err3) : (s.setR123 e).dropped = s.dropped := rfl
@[simp] theorem setR123_rowsOfDecode (e : Err3) : (s.setR123 e).rowsOfDecode = s.rowsOfDecode := rfl
@[simp] theorem setR123_bdMcus (e : Err3) : (s.setR123 e).bdMcus = s.bdMcus := rfl
@[simp] theorem setR123_reqs (e : Err3) : (s.setR123 e).reqs = s.reqs := rfl
@[simp] theorem setR123_choices (e : Err3) : (s.setR123 e).choices = s.choices := rfl
@[simp] theorem setR123_qmode (e : Err3) : (s.setR123 e).qmode = s.qmode := rfl
@[simp] theorem setR123_progen (e : Err3) : (s.setR123 e).progen = s.progen := rfl
@[simp] theorem setR123_swap565 (e : Err3) : (s.setR123 e).swap565 = s.swap565 := rfl
@[simp] theorem setR123_vfirst (e : Err3) : (s.setR123 e).vfirst = s.vfirst := rfl
@[simp] theorem setR123_stride (e : Err3) : (s.setR123 e).stride = s.stride := rfl
@[simp] theorem setR123_planeBytes (e : Err3) : (s.setR123 e).planeBytes = s.planeBytes := rfl
@[simp] theorem setR123_surfBytes (e : Err3) : (s.setR123 e).surfBytes = s.surfBytes := rfl
@[simp] theorem setR123_inside (e : Err3) (x y : Nat) : (s.setR123 e).inside x y = s.inside x y := rfl
@[simp] theorem setR123_pixelAddr (e : Err3) (x y : Nat) : (s.setR123 e).pixelAddr x y = s.pixelAddr x y := rfl
@[simp] theorem setR123_memRead (e : Err3) (a : Nat) : (s.setR123 e).memRead a = s.memRead a := rfl
@[simp] theorem setR123_sinkByte (e : Err3) (a : Nat) : (s.setR123 e).sinkByte a = s.sinkByte a := rfl
@[simp] theorem setR123_nearest (e : Err3) (c : Lab) : (s.setR123 e).nearest c = s.nearest c := rfl
@[simp] theorem setR123_nearestEntry (e : Err3) (c : Lab) : (s.setR123 e).nearestEntry c = s.nearestEntry c := rfl
@[simp] theorem setR123_clipW (e : Err3) (n : Nat) : (s.setR123 e).clipW n = s.clipW n := rfl
@[simp] theorem setR123_clipH (e : Err3) (n : Nat) : (s.setR123 e).clipH n = s.clipH n := rfl
@[simp] theorem setR123_surfGet (e : Err3) (x y : Nat) : (s.setR123 e).surfGet x y = s.surfGet x y := rfl

/-! `pushRsp` -/

@[simp] theorem pushRsp_r0 (w : Word) : (s.pushRsp w).r0 = s.r0 := rfl
@[simp] theorem pushRsp_r1 (w : Word) : (s.pushRsp w).r1 = s.r1 := rfl
@[simp] theorem pushRsp_r2 (w : Word) : (s.pushRsp w).r2 = s.r2 := rfl
@[simp] theorem pushRsp_r3 (w : Word) : (s.pushRsp w).r3 = s.r3 := rfl
@[simp] theorem pushRsp_err (w : Word) : (s.pushRsp w).err = s.err := rfl
@[simp] theorem pushRsp_bderr (w : Word) : (s.pushRsp w).bderr = s.bderr := rfl
@[simp] theorem pushRsp_fails (w : Word) : (s.pushRsp w).fails = s.fails := rfl
@[simp] theorem pushRsp_notfound (w : Word) : (s.pushRsp w).notfound = s.notfound := rfl
@[simp] theorem pushRsp_sat (w : Word) : (s.pushRsp w).sat = s.sat := rfl
@[simp] theorem pushRsp_cmdcnt (w : Word) : (s.pushRsp w).cmdcnt = s.cmdcnt := rfl
@[simp] theorem pushRsp_ctrl (w : Word) : (s.pushRsp w).ctrl = s.ctrl := rfl
@[simp] theorem pushRsp_acc (w : Word) : (s.pushRsp w).acc = s.acc := rfl
@[simp] theorem pushRsp_fmt (w : Word) : (s.pushRsp w).fmt = s.fmt := rfl
@[simp] theorem pushRsp_surfW (w : Word) : (s.pushRsp w).surfW = s.surfW := rfl
@[simp] theorem pushRsp_surfH (w : Word) : (s.pushRsp w).surfH = s.surfH := rfl
@[simp] theorem pushRsp_plut (w : Word) : (s.pushRsp w).plut = s.plut := rfl
@[simp] theorem pushRsp_pal (w : Word) : (s.pushRsp w).pal = s.pal := rfl
@[simp] theorem pushRsp_mono (w : Word) : (s.pushRsp w).mono = s.mono := rfl
@[simp] theorem pushRsp_curValid (w : Word) : (s.pushRsp w).curValid = s.curValid := rfl
@[simp] theorem pushRsp_curRow (w : Word) : (s.pushRsp w).curRow = s.curRow := rfl
@[simp] theorem pushRsp_thisRow (w : Word) : (s.pushRsp w).thisRow = s.thisRow := rfl
@[simp] theorem pushRsp_nextRow (w : Word) : (s.pushRsp w).nextRow = s.nextRow := rfl
@[simp] theorem pushRsp_fb (w : Word) : (s.pushRsp w).fb = s.fb := rfl
@[simp] theorem pushRsp_fbc (w : Word) : (s.pushRsp w).fbc = s.fbc := rfl
@[simp] theorem pushRsp_cmdq (w : Word) : (s.pushRsp w).cmdq = s.cmdq := rfl
@[simp] theorem pushRsp_rspq (w : Word) : (s.pushRsp w).rspq = s.rspq ++ [w] := rfl
@[simp] theorem pushRsp_progq (w : Word) : (s.pushRsp w).progq = s.progq := rfl
@[simp] theorem pushRsp_halted (w : Word) : (s.pushRsp w).halted = s.halted := rfl
@[simp] theorem pushRsp_seq (w : Word) : (s.pushRsp w).seq = s.seq := rfl
@[simp] theorem pushRsp_params (w : Word) : (s.pushRsp w).params = s.params := rfl
@[simp] theorem pushRsp_bsTotals (w : Word) : (s.pushRsp w).bsTotals = s.bsTotals := rfl
@[simp] theorem pushRsp_bsReads (w : Word) : (s.pushRsp w).bsReads = s.bsReads := rfl
@[simp] theorem pushRsp_bdInits (w : Word) : (s.pushRsp w).bdInits = s.bdInits := rfl
@[simp] theorem pushRsp_dropped (w : Word) : (s.pushRsp w).dropped = s.dropped := rfl
@[simp] theorem pushRsp_rowsOfDecode (w : Word) : (s.pushRsp w).rowsOfDecode = s.rowsOfDecode := rfl
@[simp] theorem pushRsp_bdMcus (w : Word) : (s.pushRsp w).bdMcus = s.bdMcus := rfl
@[simp] theorem pushRsp_reqs (w : Word) : (s.pushRsp w).reqs = s.reqs := rfl
@[simp] theorem pushRsp_choices (w : Word) : (s.pushRsp w).choices = s.choices := rfl
@[simp] theorem pushRsp_qmode (w : Word) : (s.pushRsp w).qmode = s.qmode := rfl
@[simp] theorem pushRsp_progen (w : Word) : (s.pushRsp w).progen = s.progen := rfl
@[simp] theorem pushRsp_swap565 (w : Word) : (s.pushRsp w).swap565 = s.swap565 := rfl
@[simp] theorem pushRsp_vfirst (w : Word) : (s.pushRsp w).vfirst = s.vfirst := rfl
@[simp] theorem pushRsp_stride (w : Word) : (s.pushRsp w).stride = s.stride := rfl
@[simp] theorem pushRsp_planeBytes (w : Word) : (s.pushRsp w).planeBytes = s.planeBytes := rfl
@[simp] theorem pushRsp_surfBytes (w : Word) : (s.pushRsp w).surfBytes = s.surfBytes := rfl
@[simp] theorem pushRsp_inside (w : Word) (x y : Nat) : (s.pushRsp w).inside x y = s.inside x y := rfl
@[simp] theorem pushRsp_pixelAddr (w : Word) (x y : Nat) : (s.pushRsp w).pixelAddr x y = s.pixelAddr x y := rfl
@[simp] theorem pushRsp_memRead (w : Word) (a : Nat) : (s.pushRsp w).memRead a = s.memRead a := rfl
@[simp] theorem pushRsp_sinkByte (w : Word) (a : Nat) : (s.pushRsp w).sinkByte a = s.sinkByte a := rfl
@[simp] theorem pushRsp_nearest (w : Word) (c : Lab) : (s.pushRsp w).nearest c = s.nearest c := rfl
@[simp] theorem pushRsp_nearestEntry (w : Word) (c : Lab) : (s.pushRsp w).nearestEntry c = s.nearestEntry c := rfl
@[simp] theorem pushRsp_clipW (w : Word) (n : Nat) : (s.pushRsp w).clipW n = s.clipW n := rfl
@[simp] theorem pushRsp_clipH (w : Word) (n : Nat) : (s.pushRsp w).clipH n = s.clipH n := rfl
@[simp] theorem pushRsp_surfGet (w : Word) (x y : Nat) : (s.pushRsp w).surfGet x y = s.surfGet x y := rfl

/-! `pushProg` -/

@[simp] theorem pushProg_r0 (w : Word) : (s.pushProg w).r0 = s.r0 := rfl
@[simp] theorem pushProg_r1 (w : Word) : (s.pushProg w).r1 = s.r1 := rfl
@[simp] theorem pushProg_r2 (w : Word) : (s.pushProg w).r2 = s.r2 := rfl
@[simp] theorem pushProg_r3 (w : Word) : (s.pushProg w).r3 = s.r3 := rfl
@[simp] theorem pushProg_err (w : Word) : (s.pushProg w).err = s.err := rfl
@[simp] theorem pushProg_bderr (w : Word) : (s.pushProg w).bderr = s.bderr := rfl
@[simp] theorem pushProg_fails (w : Word) : (s.pushProg w).fails = s.fails := rfl
@[simp] theorem pushProg_notfound (w : Word) : (s.pushProg w).notfound = s.notfound := rfl
@[simp] theorem pushProg_sat (w : Word) : (s.pushProg w).sat = s.sat := rfl
@[simp] theorem pushProg_cmdcnt (w : Word) : (s.pushProg w).cmdcnt = s.cmdcnt := rfl
@[simp] theorem pushProg_ctrl (w : Word) : (s.pushProg w).ctrl = s.ctrl := rfl
@[simp] theorem pushProg_acc (w : Word) : (s.pushProg w).acc = s.acc := rfl
@[simp] theorem pushProg_fmt (w : Word) : (s.pushProg w).fmt = s.fmt := rfl
@[simp] theorem pushProg_surfW (w : Word) : (s.pushProg w).surfW = s.surfW := rfl
@[simp] theorem pushProg_surfH (w : Word) : (s.pushProg w).surfH = s.surfH := rfl
@[simp] theorem pushProg_plut (w : Word) : (s.pushProg w).plut = s.plut := rfl
@[simp] theorem pushProg_pal (w : Word) : (s.pushProg w).pal = s.pal := rfl
@[simp] theorem pushProg_mono (w : Word) : (s.pushProg w).mono = s.mono := rfl
@[simp] theorem pushProg_curValid (w : Word) : (s.pushProg w).curValid = s.curValid := rfl
@[simp] theorem pushProg_curRow (w : Word) : (s.pushProg w).curRow = s.curRow := rfl
@[simp] theorem pushProg_thisRow (w : Word) : (s.pushProg w).thisRow = s.thisRow := rfl
@[simp] theorem pushProg_nextRow (w : Word) : (s.pushProg w).nextRow = s.nextRow := rfl
@[simp] theorem pushProg_fb (w : Word) : (s.pushProg w).fb = s.fb := rfl
@[simp] theorem pushProg_fbc (w : Word) : (s.pushProg w).fbc = s.fbc := rfl
@[simp] theorem pushProg_cmdq (w : Word) : (s.pushProg w).cmdq = s.cmdq := rfl
@[simp] theorem pushProg_rspq (w : Word) : (s.pushProg w).rspq = s.rspq := rfl
@[simp] theorem pushProg_progq (w : Word) : (s.pushProg w).progq = s.progq ++ [w] := rfl
@[simp] theorem pushProg_halted (w : Word) : (s.pushProg w).halted = s.halted := rfl
@[simp] theorem pushProg_seq (w : Word) : (s.pushProg w).seq = s.seq := rfl
@[simp] theorem pushProg_params (w : Word) : (s.pushProg w).params = s.params := rfl
@[simp] theorem pushProg_bsTotals (w : Word) : (s.pushProg w).bsTotals = s.bsTotals := rfl
@[simp] theorem pushProg_bsReads (w : Word) : (s.pushProg w).bsReads = s.bsReads := rfl
@[simp] theorem pushProg_bdInits (w : Word) : (s.pushProg w).bdInits = s.bdInits := rfl
@[simp] theorem pushProg_dropped (w : Word) : (s.pushProg w).dropped = s.dropped := rfl
@[simp] theorem pushProg_rowsOfDecode (w : Word) : (s.pushProg w).rowsOfDecode = s.rowsOfDecode := rfl
@[simp] theorem pushProg_bdMcus (w : Word) : (s.pushProg w).bdMcus = s.bdMcus := rfl
@[simp] theorem pushProg_reqs (w : Word) : (s.pushProg w).reqs = s.reqs := rfl
@[simp] theorem pushProg_choices (w : Word) : (s.pushProg w).choices = s.choices := rfl
@[simp] theorem pushProg_qmode (w : Word) : (s.pushProg w).qmode = s.qmode := rfl
@[simp] theorem pushProg_progen (w : Word) : (s.pushProg w).progen = s.progen := rfl
@[simp] theorem pushProg_swap565 (w : Word) : (s.pushProg w).swap565 = s.swap565 := rfl
@[simp] theorem pushProg_vfirst (w : Word) : (s.pushProg w).vfirst = s.vfirst := rfl
@[simp] theorem pushProg_stride (w : Word) : (s.pushProg w).stride = s.stride := rfl
@[simp] theorem pushProg_planeBytes (w : Word) : (s.pushProg w).planeBytes = s.planeBytes := rfl
@[simp] theorem pushProg_surfBytes (w : Word) : (s.pushProg w).surfBytes = s.surfBytes := rfl
@[simp] theorem pushProg_inside (w : Word) (x y : Nat) : (s.pushProg w).inside x y = s.inside x y := rfl
@[simp] theorem pushProg_pixelAddr (w : Word) (x y : Nat) : (s.pushProg w).pixelAddr x y = s.pixelAddr x y := rfl
@[simp] theorem pushProg_memRead (w : Word) (a : Nat) : (s.pushProg w).memRead a = s.memRead a := rfl
@[simp] theorem pushProg_sinkByte (w : Word) (a : Nat) : (s.pushProg w).sinkByte a = s.sinkByte a := rfl
@[simp] theorem pushProg_nearest (w : Word) (c : Lab) : (s.pushProg w).nearest c = s.nearest c := rfl
@[simp] theorem pushProg_nearestEntry (w : Word) (c : Lab) : (s.pushProg w).nearestEntry c = s.nearestEntry c := rfl
@[simp] theorem pushProg_clipW (w : Word) (n : Nat) : (s.pushProg w).clipW n = s.clipW n := rfl
@[simp] theorem pushProg_clipH (w : Word) (n : Nat) : (s.pushProg w).clipH n = s.clipH n := rfl
@[simp] theorem pushProg_surfGet (w : Word) (x y : Nat) : (s.pushProg w).surfGet x y = s.surfGet x y := rfl

/-! `request` -/

@[simp] theorem request_r0 (q : PortReq) : (s.request q).r0 = s.r0 := rfl
@[simp] theorem request_r1 (q : PortReq) : (s.request q).r1 = s.r1 := rfl
@[simp] theorem request_r2 (q : PortReq) : (s.request q).r2 = s.r2 := rfl
@[simp] theorem request_r3 (q : PortReq) : (s.request q).r3 = s.r3 := rfl
@[simp] theorem request_err (q : PortReq) : (s.request q).err = s.err := rfl
@[simp] theorem request_bderr (q : PortReq) : (s.request q).bderr = s.bderr := rfl
@[simp] theorem request_fails (q : PortReq) : (s.request q).fails = s.fails := rfl
@[simp] theorem request_notfound (q : PortReq) : (s.request q).notfound = s.notfound := rfl
@[simp] theorem request_sat (q : PortReq) : (s.request q).sat = s.sat := rfl
@[simp] theorem request_cmdcnt (q : PortReq) : (s.request q).cmdcnt = s.cmdcnt := rfl
@[simp] theorem request_ctrl (q : PortReq) : (s.request q).ctrl = s.ctrl := rfl
@[simp] theorem request_acc (q : PortReq) : (s.request q).acc = s.acc := rfl
@[simp] theorem request_fmt (q : PortReq) : (s.request q).fmt = s.fmt := rfl
@[simp] theorem request_surfW (q : PortReq) : (s.request q).surfW = s.surfW := rfl
@[simp] theorem request_surfH (q : PortReq) : (s.request q).surfH = s.surfH := rfl
@[simp] theorem request_plut (q : PortReq) : (s.request q).plut = s.plut := rfl
@[simp] theorem request_pal (q : PortReq) : (s.request q).pal = s.pal := rfl
@[simp] theorem request_mono (q : PortReq) : (s.request q).mono = s.mono := rfl
@[simp] theorem request_curValid (q : PortReq) : (s.request q).curValid = s.curValid := rfl
@[simp] theorem request_curRow (q : PortReq) : (s.request q).curRow = s.curRow := rfl
@[simp] theorem request_thisRow (q : PortReq) : (s.request q).thisRow = s.thisRow := rfl
@[simp] theorem request_nextRow (q : PortReq) : (s.request q).nextRow = s.nextRow := rfl
@[simp] theorem request_fb (q : PortReq) : (s.request q).fb = s.fb := rfl
@[simp] theorem request_fbc (q : PortReq) : (s.request q).fbc = s.fbc := rfl
@[simp] theorem request_cmdq (q : PortReq) : (s.request q).cmdq = s.cmdq := rfl
@[simp] theorem request_rspq (q : PortReq) : (s.request q).rspq = s.rspq := rfl
@[simp] theorem request_progq (q : PortReq) : (s.request q).progq = s.progq := rfl
@[simp] theorem request_halted (q : PortReq) : (s.request q).halted = s.halted := rfl
@[simp] theorem request_seq (q : PortReq) : (s.request q).seq = s.seq := rfl
@[simp] theorem request_params (q : PortReq) : (s.request q).params = s.params := rfl
@[simp] theorem request_bsTotals (q : PortReq) : (s.request q).bsTotals = s.bsTotals := rfl
@[simp] theorem request_bsReads (q : PortReq) : (s.request q).bsReads = s.bsReads := rfl
@[simp] theorem request_bdInits (q : PortReq) : (s.request q).bdInits = s.bdInits := rfl
@[simp] theorem request_dropped (q : PortReq) : (s.request q).dropped = s.dropped := rfl
@[simp] theorem request_rowsOfDecode (q : PortReq) : (s.request q).rowsOfDecode = s.rowsOfDecode := rfl
@[simp] theorem request_bdMcus (q : PortReq) : (s.request q).bdMcus = s.bdMcus := rfl
@[simp] theorem request_reqs (q : PortReq) : (s.request q).reqs = s.reqs ++ [q] := rfl
@[simp] theorem request_choices (q : PortReq) : (s.request q).choices = s.choices := rfl
@[simp] theorem request_qmode (q : PortReq) : (s.request q).qmode = s.qmode := rfl
@[simp] theorem request_progen (q : PortReq) : (s.request q).progen = s.progen := rfl
@[simp] theorem request_swap565 (q : PortReq) : (s.request q).swap565 = s.swap565 := rfl
@[simp] theorem request_vfirst (q : PortReq) : (s.request q).vfirst = s.vfirst := rfl
@[simp] theorem request_stride (q : PortReq) : (s.request q).stride = s.stride := rfl
@[simp] theorem request_planeBytes (q : PortReq) : (s.request q).planeBytes = s.planeBytes := rfl
@[simp] theorem request_surfBytes (q : PortReq) : (s.request q).surfBytes = s.surfBytes := rfl
@[simp] theorem request_inside (q : PortReq) (x y : Nat) : (s.request q).inside x y = s.inside x y := rfl
@[simp] theorem request_pixelAddr (q : PortReq) (x y : Nat) : (s.request q).pixelAddr x y = s.pixelAddr x y := rfl
@[simp] theorem request_memRead (q : PortReq) (a : Nat) : (s.request q).memRead a = s.memRead a := rfl
@[simp] theorem request_sinkByte (q : PortReq) (a : Nat) : (s.request q).sinkByte a = s.sinkByte a := rfl
@[simp] theorem request_nearest (q : PortReq) (c : Lab) : (s.request q).nearest c = s.nearest c := rfl
@[simp] theorem request_nearestEntry (q : PortReq) (c : Lab) : (s.request q).nearestEntry c = s.nearestEntry c := rfl
@[simp] theorem request_clipW (q : PortReq) (n : Nat) : (s.request q).clipW n = s.clipW n := rfl
@[simp] theorem request_clipH (q : PortReq) (n : Nat) : (s.request q).clipH n = s.clipH n := rfl
@[simp] theorem request_surfGet (q : PortReq) (x y : Nat) : (s.request q).surfGet x y = s.surfGet x y := rfl

/-! `invalidate` -/

@[simp] theorem invalidate_r0 : (s.invalidate).r0 = s.r0 := rfl
@[simp] theorem invalidate_r1 : (s.invalidate).r1 = s.r1 := rfl
@[simp] theorem invalidate_r2 : (s.invalidate).r2 = s.r2 := rfl
@[simp] theorem invalidate_r3 : (s.invalidate).r3 = s.r3 := rfl
@[simp] theorem invalidate_err : (s.invalidate).err = s.err := rfl
@[simp] theorem invalidate_bderr : (s.invalidate).bderr = s.bderr := rfl
@[simp] theorem invalidate_fails : (s.invalidate).fails = s.fails := rfl
@[simp] theorem invalidate_notfound : (s.invalidate).notfound = s.notfound := rfl
@[simp] theorem invalidate_sat : (s.invalidate).sat = s.sat := rfl
@[simp] theorem invalidate_cmdcnt : (s.invalidate).cmdcnt = s.cmdcnt := rfl
@[simp] theorem invalidate_ctrl : (s.invalidate).ctrl = s.ctrl := rfl
@[simp] theorem invalidate_acc : (s.invalidate).acc = s.acc := rfl
@[simp] theorem invalidate_fmt : (s.invalidate).fmt = s.fmt := rfl
@[simp] theorem invalidate_surfW : (s.invalidate).surfW = s.surfW := rfl
@[simp] theorem invalidate_surfH : (s.invalidate).surfH = s.surfH := rfl
@[simp] theorem invalidate_plut : (s.invalidate).plut = s.plut := rfl
@[simp] theorem invalidate_pal : (s.invalidate).pal = s.pal := rfl
@[simp] theorem invalidate_mono : (s.invalidate).mono = s.mono := rfl
@[simp] theorem invalidate_curValid : (s.invalidate).curValid = false := rfl
@[simp] theorem invalidate_curRow : (s.invalidate).curRow = s.curRow := rfl
@[simp] theorem invalidate_thisRow : (s.invalidate).thisRow = s.thisRow := rfl
@[simp] theorem invalidate_nextRow : (s.invalidate).nextRow = s.nextRow := rfl
@[simp] theorem invalidate_fb : (s.invalidate).fb = s.fb := rfl
@[simp] theorem invalidate_fbc : (s.invalidate).fbc = s.fbc := rfl
@[simp] theorem invalidate_cmdq : (s.invalidate).cmdq = s.cmdq := rfl
@[simp] theorem invalidate_rspq : (s.invalidate).rspq = s.rspq := rfl
@[simp] theorem invalidate_progq : (s.invalidate).progq = s.progq := rfl
@[simp] theorem invalidate_halted : (s.invalidate).halted = s.halted := rfl
@[simp] theorem invalidate_seq : (s.invalidate).seq = s.seq := rfl
@[simp] theorem invalidate_params : (s.invalidate).params = s.params := rfl
@[simp] theorem invalidate_bsTotals : (s.invalidate).bsTotals = s.bsTotals := rfl
@[simp] theorem invalidate_bsReads : (s.invalidate).bsReads = s.bsReads := rfl
@[simp] theorem invalidate_bdInits : (s.invalidate).bdInits = s.bdInits := rfl
@[simp] theorem invalidate_dropped : (s.invalidate).dropped = s.dropped := rfl
@[simp] theorem invalidate_rowsOfDecode : (s.invalidate).rowsOfDecode = s.rowsOfDecode := rfl
@[simp] theorem invalidate_bdMcus : (s.invalidate).bdMcus = s.bdMcus := rfl
@[simp] theorem invalidate_reqs : (s.invalidate).reqs = s.reqs := rfl
@[simp] theorem invalidate_choices : (s.invalidate).choices = s.choices := rfl
@[simp] theorem invalidate_qmode : (s.invalidate).qmode = s.qmode := rfl
@[simp] theorem invalidate_progen : (s.invalidate).progen = s.progen := rfl
@[simp] theorem invalidate_swap565 : (s.invalidate).swap565 = s.swap565 := rfl
@[simp] theorem invalidate_vfirst : (s.invalidate).vfirst = s.vfirst := rfl
@[simp] theorem invalidate_stride : (s.invalidate).stride = s.stride := rfl
@[simp] theorem invalidate_planeBytes : (s.invalidate).planeBytes = s.planeBytes := rfl
@[simp] theorem invalidate_surfBytes : (s.invalidate).surfBytes = s.surfBytes := rfl
@[simp] theorem invalidate_inside (x y : Nat) : (s.invalidate).inside x y = s.inside x y := rfl
@[simp] theorem invalidate_pixelAddr (x y : Nat) : (s.invalidate).pixelAddr x y = s.pixelAddr x y := rfl
@[simp] theorem invalidate_memRead (a : Nat) : (s.invalidate).memRead a = s.memRead a := rfl
@[simp] theorem invalidate_sinkByte (a : Nat) : (s.invalidate).sinkByte a = s.sinkByte a := rfl
@[simp] theorem invalidate_nearest (c : Lab) : (s.invalidate).nearest c = s.nearest c := rfl
@[simp] theorem invalidate_nearestEntry (c : Lab) : (s.invalidate).nearestEntry c = s.nearestEntry c := rfl
@[simp] theorem invalidate_clipW (n : Nat) : (s.invalidate).clipW n = s.clipW n := rfl
@[simp] theorem invalidate_clipH (n : Nat) : (s.invalidate).clipH n = s.clipH n := rfl
@[simp] theorem invalidate_surfGet (x y : Nat) : (s.invalidate).surfGet x y = s.surfGet x y := rfl

/-! `beginRows` -/

@[simp] theorem beginRows_r0 : (s.beginRows).r0 = s.r0 := rfl
@[simp] theorem beginRows_r1 : (s.beginRows).r1 = s.r1 := rfl
@[simp] theorem beginRows_r2 : (s.beginRows).r2 = s.r2 := rfl
@[simp] theorem beginRows_r3 : (s.beginRows).r3 = s.r3 := rfl
@[simp] theorem beginRows_err : (s.beginRows).err = s.err := rfl
@[simp] theorem beginRows_bderr : (s.beginRows).bderr = s.bderr := rfl
@[simp] theorem beginRows_fails : (s.beginRows).fails = s.fails := rfl
@[simp] theorem beginRows_notfound : (s.beginRows).notfound = s.notfound := rfl
@[simp] theorem beginRows_sat : (s.beginRows).sat = s.sat := rfl
@[simp] theorem beginRows_cmdcnt : (s.beginRows).cmdcnt = s.cmdcnt := rfl
@[simp] theorem beginRows_ctrl : (s.beginRows).ctrl = s.ctrl := rfl
@[simp] theorem beginRows_acc : (s.beginRows).acc = s.acc := rfl
@[simp] theorem beginRows_fmt : (s.beginRows).fmt = s.fmt := rfl
@[simp] theorem beginRows_surfW : (s.beginRows).surfW = s.surfW := rfl
@[simp] theorem beginRows_surfH : (s.beginRows).surfH = s.surfH := rfl
@[simp] theorem beginRows_plut : (s.beginRows).plut = s.plut := rfl
@[simp] theorem beginRows_pal : (s.beginRows).pal = s.pal := rfl
@[simp] theorem beginRows_mono : (s.beginRows).mono = s.mono := rfl
@[simp] theorem beginRows_curValid : (s.beginRows).curValid = false := rfl
@[simp] theorem beginRows_curRow : (s.beginRows).curRow = s.curRow := rfl
@[simp] theorem beginRows_thisRow : (s.beginRows).thisRow = s.thisRow := rfl
@[simp] theorem beginRows_nextRow : (s.beginRows).nextRow = s.nextRow := rfl
@[simp] theorem beginRows_fb : (s.beginRows).fb = s.fb := rfl
@[simp] theorem beginRows_fbc : (s.beginRows).fbc = s.fbc := rfl
@[simp] theorem beginRows_cmdq : (s.beginRows).cmdq = s.cmdq := rfl
@[simp] theorem beginRows_rspq : (s.beginRows).rspq = s.rspq := rfl
@[simp] theorem beginRows_progq : (s.beginRows).progq = s.progq := rfl
@[simp] theorem beginRows_halted : (s.beginRows).halted = s.halted := rfl
@[simp] theorem beginRows_seq : (s.beginRows).seq = s.seq := rfl
@[simp] theorem beginRows_params : (s.beginRows).params = s.params := rfl
@[simp] theorem beginRows_bsTotals : (s.beginRows).bsTotals = s.bsTotals := rfl
@[simp] theorem beginRows_bsReads : (s.beginRows).bsReads = s.bsReads := rfl
@[simp] theorem beginRows_bdInits : (s.beginRows).bdInits = s.bdInits := rfl
@[simp] theorem beginRows_dropped : (s.beginRows).dropped = s.dropped := rfl
@[simp] theorem beginRows_rowsOfDecode : (s.beginRows).rowsOfDecode = true := rfl
@[simp] theorem beginRows_bdMcus : (s.beginRows).bdMcus = s.bdMcus := rfl
@[simp] theorem beginRows_reqs : (s.beginRows).reqs = s.reqs := rfl
@[simp] theorem beginRows_choices : (s.beginRows).choices = s.choices := rfl
@[simp] theorem beginRows_qmode : (s.beginRows).qmode = s.qmode := rfl
@[simp] theorem beginRows_progen : (s.beginRows).progen = s.progen := rfl
@[simp] theorem beginRows_swap565 : (s.beginRows).swap565 = s.swap565 := rfl
@[simp] theorem beginRows_vfirst : (s.beginRows).vfirst = s.vfirst := rfl
@[simp] theorem beginRows_stride : (s.beginRows).stride = s.stride := rfl
@[simp] theorem beginRows_planeBytes : (s.beginRows).planeBytes = s.planeBytes := rfl
@[simp] theorem beginRows_surfBytes : (s.beginRows).surfBytes = s.surfBytes := rfl
@[simp] theorem beginRows_inside (x y : Nat) : (s.beginRows).inside x y = s.inside x y := rfl
@[simp] theorem beginRows_pixelAddr (x y : Nat) : (s.beginRows).pixelAddr x y = s.pixelAddr x y := rfl
@[simp] theorem beginRows_memRead (a : Nat) : (s.beginRows).memRead a = s.memRead a := rfl
@[simp] theorem beginRows_sinkByte (a : Nat) : (s.beginRows).sinkByte a = s.sinkByte a := rfl
@[simp] theorem beginRows_nearest (c : Lab) : (s.beginRows).nearest c = s.nearest c := rfl
@[simp] theorem beginRows_nearestEntry (c : Lab) : (s.beginRows).nearestEntry c = s.nearestEntry c := rfl
@[simp] theorem beginRows_clipW (n : Nat) : (s.beginRows).clipW n = s.clipW n := rfl
@[simp] theorem beginRows_clipH (n : Nat) : (s.beginRows).clipH n = s.clipH n := rfl
@[simp] theorem beginRows_surfGet (x y : Nat) : (s.beginRows).surfGet x y = s.surfGet x y := rfl

/-! `retire` -/

@[simp] theorem retire_r0 (rc : Code) : (s.retire rc).r0 = s.r0 := rfl
@[simp] theorem retire_r1 (rc : Code) : (s.retire rc).r1 = s.r1 := rfl
@[simp] theorem retire_r2 (rc : Code) : (s.retire rc).r2 = s.r2 := rfl
@[simp] theorem retire_r3 (rc : Code) : (s.retire rc).r3 = s.r3 := rfl
@[simp] theorem retire_err (rc : Code) : (s.retire rc).err = rc := rfl
@[simp] theorem retire_bderr (rc : Code) : (s.retire rc).bderr = s.bderr := rfl
@[simp] theorem retire_fails (rc : Code) : (s.retire rc).fails = (s.fails || decide (rc ≠ .ok)) := rfl
@[simp] theorem retire_notfound (rc : Code) : (s.retire rc).notfound = s.notfound := rfl
@[simp] theorem retire_sat (rc : Code) : (s.retire rc).sat = s.sat := rfl
@[simp] theorem retire_cmdcnt (rc : Code) : (s.retire rc).cmdcnt = s.cmdcnt + 1 := rfl
@[simp] theorem retire_ctrl (rc : Code) : (s.retire rc).ctrl = s.ctrl := rfl
@[simp] theorem retire_acc (rc : Code) : (s.retire rc).acc = s.acc := rfl
@[simp] theorem retire_fmt (rc : Code) : (s.retire rc).fmt = s.fmt := rfl
@[simp] theorem retire_surfW (rc : Code) : (s.retire rc).surfW = s.surfW := rfl
@[simp] theorem retire_surfH (rc : Code) : (s.retire rc).surfH = s.surfH := rfl
@[simp] theorem retire_plut (rc : Code) : (s.retire rc).plut = s.plut := rfl
@[simp] theorem retire_pal (rc : Code) : (s.retire rc).pal = s.pal := rfl
@[simp] theorem retire_mono (rc : Code) : (s.retire rc).mono = s.mono := rfl
@[simp] theorem retire_curValid (rc : Code) : (s.retire rc).curValid = s.curValid := rfl
@[simp] theorem retire_curRow (rc : Code) : (s.retire rc).curRow = s.curRow := rfl
@[simp] theorem retire_thisRow (rc : Code) : (s.retire rc).thisRow = s.thisRow := rfl
@[simp] theorem retire_nextRow (rc : Code) : (s.retire rc).nextRow = s.nextRow := rfl
@[simp] theorem retire_fb (rc : Code) : (s.retire rc).fb = s.fb := rfl
@[simp] theorem retire_fbc (rc : Code) : (s.retire rc).fbc = s.fbc := rfl
@[simp] theorem retire_cmdq (rc : Code) : (s.retire rc).cmdq = s.cmdq := rfl
@[simp] theorem retire_rspq (rc : Code) : (s.retire rc).rspq = s.rspq := rfl
@[simp] theorem retire_progq (rc : Code) : (s.retire rc).progq = s.progq := rfl
@[simp] theorem retire_halted (rc : Code) : (s.retire rc).halted = s.halted := rfl
@[simp] theorem retire_seq (rc : Code) : (s.retire rc).seq = s.seq := rfl
@[simp] theorem retire_params (rc : Code) : (s.retire rc).params = s.params := rfl
@[simp] theorem retire_bsTotals (rc : Code) : (s.retire rc).bsTotals = s.bsTotals := rfl
@[simp] theorem retire_bsReads (rc : Code) : (s.retire rc).bsReads = s.bsReads := rfl
@[simp] theorem retire_bdInits (rc : Code) : (s.retire rc).bdInits = s.bdInits := rfl
@[simp] theorem retire_dropped (rc : Code) : (s.retire rc).dropped = s.dropped := rfl
@[simp] theorem retire_rowsOfDecode (rc : Code) : (s.retire rc).rowsOfDecode = s.rowsOfDecode := rfl
@[simp] theorem retire_bdMcus (rc : Code) : (s.retire rc).bdMcus = s.bdMcus := rfl
@[simp] theorem retire_reqs (rc : Code) : (s.retire rc).reqs = s.reqs := rfl
@[simp] theorem retire_choices (rc : Code) : (s.retire rc).choices = s.choices := rfl
@[simp] theorem retire_qmode (rc : Code) : (s.retire rc).qmode = s.qmode := rfl
@[simp] theorem retire_progen (rc : Code) : (s.retire rc).progen = s.progen := rfl
@[simp] theorem retire_swap565 (rc : Code) : (s.retire rc).swap565 = s.swap565 := rfl
@[simp] theorem retire_vfirst (rc : Code) : (s.retire rc).vfirst = s.vfirst := rfl
@[simp] theorem retire_stride (rc : Code) : (s.retire rc).stride = s.stride := rfl
@[simp] theorem retire_planeBytes (rc : Code) : (s.retire rc).planeBytes = s.planeBytes := rfl
@[simp] theorem retire_surfBytes (rc : Code) : (s.retire rc).surfBytes = s.surfBytes := rfl
@[simp] theorem retire_inside (rc : Code) (x y : Nat) : (s.retire rc).inside x y = s.inside x y := rfl
@[simp] theorem retire_pixelAddr (rc : Code) (x y : Nat) : (s.retire rc).pixelAddr x y = s.pixelAddr x y := rfl
@[simp] theorem retire_memRead (rc : Code) (a : Nat) : (s.retire rc).memRead a = s.memRead a := rfl
@[simp] theorem retire_sinkByte (rc : Code) (a : Nat) : (s.retire rc).sinkByte a = s.sinkByte a := rfl
@[simp] theorem retire_nearest (rc : Code) (c : Lab) : (s.retire rc).nearest c = s.nearest c := rfl
@[simp] theorem retire_nearestEntry (rc : Code) (c : Lab) : (s.retire rc).nearestEntry c = s.nearestEntry c := rfl
@[simp] theorem retire_clipW (rc : Code) (n : Nat) : (s.retire rc).clipW n = s.clipW n := rfl
@[simp] theorem retire_clipH (rc : Code) (n : Nat) : (s.retire rc).clipH n = s.clipH n := rfl
@[simp] theorem retire_surfGet (rc : Code) (x y : Nat) : (s.retire rc).surfGet x y = s.surfGet x y := rfl

/-! `retireQuiet` -/

@[simp] theorem retireQuiet_r0 : (s.retireQuiet).r0 = s.r0 := rfl
@[simp] theorem retireQuiet_r1 : (s.retireQuiet).r1 = s.r1 := rfl
@[simp] theorem retireQuiet_r2 : (s.retireQuiet).r2 = s.r2 := rfl
@[simp] theorem retireQuiet_r3 : (s.retireQuiet).r3 = s.r3 := rfl
@[simp] theorem retireQuiet_err : (s.retireQuiet).err = s.err := rfl
@[simp] theorem retireQuiet_bderr : (s.retireQuiet).bderr = s.bderr := rfl
@[simp] theorem retireQuiet_fails : (s.retireQuiet).fails = s.fails := rfl
@[simp] theorem retireQuiet_notfound : (s.retireQuiet).notfound = s.notfound := rfl
@[simp] theorem retireQuiet_sat : (s.retireQuiet).sat = s.sat := rfl
@[simp] theorem retireQuiet_cmdcnt : (s.retireQuiet).cmdcnt = s.cmdcnt + 1 := rfl
@[simp] theorem retireQuiet_ctrl : (s.retireQuiet).ctrl = s.ctrl := rfl
@[simp] theorem retireQuiet_acc : (s.retireQuiet).acc = s.acc := rfl
@[simp] theorem retireQuiet_fmt : (s.retireQuiet).fmt = s.fmt := rfl
@[simp] theorem retireQuiet_surfW : (s.retireQuiet).surfW = s.surfW := rfl
@[simp] theorem retireQuiet_surfH : (s.retireQuiet).surfH = s.surfH := rfl
@[simp] theorem retireQuiet_plut : (s.retireQuiet).plut = s.plut := rfl
@[simp] theorem retireQuiet_pal : (s.retireQuiet).pal = s.pal := rfl
@[simp] theorem retireQuiet_mono : (s.retireQuiet).mono = s.mono := rfl
@[simp] theorem retireQuiet_curValid : (s.retireQuiet).curValid = s.curValid := rfl
@[simp] theorem retireQuiet_curRow : (s.retireQuiet).curRow = s.curRow := rfl
@[simp] theorem retireQuiet_thisRow : (s.retireQuiet).thisRow = s.thisRow := rfl
@[simp] theorem retireQuiet_nextRow : (s.retireQuiet).nextRow = s.nextRow := rfl
@[simp] theorem retireQuiet_fb : (s.retireQuiet).fb = s.fb := rfl
@[simp] theorem retireQuiet_fbc : (s.retireQuiet).fbc = s.fbc := rfl
@[simp] theorem retireQuiet_cmdq : (s.retireQuiet).cmdq = s.cmdq := rfl
@[simp] theorem retireQuiet_rspq : (s.retireQuiet).rspq = s.rspq := rfl
@[simp] theorem retireQuiet_progq : (s.retireQuiet).progq = s.progq := rfl
@[simp] theorem retireQuiet_halted : (s.retireQuiet).halted = s.halted := rfl
@[simp] theorem retireQuiet_seq : (s.retireQuiet).seq = s.seq := rfl
@[simp] theorem retireQuiet_params : (s.retireQuiet).params = s.params := rfl
@[simp] theorem retireQuiet_bsTotals : (s.retireQuiet).bsTotals = s.bsTotals := rfl
@[simp] theorem retireQuiet_bsReads : (s.retireQuiet).bsReads = s.bsReads := rfl
@[simp] theorem retireQuiet_bdInits : (s.retireQuiet).bdInits = s.bdInits := rfl
@[simp] theorem retireQuiet_dropped : (s.retireQuiet).dropped = s.dropped := rfl
@[simp] theorem retireQuiet_rowsOfDecode : (s.retireQuiet).rowsOfDecode = s.rowsOfDecode := rfl
@[simp] theorem retireQuiet_bdMcus : (s.retireQuiet).bdMcus = s.bdMcus := rfl
@[simp] theorem retireQuiet_reqs : (s.retireQuiet).reqs = s.reqs := rfl
@[simp] theorem retireQuiet_choices : (s.retireQuiet).choices = s.choices := rfl
@[simp] theorem retireQuiet_qmode : (s.retireQuiet).qmode = s.qmode := rfl
@[simp] theorem retireQuiet_progen : (s.retireQuiet).progen = s.progen := rfl
@[simp] theorem retireQuiet_swap565 : (s.retireQuiet).swap565 = s.swap565 := rfl
@[simp] theorem retireQuiet_vfirst : (s.retireQuiet).vfirst = s.vfirst := rfl
@[simp] theorem retireQuiet_stride : (s.retireQuiet).stride = s.stride := rfl
@[simp] theorem retireQuiet_planeBytes : (s.retireQuiet).planeBytes = s.planeBytes := rfl
@[simp] theorem retireQuiet_surfBytes : (s.retireQuiet).surfBytes = s.surfBytes := rfl
@[simp] theorem retireQuiet_inside (x y : Nat) : (s.retireQuiet).inside x y = s.inside x y := rfl
@[simp] theorem retireQuiet_pixelAddr (x y : Nat) : (s.retireQuiet).pixelAddr x y = s.pixelAddr x y := rfl
@[simp] theorem retireQuiet_memRead (a : Nat) : (s.retireQuiet).memRead a = s.memRead a := rfl
@[simp] theorem retireQuiet_sinkByte (a : Nat) : (s.retireQuiet).sinkByte a = s.sinkByte a := rfl
@[simp] theorem retireQuiet_nearest (c : Lab) : (s.retireQuiet).nearest c = s.nearest c := rfl
@[simp] theorem retireQuiet_nearestEntry (c : Lab) : (s.retireQuiet).nearestEntry c = s.nearestEntry c := rfl
@[simp] theorem retireQuiet_clipW (n : Nat) : (s.retireQuiet).clipW n = s.clipW n := rfl
@[simp] theorem retireQuiet_clipH (n : Nat) : (s.retireQuiet).clipH n = s.clipH n := rfl
@[simp] theorem retireQuiet_surfGet (x y : Nat) : (s.retireQuiet).surfGet x y = s.surfGet x y := rfl

/-! `noteSat` -/

@[simp] theorem noteSat_r0 (hit : Bool) : (s.noteSat hit).r0 = s.r0 := rfl
@[simp] theorem noteSat_r1 (hit : Bool) : (s.noteSat hit).r1 = s.r1 := rfl
@[simp] theorem noteSat_r2 (hit : Bool) : (s.noteSat hit).r2 = s.r2 := rfl
@[simp] theorem noteSat_r3 (hit : Bool) : (s.noteSat hit).r3 = s.r3 := rfl
@[simp] theorem noteSat_err (hit : Bool) : (s.noteSat hit).err = s.err := rfl
@[simp] theorem noteSat_bderr (hit : Bool) : (s.noteSat hit).bderr = s.bderr := rfl
@[simp] theorem noteSat_fails (hit : Bool) : (s.noteSat hit).fails = s.fails := rfl
@[simp] theorem noteSat_notfound (hit : Bool) : (s.noteSat hit).notfound = s.notfound := rfl
@[simp] theorem noteSat_sat (hit : Bool) : (s.noteSat hit).sat = (s.sat || hit) := rfl
@[simp] theorem noteSat_cmdcnt (hit : Bool) : (s.noteSat hit).cmdcnt = s.cmdcnt := rfl
@[simp] theorem noteSat_ctrl (hit : Bool) : (s.noteSat hit).ctrl = s.ctrl := rfl
@[simp] theorem noteSat_acc (hit : Bool) : (s.noteSat hit).acc = s.acc := rfl
@[simp] theorem noteSat_fmt (hit : Bool) : (s.noteSat hit).fmt = s.fmt := rfl
@[simp] theorem noteSat_surfW (hit : Bool) : (s.noteSat hit).surfW = s.surfW := rfl
@[simp] theorem noteSat_surfH (hit : Bool) : (s.noteSat hit).surfH = s.surfH := rfl
@[simp] theorem noteSat_plut (hit : Bool) : (s.noteSat hit).plut = s.plut := rfl
@[simp] theorem noteSat_pal (hit : Bool) : (s.noteSat hit).pal = s.pal := rfl
@[simp] theorem noteSat_mono (hit : Bool) : (s.noteSat hit).mono = s.mono := rfl
@[simp] theorem noteSat_curValid (hit : Bool) : (s.noteSat hit).curValid = s.curValid := rfl
@[simp] theorem noteSat_curRow (hit : Bool) : (s.noteSat hit).curRow = s.curRow := rfl
@[simp] theorem noteSat_thisRow (hit : Bool) : (s.noteSat hit).thisRow = s.thisRow := rfl
@[simp] theorem noteSat_nextRow (hit : Bool) : (s.noteSat hit).nextRow = s.nextRow := rfl
@[simp] theorem noteSat_fb (hit : Bool) : (s.noteSat hit).fb = s.fb := rfl
@[simp] theorem noteSat_fbc (hit : Bool) : (s.noteSat hit).fbc = s.fbc := rfl
@[simp] theorem noteSat_cmdq (hit : Bool) : (s.noteSat hit).cmdq = s.cmdq := rfl
@[simp] theorem noteSat_rspq (hit : Bool) : (s.noteSat hit).rspq = s.rspq := rfl
@[simp] theorem noteSat_progq (hit : Bool) : (s.noteSat hit).progq = s.progq := rfl
@[simp] theorem noteSat_halted (hit : Bool) : (s.noteSat hit).halted = s.halted := rfl
@[simp] theorem noteSat_seq (hit : Bool) : (s.noteSat hit).seq = s.seq := rfl
@[simp] theorem noteSat_params (hit : Bool) : (s.noteSat hit).params = s.params := rfl
@[simp] theorem noteSat_bsTotals (hit : Bool) : (s.noteSat hit).bsTotals = s.bsTotals := rfl
@[simp] theorem noteSat_bsReads (hit : Bool) : (s.noteSat hit).bsReads = s.bsReads := rfl
@[simp] theorem noteSat_bdInits (hit : Bool) : (s.noteSat hit).bdInits = s.bdInits := rfl
@[simp] theorem noteSat_dropped (hit : Bool) : (s.noteSat hit).dropped = s.dropped := rfl
@[simp] theorem noteSat_rowsOfDecode (hit : Bool) : (s.noteSat hit).rowsOfDecode = s.rowsOfDecode := rfl
@[simp] theorem noteSat_bdMcus (hit : Bool) : (s.noteSat hit).bdMcus = s.bdMcus := rfl
@[simp] theorem noteSat_reqs (hit : Bool) : (s.noteSat hit).reqs = s.reqs := rfl
@[simp] theorem noteSat_choices (hit : Bool) : (s.noteSat hit).choices = s.choices := rfl
@[simp] theorem noteSat_qmode (hit : Bool) : (s.noteSat hit).qmode = s.qmode := rfl
@[simp] theorem noteSat_progen (hit : Bool) : (s.noteSat hit).progen = s.progen := rfl
@[simp] theorem noteSat_swap565 (hit : Bool) : (s.noteSat hit).swap565 = s.swap565 := rfl
@[simp] theorem noteSat_vfirst (hit : Bool) : (s.noteSat hit).vfirst = s.vfirst := rfl
@[simp] theorem noteSat_stride (hit : Bool) : (s.noteSat hit).stride = s.stride := rfl
@[simp] theorem noteSat_planeBytes (hit : Bool) : (s.noteSat hit).planeBytes = s.planeBytes := rfl
@[simp] theorem noteSat_surfBytes (hit : Bool) : (s.noteSat hit).surfBytes = s.surfBytes := rfl
@[simp] theorem noteSat_inside (hit : Bool) (x y : Nat) : (s.noteSat hit).inside x y = s.inside x y := rfl
@[simp] theorem noteSat_pixelAddr (hit : Bool) (x y : Nat) : (s.noteSat hit).pixelAddr x y = s.pixelAddr x y := rfl
@[simp] theorem noteSat_memRead (hit : Bool) (a : Nat) : (s.noteSat hit).memRead a = s.memRead a := rfl
@[simp] theorem noteSat_sinkByte (hit : Bool) (a : Nat) : (s.noteSat hit).sinkByte a = s.sinkByte a := rfl
@[simp] theorem noteSat_nearest (hit : Bool) (c : Lab) : (s.noteSat hit).nearest c = s.nearest c := rfl
@[simp] theorem noteSat_nearestEntry (hit : Bool) (c : Lab) : (s.noteSat hit).nearestEntry c = s.nearestEntry c := rfl
@[simp] theorem noteSat_clipW (hit : Bool) (n : Nat) : (s.noteSat hit).clipW n = s.clipW n := rfl
@[simp] theorem noteSat_clipH (hit : Bool) (n : Nat) : (s.noteSat hit).clipH n = s.clipH n := rfl
@[simp] theorem noteSat_surfGet (hit : Bool) (x y : Nat) : (s.noteSat hit).surfGet x y = s.surfGet x y := rfl

/-! `noteNotFound` -/

@[simp] theorem noteNotFound_r0 : (s.noteNotFound).r0 = s.r0 := rfl
@[simp] theorem noteNotFound_r1 : (s.noteNotFound).r1 = s.r1 := rfl
@[simp] theorem noteNotFound_r2 : (s.noteNotFound).r2 = s.r2 := rfl
@[simp] theorem noteNotFound_r3 : (s.noteNotFound).r3 = s.r3 := rfl
@[simp] theorem noteNotFound_err : (s.noteNotFound).err = s.err := rfl
@[simp] theorem noteNotFound_bderr : (s.noteNotFound).bderr = s.bderr := rfl
@[simp] theorem noteNotFound_fails : (s.noteNotFound).fails = s.fails := rfl
@[simp] theorem noteNotFound_notfound : (s.noteNotFound).notfound = true := rfl
@[simp] theorem noteNotFound_sat : (s.noteNotFound).sat = s.sat := rfl
@[simp] theorem noteNotFound_cmdcnt : (s.noteNotFound).cmdcnt = s.cmdcnt := rfl
@[simp] theorem noteNotFound_ctrl : (s.noteNotFound).ctrl = s.ctrl := rfl
@[simp] theorem noteNotFound_acc : (s.noteNotFound).acc = s.acc := rfl
@[simp] theorem noteNotFound_fmt : (s.noteNotFound).fmt = s.fmt := rfl
@[simp] theorem noteNotFound_surfW : (s.noteNotFound).surfW = s.surfW := rfl
@[simp] theorem noteNotFound_surfH : (s.noteNotFound).surfH = s.surfH := rfl
@[simp] theorem noteNotFound_plut : (s.noteNotFound).plut = s.plut := rfl
@[simp] theorem noteNotFound_pal : (s.noteNotFound).pal = s.pal := rfl
@[simp] theorem noteNotFound_mono : (s.noteNotFound).mono = s.mono := rfl
@[simp] theorem noteNotFound_curValid : (s.noteNotFound).curValid = s.curValid := rfl
@[simp] theorem noteNotFound_curRow : (s.noteNotFound).curRow = s.curRow := rfl
@[simp] theorem noteNotFound_thisRow : (s.noteNotFound).thisRow = s.thisRow := rfl
@[simp] theorem noteNotFound_nextRow : (s.noteNotFound).nextRow = s.nextRow := rfl
@[simp] theorem noteNotFound_fb : (s.noteNotFound).fb = s.fb := rfl
@[simp] theorem noteNotFound_fbc : (s.noteNotFound).fbc = s.fbc := rfl
@[simp] theorem noteNotFound_cmdq : (s.noteNotFound).cmdq = s.cmdq := rfl
@[simp] theorem noteNotFound_rspq : (s.noteNotFound).rspq = s.rspq := rfl
@[simp] theorem noteNotFound_progq : (s.noteNotFound).progq = s.progq := rfl
@[simp] theorem noteNotFound_halted : (s.noteNotFound).halted = s.halted := rfl
@[simp] theorem noteNotFound_seq : (s.noteNotFound).seq = s.seq := rfl
@[simp] theorem noteNotFound_params : (s.noteNotFound).params = s.params := rfl
@[simp] theorem noteNotFound_bsTotals : (s.noteNotFound).bsTotals = s.bsTotals := rfl
@[simp] theorem noteNotFound_bsReads : (s.noteNotFound).bsReads = s.bsReads := rfl
@[simp] theorem noteNotFound_bdInits : (s.noteNotFound).bdInits = s.bdInits := rfl
@[simp] theorem noteNotFound_dropped : (s.noteNotFound).dropped = s.dropped := rfl
@[simp] theorem noteNotFound_rowsOfDecode : (s.noteNotFound).rowsOfDecode = s.rowsOfDecode := rfl
@[simp] theorem noteNotFound_bdMcus : (s.noteNotFound).bdMcus = s.bdMcus := rfl
@[simp] theorem noteNotFound_reqs : (s.noteNotFound).reqs = s.reqs := rfl
@[simp] theorem noteNotFound_choices : (s.noteNotFound).choices = s.choices := rfl
@[simp] theorem noteNotFound_qmode : (s.noteNotFound).qmode = s.qmode := rfl
@[simp] theorem noteNotFound_progen : (s.noteNotFound).progen = s.progen := rfl
@[simp] theorem noteNotFound_swap565 : (s.noteNotFound).swap565 = s.swap565 := rfl
@[simp] theorem noteNotFound_vfirst : (s.noteNotFound).vfirst = s.vfirst := rfl
@[simp] theorem noteNotFound_stride : (s.noteNotFound).stride = s.stride := rfl
@[simp] theorem noteNotFound_planeBytes : (s.noteNotFound).planeBytes = s.planeBytes := rfl
@[simp] theorem noteNotFound_surfBytes : (s.noteNotFound).surfBytes = s.surfBytes := rfl
@[simp] theorem noteNotFound_inside (x y : Nat) : (s.noteNotFound).inside x y = s.inside x y := rfl
@[simp] theorem noteNotFound_pixelAddr (x y : Nat) : (s.noteNotFound).pixelAddr x y = s.pixelAddr x y := rfl
@[simp] theorem noteNotFound_memRead (a : Nat) : (s.noteNotFound).memRead a = s.memRead a := rfl
@[simp] theorem noteNotFound_sinkByte (a : Nat) : (s.noteNotFound).sinkByte a = s.sinkByte a := rfl
@[simp] theorem noteNotFound_nearest (c : Lab) : (s.noteNotFound).nearest c = s.nearest c := rfl
@[simp] theorem noteNotFound_nearestEntry (c : Lab) : (s.noteNotFound).nearestEntry c = s.nearestEntry c := rfl
@[simp] theorem noteNotFound_clipW (n : Nat) : (s.noteNotFound).clipW n = s.clipW n := rfl
@[simp] theorem noteNotFound_clipH (n : Nat) : (s.noteNotFound).clipH n = s.clipH n := rfl
@[simp] theorem noteNotFound_surfGet (x y : Nat) : (s.noteNotFound).surfGet x y = s.surfGet x y := rfl

/-! `setPalette` -/

@[simp] theorem setPalette_r0 (p : List PalEntry) (m : Bool) : (s.setPalette p m).r0 = s.r0 := rfl
@[simp] theorem setPalette_r1 (p : List PalEntry) (m : Bool) : (s.setPalette p m).r1 = s.r1 := rfl
@[simp] theorem setPalette_r2 (p : List PalEntry) (m : Bool) : (s.setPalette p m).r2 = s.r2 := rfl
@[simp] theorem setPalette_r3 (p : List PalEntry) (m : Bool) : (s.setPalette p m).r3 = s.r3 := rfl
@[simp] theorem setPalette_err (p : List PalEntry) (m : Bool) : (s.setPalette p m).err = s.err := rfl
@[simp] theorem setPalette_bderr (p : List PalEntry) (m : Bool) : (s.setPalette p m).bderr = s.bderr := rfl
@[simp] theorem setPalette_fails (p : List PalEntry) (m : Bool) : (s.setPalette p m).fails = s.fails := rfl
@[simp] theorem setPalette_notfound (p : List PalEntry) (m : Bool) : (s.setPalette p m).notfound = s.notfound := rfl
@[simp] theorem setPalette_sat (p : List PalEntry) (m : Bool) : (s.setPalette p m).sat = s.sat := rfl
@[simp] theorem setPalette_cmdcnt (p : List PalEntry) (m : Bool) : (s.setPalette p m).cmdcnt = s.cmdcnt := rfl
@[simp] theorem setPalette_ctrl (p : List PalEntry) (m : Bool) : (s.setPalette p m).ctrl = s.ctrl := rfl
@[simp] theorem setPalette_acc (p : List PalEntry) (m : Bool) : (s.setPalette p m).acc = s.acc := rfl
@[simp] theorem setPalette_fmt (p : List PalEntry) (m : Bool) : (s.setPalette p m).fmt = s.fmt := rfl
@[simp] theorem setPalette_surfW (p : List PalEntry) (m : Bool) : (s.setPalette p m).surfW = s.surfW := rfl
@[simp] theorem setPalette_surfH (p : List PalEntry) (m : Bool) : (s.setPalette p m).surfH = s.surfH := rfl
@[simp] theorem setPalette_plut (p : List PalEntry) (m : Bool) : (s.setPalette p m).plut = s.plut := rfl
@[simp] theorem setPalette_pal (p : List PalEntry) (m : Bool) : (s.setPalette p m).pal = p := rfl
@[simp] theorem setPalette_mono (p : List PalEntry) (m : Bool) : (s.setPalette p m).mono = m := rfl
@[simp] theorem setPalette_curValid (p : List PalEntry) (m : Bool) : (s.setPalette p m).curValid = s.curValid := rfl
@[simp] theorem setPalette_curRow (p : List PalEntry) (m : Bool) : (s.setPalette p m).curRow = s.curRow := rfl
@[simp] theorem setPalette_thisRow (p : List PalEntry) (m : Bool) : (s.setPalette p m).thisRow = s.thisRow := rfl
@[simp] theorem setPalette_nextRow (p : List PalEntry) (m : Bool) : (s.setPalette p m).nextRow = s.nextRow := rfl
@[simp] theorem setPalette_fb (p : List PalEntry) (m : Bool) : (s.setPalette p m).fb = s.fb := rfl
@[simp] theorem setPalette_fbc (p : List PalEntry) (m : Bool) : (s.setPalette p m).fbc = s.fbc := rfl
@[simp] theorem setPalette_cmdq (p : List PalEntry) (m : Bool) : (s.setPalette p m).cmdq = s.cmdq := rfl
@[simp] theorem setPalette_rspq (p : List PalEntry) (m : Bool) : (s.setPalette p m).rspq = s.rspq := rfl
@[simp] theorem setPalette_progq (p : List PalEntry) (m : Bool) : (s.setPalette p m).progq = s.progq := rfl
@[simp] theorem setPalette_halted (p : List PalEntry) (m : Bool) : (s.setPalette p m).halted = s.halted := rfl
@[simp] theorem setPalette_seq (p : List PalEntry) (m : Bool) : (s.setPalette p m).seq = s.seq := rfl
@[simp] theorem setPalette_params (p : List PalEntry) (m : Bool) : (s.setPalette p m).params = s.params := rfl
@[simp] theorem setPalette_bsTotals (p : List PalEntry) (m : Bool) : (s.setPalette p m).bsTotals = s.bsTotals := rfl
@[simp] theorem setPalette_bsReads (p : List PalEntry) (m : Bool) : (s.setPalette p m).bsReads = s.bsReads := rfl
@[simp] theorem setPalette_bdInits (p : List PalEntry) (m : Bool) : (s.setPalette p m).bdInits = s.bdInits := rfl
@[simp] theorem setPalette_dropped (p : List PalEntry) (m : Bool) : (s.setPalette p m).dropped = s.dropped := rfl
@[simp] theorem setPalette_rowsOfDecode (p : List PalEntry) (m : Bool) : (s.setPalette p m).rowsOfDecode = s.rowsOfDecode := rfl
@[simp] theorem setPalette_bdMcus (p : List PalEntry) (m : Bool) : (s.setPalette p m).bdMcus = s.bdMcus := rfl
@[simp] theorem setPalette_reqs (p : List PalEntry) (m : Bool) : (s.setPalette p m).reqs = s.reqs := rfl
@[simp] theorem setPalette_choices (p : List PalEntry) (m : Bool) : (s.setPalette p m).choices = s.choices := rfl
@[simp] theorem setPalette_qmode (p : List PalEntry) (m : Bool) : (s.setPalette p m).qmode = s.qmode := rfl
@[simp] theorem setPalette_progen (p : List PalEntry) (m : Bool) : (s.setPalette p m).progen = s.progen := rfl
@[simp] theorem setPalette_swap565 (p : List PalEntry) (m : Bool) : (s.setPalette p m).swap565 = s.swap565 := rfl
@[simp] theorem setPalette_vfirst (p : List PalEntry) (m : Bool) : (s.setPalette p m).vfirst = s.vfirst := rfl
@[simp] theorem setPalette_stride (p : List PalEntry) (m : Bool) : (s.setPalette p m).stride = s.stride := rfl
@[simp] theorem setPalette_planeBytes (p : List PalEntry) (m : Bool) : (s.setPalette p m).planeBytes = s.planeBytes := rfl
@[simp] theorem setPalette_surfBytes (p : List PalEntry) (m : Bool) : (s.setPalette p m).surfBytes = s.surfBytes := rfl
@[simp] theorem setPalette_inside (p : List PalEntry) (m : Bool) (x y : Nat) : (s.setPalette p m).inside x y = s.inside x y := rfl
@[simp] theorem setPalette_pixelAddr (p : List PalEntry) (m : Bool) (x y : Nat) : (s.setPalette p m).pixelAddr x y = s.pixelAddr x y := rfl
@[simp] theorem setPalette_memRead (p : List PalEntry) (m : Bool) (a : Nat) : (s.setPalette p m).memRead a = s.memRead a := rfl
@[simp] theorem setPalette_sinkByte (p : List PalEntry) (m : Bool) (a : Nat) : (s.setPalette p m).sinkByte a = s.sinkByte a := rfl
@[simp] theorem setPalette_clipW (p : List PalEntry) (m : Bool) (n : Nat) : (s.setPalette p m).clipW n = s.clipW n := rfl
@[simp] theorem setPalette_clipH (p : List PalEntry) (m : Bool) (n : Nat) : (s.setPalette p m).clipH n = s.clipH n := rfl
@[simp] theorem setPalette_surfGet (p : List PalEntry) (m : Bool) (x y : Nat) : (s.setPalette p m).surfGet x y = s.surfGet x y := rfl

/-! `setBderr` -/

@[simp] theorem setBderr_r0 (v : Byte) : (s.setBderr v).r0 = s.r0 := rfl
@[simp] theorem setBderr_r1 (v : Byte) : (s.setBderr v).r1 = s.r1 := rfl
@[simp] theorem setBderr_r2 (v : Byte) : (s.setBderr v).r2 = s.r2 := rfl
@[simp] theorem setBderr_r3 (v : Byte) : (s.setBderr v).r3 = s.r3 := rfl
@[simp] theorem setBderr_err (v : Byte) : (s.setBderr v).err = s.err := rfl
@[simp] theorem setBderr_bderr (v : Byte) : (s.setBderr v).bderr = v := rfl
@[simp] theorem setBderr_fails (v : Byte) : (s.setBderr v).fails = s.fails := rfl
@[simp] theorem setBderr_notfound (v : Byte) : (s.setBderr v).notfound = s.notfound := rfl
@[simp] theorem setBderr_sat (v : Byte) : (s.setBderr v).sat = s.sat := rfl
@[simp] theorem setBderr_cmdcnt (v : Byte) : (s.setBderr v).cmdcnt = s.cmdcnt := rfl
@[simp] theorem setBderr_ctrl (v : Byte) : (s.setBderr v).ctrl = s.ctrl := rfl
@[simp] theorem setBderr_acc (v : Byte) : (s.setBderr v).acc = s.acc := rfl
@[simp] theorem setBderr_fmt (v : Byte) : (s.setBderr v).fmt = s.fmt := rfl
@[simp] theorem setBderr_surfW (v : Byte) : (s.setBderr v).surfW = s.surfW := rfl
@[simp] theorem setBderr_surfH (v : Byte) : (s.setBderr v).surfH = s.surfH := rfl
@[simp] theorem setBderr_plut (v : Byte) : (s.setBderr v).plut = s.plut := rfl
@[simp] theorem setBderr_pal (v : Byte) : (s.setBderr v).pal = s.pal := rfl
@[simp] theorem setBderr_mono (v : Byte) : (s.setBderr v).mono = s.mono := rfl
@[simp] theorem setBderr_curValid (v : Byte) : (s.setBderr v).curValid = s.curValid := rfl
@[simp] theorem setBderr_curRow (v : Byte) : (s.setBderr v).curRow = s.curRow := rfl
@[simp] theorem setBderr_thisRow (v : Byte) : (s.setBderr v).thisRow = s.thisRow := rfl
@[simp] theorem setBderr_nextRow (v : Byte) : (s.setBderr v).nextRow = s.nextRow := rfl
@[simp] theorem setBderr_fb (v : Byte) : (s.setBderr v).fb = s.fb := rfl
@[simp] theorem setBderr_fbc (v : Byte) : (s.setBderr v).fbc = s.fbc := rfl
@[simp] theorem setBderr_cmdq (v : Byte) : (s.setBderr v).cmdq = s.cmdq := rfl
@[simp] theorem setBderr_rspq (v : Byte) : (s.setBderr v).rspq = s.rspq := rfl
@[simp] theorem setBderr_progq (v : Byte) : (s.setBderr v).progq = s.progq := rfl
@[simp] theorem setBderr_halted (v : Byte) : (s.setBderr v).halted = s.halted := rfl
@[simp] theorem setBderr_seq (v : Byte) : (s.setBderr v).seq = s.seq := rfl
@[simp] theorem setBderr_params (v : Byte) : (s.setBderr v).params = s.params := rfl
@[simp] theorem setBderr_bsTotals (v : Byte) : (s.setBderr v).bsTotals = s.bsTotals := rfl
@[simp] theorem setBderr_bsReads (v : Byte) : (s.setBderr v).bsReads = s.bsReads := rfl
@[simp] theorem setBderr_bdInits (v : Byte) : (s.setBderr v).bdInits = s.bdInits := rfl
@[simp] theorem setBderr_dropped (v : Byte) : (s.setBderr v).dropped = s.dropped := rfl
@[simp] theorem setBderr_rowsOfDecode (v : Byte) : (s.setBderr v).rowsOfDecode = s.rowsOfDecode := rfl
@[simp] theorem setBderr_bdMcus (v : Byte) : (s.setBderr v).bdMcus = s.bdMcus := rfl
@[simp] theorem setBderr_reqs (v : Byte) : (s.setBderr v).reqs = s.reqs := rfl
@[simp] theorem setBderr_choices (v : Byte) : (s.setBderr v).choices = s.choices := rfl
@[simp] theorem setBderr_qmode (v : Byte) : (s.setBderr v).qmode = s.qmode := rfl
@[simp] theorem setBderr_progen (v : Byte) : (s.setBderr v).progen = s.progen := rfl
@[simp] theorem setBderr_swap565 (v : Byte) : (s.setBderr v).swap565 = s.swap565 := rfl
@[simp] theorem setBderr_vfirst (v : Byte) : (s.setBderr v).vfirst = s.vfirst := rfl
@[simp] theorem setBderr_stride (v : Byte) : (s.setBderr v).stride = s.stride := rfl
@[simp] theorem setBderr_planeBytes (v : Byte) : (s.setBderr v).planeBytes = s.planeBytes := rfl
@[simp] theorem setBderr_surfBytes (v : Byte) : (s.setBderr v).surfBytes = s.surfBytes := rfl
@[simp] theorem setBderr_inside (v : Byte) (x y : Nat) : (s.setBderr v).inside x y = s.inside x y := rfl
@[simp] theorem setBderr_pixelAddr (v : Byte) (x y : Nat) : (s.setBderr v).pixelAddr x y = s.pixelAddr x y := rfl
@[simp] theorem setBderr_memRead (v : Byte) (a : Nat) : (s.setBderr v).memRead a = s.memRead a := rfl
@[simp] theorem setBderr_sinkByte (v : Byte) (a : Nat) : (s.setBderr v).sinkByte a = s.sinkByte a := rfl
@[simp] theorem setBderr_nearest (v : Byte) (c : Lab) : (s.setBderr v).nearest c = s.nearest c := rfl
@[simp] theorem setBderr_nearestEntry (v : Byte) (c : Lab) : (s.setBderr v).nearestEntry c = s.nearestEntry c := rfl
@[simp] theorem setBderr_clipW (v : Byte) (n : Nat) : (s.setBderr v).clipW n = s.clipW n := rfl
@[simp] theorem setBderr_clipH (v : Byte) (n : Nat) : (s.setBderr v).clipH n = s.clipH n := rfl
@[simp] theorem setBderr_surfGet (v : Byte) (x y : Nat) : (s.setBderr v).surfGet x y = s.surfGet x y := rfl

/-! `halt` -/

@[simp] theorem halt_r0 : (s.halt).r0 = s.r0 := rfl
@[simp] theorem halt_r1 : (s.halt).r1 = s.r1 := rfl
@[simp] theorem halt_r2 : (s.halt).r2 = s.r2 := rfl
@[simp] theorem halt_r3 : (s.halt).r3 = s.r3 := rfl
@[simp] theorem halt_err : (s.halt).err = s.err := rfl
@[simp] theorem halt_bderr : (s.halt).bderr = s.bderr := rfl
@[simp] theorem halt_fails : (s.halt).fails = s.fails := rfl
@[simp] theorem halt_notfound : (s.halt).notfound = s.notfound := rfl
@[simp] theorem halt_sat : (s.halt).sat = s.sat := rfl
@[simp] theorem halt_cmdcnt : (s.halt).cmdcnt = s.cmdcnt := rfl
@[simp] theorem halt_ctrl : (s.halt).ctrl = s.ctrl := rfl
@[simp] theorem halt_acc : (s.halt).acc = s.acc := rfl
@[simp] theorem halt_fmt : (s.halt).fmt = s.fmt := rfl
@[simp] theorem halt_surfW : (s.halt).surfW = s.surfW := rfl
@[simp] theorem halt_surfH : (s.halt).surfH = s.surfH := rfl
@[simp] theorem halt_plut : (s.halt).plut = s.plut := rfl
@[simp] theorem halt_pal : (s.halt).pal = s.pal := rfl
@[simp] theorem halt_mono : (s.halt).mono = s.mono := rfl
@[simp] theorem halt_curValid : (s.halt).curValid = s.curValid := rfl
@[simp] theorem halt_curRow : (s.halt).curRow = s.curRow := rfl
@[simp] theorem halt_thisRow : (s.halt).thisRow = s.thisRow := rfl
@[simp] theorem halt_nextRow : (s.halt).nextRow = s.nextRow := rfl
@[simp] theorem halt_fb : (s.halt).fb = s.fb := rfl
@[simp] theorem halt_fbc : (s.halt).fbc = s.fbc := rfl
@[simp] theorem halt_cmdq : (s.halt).cmdq = s.cmdq := rfl
@[simp] theorem halt_rspq : (s.halt).rspq = s.rspq := rfl
@[simp] theorem halt_progq : (s.halt).progq = s.progq := rfl
@[simp] theorem halt_halted : (s.halt).halted = true := rfl
@[simp] theorem halt_seq : (s.halt).seq = .idle := rfl
@[simp] theorem halt_params : (s.halt).params = s.params := rfl
@[simp] theorem halt_bsTotals : (s.halt).bsTotals = s.bsTotals := rfl
@[simp] theorem halt_bsReads : (s.halt).bsReads = s.bsReads := rfl
@[simp] theorem halt_bdInits : (s.halt).bdInits = s.bdInits := rfl
@[simp] theorem halt_dropped : (s.halt).dropped = s.dropped := rfl
@[simp] theorem halt_rowsOfDecode : (s.halt).rowsOfDecode = s.rowsOfDecode := rfl
@[simp] theorem halt_bdMcus : (s.halt).bdMcus = s.bdMcus := rfl
@[simp] theorem halt_reqs : (s.halt).reqs = s.reqs := rfl
@[simp] theorem halt_choices : (s.halt).choices = s.choices := rfl
@[simp] theorem halt_qmode : (s.halt).qmode = s.qmode := rfl
@[simp] theorem halt_progen : (s.halt).progen = s.progen := rfl
@[simp] theorem halt_swap565 : (s.halt).swap565 = s.swap565 := rfl
@[simp] theorem halt_vfirst : (s.halt).vfirst = s.vfirst := rfl
@[simp] theorem halt_stride : (s.halt).stride = s.stride := rfl
@[simp] theorem halt_planeBytes : (s.halt).planeBytes = s.planeBytes := rfl
@[simp] theorem halt_surfBytes : (s.halt).surfBytes = s.surfBytes := rfl
@[simp] theorem halt_inside (x y : Nat) : (s.halt).inside x y = s.inside x y := rfl
@[simp] theorem halt_pixelAddr (x y : Nat) : (s.halt).pixelAddr x y = s.pixelAddr x y := rfl
@[simp] theorem halt_memRead (a : Nat) : (s.halt).memRead a = s.memRead a := rfl
@[simp] theorem halt_sinkByte (a : Nat) : (s.halt).sinkByte a = s.sinkByte a := rfl
@[simp] theorem halt_nearest (c : Lab) : (s.halt).nearest c = s.nearest c := rfl
@[simp] theorem halt_nearestEntry (c : Lab) : (s.halt).nearestEntry c = s.nearestEntry c := rfl
@[simp] theorem halt_clipW (n : Nat) : (s.halt).clipW n = s.clipW n := rfl
@[simp] theorem halt_clipH (n : Nat) : (s.halt).clipH n = s.clipH n := rfl
@[simp] theorem halt_surfGet (x y : Nat) : (s.halt).surfGet x y = s.surfGet x y := rfl

/-! `maybeCommit` -/

@[simp] theorem maybeCommit_r0 (k : Nat) : (s.maybeCommit k).r0 = s.r0 := rfl
@[simp] theorem maybeCommit_r1 (k : Nat) : (s.maybeCommit k).r1 = s.r1 := rfl
@[simp] theorem maybeCommit_r2 (k : Nat) : (s.maybeCommit k).r2 = s.r2 := rfl
@[simp] theorem maybeCommit_r3 (k : Nat) : (s.maybeCommit k).r3 = s.r3 := rfl
@[simp] theorem maybeCommit_err (k : Nat) : (s.maybeCommit k).err = s.err := rfl
@[simp] theorem maybeCommit_bderr (k : Nat) : (s.maybeCommit k).bderr = s.bderr := rfl
@[simp] theorem maybeCommit_fails (k : Nat) : (s.maybeCommit k).fails = s.fails := rfl
@[simp] theorem maybeCommit_notfound (k : Nat) : (s.maybeCommit k).notfound = s.notfound := rfl
@[simp] theorem maybeCommit_sat (k : Nat) : (s.maybeCommit k).sat = s.sat := rfl
@[simp] theorem maybeCommit_cmdcnt (k : Nat) : (s.maybeCommit k).cmdcnt = s.cmdcnt := rfl
@[simp] theorem maybeCommit_ctrl (k : Nat) : (s.maybeCommit k).ctrl = s.ctrl := rfl
@[simp] theorem maybeCommit_acc (k : Nat) : (s.maybeCommit k).acc = s.acc := rfl
@[simp] theorem maybeCommit_fmt (k : Nat) : (s.maybeCommit k).fmt = s.fmt := rfl
@[simp] theorem maybeCommit_surfW (k : Nat) : (s.maybeCommit k).surfW = s.surfW := rfl
@[simp] theorem maybeCommit_surfH (k : Nat) : (s.maybeCommit k).surfH = s.surfH := rfl
@[simp] theorem maybeCommit_plut (k : Nat) : (s.maybeCommit k).plut = s.plut := rfl
@[simp] theorem maybeCommit_pal (k : Nat) : (s.maybeCommit k).pal = s.pal := rfl
@[simp] theorem maybeCommit_mono (k : Nat) : (s.maybeCommit k).mono = s.mono := rfl
@[simp] theorem maybeCommit_curValid (k : Nat) : (s.maybeCommit k).curValid = s.curValid := rfl
@[simp] theorem maybeCommit_curRow (k : Nat) : (s.maybeCommit k).curRow = s.curRow := rfl
@[simp] theorem maybeCommit_thisRow (k : Nat) : (s.maybeCommit k).thisRow = s.thisRow := rfl
@[simp] theorem maybeCommit_nextRow (k : Nat) : (s.maybeCommit k).nextRow = s.nextRow := rfl
@[simp] theorem maybeCommit_fb (k : Nat) : (s.maybeCommit k).fb = s.fb := rfl
@[simp] theorem maybeCommit_fbc (k : Nat) : (s.maybeCommit k).fbc = if Config.commitsEarly s.choices k then s.fbc.write k (s.memRead k) else s.fbc := rfl
@[simp] theorem maybeCommit_cmdq (k : Nat) : (s.maybeCommit k).cmdq = s.cmdq := rfl
@[simp] theorem maybeCommit_rspq (k : Nat) : (s.maybeCommit k).rspq = s.rspq := rfl
@[simp] theorem maybeCommit_progq (k : Nat) : (s.maybeCommit k).progq = s.progq := rfl
@[simp] theorem maybeCommit_halted (k : Nat) : (s.maybeCommit k).halted = s.halted := rfl
@[simp] theorem maybeCommit_seq (k : Nat) : (s.maybeCommit k).seq = s.seq := rfl
@[simp] theorem maybeCommit_params (k : Nat) : (s.maybeCommit k).params = s.params := rfl
@[simp] theorem maybeCommit_bsTotals (k : Nat) : (s.maybeCommit k).bsTotals = s.bsTotals := rfl
@[simp] theorem maybeCommit_bsReads (k : Nat) : (s.maybeCommit k).bsReads = s.bsReads := rfl
@[simp] theorem maybeCommit_bdInits (k : Nat) : (s.maybeCommit k).bdInits = s.bdInits := rfl
@[simp] theorem maybeCommit_dropped (k : Nat) : (s.maybeCommit k).dropped = s.dropped := rfl
@[simp] theorem maybeCommit_rowsOfDecode (k : Nat) : (s.maybeCommit k).rowsOfDecode = s.rowsOfDecode := rfl
@[simp] theorem maybeCommit_bdMcus (k : Nat) : (s.maybeCommit k).bdMcus = s.bdMcus := rfl
@[simp] theorem maybeCommit_reqs (k : Nat) : (s.maybeCommit k).reqs = s.reqs := rfl
@[simp] theorem maybeCommit_choices (k : Nat) : (s.maybeCommit k).choices = s.choices + 1 := rfl
@[simp] theorem maybeCommit_qmode (k : Nat) : (s.maybeCommit k).qmode = s.qmode := rfl
@[simp] theorem maybeCommit_progen (k : Nat) : (s.maybeCommit k).progen = s.progen := rfl
@[simp] theorem maybeCommit_swap565 (k : Nat) : (s.maybeCommit k).swap565 = s.swap565 := rfl
@[simp] theorem maybeCommit_vfirst (k : Nat) : (s.maybeCommit k).vfirst = s.vfirst := rfl
@[simp] theorem maybeCommit_stride (k : Nat) : (s.maybeCommit k).stride = s.stride := rfl
@[simp] theorem maybeCommit_planeBytes (k : Nat) : (s.maybeCommit k).planeBytes = s.planeBytes := rfl
@[simp] theorem maybeCommit_surfBytes (k : Nat) : (s.maybeCommit k).surfBytes = s.surfBytes := rfl
@[simp] theorem maybeCommit_inside (k : Nat) (x y : Nat) : (s.maybeCommit k).inside x y = s.inside x y := rfl
@[simp] theorem maybeCommit_pixelAddr (k : Nat) (x y : Nat) : (s.maybeCommit k).pixelAddr x y = s.pixelAddr x y := rfl
@[simp] theorem maybeCommit_memRead (k : Nat) (a : Nat) : (s.maybeCommit k).memRead a = s.memRead a := rfl
@[simp] theorem maybeCommit_nearest (k : Nat) (c : Lab) : (s.maybeCommit k).nearest c = s.nearest c := rfl
@[simp] theorem maybeCommit_nearestEntry (k : Nat) (c : Lab) : (s.maybeCommit k).nearestEntry c = s.nearestEntry c := rfl
@[simp] theorem maybeCommit_clipW (k : Nat) (n : Nat) : (s.maybeCommit k).clipW n = s.clipW n := rfl
@[simp] theorem maybeCommit_clipH (k : Nat) (n : Nat) : (s.maybeCommit k).clipH n = s.clipH n := rfl
@[simp] theorem maybeCommit_surfGet (k : Nat) (x y : Nat) : (s.maybeCommit k).surfGet x y = s.surfGet x y := rfl

/-! `memWrite` -/

@[simp] theorem memWrite_r0 (k : Nat) (v : Byte) : (s.memWrite k v).r0 = s.r0 := rfl
@[simp] theorem memWrite_r1 (k : Nat) (v : Byte) : (s.memWrite k v).r1 = s.r1 := rfl
@[simp] theorem memWrite_r2 (k : Nat) (v : Byte) : (s.memWrite k v).r2 = s.r2 := rfl
@[simp] theorem memWrite_r3 (k : Nat) (v : Byte) : (s.memWrite k v).r3 = s.r3 := rfl
@[simp] theorem memWrite_err (k : Nat) (v : Byte) : (s.memWrite k v).err = s.err := rfl
@[simp] theorem memWrite_bderr (k : Nat) (v : Byte) : (s.memWrite k v).bderr = s.bderr := rfl
@[simp] theorem memWrite_fails (k : Nat) (v : Byte) : (s.memWrite k v).fails = s.fails := rfl
@[simp] theorem memWrite_notfound (k : Nat) (v : Byte) : (s.memWrite k v).notfound = s.notfound := rfl
@[simp] theorem memWrite_sat (k : Nat) (v : Byte) : (s.memWrite k v).sat = s.sat := rfl
@[simp] theorem memWrite_cmdcnt (k : Nat) (v : Byte) : (s.memWrite k v).cmdcnt = s.cmdcnt := rfl
@[simp] theorem memWrite_ctrl (k : Nat) (v : Byte) : (s.memWrite k v).ctrl = s.ctrl := rfl
@[simp] theorem memWrite_acc (k : Nat) (v : Byte) : (s.memWrite k v).acc = s.acc := rfl
@[simp] theorem memWrite_fmt (k : Nat) (v : Byte) : (s.memWrite k v).fmt = s.fmt := rfl
@[simp] theorem memWrite_surfW (k : Nat) (v : Byte) : (s.memWrite k v).surfW = s.surfW := rfl
@[simp] theorem memWrite_surfH (k : Nat) (v : Byte) : (s.memWrite k v).surfH = s.surfH := rfl
@[simp] theorem memWrite_plut (k : Nat) (v : Byte) : (s.memWrite k v).plut = s.plut := rfl
@[simp] theorem memWrite_pal (k : Nat) (v : Byte) : (s.memWrite k v).pal = s.pal := rfl
@[simp] theorem memWrite_mono (k : Nat) (v : Byte) : (s.memWrite k v).mono = s.mono := rfl
@[simp] theorem memWrite_curValid (k : Nat) (v : Byte) : (s.memWrite k v).curValid = s.curValid := rfl
@[simp] theorem memWrite_curRow (k : Nat) (v : Byte) : (s.memWrite k v).curRow = s.curRow := rfl
@[simp] theorem memWrite_thisRow (k : Nat) (v : Byte) : (s.memWrite k v).thisRow = s.thisRow := rfl
@[simp] theorem memWrite_nextRow (k : Nat) (v : Byte) : (s.memWrite k v).nextRow = s.nextRow := rfl
@[simp] theorem memWrite_fb (k : Nat) (v : Byte) : (s.memWrite k v).fb = s.fb.write k v := rfl
@[simp] theorem memWrite_fbc (k : Nat) (v : Byte) : (s.memWrite k v).fbc = (s.maybeCommit k).fbc := rfl
@[simp] theorem memWrite_cmdq (k : Nat) (v : Byte) : (s.memWrite k v).cmdq = s.cmdq := rfl
@[simp] theorem memWrite_rspq (k : Nat) (v : Byte) : (s.memWrite k v).rspq = s.rspq := rfl
@[simp] theorem memWrite_progq (k : Nat) (v : Byte) : (s.memWrite k v).progq = s.progq := rfl
@[simp] theorem memWrite_halted (k : Nat) (v : Byte) : (s.memWrite k v).halted = s.halted := rfl
@[simp] theorem memWrite_seq (k : Nat) (v : Byte) : (s.memWrite k v).seq = s.seq := rfl
@[simp] theorem memWrite_params (k : Nat) (v : Byte) : (s.memWrite k v).params = s.params := rfl
@[simp] theorem memWrite_bsTotals (k : Nat) (v : Byte) : (s.memWrite k v).bsTotals = s.bsTotals := rfl
@[simp] theorem memWrite_bsReads (k : Nat) (v : Byte) : (s.memWrite k v).bsReads = s.bsReads := rfl
@[simp] theorem memWrite_bdInits (k : Nat) (v : Byte) : (s.memWrite k v).bdInits = s.bdInits := rfl
@[simp] theorem memWrite_dropped (k : Nat) (v : Byte) : (s.memWrite k v).dropped = s.dropped := rfl
@[simp] theorem memWrite_rowsOfDecode (k : Nat) (v : Byte) : (s.memWrite k v).rowsOfDecode = s.rowsOfDecode := rfl
@[simp] theorem memWrite_bdMcus (k : Nat) (v : Byte) : (s.memWrite k v).bdMcus = s.bdMcus := rfl
@[simp] theorem memWrite_reqs (k : Nat) (v : Byte) : (s.memWrite k v).reqs = s.reqs := rfl
@[simp] theorem memWrite_choices (k : Nat) (v : Byte) : (s.memWrite k v).choices = s.choices + 1 := rfl
@[simp] theorem memWrite_qmode (k : Nat) (v : Byte) : (s.memWrite k v).qmode = s.qmode := rfl
@[simp] theorem memWrite_progen (k : Nat) (v : Byte) : (s.memWrite k v).progen = s.progen := rfl
@[simp] theorem memWrite_swap565 (k : Nat) (v : Byte) : (s.memWrite k v).swap565 = s.swap565 := rfl
@[simp] theorem memWrite_vfirst (k : Nat) (v : Byte) : (s.memWrite k v).vfirst = s.vfirst := rfl
@[simp] theorem memWrite_stride (k : Nat) (v : Byte) : (s.memWrite k v).stride = s.stride := rfl
@[simp] theorem memWrite_planeBytes (k : Nat) (v : Byte) : (s.memWrite k v).planeBytes = s.planeBytes := rfl
@[simp] theorem memWrite_surfBytes (k : Nat) (v : Byte) : (s.memWrite k v).surfBytes = s.surfBytes := rfl
@[simp] theorem memWrite_inside (k : Nat) (v : Byte) (x y : Nat) : (s.memWrite k v).inside x y = s.inside x y := rfl
@[simp] theorem memWrite_pixelAddr (k : Nat) (v : Byte) (x y : Nat) : (s.memWrite k v).pixelAddr x y = s.pixelAddr x y := rfl
@[simp] theorem memWrite_nearest (k : Nat) (v : Byte) (c : Lab) : (s.memWrite k v).nearest c = s.nearest c := rfl
@[simp] theorem memWrite_nearestEntry (k : Nat) (v : Byte) (c : Lab) : (s.memWrite k v).nearestEntry c = s.nearestEntry c := rfl
@[simp] theorem memWrite_clipW (k : Nat) (v : Byte) (n : Nat) : (s.memWrite k v).clipW n = s.clipW n := rfl
@[simp] theorem memWrite_clipH (k : Nat) (v : Byte) (n : Nat) : (s.memWrite k v).clipH n = s.clipH n := rfl

/-! `zeroFill` -/

@[simp] theorem zeroFill_r0 (k : Nat) : (s.zeroFill k).r0 = s.r0 := rfl
@[simp] theorem zeroFill_r1 (k : Nat) : (s.zeroFill k).r1 = s.r1 := rfl
@[simp] theorem zeroFill_r2 (k : Nat) : (s.zeroFill k).r2 = s.r2 := rfl
@[simp] theorem zeroFill_r3 (k : Nat) : (s.zeroFill k).r3 = s.r3 := rfl
@[simp] theorem zeroFill_err (k : Nat) : (s.zeroFill k).err = s.err := rfl
@[simp] theorem zeroFill_bderr (k : Nat) : (s.zeroFill k).bderr = s.bderr := rfl
@[simp] theorem zeroFill_fails (k : Nat) : (s.zeroFill k).fails = s.fails := rfl
@[simp] theorem zeroFill_notfound (k : Nat) : (s.zeroFill k).notfound = s.notfound := rfl
@[simp] theorem zeroFill_sat (k : Nat) : (s.zeroFill k).sat = s.sat := rfl
@[simp] theorem zeroFill_cmdcnt (k : Nat) : (s.zeroFill k).cmdcnt = s.cmdcnt := rfl
@[simp] theorem zeroFill_ctrl (k : Nat) : (s.zeroFill k).ctrl = s.ctrl := rfl
@[simp] theorem zeroFill_acc (k : Nat) : (s.zeroFill k).acc = s.acc := rfl
@[simp] theorem zeroFill_fmt (k : Nat) : (s.zeroFill k).fmt = s.fmt := rfl
@[simp] theorem zeroFill_surfW (k : Nat) : (s.zeroFill k).surfW = s.surfW := rfl
@[simp] theorem zeroFill_surfH (k : Nat) : (s.zeroFill k).surfH = s.surfH := rfl
@[simp] theorem zeroFill_plut (k : Nat) : (s.zeroFill k).plut = s.plut := rfl
@[simp] theorem zeroFill_pal (k : Nat) : (s.zeroFill k).pal = s.pal := rfl
@[simp] theorem zeroFill_mono (k : Nat) : (s.zeroFill k).mono = s.mono := rfl
@[simp] theorem zeroFill_curValid (k : Nat) : (s.zeroFill k).curValid = s.curValid := rfl
@[simp] theorem zeroFill_curRow (k : Nat) : (s.zeroFill k).curRow = s.curRow := rfl
@[simp] theorem zeroFill_thisRow (k : Nat) : (s.zeroFill k).thisRow = s.thisRow := rfl
@[simp] theorem zeroFill_nextRow (k : Nat) : (s.zeroFill k).nextRow = s.nextRow := rfl
@[simp] theorem zeroFill_fb (k : Nat) : (s.zeroFill k).fb = sparseClear k s.fb := rfl
@[simp] theorem zeroFill_fbc (k : Nat) : (s.zeroFill k).fbc = sparseClear k s.fbc := rfl
@[simp] theorem zeroFill_cmdq (k : Nat) : (s.zeroFill k).cmdq = s.cmdq := rfl
@[simp] theorem zeroFill_rspq (k : Nat) : (s.zeroFill k).rspq = s.rspq := rfl
@[simp] theorem zeroFill_progq (k : Nat) : (s.zeroFill k).progq = s.progq := rfl
@[simp] theorem zeroFill_halted (k : Nat) : (s.zeroFill k).halted = s.halted := rfl
@[simp] theorem zeroFill_seq (k : Nat) : (s.zeroFill k).seq = s.seq := rfl
@[simp] theorem zeroFill_params (k : Nat) : (s.zeroFill k).params = s.params := rfl
@[simp] theorem zeroFill_bsTotals (k : Nat) : (s.zeroFill k).bsTotals = s.bsTotals := rfl
@[simp] theorem zeroFill_bsReads (k : Nat) : (s.zeroFill k).bsReads = s.bsReads := rfl
@[simp] theorem zeroFill_bdInits (k : Nat) : (s.zeroFill k).bdInits = s.bdInits := rfl
@[simp] theorem zeroFill_dropped (k : Nat) : (s.zeroFill k).dropped = s.dropped := rfl
@[simp] theorem zeroFill_rowsOfDecode (k : Nat) : (s.zeroFill k).rowsOfDecode = s.rowsOfDecode := rfl
@[simp] theorem zeroFill_bdMcus (k : Nat) : (s.zeroFill k).bdMcus = s.bdMcus := rfl
@[simp] theorem zeroFill_reqs (k : Nat) : (s.zeroFill k).reqs = s.reqs := rfl
@[simp] theorem zeroFill_choices (k : Nat) : (s.zeroFill k).choices = s.choices := rfl
@[simp] theorem zeroFill_qmode (k : Nat) : (s.zeroFill k).qmode = s.qmode := rfl
@[simp] theorem zeroFill_progen (k : Nat) : (s.zeroFill k).progen = s.progen := rfl
@[simp] theorem zeroFill_swap565 (k : Nat) : (s.zeroFill k).swap565 = s.swap565 := rfl
@[simp] theorem zeroFill_vfirst (k : Nat) : (s.zeroFill k).vfirst = s.vfirst := rfl
@[simp] theorem zeroFill_stride (k : Nat) : (s.zeroFill k).stride = s.stride := rfl
@[simp] theorem zeroFill_planeBytes (k : Nat) : (s.zeroFill k).planeBytes = s.planeBytes := rfl
@[simp] theorem zeroFill_surfBytes (k : Nat) : (s.zeroFill k).surfBytes = s.surfBytes := rfl
@[simp] theorem zeroFill_inside (k : Nat) (x y : Nat) : (s.zeroFill k).inside x y = s.inside x y := rfl
@[simp] theorem zeroFill_pixelAddr (k : Nat) (x y : Nat) : (s.zeroFill k).pixelAddr x y = s.pixelAddr x y := rfl
@[simp] theorem zeroFill_nearest (k : Nat) (c : Lab) : (s.zeroFill k).nearest c = s.nearest c := rfl
@[simp] theorem zeroFill_nearestEntry (k : Nat) (c : Lab) : (s.zeroFill k).nearestEntry c = s.nearestEntry c := rfl
@[simp] theorem zeroFill_clipW (k : Nat) (n : Nat) : (s.zeroFill k).clipW n = s.clipW n := rfl
@[simp] theorem zeroFill_clipH (k : Nat) (n : Nat) : (s.zeroFill k).clipH n = s.clipH n := rfl

/-! `addThis` -/

@[simp] theorem addThis_r0 (k : Nat) (e : Err3) (q : Int) : (s.addThis k e q).r0 = s.r0 := rfl
@[simp] theorem addThis_r1 (k : Nat) (e : Err3) (q : Int) : (s.addThis k e q).r1 = s.r1 := rfl
@[simp] theorem addThis_r2 (k : Nat) (e : Err3) (q : Int) : (s.addThis k e q).r2 = s.r2 := rfl
@[simp] theorem addThis_r3 (k : Nat) (e : Err3) (q : Int) : (s.addThis k e q).r3 = s.r3 := rfl
@[simp] theorem addThis_err (k : Nat) (e : Err3) (q : Int) : (s.addThis k e q).err = s.err := rfl
@[simp] theorem addThis_bderr (k : Nat) (e : Err3) (q : Int) : (s.addThis k e q).bderr = s.bderr := rfl
@[simp] theorem addThis_fails (k : Nat) (e : Err3) (q : Int) : (s.addThis k e q).fails = s.fails := rfl
@[simp] theorem addThis_notfound (k : Nat) (e : Err3) (q : Int) : (s.addThis k e q).notfound = s.notfound := rfl
@[simp] theorem addThis_sat (k : Nat) (e : Err3) (q : Int) : (s.addThis k e q).sat = (s.sat || add3Saturates (s.thisRow.entry k) e q) := rfl
@[simp] theorem addThis_cmdcnt (k : Nat) (e : Err3) (q : Int) : (s.addThis k e q).cmdcnt = s.cmdcnt := rfl
@[simp] theorem addThis_ctrl (k : Nat) (e : Err3) (q : Int) : (s.addThis k e q).ctrl = s.ctrl := rfl
@[simp] theorem addThis_acc (k : Nat) (e : Err3) (q : Int) : (s.addThis k e q).acc = s.acc := rfl
@[simp] theorem addThis_fmt (k : Nat) (e : Err3) (q : Int) : (s.addThis k e q).fmt = s.fmt := rfl
@[simp] theorem addThis_surfW (k : Nat) (e : Err3) (q : Int) : (s.addThis k e q).surfW = s.surfW := rfl
@[simp] theorem addThis_surfH (k : Nat) (e : Err3) (q : Int) : (s.addThis k e q).surfH = s.surfH := rfl
@[simp] theorem addThis_plut (k : Nat) (e : Err3) (q : Int) : (s.addThis k e q).plut = s.plut := rfl
@[simp] theorem addThis_pal (k : Nat) (e : Err3) (q : Int) : (s.addThis k e q).pal = s.pal := rfl
@[simp] theorem addThis_mono (k : Nat) (e : Err3) (q : Int) : (s.addThis k e q).mono = s.mono := rfl
@[simp] theorem addThis_curValid (k : Nat) (e : Err3) (q : Int) : (s.addThis k e q).curValid = s.curValid := rfl
@[simp] theorem addThis_curRow (k : Nat) (e : Err3) (q : Int) : (s.addThis k e q).curRow = s.curRow := rfl
@[simp] theorem addThis_thisRow (k : Nat) (e : Err3) (q : Int) : (s.addThis k e q).thisRow = s.thisRow.setEntry k (add3 (s.thisRow.entry k) e q) := rfl
@[simp] theorem addThis_nextRow (k : Nat) (e : Err3) (q : Int) : (s.addThis k e q).nextRow = s.nextRow := rfl
@[simp] theorem addThis_fb (k : Nat) (e : Err3) (q : Int) : (s.addThis k e q).fb = s.fb := rfl
@[simp] theorem addThis_fbc (k : Nat) (e : Err3) (q : Int) : (s.addThis k e q).fbc = s.fbc := rfl
@[simp] theorem addThis_cmdq (k : Nat) (e : Err3) (q : Int) : (s.addThis k e q).cmdq = s.cmdq := rfl
@[simp] theorem addThis_rspq (k : Nat) (e : Err3) (q : Int) : (s.addThis k e q).rspq = s.rspq := rfl
@[simp] theorem addThis_progq (k : Nat) (e : Err3) (q : Int) : (s.addThis k e q).progq = s.progq := rfl
@[simp] theorem addThis_halted (k : Nat) (e : Err3) (q : Int) : (s.addThis k e q).halted = s.halted := rfl
@[simp] theorem addThis_seq (k : Nat) (e : Err3) (q : Int) : (s.addThis k e q).seq = s.seq := rfl
@[simp] theorem addThis_params (k : Nat) (e : Err3) (q : Int) : (s.addThis k e q).params = s.params := rfl
@[simp] theorem addThis_bsTotals (k : Nat) (e : Err3) (q : Int) : (s.addThis k e q).bsTotals = s.bsTotals := rfl
@[simp] theorem addThis_bsReads (k : Nat) (e : Err3) (q : Int) : (s.addThis k e q).bsReads = s.bsReads := rfl
@[simp] theorem addThis_bdInits (k : Nat) (e : Err3) (q : Int) : (s.addThis k e q).bdInits = s.bdInits := rfl
@[simp] theorem addThis_dropped (k : Nat) (e : Err3) (q : Int) : (s.addThis k e q).dropped = s.dropped := rfl
@[simp] theorem addThis_rowsOfDecode (k : Nat) (e : Err3) (q : Int) : (s.addThis k e q).rowsOfDecode = s.rowsOfDecode := rfl
@[simp] theorem addThis_bdMcus (k : Nat) (e : Err3) (q : Int) : (s.addThis k e q).bdMcus = s.bdMcus := rfl
@[simp] theorem addThis_reqs (k : Nat) (e : Err3) (q : Int) : (s.addThis k e q).reqs = s.reqs := rfl
@[simp] theorem addThis_choices (k : Nat) (e : Err3) (q : Int) : (s.addThis k e q).choices = s.choices := rfl
@[simp] theorem addThis_qmode (k : Nat) (e : Err3) (q : Int) : (s.addThis k e q).qmode = s.qmode := rfl
@[simp] theorem addThis_progen (k : Nat) (e : Err3) (q : Int) : (s.addThis k e q).progen = s.progen := rfl
@[simp] theorem addThis_swap565 (k : Nat) (e : Err3) (q : Int) : (s.addThis k e q).swap565 = s.swap565 := rfl
@[simp] theorem addThis_vfirst (k : Nat) (e : Err3) (q : Int) : (s.addThis k e q).vfirst = s.vfirst := rfl
@[simp] theorem addThis_stride (k : Nat) (e : Err3) (q : Int) : (s.addThis k e q).stride = s.stride := rfl
@[simp] theorem addThis_planeBytes (k : Nat) (e : Err3) (q : Int) : (s.addThis k e q).planeBytes = s.planeBytes := rfl
@[simp] theorem addThis_surfBytes (k : Nat) (e : Err3) (q : Int) : (s.addThis k e q).surfBytes = s.surfBytes := rfl
@[simp] theorem addThis_inside (k : Nat) (e : Err3) (q : Int) (x y : Nat) : (s.addThis k e q).inside x y = s.inside x y := rfl
@[simp] theorem addThis_pixelAddr (k : Nat) (e : Err3) (q : Int) (x y : Nat) : (s.addThis k e q).pixelAddr x y = s.pixelAddr x y := rfl
@[simp] theorem addThis_memRead (k : Nat) (e : Err3) (q : Int) (a : Nat) : (s.addThis k e q).memRead a = s.memRead a := rfl
@[simp] theorem addThis_sinkByte (k : Nat) (e : Err3) (q : Int) (a : Nat) : (s.addThis k e q).sinkByte a = s.sinkByte a := rfl
@[simp] theorem addThis_nearest (k : Nat) (e : Err3) (q : Int) (c : Lab) : (s.addThis k e q).nearest c = s.nearest c := rfl
@[simp] theorem addThis_nearestEntry (k : Nat) (e : Err3) (q : Int) (c : Lab) : (s.addThis k e q).nearestEntry c = s.nearestEntry c := rfl
@[simp] theorem addThis_clipW (k : Nat) (e : Err3) (q : Int) (n : Nat) : (s.addThis k e q).clipW n = s.clipW n := rfl
@[simp] theorem addThis_clipH (k : Nat) (e : Err3) (q : Int) (n : Nat) : (s.addThis k e q).clipH n = s.clipH n := rfl
@[simp] theorem addThis_surfGet (k : Nat) (e : Err3) (q : Int) (x y : Nat) : (s.addThis k e q).surfGet x y = s.surfGet x y := rfl

/-! `addNext` -/

@[simp] theorem addNext_r0 (k : Nat) (e : Err3) (q : Int) : (s.addNext k e q).r0 = s.r0 := rfl
@[simp] theorem addNext_r1 (k : Nat) (e : Err3) (q : Int) : (s.addNext k e q).r1 = s.r1 := rfl
@[simp] theorem addNext_r2 (k : Nat) (e : Err3) (q : Int) : (s.addNext k e q).r2 = s.r2 := rfl
@[simp] theorem addNext_r3 (k : Nat) (e : Err3) (q : Int) : (s.addNext k e q).r3 = s.r3 := rfl
@[simp] theorem addNext_err (k : Nat) (e : Err3) (q : Int) : (s.addNext k e q).err = s.err := rfl
@[simp] theorem addNext_bderr (k : Nat) (e : Err3) (q : Int) : (s.addNext k e q).bderr = s.bderr := rfl
@[simp] theorem addNext_fails (k : Nat) (e : Err3) (q : Int) : (s.addNext k e q).fails = s.fails := rfl
@[simp] theorem addNext_notfound (k : Nat) (e : Err3) (q : Int) : (s.addNext k e q).notfound = s.notfound := rfl
@[simp] theorem addNext_sat (k : Nat) (e : Err3) (q : Int) : (s.addNext k e q).sat = (s.sat || add3Saturates (s.nextRow.entry k) e q) := rfl
@[simp] theorem addNext_cmdcnt (k : Nat) (e : Err3) (q : Int) : (s.addNext k e q).cmdcnt = s.cmdcnt := rfl
@[simp] theorem addNext_ctrl (k : Nat) (e : Err3) (q : Int) : (s.addNext k e q).ctrl = s.ctrl := rfl
@[simp] theorem addNext_acc (k : Nat) (e : Err3) (q : Int) : (s.addNext k e q).acc = s.acc := rfl
@[simp] theorem addNext_fmt (k : Nat) (e : Err3) (q : Int) : (s.addNext k e q).fmt = s.fmt := rfl
@[simp] theorem addNext_surfW (k : Nat) (e : Err3) (q : Int) : (s.addNext k e q).surfW = s.surfW := rfl
@[simp] theorem addNext_surfH (k : Nat) (e : Err3) (q : Int) : (s.addNext k e q).surfH = s.surfH := rfl
@[simp] theorem addNext_plut (k : Nat) (e : Err3) (q : Int) : (s.addNext k e q).plut = s.plut := rfl
@[simp] theorem addNext_pal (k : Nat) (e : Err3) (q : Int) : (s.addNext k e q).pal = s.pal := rfl
@[simp] theorem addNext_mono (k : Nat) (e : Err3) (q : Int) : (s.addNext k e q).mono = s.mono := rfl
@[simp] theorem addNext_curValid (k : Nat) (e : Err3) (q : Int) : (s.addNext k e q).curValid = s.curValid := rfl
@[simp] theorem addNext_curRow (k : Nat) (e : Err3) (q : Int) : (s.addNext k e q).curRow = s.curRow := rfl
@[simp] theorem addNext_thisRow (k : Nat) (e : Err3) (q : Int) : (s.addNext k e q).thisRow = s.thisRow := rfl
@[simp] theorem addNext_nextRow (k : Nat) (e : Err3) (q : Int) : (s.addNext k e q).nextRow = s.nextRow.setEntry k (add3 (s.nextRow.entry k) e q) := rfl
@[simp] theorem addNext_fb (k : Nat) (e : Err3) (q : Int) : (s.addNext k e q).fb = s.fb := rfl
@[simp] theorem addNext_fbc (k : Nat) (e : Err3) (q : Int) : (s.addNext k e q).fbc = s.fbc := rfl
@[simp] theorem addNext_cmdq (k : Nat) (e : Err3) (q : Int) : (s.addNext k e q).cmdq = s.cmdq := rfl
@[simp] theorem addNext_rspq (k : Nat) (e : Err3) (q : Int) : (s.addNext k e q).rspq = s.rspq := rfl
@[simp] theorem addNext_progq (k : Nat) (e : Err3) (q : Int) : (s.addNext k e q).progq = s.progq := rfl
@[simp] theorem addNext_halted (k : Nat) (e : Err3) (q : Int) : (s.addNext k e q).halted = s.halted := rfl
@[simp] theorem addNext_seq (k : Nat) (e : Err3) (q : Int) : (s.addNext k e q).seq = s.seq := rfl
@[simp] theorem addNext_params (k : Nat) (e : Err3) (q : Int) : (s.addNext k e q).params = s.params := rfl
@[simp] theorem addNext_bsTotals (k : Nat) (e : Err3) (q : Int) : (s.addNext k e q).bsTotals = s.bsTotals := rfl
@[simp] theorem addNext_bsReads (k : Nat) (e : Err3) (q : Int) : (s.addNext k e q).bsReads = s.bsReads := rfl
@[simp] theorem addNext_bdInits (k : Nat) (e : Err3) (q : Int) : (s.addNext k e q).bdInits = s.bdInits := rfl
@[simp] theorem addNext_dropped (k : Nat) (e : Err3) (q : Int) : (s.addNext k e q).dropped = s.dropped := rfl
@[simp] theorem addNext_rowsOfDecode (k : Nat) (e : Err3) (q : Int) : (s.addNext k e q).rowsOfDecode = s.rowsOfDecode := rfl
@[simp] theorem addNext_bdMcus (k : Nat) (e : Err3) (q : Int) : (s.addNext k e q).bdMcus = s.bdMcus := rfl
@[simp] theorem addNext_reqs (k : Nat) (e : Err3) (q : Int) : (s.addNext k e q).reqs = s.reqs := rfl
@[simp] theorem addNext_choices (k : Nat) (e : Err3) (q : Int) : (s.addNext k e q).choices = s.choices := rfl
@[simp] theorem addNext_qmode (k : Nat) (e : Err3) (q : Int) : (s.addNext k e q).qmode = s.qmode := rfl
@[simp] theorem addNext_progen (k : Nat) (e : Err3) (q : Int) : (s.addNext k e q).progen = s.progen := rfl
@[simp] theorem addNext_swap565 (k : Nat) (e : Err3) (q : Int) : (s.addNext k e q).swap565 = s.swap565 := rfl
@[simp] theorem addNext_vfirst (k : Nat) (e : Err3) (q : Int) : (s.addNext k e q).vfirst = s.vfirst := rfl
@[simp] theorem addNext_stride (k : Nat) (e : Err3) (q : Int) : (s.addNext k e q).stride = s.stride := rfl
@[simp] theorem addNext_planeBytes (k : Nat) (e : Err3) (q : Int) : (s.addNext k e q).planeBytes = s.planeBytes := rfl
@[simp] theorem addNext_surfBytes (k : Nat) (e : Err3) (q : Int) : (s.addNext k e q).surfBytes = s.surfBytes := rfl
@[simp] theorem addNext_inside (k : Nat) (e : Err3) (q : Int) (x y : Nat) : (s.addNext k e q).inside x y = s.inside x y := rfl
@[simp] theorem addNext_pixelAddr (k : Nat) (e : Err3) (q : Int) (x y : Nat) : (s.addNext k e q).pixelAddr x y = s.pixelAddr x y := rfl
@[simp] theorem addNext_memRead (k : Nat) (e : Err3) (q : Int) (a : Nat) : (s.addNext k e q).memRead a = s.memRead a := rfl
@[simp] theorem addNext_sinkByte (k : Nat) (e : Err3) (q : Int) (a : Nat) : (s.addNext k e q).sinkByte a = s.sinkByte a := rfl
@[simp] theorem addNext_nearest (k : Nat) (e : Err3) (q : Int) (c : Lab) : (s.addNext k e q).nearest c = s.nearest c := rfl
@[simp] theorem addNext_nearestEntry (k : Nat) (e : Err3) (q : Int) (c : Lab) : (s.addNext k e q).nearestEntry c = s.nearestEntry c := rfl
@[simp] theorem addNext_clipW (k : Nat) (e : Err3) (q : Int) (n : Nat) : (s.addNext k e q).clipW n = s.clipW n := rfl
@[simp] theorem addNext_clipH (k : Nat) (e : Err3) (q : Int) (n : Nat) : (s.addNext k e q).clipH n = s.clipH n := rfl
@[simp] theorem addNext_surfGet (k : Nat) (e : Err3) (q : Int) (x y : Nat) : (s.addNext k e q).surfGet x y = s.surfGet x y := rfl

/-! `afterRead` -/

@[simp] theorem afterRead_r0 (l : List ReadAnswer) (q : List PortReq) : (s.afterRead l q).r0 = s.r0 := rfl
@[simp] theorem afterRead_r1 (l : List ReadAnswer) (q : List PortReq) : (s.afterRead l q).r1 = s.r1 := rfl
@[simp] theorem afterRead_r2 (l : List ReadAnswer) (q : List PortReq) : (s.afterRead l q).r2 = s.r2 := rfl
@[simp] theorem afterRead_r3 (l : List ReadAnswer) (q : List PortReq) : (s.afterRead l q).r3 = s.r3 := rfl
@[simp] theorem afterRead_err (l : List ReadAnswer) (q : List PortReq) : (s.afterRead l q).err = s.err := rfl
@[simp] theorem afterRead_bderr (l : List ReadAnswer) (q : List PortReq) : (s.afterRead l q).bderr = s.bderr := rfl
@[simp] theorem afterRead_fails (l : List ReadAnswer) (q : List PortReq) : (s.afterRead l q).fails = s.fails := rfl
@[simp] theorem afterRead_notfound (l : List ReadAnswer) (q : List PortReq) : (s.afterRead l q).notfound = s.notfound := rfl
@[simp] theorem afterRead_sat (l : List ReadAnswer) (q : List PortReq) : (s.afterRead l q).sat = s.sat := rfl
@[simp] theorem afterRead_cmdcnt (l : List ReadAnswer) (q : List PortReq) : (s.afterRead l q).cmdcnt = s.cmdcnt := rfl
@[simp] theorem afterRead_ctrl (l : List ReadAnswer) (q : List PortReq) : (s.afterRead l q).ctrl = s.ctrl := rfl
@[simp] theorem afterRead_acc (l : List ReadAnswer) (q : List PortReq) : (s.afterRead l q).acc = s.acc := rfl
@[simp] theorem afterRead_fmt (l : List ReadAnswer) (q : List PortReq) : (s.afterRead l q).fmt = s.fmt := rfl
@[simp] theorem afterRead_surfW (l : List ReadAnswer) (q : List PortReq) : (s.afterRead l q).surfW = s.surfW := rfl
@[simp] theorem afterRead_surfH (l : List ReadAnswer) (q : List PortReq) : (s.afterRead l q).surfH = s.surfH := rfl
@[simp] theorem afterRead_plut (l : List ReadAnswer) (q : List PortReq) : (s.afterRead l q).plut = s.plut := rfl
@[simp] theorem afterRead_pal (l : List ReadAnswer) (q : List PortReq) : (s.afterRead l q).pal = s.pal := rfl
@[simp] theorem afterRead_mono (l : List ReadAnswer) (q : List PortReq) : (s.afterRead l q).mono = s.mono := rfl
@[simp] theorem afterRead_curValid (l : List ReadAnswer) (q : List PortReq) : (s.afterRead l q).curValid = s.curValid := rfl
@[simp] theorem afterRead_curRow (l : List ReadAnswer) (q : List PortReq) : (s.afterRead l q).curRow = s.curRow := rfl
@[simp] theorem afterRead_thisRow (l : List ReadAnswer) (q : List PortReq) : (s.afterRead l q).thisRow = s.thisRow := rfl
@[simp] theorem afterRead_nextRow (l : List ReadAnswer) (q : List PortReq) : (s.afterRead l q).nextRow = s.nextRow := rfl
@[simp] theorem afterRead_fb (l : List ReadAnswer) (q : List PortReq) : (s.afterRead l q).fb = s.fb := rfl
@[simp] theorem afterRead_fbc (l : List ReadAnswer) (q : List PortReq) : (s.afterRead l q).fbc = s.fbc := rfl
@[simp] theorem afterRead_cmdq (l : List ReadAnswer) (q : List PortReq) : (s.afterRead l q).cmdq = s.cmdq := rfl
@[simp] theorem afterRead_rspq (l : List ReadAnswer) (q : List PortReq) : (s.afterRead l q).rspq = s.rspq := rfl
@[simp] theorem afterRead_progq (l : List ReadAnswer) (q : List PortReq) : (s.afterRead l q).progq = s.progq := rfl
@[simp] theorem afterRead_halted (l : List ReadAnswer) (q : List PortReq) : (s.afterRead l q).halted = s.halted := rfl
@[simp] theorem afterRead_seq (l : List ReadAnswer) (q : List PortReq) : (s.afterRead l q).seq = s.seq := rfl
@[simp] theorem afterRead_params (l : List ReadAnswer) (q : List PortReq) : (s.afterRead l q).params = s.params := rfl
@[simp] theorem afterRead_bsTotals (l : List ReadAnswer) (q : List PortReq) : (s.afterRead l q).bsTotals = s.bsTotals := rfl
@[simp] theorem afterRead_bsReads (l : List ReadAnswer) (q : List PortReq) : (s.afterRead l q).bsReads = l := rfl
@[simp] theorem afterRead_bdInits (l : List ReadAnswer) (q : List PortReq) : (s.afterRead l q).bdInits = s.bdInits := rfl
@[simp] theorem afterRead_dropped (l : List ReadAnswer) (q : List PortReq) : (s.afterRead l q).dropped = s.dropped := rfl
@[simp] theorem afterRead_rowsOfDecode (l : List ReadAnswer) (q : List PortReq) : (s.afterRead l q).rowsOfDecode = s.rowsOfDecode := rfl
@[simp] theorem afterRead_bdMcus (l : List ReadAnswer) (q : List PortReq) : (s.afterRead l q).bdMcus = s.bdMcus := rfl
@[simp] theorem afterRead_reqs (l : List ReadAnswer) (q : List PortReq) : (s.afterRead l q).reqs = s.reqs ++ q := rfl
@[simp] theorem afterRead_choices (l : List ReadAnswer) (q : List PortReq) : (s.afterRead l q).choices = s.choices := rfl
@[simp] theorem afterRead_qmode (l : List ReadAnswer) (q : List PortReq) : (s.afterRead l q).qmode = s.qmode := rfl
@[simp] theorem afterRead_progen (l : List ReadAnswer) (q : List PortReq) : (s.afterRead l q).progen = s.progen := rfl
@[simp] theorem afterRead_swap565 (l : List ReadAnswer) (q : List PortReq) : (s.afterRead l q).swap565 = s.swap565 := rfl
@[simp] theorem afterRead_vfirst (l : List ReadAnswer) (q : List PortReq) : (s.afterRead l q).vfirst = s.vfirst := rfl
@[simp] theorem afterRead_stride (l : List ReadAnswer) (q : List PortReq) : (s.afterRead l q).stride = s.stride := rfl
@[simp] theorem afterRead_planeBytes (l : List ReadAnswer) (q : List PortReq) : (s.afterRead l q).planeBytes = s.planeBytes := rfl
@[simp] theorem afterRead_surfBytes (l : List ReadAnswer) (q : List PortReq) : (s.afterRead l q).surfBytes = s.surfBytes := rfl
@[simp] theorem afterRead_inside (l : List ReadAnswer) (q : List PortReq) (x y : Nat) : (s.afterRead l q).inside x y = s.inside x y := rfl
@[simp] theorem afterRead_pixelAddr (l : List ReadAnswer) (q : List PortReq) (x y : Nat) : (s.afterRead l q).pixelAddr x y = s.pixelAddr x y := rfl
@[simp] theorem afterRead_memRead (l : List ReadAnswer) (q : List PortReq) (a : Nat) : (s.afterRead l q).memRead a = s.memRead a := rfl
@[simp] theorem afterRead_sinkByte (l : List ReadAnswer) (q : List PortReq) (a : Nat) : (s.afterRead l q).sinkByte a = s.sinkByte a := rfl
@[simp] theorem afterRead_nearest (l : List ReadAnswer) (q : List PortReq) (c : Lab) : (s.afterRead l q).nearest c = s.nearest c := rfl
@[simp] theorem afterRead_nearestEntry (l : List ReadAnswer) (q : List PortReq) (c : Lab) : (s.afterRead l q).nearestEntry c = s.nearestEntry c := rfl
@[simp] theorem afterRead_clipW (l : List ReadAnswer) (q : List PortReq) (n : Nat) : (s.afterRead l q).clipW n = s.clipW n := rfl
@[simp] theorem afterRead_clipH (l : List ReadAnswer) (q : List PortReq) (n : Nat) : (s.afterRead l q).clipH n = s.clipH n := rfl
@[simp] theorem afterRead_surfGet (l : List ReadAnswer) (q : List PortReq) (x y : Nat) : (s.afterRead l q).surfGet x y = s.surfGet x y := rfl

/-! `afterMcus` -/

@[simp] theorem afterMcus_r0 (l : List McuAnswer) (q : List PortReq) : (s.afterMcus l q).r0 = s.r0 := rfl
@[simp] theorem afterMcus_r1 (l : List McuAnswer) (q : List PortReq) : (s.afterMcus l q).r1 = s.r1 := rfl
@[simp] theorem afterMcus_r2 (l : List McuAnswer) (q : List PortReq) : (s.afterMcus l q).r2 = s.r2 := rfl
@[simp] theorem afterMcus_r3 (l : List McuAnswer) (q : List PortReq) : (s.afterMcus l q).r3 = s.r3 := rfl
@[simp] theorem afterMcus_err (l : List McuAnswer) (q : List PortReq) : (s.afterMcus l q).err = s.err := rfl
@[simp] theorem afterMcus_bderr (l : List McuAnswer) (q : List PortReq) : (s.afterMcus l q).bderr = s.bderr := rfl
@[simp] theorem afterMcus_fails (l : List McuAnswer) (q : List PortReq) : (s.afterMcus l q).fails = s.fails := rfl
@[simp] theorem afterMcus_notfound (l : List McuAnswer) (q : List PortReq) : (s.afterMcus l q).notfound = s.notfound := rfl
@[simp] theorem afterMcus_sat (l : List McuAnswer) (q : List PortReq) : (s.afterMcus l q).sat = s.sat := rfl
@[simp] theorem afterMcus_cmdcnt (l : List McuAnswer) (q : List PortReq) : (s.afterMcus l q).cmdcnt = s.cmdcnt := rfl
@[simp] theorem afterMcus_ctrl (l : List McuAnswer) (q : List PortReq) : (s.afterMcus l q).ctrl = s.ctrl := rfl
@[simp] theorem afterMcus_acc (l : List McuAnswer) (q : List PortReq) : (s.afterMcus l q).acc = s.acc := rfl
@[simp] theorem afterMcus_fmt (l : List McuAnswer) (q : List PortReq) : (s.afterMcus l q).fmt = s.fmt := rfl
@[simp] theorem afterMcus_surfW (l : List McuAnswer) (q : List PortReq) : (s.afterMcus l q).surfW = s.surfW := rfl
@[simp] theorem afterMcus_surfH (l : List McuAnswer) (q : List PortReq) : (s.afterMcus l q).surfH = s.surfH := rfl
@[simp] theorem afterMcus_plut (l : List McuAnswer) (q : List PortReq) : (s.afterMcus l q).plut = s.plut := rfl
@[simp] theorem afterMcus_pal (l : List McuAnswer) (q : List PortReq) : (s.afterMcus l q).pal = s.pal := rfl
@[simp] theorem afterMcus_mono (l : List McuAnswer) (q : List PortReq) : (s.afterMcus l q).mono = s.mono := rfl
@[simp] theorem afterMcus_curValid (l : List McuAnswer) (q : List PortReq) : (s.afterMcus l q).curValid = s.curValid := rfl
@[simp] theorem afterMcus_curRow (l : List McuAnswer) (q : List PortReq) : (s.afterMcus l q).curRow = s.curRow := rfl
@[simp] theorem afterMcus_thisRow (l : List McuAnswer) (q : List PortReq) : (s.afterMcus l q).thisRow = s.thisRow := rfl
@[simp] theorem afterMcus_nextRow (l : List McuAnswer) (q : List PortReq) : (s.afterMcus l q).nextRow = s.nextRow := rfl
@[simp] theorem afterMcus_fb (l : List McuAnswer) (q : List PortReq) : (s.afterMcus l q).fb = s.fb := rfl
@[simp] theorem afterMcus_fbc (l : List McuAnswer) (q : List PortReq) : (s.afterMcus l q).fbc = s.fbc := rfl
@[simp] theorem afterMcus_cmdq (l : List McuAnswer) (q : List PortReq) : (s.afterMcus l q).cmdq = s.cmdq := rfl
@[simp] theorem afterMcus_rspq (l : List McuAnswer) (q : List PortReq) : (s.afterMcus l q).rspq = s.rspq := rfl
@[simp] theorem afterMcus_progq (l : List McuAnswer) (q : List PortReq) : (s.afterMcus l q).progq = s.progq := rfl
@[simp] theorem afterMcus_halted (l : List McuAnswer) (q : List PortReq) : (s.afterMcus l q).halted = s.halted := rfl
@[simp] theorem afterMcus_seq (l : List McuAnswer) (q : List PortReq) : (s.afterMcus l q).seq = s.seq := rfl
@[simp] theorem afterMcus_params (l : List McuAnswer) (q : List PortReq) : (s.afterMcus l q).params = s.params := rfl
@[simp] theorem afterMcus_bsTotals (l : List McuAnswer) (q : List PortReq) : (s.afterMcus l q).bsTotals = s.bsTotals := rfl
@[simp] theorem afterMcus_bsReads (l : List McuAnswer) (q : List PortReq) : (s.afterMcus l q).bsReads = s.bsReads := rfl
@[simp] theorem afterMcus_bdInits (l : List McuAnswer) (q : List PortReq) : (s.afterMcus l q).bdInits = s.bdInits := rfl
@[simp] theorem afterMcus_dropped (l : List McuAnswer) (q : List PortReq) : (s.afterMcus l q).dropped = s.dropped := rfl
@[simp] theorem afterMcus_rowsOfDecode (l : List McuAnswer) (q : List PortReq) : (s.afterMcus l q).rowsOfDecode = s.rowsOfDecode := rfl
@[simp] theorem afterMcus_bdMcus (l : List McuAnswer) (q : List PortReq) : (s.afterMcus l q).bdMcus = l := rfl
@[simp] theorem afterMcus_reqs (l : List McuAnswer) (q : List PortReq) : (s.afterMcus l q).reqs = s.reqs ++ q := rfl
@[simp] theorem afterMcus_choices (l : List McuAnswer) (q : List PortReq) : (s.afterMcus l q).choices = s.choices := rfl
@[simp] theorem afterMcus_qmode (l : List McuAnswer) (q : List PortReq) : (s.afterMcus l q).qmode = s.qmode := rfl
@[simp] theorem afterMcus_progen (l : List McuAnswer) (q : List PortReq) : (s.afterMcus l q).progen = s.progen := rfl
@[simp] theorem afterMcus_swap565 (l : List McuAnswer) (q : List PortReq) : (s.afterMcus l q).swap565 = s.swap565 := rfl
@[simp] theorem afterMcus_vfirst (l : List McuAnswer) (q : List PortReq) : (s.afterMcus l q).vfirst = s.vfirst := rfl
@[simp] theorem afterMcus_stride (l : List McuAnswer) (q : List PortReq) : (s.afterMcus l q).stride = s.stride := rfl
@[simp] theorem afterMcus_planeBytes (l : List McuAnswer) (q : List PortReq) : (s.afterMcus l q).planeBytes = s.planeBytes := rfl
@[simp] theorem afterMcus_surfBytes (l : List McuAnswer) (q : List PortReq) : (s.afterMcus l q).surfBytes = s.surfBytes := rfl
@[simp] theorem afterMcus_inside (l : List McuAnswer) (q : List PortReq) (x y : Nat) : (s.afterMcus l q).inside x y = s.inside x y := rfl
@[simp] theorem afterMcus_pixelAddr (l : List McuAnswer) (q : List PortReq) (x y : Nat) : (s.afterMcus l q).pixelAddr x y = s.pixelAddr x y := rfl
@[simp] theorem afterMcus_memRead (l : List McuAnswer) (q : List PortReq) (a : Nat) : (s.afterMcus l q).memRead a = s.memRead a := rfl
@[simp] theorem afterMcus_sinkByte (l : List McuAnswer) (q : List PortReq) (a : Nat) : (s.afterMcus l q).sinkByte a = s.sinkByte a := rfl
@[simp] theorem afterMcus_nearest (l : List McuAnswer) (q : List PortReq) (c : Lab) : (s.afterMcus l q).nearest c = s.nearest c := rfl
@[simp] theorem afterMcus_nearestEntry (l : List McuAnswer) (q : List PortReq) (c : Lab) : (s.afterMcus l q).nearestEntry c = s.nearestEntry c := rfl
@[simp] theorem afterMcus_clipW (l : List McuAnswer) (q : List PortReq) (n : Nat) : (s.afterMcus l q).clipW n = s.clipW n := rfl
@[simp] theorem afterMcus_clipH (l : List McuAnswer) (q : List PortReq) (n : Nat) : (s.afterMcus l q).clipH n = s.clipH n := rfl
@[simp] theorem afterMcus_surfGet (l : List McuAnswer) (q : List PortReq) (x y : Nat) : (s.afterMcus l q).surfGet x y = s.surfGet x y := rfl

end Sys2Proof.Machine
end

