-- ==== Sys2Proof/Laws/Memory.lean ====
section
/-!
SUPPORT. The laws of the sparse stores, and of the frame buffer and the row buffers that are made of them: what a read
gives after a write, a clear or a copy, and that each of these keeps the canonical form and the bound on the keys.
-/

namespace Sys2Proof.Machine

variable {α : Type}

/-! ### Reads -/

theorem sparseRead_of_wfFrom_lt [DecidableEq α] {d : α} {m : List (Nat × α)} :
    ∀ {lo k : Nat}, sparseWfFrom d lo m = true → k < lo → sparseRead d m k = d := by
  induction m with
  | nil => intros; rfl
  | cons c m ih =>
    intro lo k h hk
    simp only [sparseWfFrom, Bool.and_eq_true, decide_eq_true_eq] at h
    rw [sparseRead, if_neg (by omega)]
    exact ih h.2 (by omega)

/-- A write leaves every other key alone, whatever the list. -/
theorem sparseRead_sparseWrite_of_ne [DecidableEq α] {d v : α} {k j : Nat} (hj : j ≠ k) :
    ∀ m : List (Nat × α), sparseRead d (sparseWrite d m k v) j = sparseRead d m j := by
  intro m
  induction m with
  | nil => by_cases hv : v = d <;> simp [sparseWrite, sparseRead, hv, Ne.symm hj]
  | cons c m ih =>
    simp only [sparseWrite]
    split
    · split
      · rfl
      · simp [sparseRead, Ne.symm hj]
    · split
      next hc =>
        have : c.1 ≠ j := by omega
        split <;> simp [sparseRead, this, Ne.symm hj]
      next hc => simp only [sparseRead, ih]

/-- In a canonical list a read gives the value written last. -/
theorem sparseRead_sparseWrite_self [DecidableEq α] {d v : α} {k : Nat} :
    ∀ {m : List (Nat × α)} {lo : Nat}, sparseWfFrom d lo m = true → sparseRead d (sparseWrite d m k v) k = v := by
  intro m
  induction m with
  | nil => intro lo _; by_cases hv : v = d <;> simp [sparseWrite, sparseRead, hv]
  | cons c m ih =>
    intro lo h
    simp only [sparseWfFrom, Bool.and_eq_true, decide_eq_true_eq] at h
    simp only [sparseWrite]
    split
    next hk =>
      split
      next hv =>
        rw [sparseRead, if_neg (by omega), hv]
        exact sparseRead_of_wfFrom_lt h.2 (by omega)
      next hv => simp [sparseRead]
    next hk =>
      split
      next hc =>
        split
        next hv => rw [hv]; exact sparseRead_of_wfFrom_lt h.2 (by omega)
        next hv => simp [sparseRead]
      next hc => rw [sparseRead, if_neg hc]; exact ih h.2

/-- A clear gives every key below `n` the default and leaves the rest alone. -/
theorem sparseRead_sparseClear (d : α) (n : Nat) (j : Nat) (m : List (Nat × α)) :
    sparseRead d (sparseClear n m) j = if j < n then d else sparseRead d m j := by
  induction m with
  | nil => simp [sparseClear, sparseRead]
  | cons c m ih =>
    simp only [sparseClear, List.filter_cons] at ih ⊢
    by_cases hc : n ≤ c.1
    · simp only [hc, decide_true, if_true, sparseRead, ih]
      by_cases hj : c.1 = j
      · simp [hj, show ¬ j < n by omega]
      · simp [hj]
    · simp only [hc, decide_false, Bool.false_eq_true, if_false, ih, sparseRead]
      by_cases hj : c.1 = j
      · simp [show j < n by omega]
      · simp [hj]

theorem sparseRead_append_filter_lt (d : α) (n : Nat) (j : Nat) (src dst : List (Nat × α)) :
    sparseRead d (src.filter (fun c => c.1 < n) ++ dst) j =
      if j < n ∧ (src.any (fun c => c.1 == j)) then sparseRead d src j else sparseRead d dst j := by
  induction src with
  | nil => simp
  | cons c m ih =>
    rw [List.filter_cons]
    by_cases hc : c.1 < n
    · simp only [hc, decide_true, if_true, List.cons_append, sparseRead, ih, List.any_cons]
      by_cases hj : c.1 = j
      · simp [hj, show j < n by omega]
      · simp only [if_neg hj, beq_false_of_ne hj, Bool.false_or]
    · simp only [hc, decide_false, Bool.false_eq_true, if_false, ih, sparseRead, List.any_cons]
      by_cases hj : c.1 = j
      · simp [show ¬ j < n by omega]
      · simp only [if_neg hj, beq_false_of_ne hj, Bool.false_or]

theorem sparseRead_of_not_any (d : α) (j : Nat) (m : List (Nat × α)) (h : m.any (fun c => c.1 == j) = false) :
    sparseRead d m j = d := by
  induction m with
  | nil => rfl
  | cons c m ih =>
    simp only [List.any_cons, Bool.or_eq_false_iff, beq_eq_false_iff_ne] at h
    rw [sparseRead, if_neg h.1, ih h.2]

/-- A copy gives every key below `n` what it holds in the source and leaves the rest alone. -/
theorem sparseRead_sparseCopy (d : α) (n : Nat) (j : Nat) (src dst : List (Nat × α)) :
    sparseRead d (sparseCopy n src dst) j = if j < n then sparseRead d src j else sparseRead d dst j := by
  rw [sparseCopy, sparseRead_append_filter_lt, sparseRead_sparseClear]
  by_cases hj : j < n
  · cases ha : src.any (fun c => c.1 == j)
    · simp [hj, sparseRead_of_not_any d j src ha]
    · simp [hj]
  · simp [hj]

/-! ### The canonical form is kept -/

theorem sparseWfFrom_mono [DecidableEq α] {d : α} {m : List (Nat × α)} {lo lo' : Nat} (hl : lo' ≤ lo)
    (h : sparseWfFrom d lo m = true) : sparseWfFrom d lo' m = true := by
  cases m with
  | nil => rfl
  | cons c m =>
    simp only [sparseWfFrom, Bool.and_eq_true, decide_eq_true_eq] at h ⊢
    exact ⟨⟨by omega, h.1.2⟩, h.2⟩

theorem sparseWfFrom_write [DecidableEq α] {d v : α} {k : Nat} :
    ∀ {m : List (Nat × α)} {lo : Nat}, lo ≤ k → sparseWfFrom d lo m = true →
      sparseWfFrom d lo (sparseWrite d m k v) = true := by
  intro m
  induction m with
  | nil => intro lo hl _; by_cases hv : v = d <;> simp [sparseWrite, sparseWfFrom, hv, hl]
  | cons c m ih =>
    intro lo hl h
    simp only [sparseWfFrom, Bool.and_eq_true, decide_eq_true_eq] at h
    simp only [sparseWrite]
    split
    next hk =>
      split
      next hv => simp [sparseWfFrom, h]
      next hv => simp [sparseWfFrom, h, hl, hv, show k + 1 ≤ c.1 by omega]
    next hk =>
      split
      next hc =>
        split
        next hv => exact sparseWfFrom_mono (by omega) h.2
        next hv => subst hc; simp [sparseWfFrom, h, hv]
      next hc =>
        simp only [sparseWfFrom, Bool.and_eq_true, decide_eq_true_eq]
        exact ⟨h.1, ih (by omega) h.2⟩

theorem sparseWf_write [DecidableEq α] {d v : α} {k : Nat} {m : List (Nat × α)} (h : sparseWf d m = true) :
    sparseWf d (sparseWrite d m k v) = true := sparseWfFrom_write (Nat.zero_le k) h

theorem sparseWfFrom_filter [DecidableEq α] {d : α} {p : Nat × α → Bool} :
    ∀ {m : List (Nat × α)} {lo : Nat}, sparseWfFrom d lo m = true → sparseWfFrom d lo (m.filter p) = true := by
  intro m
  induction m with
  | nil => intro lo h; exact h
  | cons c m ih =>
    intro lo h
    simp only [sparseWfFrom, Bool.and_eq_true, decide_eq_true_eq] at h
    rw [List.filter_cons]
    split
    · simp only [sparseWfFrom, Bool.and_eq_true, decide_eq_true_eq]; exact ⟨h.1, ih h.2⟩
    · exact sparseWfFrom_mono (by omega) (ih h.2)

theorem sparseWf_clear [DecidableEq α] {d : α} {n : Nat} {m : List (Nat × α)} (h : sparseWf d m = true) :
    sparseWf d (sparseClear n m) = true := sparseWfFrom_filter h

theorem sparseWfFrom_append [DecidableEq α] {d : α} {n : Nat} {l : List (Nat × α)}
    (hl : sparseWfFrom d n l = true) :
    ∀ {m : List (Nat × α)} {lo : Nat}, lo ≤ n → sparseWfFrom d lo m = true → sparseBelow n m = true →
      sparseWfFrom d lo (m ++ l) = true := by
  intro m
  induction m with
  | nil => intro lo hn _ _; exact sparseWfFrom_mono hn hl
  | cons c m ih =>
    intro lo hn h hb
    simp only [sparseWfFrom, Bool.and_eq_true, decide_eq_true_eq] at h
    simp only [sparseBelow, List.all_cons, Bool.and_eq_true, decide_eq_true_eq] at hb
    simp only [List.cons_append, sparseWfFrom, Bool.and_eq_true, decide_eq_true_eq]
    exact ⟨h.1, ih (by omega) h.2 hb.2⟩

theorem sparseWfFrom_clear [DecidableEq α] {d : α} {n : Nat} :
    ∀ {m : List (Nat × α)} {lo : Nat}, sparseWfFrom d lo m = true → sparseWfFrom d n (sparseClear n m) = true := by
  intro m
  induction m with
  | nil => intros; rfl
  | cons c m ih =>
    intro lo h
    simp only [sparseWfFrom, Bool.and_eq_true, decide_eq_true_eq] at h
    simp only [sparseClear, List.filter_cons] at ih ⊢
    split
    next hc =>
      simp only [decide_eq_true_eq] at hc
      simp only [sparseWfFrom, Bool.and_eq_true, decide_eq_true_eq]
      refine ⟨⟨hc, h.1.2⟩, ?_⟩
      exact sparseWfFrom_filter h.2
    next hc => exact ih h.2

theorem sparseWf_copy [DecidableEq α] {d : α} {n : Nat} {src dst : List (Nat × α)} (hs : sparseWf d src = true)
    (hd : sparseWf d dst = true) : sparseWf d (sparseCopy n src dst) = true := by
  refine sparseWfFrom_append (n := n) (sparseWfFrom_clear hd) (Nat.zero_le _) (sparseWfFrom_filter hs) ?_
  simp [sparseBelow]

/-! ### The bound on the keys is kept -/

theorem sparseBelow_cons {n : Nat} {c : Nat × α} {m : List (Nat × α)} :
    sparseBelow n (c :: m) = true ↔ c.1 < n ∧ sparseBelow n m = true := by
  simp [sparseBelow]

theorem sparseBelow_write [DecidableEq α] {d v : α} {k n : Nat} (hk : k < n) :
    ∀ {m : List (Nat × α)}, sparseBelow n m = true → sparseBelow n (sparseWrite d m k v) = true := by
  intro m
  induction m with
  | nil => intro _; by_cases hv : v = d <;> simp [sparseWrite, sparseBelow, hv, hk]
  | cons c m ih =>
    intro h
    have h' := sparseBelow_cons.1 h
    simp only [sparseWrite]
    split
    · split
      · exact h
      · exact sparseBelow_cons.2 ⟨hk, h⟩
    · split
      · split
        · exact h'.2
        · exact sparseBelow_cons.2 ⟨hk, h'.2⟩
      · exact sparseBelow_cons.2 ⟨h'.1, ih h'.2⟩

theorem sparseBelow_clear {k n : Nat} {m : List (Nat × α)} (h : sparseBelow n m = true) :
    sparseBelow n (sparseClear k m) = true := by
  simp only [sparseBelow, sparseClear, List.all_eq_true, decide_eq_true_eq, List.mem_filter] at h ⊢
  exact fun c hc => h c hc.1

theorem sparseBelow_copy {k n : Nat} {src dst : List (Nat × α)} (hs : sparseBelow n src = true)
    (hd : sparseBelow n dst = true) : sparseBelow n (sparseCopy k src dst) = true := by
  simp only [sparseBelow, sparseCopy, sparseClear, List.all_eq_true, decide_eq_true_eq, List.mem_append,
    List.mem_filter] at hs hd ⊢
  rintro c (hc | hc)
  · exact hs c hc.1
  · exact hd c hc.1

theorem sparseRead_of_below {d : α} {n j : Nat} (hj : n ≤ j) {m : List (Nat × α)} (h : sparseBelow n m = true) :
    sparseRead d m j = d := by
  apply sparseRead_of_not_any
  simp only [sparseBelow, List.all_eq_true, decide_eq_true_eq] at h
  simp only [List.any_eq_false, beq_iff_eq]
  intro c hc
  have := h c hc
  omega

/-! ### The frame buffer -/

@[simp] theorem memRead_memWrite_of_ne {a k : Nat} (h : a ≠ k) (v : Byte) (s : State) :
    (s.memWrite k v).memRead a = s.memRead a := sparseRead_sparseWrite_of_ne h _

theorem memRead_memWrite_self {k : Nat} (v : Byte) {s : State} (h : s.fb.wf = true) :
    (s.memWrite k v).memRead k = v := sparseRead_sparseWrite_self h

theorem sinkByte_maybeCommit_of_ne {a k : Nat} (h : a ≠ k) (s : State) :
    (s.maybeCommit k).sinkByte a = s.sinkByte a := by
  simp only [State.sinkByte, maybeCommit_fbc]
  split
  · exact sparseRead_sparseWrite_of_ne h _
  · rfl

@[simp] theorem sinkByte_memWrite_of_ne {a k : Nat} (h : a ≠ k) (v : Byte) (s : State) :
    (s.memWrite k v).sinkByte a = s.sinkByte a := sinkByte_maybeCommit_of_ne h s

/-- The byte the DisplaySink sees is the old one or the one the engine held. -/
theorem sinkByte_maybeCommit_self {k : Nat} {s : State} (h : s.fbc.wf = true) :
    (s.maybeCommit k).sinkByte k = if Config.commitsEarly s.choices k then s.memRead k else s.sinkByte k := by
  simp only [State.sinkByte, maybeCommit_fbc]
  split
  · exact sparseRead_sparseWrite_self h
  · rfl

theorem memWf_memWrite {s : State} (k : Nat) (v : Byte) (h : s.fb.wf = true) : (s.memWrite k v).fb.wf = true :=
  sparseWf_write h

theorem sinkWf_maybeCommit {s : State} (k : Nat) (h : s.fbc.wf = true) : (s.maybeCommit k).fbc.wf = true := by
  simp only [maybeCommit_fbc]
  split
  · exact sparseWf_write h
  · exact h

theorem sinkWf_memWrite {s : State} (k : Nat) (v : Byte) (h : s.fbc.wf = true) : (s.memWrite k v).fbc.wf = true :=
  sinkWf_maybeCommit k h

theorem memRead_zeroFill (n a : Nat) (s : State) :
    (s.zeroFill n).memRead a = if a < n then Config.unwrittenByte else s.memRead a :=
  sparseRead_sparseClear _ n a _

theorem sinkByte_zeroFill (n a : Nat) (s : State) :
    (s.zeroFill n).sinkByte a = if a < n then Config.unwrittenByte else s.sinkByte a :=
  sparseRead_sparseClear _ n a _

/-- Every memory operation keeps the canonical form of both memories. -/
theorem memory_ops_keep_wf {m : Memory} (h : m.wf = true) :
    (∀ a v, (m.write a v).wf = true) ∧ (∀ n, Memory.wf (sparseClear n m) = true) ∧
      (∀ (n : Nat) (src : Memory), src.wf = true → Memory.wf (sparseCopy n src m) = true) :=
  ⟨fun _ _ => sparseWf_write h, fun _ => sparseWf_clear h, fun _ _ hs => sparseWf_copy hs h⟩

/-- The memories of the reset state are in canonical form. -/
theorem reset_memory_wf : State.reset.fb.wf = true ∧ State.reset.fbc.wf = true := ⟨rfl, rfl⟩

/-! ### Row buffers -/

theorem entry_setEntry_of_ne {x j : Nat} (h : j ≠ x) (e : Err3) (r : Row) : (r.setEntry x e).entry j = r.entry j :=
  sparseRead_sparseWrite_of_ne h r

theorem entry_setEntry_self {x : Nat} (e : Err3) {r : Row} (h : r.wf = true) : (r.setEntry x e).entry x = e :=
  sparseRead_sparseWrite_self h

theorem rowWf_setEntry {x : Nat} (e : Err3) {r : Row} (h : r.wf = true) : (r.setEntry x e).wf = true :=
  sparseWf_write h

theorem entry_clear (n x : Nat) (r : Row) : Row.entry (sparseClear n r) x = if x < n then Lab.zero else r.entry x :=
  sparseRead_sparseClear _ n x r

theorem entry_copy (n x : Nat) (src dst : Row) :
    Row.entry (sparseCopy n src dst) x = if x < n then src.entry x else dst.entry x :=
  sparseRead_sparseCopy _ n x src dst

end Sys2Proof.Machine
end

