-- ==== Sys2Proof/Laws/Keeps.lean ====
section
/-!
SUPPORT. What the composite operations (pixel access, quantizing view, row emission) may change: for each one lemma
`…_shape` that says its result is the old state with certain fields replaced, and from it one line for every field and
accessor that is kept.
-/

namespace Sys2Proof.Machine

/-! `surfSet` -/

theorem surfSet_shape (x y : Nat) (v : Byte) (s : State) :
    ∃ fb fbc n, s.surfSet x y v =
      { s with fb := fb, fbc := fbc, choices := n } := by
  unfold State.surfSet
  split
  · split
    · exact ⟨_, _, _, rfl⟩
    · exact ⟨_, _, _, rfl⟩
    · split
      · exact ⟨_, _, _, rfl⟩
      · exact ⟨_, _, _, rfl⟩
  · exact ⟨_, _, _, rfl⟩

@[simp] theorem surfSet_r0 (x y : Nat) (v : Byte) (s : State) : (s.surfSet x y v).r0 = s.r0 := by
  obtain ⟨_, _, _, h⟩ := surfSet_shape x y v s; rw [h]
@[simp] theorem surfSet_r1 (x y : Nat) (v : Byte) (s : State) : (s.surfSet x y v).r1 = s.r1 := by
  obtain ⟨_, _, _, h⟩ := surfSet_shape x y v s; rw [h]
@[simp] theorem surfSet_r2 (x y : Nat) (v : Byte) (s : State) : (s.surfSet x y v).r2 = s.r2 := by
  obtain ⟨_, _, _, h⟩ := surfSet_shape x y v s; rw [h]
@[simp] theorem surfSet_r3 (x y : Nat) (v : Byte) (s : State) : (s.surfSet x y v).r3 = s.r3 := by
  obtain ⟨_, _, _, h⟩ := surfSet_shape x y v s; rw [h]
@[simp] theorem surfSet_err (x y : Nat) (v : Byte) (s : State) : (s.surfSet x y v).err = s.err := by
  obtain ⟨_, _, _, h⟩ := surfSet_shape x y v s; rw [h]
@[simp] theorem surfSet_bderr (x y : Nat) (v : Byte) (s : State) : (s.surfSet x y v).bderr = s.bderr := by
  obtain ⟨_, _, _, h⟩ := surfSet_shape x y v s; rw [h]
@[simp] theorem surfSet_fails (x y : Nat) (v : Byte) (s : State) : (s.surfSet x y v).fails = s.fails := by
  obtain ⟨_, _, _, h⟩ := surfSet_shape x y v s; rw [h]
@[simp] theorem surfSet_notfound (x y : Nat) (v : Byte) (s : State) : (s.surfSet x y v).notfound = s.notfound := by
  obtain ⟨_, _, _, h⟩ := surfSet_shape x y v s; rw [h]
@[simp] theorem surfSet_sat (x y : Nat) (v : Byte) (s : State) : (s.surfSet x y v).sat = s.sat := by
  obtain ⟨_, _, _, h⟩ := surfSet_shape x y v s; rw [h]
@[simp] theorem surfSet_cmdcnt (x y : Nat) (v : Byte) (s : State) : (s.surfSet x y v).cmdcnt = s.cmdcnt := by
  obtain ⟨_, _, _, h⟩ := surfSet_shape x y v s; rw [h]
@[simp] theorem surfSet_ctrl (x y : Nat) (v : Byte) (s : State) : (s.surfSet x y v).ctrl = s.ctrl := by
  obtain ⟨_, _, _, h⟩ := surfSet_shape x y v s; rw [h]
@[simp] theorem surfSet_acc (x y : Nat) (v : Byte) (s : State) : (s.surfSet x y v).acc = s.acc := by
  obtain ⟨_, _, _, h⟩ := surfSet_shape x y v s; rw [h]
@[simp] theorem surfSet_fmt (x y : Nat) (v : Byte) (s : State) : (s.surfSet x y v).fmt = s.fmt := by
  obtain ⟨_, _, _, h⟩ := surfSet_shape x y v s; rw [h]
@[simp] theorem surfSet_surfW (x y : Nat) (v : Byte) (s : State) : (s.surfSet x y v).surfW = s.surfW := by
  obtain ⟨_, _, _, h⟩ := surfSet_shape x y v s; rw [h]
@[simp] theorem surfSet_surfH (x y : Nat) (v : Byte) (s : State) : (s.surfSet x y v).surfH = s.surfH := by
  obtain ⟨_, _, _, h⟩ := surfSet_shape x y v s; rw [h]
@[simp] theorem surfSet_plut (x y : Nat) (v : Byte) (s : State) : (s.surfSet x y v).plut = s.plut := by
  obtain ⟨_, _, _, h⟩ := surfSet_shape x y v s; rw [h]
@[simp] theorem surfSet_pal (x y : Nat) (v : Byte) (s : State) : (s.surfSet x y v).pal = s.pal := by
  obtain ⟨_, _, _, h⟩ := surfSet_shape x y v s; rw [h]
@[simp] theorem surfSet_mono (x y : Nat) (v : Byte) (s : State) : (s.surfSet x y v).mono = s.mono := by
  obtain ⟨_, _, _, h⟩ := surfSet_shape x y v s; rw [h]
@[simp] theorem surfSet_curValid (x y : Nat) (v : Byte) (s : State) : (s.surfSet x y v).curValid = s.curValid := by
  obtain ⟨_, _, _, h⟩ := surfSet_shape x y v s; rw [h]
@[simp] theorem surfSet_curRow (x y : Nat) (v : Byte) (s : State) : (s.surfSet x y v).curRow = s.curRow := by
  obtain ⟨_, _, _, h⟩ := surfSet_shape x y v s; rw [h]
@[simp] theorem surfSet_thisRow (x y : Nat) (v : Byte) (s : State) : (s.surfSet x y v).thisRow = s.thisRow := by
  obtain ⟨_, _, _, h⟩ := surfSet_shape x y v s; rw [h]
@[simp] theorem surfSet_nextRow (x y : Nat) (v : Byte) (s : State) : (s.surfSet x y v).nextRow = s.nextRow := by
  obtain ⟨_, _, _, h⟩ := surfSet_shape x y v s; rw [h]
@[simp] theorem surfSet_cmdq (x y : Nat) (v : Byte) (s : State) : (s.surfSet x y v).cmdq = s.cmdq := by
  obtain ⟨_, _, _, h⟩ := surfSet_shape x y v s; rw [h]
@[simp] theorem surfSet_rspq (x y : Nat) (v : Byte) (s : State) : (s.surfSet x y v).rspq = s.rspq := by
  obtain ⟨_, _, _, h⟩ := surfSet_shape x y v s; rw [h]
@[simp] theorem surfSet_progq (x y : Nat) (v : Byte) (s : State) : (s.surfSet x y v).progq = s.progq := by
  obtain ⟨_, _, _, h⟩ := surfSet_shape x y v s; rw [h]
@[simp] theorem surfSet_halted (x y : Nat) (v : Byte) (s : State) : (s.surfSet x y v).halted = s.halted := by
  obtain ⟨_, _, _, h⟩ := surfSet_shape x y v s; rw [h]
@[simp] theorem surfSet_seq (x y : Nat) (v : Byte) (s : State) : (s.surfSet x y v).seq = s.seq := by
  obtain ⟨_, _, _, h⟩ := surfSet_shape x y v s; rw [h]
@[simp] theorem surfSet_params (x y : Nat) (v : Byte) (s : State) : (s.surfSet x y v).params = s.params := by
  obtain ⟨_, _, _, h⟩ := surfSet_shape x y v s; rw [h]
@[simp] theorem surfSet_bsTotals (x y : Nat) (v : Byte) (s : State) : (s.surfSet x y v).bsTotals = s.bsTotals := by
  obtain ⟨_, _, _, h⟩ := surfSet_shape x y v s; rw [h]
@[simp] theorem surfSet_bsReads (x y : Nat) (v : Byte) (s : State) : (s.surfSet x y v).bsReads = s.bsReads := by
  obtain ⟨_, _, _, h⟩ := surfSet_shape x y v s; rw [h]
@[simp] theorem surfSet_bdInits (x y : Nat) (v : Byte) (s : State) : (s.surfSet x y v).bdInits = s.bdInits := by
  obtain ⟨_, _, _, h⟩ := surfSet_shape x y v s; rw [h]
@[simp] theorem surfSet_dropped (x y : Nat) (v : Byte) (s : State) : (s.surfSet x y v).dropped = s.dropped := by
  obtain ⟨_, _, _, h⟩ := surfSet_shape x y v s; rw [h]
@[simp] theorem surfSet_rowsOfDecode (x y : Nat) (v : Byte) (s : State) : (s.surfSet x y v).rowsOfDecode = s.rowsOfDecode := by
  obtain ⟨_, _, _, h⟩ := surfSet_shape x y v s; rw [h]
@[simp] theorem surfSet_bdMcus (x y : Nat) (v : Byte) (s : State) : (s.surfSet x y v).bdMcus = s.bdMcus := by
  obtain ⟨_, _, _, h⟩ := surfSet_shape x y v s; rw [h]
@[simp] theorem surfSet_reqs (x y : Nat) (v : Byte) (s : State) : (s.surfSet x y v).reqs = s.reqs := by
  obtain ⟨_, _, _, h⟩ := surfSet_shape x y v s; rw [h]
@[simp] theorem surfSet_qmode (x y : Nat) (v : Byte) (s : State) : (s.surfSet x y v).qmode = s.qmode := by
  obtain ⟨_, _, _, h⟩ := surfSet_shape x y v s; rw [h]; rfl
@[simp] theorem surfSet_progen (x y : Nat) (v : Byte) (s : State) : (s.surfSet x y v).progen = s.progen := by
  obtain ⟨_, _, _, h⟩ := surfSet_shape x y v s; rw [h]; rfl
@[simp] theorem surfSet_swap565 (x y : Nat) (v : Byte) (s : State) : (s.surfSet x y v).swap565 = s.swap565 := by
  obtain ⟨_, _, _, h⟩ := surfSet_shape x y v s; rw [h]; rfl
@[simp] theorem surfSet_vfirst (x y : Nat) (v : Byte) (s : State) : (s.surfSet x y v).vfirst = s.vfirst := by
  obtain ⟨_, _, _, h⟩ := surfSet_shape x y v s; rw [h]; rfl
@[simp] theorem surfSet_stride (x y : Nat) (v : Byte) (s : State) : (s.surfSet x y v).stride = s.stride := by
  obtain ⟨_, _, _, h⟩ := surfSet_shape x y v s; rw [h]; rfl
@[simp] theorem surfSet_planeBytes (x y : Nat) (v : Byte) (s : State) : (s.surfSet x y v).planeBytes = s.planeBytes := by
  obtain ⟨_, _, _, h⟩ := surfSet_shape x y v s; rw [h]; rfl
@[simp] theorem surfSet_surfBytes (x y : Nat) (v : Byte) (s : State) : (s.surfSet x y v).surfBytes = s.surfBytes := by
  obtain ⟨_, _, _, h⟩ := surfSet_shape x y v s; rw [h]; rfl
@[simp] theorem surfSet_inside (x y : Nat) (v : Byte) (x' y' : Nat) (s : State) : (s.surfSet x y v).inside x' y' = s.inside x' y' := by
  obtain ⟨_, _, _, h⟩ := surfSet_shape x y v s; rw [h]; rfl
@[simp] theorem surfSet_pixelAddr (x y : Nat) (v : Byte) (x' y' : Nat) (s : State) : (s.surfSet x y v).pixelAddr x' y' = s.pixelAddr x' y' := by
  obtain ⟨_, _, _, h⟩ := surfSet_shape x y v s; rw [h]; rfl
@[simp] theorem surfSet_nearest (x y : Nat) (v : Byte) (c' : Lab) (s : State) : (s.surfSet x y v).nearest c' = s.nearest c' := by
  obtain ⟨_, _, _, h⟩ := surfSet_shape x y v s; rw [h]; rfl
@[simp] theorem surfSet_nearestEntry (x y : Nat) (v : Byte) (c' : Lab) (s : State) : (s.surfSet x y v).nearestEntry c' = s.nearestEntry c' := by
  obtain ⟨_, _, _, h⟩ := surfSet_shape x y v s; rw [h]; rfl
@[simp] theorem surfSet_clipW (x y : Nat) (v : Byte) (n' : Nat) (s : State) : (s.surfSet x y v).clipW n' = s.clipW n' := by
  obtain ⟨_, _, _, h⟩ := surfSet_shape x y v s; rw [h]; rfl
@[simp] theorem surfSet_clipH (x y : Nat) (v : Byte) (n' : Nat) (s : State) : (s.surfSet x y v).clipH n' = s.clipH n' := by
  obtain ⟨_, _, _, h⟩ := surfSet_shape x y v s; rw [h]; rfl

/-! `nearestFlags` -/

theorem nearestFlags_shape (c : Lab) (s : State) :
    ∃ nf st, s.nearestFlags c =
      { s with notfound := nf, sat := st } := by
  unfold State.nearestFlags
  split <;> exact ⟨_, _, rfl⟩

@[simp] theorem nearestFlags_r0 (c : Lab) (s : State) : (s.nearestFlags c).r0 = s.r0 := by
  obtain ⟨_, _, h⟩ := nearestFlags_shape c s; rw [h]
@[simp] theorem nearestFlags_r1 (c : Lab) (s : State) : (s.nearestFlags c).r1 = s.r1 := by
  obtain ⟨_, _, h⟩ := nearestFlags_shape c s; rw [h]
@[simp] theorem nearestFlags_r2 (c : Lab) (s : State) : (s.nearestFlags c).r2 = s.r2 := by
  obtain ⟨_, _, h⟩ := nearestFlags_shape c s; rw [h]
@[simp] theorem nearestFlags_r3 (c : Lab) (s : State) : (s.nearestFlags c).r3 = s.r3 := by
  obtain ⟨_, _, h⟩ := nearestFlags_shape c s; rw [h]
@[simp] theorem nearestFlags_err (c : Lab) (s : State) : (s.nearestFlags c).err = s.err := by
  obtain ⟨_, _, h⟩ := nearestFlags_shape c s; rw [h]
@[simp] theorem nearestFlags_bderr (c : Lab) (s : State) : (s.nearestFlags c).bderr = s.bderr := by
  obtain ⟨_, _, h⟩ := nearestFlags_shape c s; rw [h]
@[simp] theorem nearestFlags_fails (c : Lab) (s : State) : (s.nearestFlags c).fails = s.fails := by
  obtain ⟨_, _, h⟩ := nearestFlags_shape c s; rw [h]
@[simp] theorem nearestFlags_cmdcnt (c : Lab) (s : State) : (s.nearestFlags c).cmdcnt = s.cmdcnt := by
  obtain ⟨_, _, h⟩ := nearestFlags_shape c s; rw [h]
@[simp] theorem nearestFlags_ctrl (c : Lab) (s : State) : (s.nearestFlags c).ctrl = s.ctrl := by
  obtain ⟨_, _, h⟩ := nearestFlags_shape c s; rw [h]
@[simp] theorem nearestFlags_acc (c : Lab) (s : State) : (s.nearestFlags c).acc = s.acc := by
  obtain ⟨_, _, h⟩ := nearestFlags_shape c s; rw [h]
@[simp] theorem nearestFlags_fmt (c : Lab) (s : State) : (s.nearestFlags c).fmt = s.fmt := by
  obtain ⟨_, _, h⟩ := nearestFlags_shape c s; rw [h]
@[simp] theorem nearestFlags_surfW (c : Lab) (s : State) : (s.nearestFlags c).surfW = s.surfW := by
  obtain ⟨_, _, h⟩ := nearestFlags_shape c s; rw [h]
@[simp] theorem nearestFlags_surfH (c : Lab) (s : State) : (s.nearestFlags c).surfH = s.surfH := by
  obtain ⟨_, _, h⟩ := nearestFlags_shape c s; rw [h]
@[simp] theorem nearestFlags_plut (c : Lab) (s : State) : (s.nearestFlags c).plut = s.plut := by
  obtain ⟨_, _, h⟩ := nearestFlags_shape c s; rw [h]
@[simp] theorem nearestFlags_pal (c : Lab) (s : State) : (s.nearestFlags c).pal = s.pal := by
  obtain ⟨_, _, h⟩ := nearestFlags_shape c s; rw [h]
@[simp] theorem nearestFlags_mono (c : Lab) (s : State) : (s.nearestFlags c).mono = s.mono := by
  obtain ⟨_, _, h⟩ := nearestFlags_shape c s; rw [h]
@[simp] theorem nearestFlags_curValid (c : Lab) (s : State) : (s.nearestFlags c).curValid = s.curValid := by
  obtain ⟨_, _, h⟩ := nearestFlags_shape c s; rw [h]
@[simp] theorem nearestFlags_curRow (c : Lab) (s : State) : (s.nearestFlags c).curRow = s.curRow := by
  obtain ⟨_, _, h⟩ := nearestFlags_shape c s; rw [h]
@[simp] theorem nearestFlags_thisRow (c : Lab) (s : State) : (s.nearestFlags c).thisRow = s.thisRow := by
  obtain ⟨_, _, h⟩ := nearestFlags_shape c s; rw [h]
@[simp] theorem nearestFlags_nextRow (c : Lab) (s : State) : (s.nearestFlags c).nextRow = s.nextRow := by
  obtain ⟨_, _, h⟩ := nearestFlags_shape c s; rw [h]
@[simp] theorem nearestFlags_fb (c : Lab) (s : State) : (s.nearestFlags c).fb = s.fb := by
  obtain ⟨_, _, h⟩ := nearestFlags_shape c s; rw [h]
@[simp] theorem nearestFlags_fbc (c : Lab) (s : State) : (s.nearestFlags c).fbc = s.fbc := by
  obtain ⟨_, _, h⟩ := nearestFlags_shape c s; rw [h]
@[simp] theorem nearestFlags_cmdq (c : Lab) (s : State) : (s.nearestFlags c).cmdq = s.cmdq := by
  obtain ⟨_, _, h⟩ := nearestFlags_shape c s; rw [h]
@[simp] theorem nearestFlags_rspq (c : Lab) (s : State) : (s.nearestFlags c).rspq = s.rspq := by
  obtain ⟨_, _, h⟩ := nearestFlags_shape c s; rw [h]
@[simp] theorem nearestFlags_progq (c : Lab) (s : State) : (s.nearestFlags c).progq = s.progq := by
  obtain ⟨_, _, h⟩ := nearestFlags_shape c s; rw [h]
@[simp] theorem nearestFlags_halted (c : Lab) (s : State) : (s.nearestFlags c).halted = s.halted := by
  obtain ⟨_, _, h⟩ := nearestFlags_shape c s; rw [h]
@[simp] theorem nearestFlags_seq (c : Lab) (s : State) : (s.nearestFlags c).seq = s.seq := by
  obtain ⟨_, _, h⟩ := nearestFlags_shape c s; rw [h]
@[simp] theorem nearestFlags_params (c : Lab) (s : State) : (s.nearestFlags c).params = s.params := by
  obtain ⟨_, _, h⟩ := nearestFlags_shape c s; rw [h]
@[simp] theorem nearestFlags_bsTotals (c : Lab) (s : State) : (s.nearestFlags c).bsTotals = s.bsTotals := by
  obtain ⟨_, _, h⟩ := nearestFlags_shape c s; rw [h]
@[simp] theorem nearestFlags_bsReads (c : Lab) (s : State) : (s.nearestFlags c).bsReads = s.bsReads := by
  obtain ⟨_, _, h⟩ := nearestFlags_shape c s; rw [h]
@[simp] theorem nearestFlags_bdInits (c : Lab) (s : State) : (s.nearestFlags c).bdInits = s.bdInits := by
  obtain ⟨_, _, h⟩ := nearestFlags_shape c s; rw [h]
@[simp] theorem nearestFlags_dropped (c : Lab) (s : State) : (s.nearestFlags c).dropped = s.dropped := by
  obtain ⟨_, _, h⟩ := nearestFlags_shape c s; rw [h]
@[simp] theorem nearestFlags_rowsOfDecode (c : Lab) (s : State) : (s.nearestFlags c).rowsOfDecode = s.rowsOfDecode := by
  obtain ⟨_, _, h⟩ := nearestFlags_shape c s; rw [h]
@[simp] theorem nearestFlags_bdMcus (c : Lab) (s : State) : (s.nearestFlags c).bdMcus = s.bdMcus := by
  obtain ⟨_, _, h⟩ := nearestFlags_shape c s; rw [h]
@[simp] theorem nearestFlags_reqs (c : Lab) (s : State) : (s.nearestFlags c).reqs = s.reqs := by
  obtain ⟨_, _, h⟩ := nearestFlags_shape c s; rw [h]
@[simp] theorem nearestFlags_choices (c : Lab) (s : State) : (s.nearestFlags c).choices = s.choices := by
  obtain ⟨_, _, h⟩ := nearestFlags_shape c s; rw [h]
@[simp] theorem nearestFlags_qmode (c : Lab) (s : State) : (s.nearestFlags c).qmode = s.qmode := by
  obtain ⟨_, _, h⟩ := nearestFlags_shape c s; rw [h]; rfl
@[simp] theorem nearestFlags_progen (c : Lab) (s : State) : (s.nearestFlags c).progen = s.progen := by
  obtain ⟨_, _, h⟩ := nearestFlags_shape c s; rw [h]; rfl
@[simp] theorem nearestFlags_swap565 (c : Lab) (s : State) : (s.nearestFlags c).swap565 = s.swap565 := by
  obtain ⟨_, _, h⟩ := nearestFlags_shape c s; rw [h]; rfl
@[simp] theorem nearestFlags_vfirst (c : Lab) (s : State) : (s.nearestFlags c).vfirst = s.vfirst := by
  obtain ⟨_, _, h⟩ := nearestFlags_shape c s; rw [h]; rfl
@[simp] theorem nearestFlags_stride (c : Lab) (s : State) : (s.nearestFlags c).stride = s.stride := by
  obtain ⟨_, _, h⟩ := nearestFlags_shape c s; rw [h]; rfl
@[simp] theorem nearestFlags_planeBytes (c : Lab) (s : State) : (s.nearestFlags c).planeBytes = s.planeBytes := by
  obtain ⟨_, _, h⟩ := nearestFlags_shape c s; rw [h]; rfl
@[simp] theorem nearestFlags_surfBytes (c : Lab) (s : State) : (s.nearestFlags c).surfBytes = s.surfBytes := by
  obtain ⟨_, _, h⟩ := nearestFlags_shape c s; rw [h]; rfl
@[simp] theorem nearestFlags_inside (c : Lab) (x' y' : Nat) (s : State) : (s.nearestFlags c).inside x' y' = s.inside x' y' := by
  obtain ⟨_, _, h⟩ := nearestFlags_shape c s; rw [h]; rfl
@[simp] theorem nearestFlags_pixelAddr (c : Lab) (x' y' : Nat) (s : State) : (s.nearestFlags c).pixelAddr x' y' = s.pixelAddr x' y' := by
  obtain ⟨_, _, h⟩ := nearestFlags_shape c s; rw [h]; rfl
@[simp] theorem nearestFlags_memRead (c : Lab) (a' : Nat) (s : State) : (s.nearestFlags c).memRead a' = s.memRead a' := by
  obtain ⟨_, _, h⟩ := nearestFlags_shape c s; rw [h]; rfl
@[simp] theorem nearestFlags_sinkByte (c : Lab) (a' : Nat) (s : State) : (s.nearestFlags c).sinkByte a' = s.sinkByte a' := by
  obtain ⟨_, _, h⟩ := nearestFlags_shape c s; rw [h]; rfl
@[simp] theorem nearestFlags_nearest (c : Lab) (c' : Lab) (s : State) : (s.nearestFlags c).nearest c' = s.nearest c' := by
  obtain ⟨_, _, h⟩ := nearestFlags_shape c s; rw [h]; rfl
@[simp] theorem nearestFlags_nearestEntry (c : Lab) (c' : Lab) (s : State) : (s.nearestFlags c).nearestEntry c' = s.nearestEntry c' := by
  obtain ⟨_, _, h⟩ := nearestFlags_shape c s; rw [h]; rfl
@[simp] theorem nearestFlags_clipW (c : Lab) (n' : Nat) (s : State) : (s.nearestFlags c).clipW n' = s.clipW n' := by
  obtain ⟨_, _, h⟩ := nearestFlags_shape c s; rw [h]; rfl
@[simp] theorem nearestFlags_clipH (c : Lab) (n' : Nat) (s : State) : (s.nearestFlags c).clipH n' = s.clipH n' := by
  obtain ⟨_, _, h⟩ := nearestFlags_shape c s; rw [h]; rfl
@[simp] theorem nearestFlags_surfGet (c : Lab) (x' y' : Nat) (s : State) : (s.nearestFlags c).surfGet x' y' = s.surfGet x' y' := by
  obtain ⟨_, _, h⟩ := nearestFlags_shape c s; rw [h]; rfl

/-! `openRows` -/

/-- `SETPIX` looks at, and settles, the validity of the rows alone (R246; log entry 25). -/
theorem openRows_shape (x y : Nat) (s : State) :
    ∃ cv mark, s.openRows x y = { s with curValid := cv, rowsOfDecode := mark } := by
  unfold State.openRows
  split <;> exact ⟨_, _, rfl⟩

@[simp] theorem openRows_r0 (x y : Nat) (s : State) : (s.openRows x y).r0 = s.r0 := by
  obtain ⟨_, _, h⟩ := openRows_shape x y s; rw [h]
@[simp] theorem openRows_r1 (x y : Nat) (s : State) : (s.openRows x y).r1 = s.r1 := by
  obtain ⟨_, _, h⟩ := openRows_shape x y s; rw [h]
@[simp] theorem openRows_r2 (x y : Nat) (s : State) : (s.openRows x y).r2 = s.r2 := by
  obtain ⟨_, _, h⟩ := openRows_shape x y s; rw [h]
@[simp] theorem openRows_r3 (x y : Nat) (s : State) : (s.openRows x y).r3 = s.r3 := by
  obtain ⟨_, _, h⟩ := openRows_shape x y s; rw [h]
@[simp] theorem openRows_err (x y : Nat) (s : State) : (s.openRows x y).err = s.err := by
  obtain ⟨_, _, h⟩ := openRows_shape x y s; rw [h]
@[simp] theorem openRows_bderr (x y : Nat) (s : State) : (s.openRows x y).bderr = s.bderr := by
  obtain ⟨_, _, h⟩ := openRows_shape x y s; rw [h]
@[simp] theorem openRows_fails (x y : Nat) (s : State) : (s.openRows x y).fails = s.fails := by
  obtain ⟨_, _, h⟩ := openRows_shape x y s; rw [h]
@[simp] theorem openRows_notfound (x y : Nat) (s : State) : (s.openRows x y).notfound = s.notfound := by
  obtain ⟨_, _, h⟩ := openRows_shape x y s; rw [h]
@[simp] theorem openRows_sat (x y : Nat) (s : State) : (s.openRows x y).sat = s.sat := by
  obtain ⟨_, _, h⟩ := openRows_shape x y s; rw [h]
@[simp] theorem openRows_cmdcnt (x y : Nat) (s : State) : (s.openRows x y).cmdcnt = s.cmdcnt := by
  obtain ⟨_, _, h⟩ := openRows_shape x y s; rw [h]
@[simp] theorem openRows_ctrl (x y : Nat) (s : State) : (s.openRows x y).ctrl = s.ctrl := by
  obtain ⟨_, _, h⟩ := openRows_shape x y s; rw [h]
@[simp] theorem openRows_acc (x y : Nat) (s : State) : (s.openRows x y).acc = s.acc := by
  obtain ⟨_, _, h⟩ := openRows_shape x y s; rw [h]
@[simp] theorem openRows_fmt (x y : Nat) (s : State) : (s.openRows x y).fmt = s.fmt := by
  obtain ⟨_, _, h⟩ := openRows_shape x y s; rw [h]
@[simp] theorem openRows_surfW (x y : Nat) (s : State) : (s.openRows x y).surfW = s.surfW := by
  obtain ⟨_, _, h⟩ := openRows_shape x y s; rw [h]
@[simp] theorem openRows_surfH (x y : Nat) (s : State) : (s.openRows x y).surfH = s.surfH := by
  obtain ⟨_, _, h⟩ := openRows_shape x y s; rw [h]
@[simp] theorem openRows_plut (x y : Nat) (s : State) : (s.openRows x y).plut = s.plut := by
  obtain ⟨_, _, h⟩ := openRows_shape x y s; rw [h]
@[simp] theorem openRows_pal (x y : Nat) (s : State) : (s.openRows x y).pal = s.pal := by
  obtain ⟨_, _, h⟩ := openRows_shape x y s; rw [h]
@[simp] theorem openRows_mono (x y : Nat) (s : State) : (s.openRows x y).mono = s.mono := by
  obtain ⟨_, _, h⟩ := openRows_shape x y s; rw [h]
@[simp] theorem openRows_fb (x y : Nat) (s : State) : (s.openRows x y).fb = s.fb := by
  obtain ⟨_, _, h⟩ := openRows_shape x y s; rw [h]
@[simp] theorem openRows_fbc (x y : Nat) (s : State) : (s.openRows x y).fbc = s.fbc := by
  obtain ⟨_, _, h⟩ := openRows_shape x y s; rw [h]
@[simp] theorem openRows_cmdq (x y : Nat) (s : State) : (s.openRows x y).cmdq = s.cmdq := by
  obtain ⟨_, _, h⟩ := openRows_shape x y s; rw [h]
@[simp] theorem openRows_rspq (x y : Nat) (s : State) : (s.openRows x y).rspq = s.rspq := by
  obtain ⟨_, _, h⟩ := openRows_shape x y s; rw [h]
@[simp] theorem openRows_progq (x y : Nat) (s : State) : (s.openRows x y).progq = s.progq := by
  obtain ⟨_, _, h⟩ := openRows_shape x y s; rw [h]
@[simp] theorem openRows_halted (x y : Nat) (s : State) : (s.openRows x y).halted = s.halted := by
  obtain ⟨_, _, h⟩ := openRows_shape x y s; rw [h]
@[simp] theorem openRows_seq (x y : Nat) (s : State) : (s.openRows x y).seq = s.seq := by
  obtain ⟨_, _, h⟩ := openRows_shape x y s; rw [h]
@[simp] theorem openRows_params (x y : Nat) (s : State) : (s.openRows x y).params = s.params := by
  obtain ⟨_, _, h⟩ := openRows_shape x y s; rw [h]
@[simp] theorem openRows_bsTotals (x y : Nat) (s : State) : (s.openRows x y).bsTotals = s.bsTotals := by
  obtain ⟨_, _, h⟩ := openRows_shape x y s; rw [h]
@[simp] theorem openRows_bsReads (x y : Nat) (s : State) : (s.openRows x y).bsReads = s.bsReads := by
  obtain ⟨_, _, h⟩ := openRows_shape x y s; rw [h]
@[simp] theorem openRows_bdInits (x y : Nat) (s : State) : (s.openRows x y).bdInits = s.bdInits := by
  obtain ⟨_, _, h⟩ := openRows_shape x y s; rw [h]
@[simp] theorem openRows_dropped (x y : Nat) (s : State) : (s.openRows x y).dropped = s.dropped := by
  obtain ⟨_, _, h⟩ := openRows_shape x y s; rw [h]
@[simp] theorem openRows_bdMcus (x y : Nat) (s : State) : (s.openRows x y).bdMcus = s.bdMcus := by
  obtain ⟨_, _, h⟩ := openRows_shape x y s; rw [h]
@[simp] theorem openRows_reqs (x y : Nat) (s : State) : (s.openRows x y).reqs = s.reqs := by
  obtain ⟨_, _, h⟩ := openRows_shape x y s; rw [h]
@[simp] theorem openRows_choices (x y : Nat) (s : State) : (s.openRows x y).choices = s.choices := by
  obtain ⟨_, _, h⟩ := openRows_shape x y s; rw [h]
@[simp] theorem openRows_qmode (x y : Nat) (s : State) : (s.openRows x y).qmode = s.qmode := by
  obtain ⟨_, _, h⟩ := openRows_shape x y s; rw [h]; rfl
@[simp] theorem openRows_progen (x y : Nat) (s : State) : (s.openRows x y).progen = s.progen := by
  obtain ⟨_, _, h⟩ := openRows_shape x y s; rw [h]; rfl
@[simp] theorem openRows_swap565 (x y : Nat) (s : State) : (s.openRows x y).swap565 = s.swap565 := by
  obtain ⟨_, _, h⟩ := openRows_shape x y s; rw [h]; rfl
@[simp] theorem openRows_vfirst (x y : Nat) (s : State) : (s.openRows x y).vfirst = s.vfirst := by
  obtain ⟨_, _, h⟩ := openRows_shape x y s; rw [h]; rfl
@[simp] theorem openRows_stride (x y : Nat) (s : State) : (s.openRows x y).stride = s.stride := by
  obtain ⟨_, _, h⟩ := openRows_shape x y s; rw [h]; rfl
@[simp] theorem openRows_planeBytes (x y : Nat) (s : State) : (s.openRows x y).planeBytes = s.planeBytes := by
  obtain ⟨_, _, h⟩ := openRows_shape x y s; rw [h]; rfl
@[simp] theorem openRows_surfBytes (x y : Nat) (s : State) : (s.openRows x y).surfBytes = s.surfBytes := by
  obtain ⟨_, _, h⟩ := openRows_shape x y s; rw [h]; rfl
@[simp] theorem openRows_inside (x y : Nat) (x' y' : Nat) (s : State) : (s.openRows x y).inside x' y' = s.inside x' y' := by
  obtain ⟨_, _, h⟩ := openRows_shape x y s; rw [h]; rfl
@[simp] theorem openRows_pixelAddr (x y : Nat) (x' y' : Nat) (s : State) : (s.openRows x y).pixelAddr x' y' = s.pixelAddr x' y' := by
  obtain ⟨_, _, h⟩ := openRows_shape x y s; rw [h]; rfl
@[simp] theorem openRows_memRead (x y : Nat) (a' : Nat) (s : State) : (s.openRows x y).memRead a' = s.memRead a' := by
  obtain ⟨_, _, h⟩ := openRows_shape x y s; rw [h]; rfl
@[simp] theorem openRows_sinkByte (x y : Nat) (a' : Nat) (s : State) : (s.openRows x y).sinkByte a' = s.sinkByte a' := by
  obtain ⟨_, _, h⟩ := openRows_shape x y s; rw [h]; rfl
@[simp] theorem openRows_nearest (x y : Nat) (c' : Lab) (s : State) : (s.openRows x y).nearest c' = s.nearest c' := by
  obtain ⟨_, _, h⟩ := openRows_shape x y s; rw [h]; rfl
@[simp] theorem openRows_nearestEntry (x y : Nat) (c' : Lab) (s : State) : (s.openRows x y).nearestEntry c' = s.nearestEntry c' := by
  obtain ⟨_, _, h⟩ := openRows_shape x y s; rw [h]; rfl
@[simp] theorem openRows_clipW (x y : Nat) (n' : Nat) (s : State) : (s.openRows x y).clipW n' = s.clipW n' := by
  obtain ⟨_, _, h⟩ := openRows_shape x y s; rw [h]; rfl
@[simp] theorem openRows_clipH (x y : Nat) (n' : Nat) (s : State) : (s.openRows x y).clipH n' = s.clipH n' := by
  obtain ⟨_, _, h⟩ := openRows_shape x y s; rw [h]; rfl
@[simp] theorem openRows_surfGet (x y : Nat) (x' y' : Nat) (s : State) : (s.openRows x y).surfGet x' y' = s.surfGet x' y' := by
  obtain ⟨_, _, h⟩ := openRows_shape x y s; rw [h]; rfl
@[simp] theorem openRows_thisRow (x y : Nat) (s : State) : (s.openRows x y).thisRow = s.thisRow := by
  obtain ⟨_, _, h⟩ := openRows_shape x y s; rw [h]
@[simp] theorem openRows_nextRow (x y : Nat) (s : State) : (s.openRows x y).nextRow = s.nextRow := by
  obtain ⟨_, _, h⟩ := openRows_shape x y s; rw [h]
@[simp] theorem openRows_curRow (x y : Nat) (s : State) : (s.openRows x y).curRow = s.curRow := by
  obtain ⟨_, _, h⟩ := openRows_shape x y s; rw [h]

/-! `rowMgmt` -/

theorem rowMgmt_shape (y : Nat) (s : State) :
    ∃ tr nr cr cv, s.rowMgmt y =
      { s with thisRow := tr, nextRow := nr, curRow := cr, curValid := cv } := by
  unfold State.rowMgmt
  dsimp only
  split
  · exact ⟨_, _, _, _, rfl⟩
  · split <;> exact ⟨_, _, _, _, rfl⟩

@[simp] theorem rowMgmt_r0 (y : Nat) (s : State) : (s.rowMgmt y).r0 = s.r0 := by
  obtain ⟨_, _, _, _, h⟩ := rowMgmt_shape y s; rw [h]
@[simp] theorem rowMgmt_r1 (y : Nat) (s : State) : (s.rowMgmt y).r1 = s.r1 := by
  obtain ⟨_, _, _, _, h⟩ := rowMgmt_shape y s; rw [h]
@[simp] theorem rowMgmt_r2 (y : Nat) (s : State) : (s.rowMgmt y).r2 = s.r2 := by
  obtain ⟨_, _, _, _, h⟩ := rowMgmt_shape y s; rw [h]
@[simp] theorem rowMgmt_r3 (y : Nat) (s : State) : (s.rowMgmt y).r3 = s.r3 := by
  obtain ⟨_, _, _, _, h⟩ := rowMgmt_shape y s; rw [h]
@[simp] theorem rowMgmt_err (y : Nat) (s : State) : (s.rowMgmt y).err = s.err := by
  obtain ⟨_, _, _, _, h⟩ := rowMgmt_shape y s; rw [h]
@[simp] theorem rowMgmt_bderr (y : Nat) (s : State) : (s.rowMgmt y).bderr = s.bderr := by
  obtain ⟨_, _, _, _, h⟩ := rowMgmt_shape y s; rw [h]
@[simp] theorem rowMgmt_fails (y : Nat) (s : State) : (s.rowMgmt y).fails = s.fails := by
  obtain ⟨_, _, _, _, h⟩ := rowMgmt_shape y s; rw [h]
@[simp] theorem rowMgmt_notfound (y : Nat) (s : State) : (s.rowMgmt y).notfound = s.notfound := by
  obtain ⟨_, _, _, _, h⟩ := rowMgmt_shape y s; rw [h]
@[simp] theorem rowMgmt_sat (y : Nat) (s : State) : (s.rowMgmt y).sat = s.sat := by
  obtain ⟨_, _, _, _, h⟩ := rowMgmt_shape y s; rw [h]
@[simp] theorem rowMgmt_cmdcnt (y : Nat) (s : State) : (s.rowMgmt y).cmdcnt = s.cmdcnt := by
  obtain ⟨_, _, _, _, h⟩ := rowMgmt_shape y s; rw [h]
@[simp] theorem rowMgmt_ctrl (y : Nat) (s : State) : (s.rowMgmt y).ctrl = s.ctrl := by
  obtain ⟨_, _, _, _, h⟩ := rowMgmt_shape y s; rw [h]
@[simp] theorem rowMgmt_acc (y : Nat) (s : State) : (s.rowMgmt y).acc = s.acc := by
  obtain ⟨_, _, _, _, h⟩ := rowMgmt_shape y s; rw [h]
@[simp] theorem rowMgmt_fmt (y : Nat) (s : State) : (s.rowMgmt y).fmt = s.fmt := by
  obtain ⟨_, _, _, _, h⟩ := rowMgmt_shape y s; rw [h]
@[simp] theorem rowMgmt_surfW (y : Nat) (s : State) : (s.rowMgmt y).surfW = s.surfW := by
  obtain ⟨_, _, _, _, h⟩ := rowMgmt_shape y s; rw [h]
@[simp] theorem rowMgmt_surfH (y : Nat) (s : State) : (s.rowMgmt y).surfH = s.surfH := by
  obtain ⟨_, _, _, _, h⟩ := rowMgmt_shape y s; rw [h]
@[simp] theorem rowMgmt_plut (y : Nat) (s : State) : (s.rowMgmt y).plut = s.plut := by
  obtain ⟨_, _, _, _, h⟩ := rowMgmt_shape y s; rw [h]
@[simp] theorem rowMgmt_pal (y : Nat) (s : State) : (s.rowMgmt y).pal = s.pal := by
  obtain ⟨_, _, _, _, h⟩ := rowMgmt_shape y s; rw [h]
@[simp] theorem rowMgmt_mono (y : Nat) (s : State) : (s.rowMgmt y).mono = s.mono := by
  obtain ⟨_, _, _, _, h⟩ := rowMgmt_shape y s; rw [h]
@[simp] theorem rowMgmt_fb (y : Nat) (s : State) : (s.rowMgmt y).fb = s.fb := by
  obtain ⟨_, _, _, _, h⟩ := rowMgmt_shape y s; rw [h]
@[simp] theorem rowMgmt_fbc (y : Nat) (s : State) : (s.rowMgmt y).fbc = s.fbc := by
  obtain ⟨_, _, _, _, h⟩ := rowMgmt_shape y s; rw [h]
@[simp] theorem rowMgmt_cmdq (y : Nat) (s : State) : (s.rowMgmt y).cmdq = s.cmdq := by
  obtain ⟨_, _, _, _, h⟩ := rowMgmt_shape y s; rw [h]
@[simp] theorem rowMgmt_rspq (y : Nat) (s : State) : (s.rowMgmt y).rspq = s.rspq := by
  obtain ⟨_, _, _, _, h⟩ := rowMgmt_shape y s; rw [h]
@[simp] theorem rowMgmt_progq (y : Nat) (s : State) : (s.rowMgmt y).progq = s.progq := by
  obtain ⟨_, _, _, _, h⟩ := rowMgmt_shape y s; rw [h]
@[simp] theorem rowMgmt_halted (y : Nat) (s : State) : (s.rowMgmt y).halted = s.halted := by
  obtain ⟨_, _, _, _, h⟩ := rowMgmt_shape y s; rw [h]
@[simp] theorem rowMgmt_seq (y : Nat) (s : State) : (s.rowMgmt y).seq = s.seq := by
  obtain ⟨_, _, _, _, h⟩ := rowMgmt_shape y s; rw [h]
@[simp] theorem rowMgmt_params (y : Nat) (s : State) : (s.rowMgmt y).params = s.params := by
  obtain ⟨_, _, _, _, h⟩ := rowMgmt_shape y s; rw [h]
@[simp] theorem rowMgmt_bsTotals (y : Nat) (s : State) : (s.rowMgmt y).bsTotals = s.bsTotals := by
  obtain ⟨_, _, _, _, h⟩ := rowMgmt_shape y s; rw [h]
@[simp] theorem rowMgmt_bsReads (y : Nat) (s : State) : (s.rowMgmt y).bsReads = s.bsReads := by
  obtain ⟨_, _, _, _, h⟩ := rowMgmt_shape y s; rw [h]
@[simp] theorem rowMgmt_bdInits (y : Nat) (s : State) : (s.rowMgmt y).bdInits = s.bdInits := by
  obtain ⟨_, _, _, _, h⟩ := rowMgmt_shape y s; rw [h]
@[simp] theorem rowMgmt_dropped (y : Nat) (s : State) : (s.rowMgmt y).dropped = s.dropped := by
  obtain ⟨_, _, _, _, h⟩ := rowMgmt_shape y s; rw [h]
@[simp] theorem rowMgmt_rowsOfDecode (y : Nat) (s : State) : (s.rowMgmt y).rowsOfDecode = s.rowsOfDecode := by
  obtain ⟨_, _, _, _, h⟩ := rowMgmt_shape y s; rw [h]
@[simp] theorem rowMgmt_bdMcus (y : Nat) (s : State) : (s.rowMgmt y).bdMcus = s.bdMcus := by
  obtain ⟨_, _, _, _, h⟩ := rowMgmt_shape y s; rw [h]
@[simp] theorem rowMgmt_reqs (y : Nat) (s : State) : (s.rowMgmt y).reqs = s.reqs := by
  obtain ⟨_, _, _, _, h⟩ := rowMgmt_shape y s; rw [h]
@[simp] theorem rowMgmt_choices (y : Nat) (s : State) : (s.rowMgmt y).choices = s.choices := by
  obtain ⟨_, _, _, _, h⟩ := rowMgmt_shape y s; rw [h]
@[simp] theorem rowMgmt_qmode (y : Nat) (s : State) : (s.rowMgmt y).qmode = s.qmode := by
  obtain ⟨_, _, _, _, h⟩ := rowMgmt_shape y s; rw [h]; rfl
@[simp] theorem rowMgmt_progen (y : Nat) (s : State) : (s.rowMgmt y).progen = s.progen := by
  obtain ⟨_, _, _, _, h⟩ := rowMgmt_shape y s; rw [h]; rfl
@[simp] theorem rowMgmt_swap565 (y : Nat) (s : State) : (s.rowMgmt y).swap565 = s.swap565 := by
  obtain ⟨_, _, _, _, h⟩ := rowMgmt_shape y s; rw [h]; rfl
@[simp] theorem rowMgmt_vfirst (y : Nat) (s : State) : (s.rowMgmt y).vfirst = s.vfirst := by
  obtain ⟨_, _, _, _, h⟩ := rowMgmt_shape y s; rw [h]; rfl
@[simp] theorem rowMgmt_stride (y : Nat) (s : State) : (s.rowMgmt y).stride = s.stride := by
  obtain ⟨_, _, _, _, h⟩ := rowMgmt_shape y s; rw [h]; rfl
@[simp] theorem rowMgmt_planeBytes (y : Nat) (s : State) : (s.rowMgmt y).planeBytes = s.planeBytes := by
  obtain ⟨_, _, _, _, h⟩ := rowMgmt_shape y s; rw [h]; rfl
@[simp] theorem rowMgmt_surfBytes (y : Nat) (s : State) : (s.rowMgmt y).surfBytes = s.surfBytes := by
  obtain ⟨_, _, _, _, h⟩ := rowMgmt_shape y s; rw [h]; rfl
@[simp] theorem rowMgmt_inside (y : Nat) (x' y' : Nat) (s : State) : (s.rowMgmt y).inside x' y' = s.inside x' y' := by
  obtain ⟨_, _, _, _, h⟩ := rowMgmt_shape y s; rw [h]; rfl
@[simp] theorem rowMgmt_pixelAddr (y : Nat) (x' y' : Nat) (s : State) : (s.rowMgmt y).pixelAddr x' y' = s.pixelAddr x' y' := by
  obtain ⟨_, _, _, _, h⟩ := rowMgmt_shape y s; rw [h]; rfl
@[simp] theorem rowMgmt_memRead (y : Nat) (a' : Nat) (s : State) : (s.rowMgmt y).memRead a' = s.memRead a' := by
  obtain ⟨_, _, _, _, h⟩ := rowMgmt_shape y s; rw [h]; rfl
@[simp] theorem rowMgmt_sinkByte (y : Nat) (a' : Nat) (s : State) : (s.rowMgmt y).sinkByte a' = s.sinkByte a' := by
  obtain ⟨_, _, _, _, h⟩ := rowMgmt_shape y s; rw [h]; rfl
@[simp] theorem rowMgmt_nearest (y : Nat) (c' : Lab) (s : State) : (s.rowMgmt y).nearest c' = s.nearest c' := by
  obtain ⟨_, _, _, _, h⟩ := rowMgmt_shape y s; rw [h]; rfl
@[simp] theorem rowMgmt_nearestEntry (y : Nat) (c' : Lab) (s : State) : (s.rowMgmt y).nearestEntry c' = s.nearestEntry c' := by
  obtain ⟨_, _, _, _, h⟩ := rowMgmt_shape y s; rw [h]; rfl
@[simp] theorem rowMgmt_clipW (y : Nat) (n' : Nat) (s : State) : (s.rowMgmt y).clipW n' = s.clipW n' := by
  obtain ⟨_, _, _, _, h⟩ := rowMgmt_shape y s; rw [h]; rfl
@[simp] theorem rowMgmt_clipH (y : Nat) (n' : Nat) (s : State) : (s.rowMgmt y).clipH n' = s.clipH n' := by
  obtain ⟨_, _, _, _, h⟩ := rowMgmt_shape y s; rw [h]; rfl
@[simp] theorem rowMgmt_surfGet (y : Nat) (x' y' : Nat) (s : State) : (s.rowMgmt y).surfGet x' y' = s.surfGet x' y' := by
  obtain ⟨_, _, _, _, h⟩ := rowMgmt_shape y s; rw [h]; rfl

/-! `diffuse` -/

theorem diffuse_shape (x y : Nat) (e : Err3) (s : State) :
    ∃ tr nr st, s.diffuse x y e =
      { s with thisRow := tr, nextRow := nr, sat := st } := by
  unfold State.diffuse State.onlyIf
  dsimp only
  split <;> split <;> split <;> split <;> exact ⟨_, _, _, rfl⟩

@[simp] theorem diffuse_r0 (x y : Nat) (e : Err3) (s : State) : (s.diffuse x y e).r0 = s.r0 := by
  obtain ⟨_, _, _, h⟩ := diffuse_shape x y e s; rw [h]
@[simp] theorem diffuse_r1 (x y : Nat) (e : Err3) (s : State) : (s.diffuse x y e).r1 = s.r1 := by
  obtain ⟨_, _, _, h⟩ := diffuse_shape x y e s; rw [h]
@[simp] theorem diffuse_r2 (x y : Nat) (e : Err3) (s : State) : (s.diffuse x y e).r2 = s.r2 := by
  obtain ⟨_, _, _, h⟩ := diffuse_shape x y e s; rw [h]
@[simp] theorem diffuse_r3 (x y : Nat) (e : Err3) (s : State) : (s.diffuse x y e).r3 = s.r3 := by
  obtain ⟨_, _, _, h⟩ := diffuse_shape x y e s; rw [h]
@[simp] theorem diffuse_err (x y : Nat) (e : Err3) (s : State) : (s.diffuse x y e).err = s.err := by
  obtain ⟨_, _, _, h⟩ := diffuse_shape x y e s; rw [h]
@[simp] theorem diffuse_bderr (x y : Nat) (e : Err3) (s : State) : (s.diffuse x y e).bderr = s.bderr := by
  obtain ⟨_, _, _, h⟩ := diffuse_shape x y e s; rw [h]
@[simp] theorem diffuse_fails (x y : Nat) (e : Err3) (s : State) : (s.diffuse x y e).fails = s.fails := by
  obtain ⟨_, _, _, h⟩ := diffuse_shape x y e s; rw [h]
@[simp] theorem diffuse_notfound (x y : Nat) (e : Err3) (s : State) : (s.diffuse x y e).notfound = s.notfound := by
  obtain ⟨_, _, _, h⟩ := diffuse_shape x y e s; rw [h]
@[simp] theorem diffuse_cmdcnt (x y : Nat) (e : Err3) (s : State) : (s.diffuse x y e).cmdcnt = s.cmdcnt := by
  obtain ⟨_, _, _, h⟩ := diffuse_shape x y e s; rw [h]
@[simp] theorem diffuse_ctrl (x y : Nat) (e : Err3) (s : State) : (s.diffuse x y e).ctrl = s.ctrl := by
  obtain ⟨_, _, _, h⟩ := diffuse_shape x y e s; rw [h]
@[simp] theorem diffuse_acc (x y : Nat) (e : Err3) (s : State) : (s.diffuse x y e).acc = s.acc := by
  obtain ⟨_, _, _, h⟩ := diffuse_shape x y e s; rw [h]
@[simp] theorem diffuse_fmt (x y : Nat) (e : Err3) (s : State) : (s.diffuse x y e).fmt = s.fmt := by
  obtain ⟨_, _, _, h⟩ := diffuse_shape x y e s; rw [h]
@[simp] theorem diffuse_surfW (x y : Nat) (e : Err3) (s : State) : (s.diffuse x y e).surfW = s.surfW := by
  obtain ⟨_, _, _, h⟩ := diffuse_shape x y e s; rw [h]
@[simp] theorem diffuse_surfH (x y : Nat) (e : Err3) (s : State) : (s.diffuse x y e).surfH = s.surfH := by
  obtain ⟨_, _, _, h⟩ := diffuse_shape x y e s; rw [h]
@[simp] theorem diffuse_plut (x y : Nat) (e : Err3) (s : State) : (s.diffuse x y e).plut = s.plut := by
  obtain ⟨_, _, _, h⟩ := diffuse_shape x y e s; rw [h]
@[simp] theorem diffuse_pal (x y : Nat) (e : Err3) (s : State) : (s.diffuse x y e).pal = s.pal := by
  obtain ⟨_, _, _, h⟩ := diffuse_shape x y e s; rw [h]
@[simp] theorem diffuse_mono (x y : Nat) (e : Err3) (s : State) : (s.diffuse x y e).mono = s.mono := by
  obtain ⟨_, _, _, h⟩ := diffuse_shape x y e s; rw [h]
@[simp] theorem diffuse_curValid (x y : Nat) (e : Err3) (s : State) : (s.diffuse x y e).curValid = s.curValid := by
  obtain ⟨_, _, _, h⟩ := diffuse_shape x y e s; rw [h]
@[simp] theorem diffuse_curRow (x y : Nat) (e : Err3) (s : State) : (s.diffuse x y e).curRow = s.curRow := by
  obtain ⟨_, _, _, h⟩ := diffuse_shape x y e s; rw [h]
@[simp] theorem diffuse_fb (x y : Nat) (e : Err3) (s : State) : (s.diffuse x y e).fb = s.fb := by
  obtain ⟨_, _, _, h⟩ := diffuse_shape x y e s; rw [h]
@[simp] theorem diffuse_fbc (x y : Nat) (e : Err3) (s : State) : (s.diffuse x y e).fbc = s.fbc := by
  obtain ⟨_, _, _, h⟩ := diffuse_shape x y e s; rw [h]
@[simp] theorem diffuse_cmdq (x y : Nat) (e : Err3) (s : State) : (s.diffuse x y e).cmdq = s.cmdq := by
  obtain ⟨_, _, _, h⟩ := diffuse_shape x y e s; rw [h]
@[simp] theorem diffuse_rspq (x y : Nat) (e : Err3) (s : State) : (s.diffuse x y e).rspq = s.rspq := by
  obtain ⟨_, _, _, h⟩ := diffuse_shape x y e s; rw [h]
@[simp] theorem diffuse_progq (x y : Nat) (e : Err3) (s : State) : (s.diffuse x y e).progq = s.progq := by
  obtain ⟨_, _, _, h⟩ := diffuse_shape x y e s; rw [h]
@[simp] theorem diffuse_halted (x y : Nat) (e : Err3) (s : State) : (s.diffuse x y e).halted = s.halted := by
  obtain ⟨_, _, _, h⟩ := diffuse_shape x y e s; rw [h]
@[simp] theorem diffuse_seq (x y : Nat) (e : Err3) (s : State) : (s.diffuse x y e).seq = s.seq := by
  obtain ⟨_, _, _, h⟩ := diffuse_shape x y e s; rw [h]
@[simp] theorem diffuse_params (x y : Nat) (e : Err3) (s : State) : (s.diffuse x y e).params = s.params := by
  obtain ⟨_, _, _, h⟩ := diffuse_shape x y e s; rw [h]
@[simp] theorem diffuse_bsTotals (x y : Nat) (e : Err3) (s : State) : (s.diffuse x y e).bsTotals = s.bsTotals := by
  obtain ⟨_, _, _, h⟩ := diffuse_shape x y e s; rw [h]
@[simp] theorem diffuse_bsReads (x y : Nat) (e : Err3) (s : State) : (s.diffuse x y e).bsReads = s.bsReads := by
  obtain ⟨_, _, _, h⟩ := diffuse_shape x y e s; rw [h]
@[simp] theorem diffuse_bdInits (x y : Nat) (e : Err3) (s : State) : (s.diffuse x y e).bdInits = s.bdInits := by
  obtain ⟨_, _, _, h⟩ := diffuse_shape x y e s; rw [h]
@[simp] theorem diffuse_dropped (x y : Nat) (e : Err3) (s : State) : (s.diffuse x y e).dropped = s.dropped := by
  obtain ⟨_, _, _, h⟩ := diffuse_shape x y e s; rw [h]
@[simp] theorem diffuse_rowsOfDecode (x y : Nat) (e : Err3) (s : State) : (s.diffuse x y e).rowsOfDecode = s.rowsOfDecode := by
  obtain ⟨_, _, _, h⟩ := diffuse_shape x y e s; rw [h]
@[simp] theorem diffuse_bdMcus (x y : Nat) (e : Err3) (s : State) : (s.diffuse x y e).bdMcus = s.bdMcus := by
  obtain ⟨_, _, _, h⟩ := diffuse_shape x y e s; rw [h]
@[simp] theorem diffuse_reqs (x y : Nat) (e : Err3) (s : State) : (s.diffuse x y e).reqs = s.reqs := by
  obtain ⟨_, _, _, h⟩ := diffuse_shape x y e s; rw [h]
@[simp] theorem diffuse_choices (x y : Nat) (e : Err3) (s : State) : (s.diffuse x y e).choices = s.choices := by
  obtain ⟨_, _, _, h⟩ := diffuse_shape x y e s; rw [h]
@[simp] theorem diffuse_qmode (x y : Nat) (e : Err3) (s : State) : (s.diffuse x y e).qmode = s.qmode := by
  obtain ⟨_, _, _, h⟩ := diffuse_shape x y e s; rw [h]; rfl
@[simp] theorem diffuse_progen (x y : Nat) (e : Err3) (s : State) : (s.diffuse x y e).progen = s.progen := by
  obtain ⟨_, _, _, h⟩ := diffuse_shape x y e s; rw [h]; rfl
@[simp] theorem diffuse_swap565 (x y : Nat) (e : Err3) (s : State) : (s.diffuse x y e).swap565 = s.swap565 := by
  obtain ⟨_, _, _, h⟩ := diffuse_shape x y e s; rw [h]; rfl
@[simp] theorem diffuse_vfirst (x y : Nat) (e : Err3) (s : State) : (s.diffuse x y e).vfirst = s.vfirst := by
  obtain ⟨_, _, _, h⟩ := diffuse_shape x y e s; rw [h]; rfl
@[simp] theorem diffuse_stride (x y : Nat) (e : Err3) (s : State) : (s.diffuse x y e).stride = s.stride := by
  obtain ⟨_, _, _, h⟩ := diffuse_shape x y e s; rw [h]; rfl
@[simp] theorem diffuse_planeBytes (x y : Nat) (e : Err3) (s : State) : (s.diffuse x y e).planeBytes = s.planeBytes := by
  obtain ⟨_, _, _, h⟩ := diffuse_shape x y e s; rw [h]; rfl
@[simp] theorem diffuse_surfBytes (x y : Nat) (e : Err3) (s : State) : (s.diffuse x y e).surfBytes = s.surfBytes := by
  obtain ⟨_, _, _, h⟩ := diffuse_shape x y e s; rw [h]; rfl
@[simp] theorem diffuse_inside (x y : Nat) (e : Err3) (x' y' : Nat) (s : State) : (s.diffuse x y e).inside x' y' = s.inside x' y' := by
  obtain ⟨_, _, _, h⟩ := diffuse_shape x y e s; rw [h]; rfl
@[simp] theorem diffuse_pixelAddr (x y : Nat) (e : Err3) (x' y' : Nat) (s : State) : (s.diffuse x y e).pixelAddr x' y' = s.pixelAddr x' y' := by
  obtain ⟨_, _, _, h⟩ := diffuse_shape x y e s; rw [h]; rfl
@[simp] theorem diffuse_memRead (x y : Nat) (e : Err3) (a' : Nat) (s : State) : (s.diffuse x y e).memRead a' = s.memRead a' := by
  obtain ⟨_, _, _, h⟩ := diffuse_shape x y e s; rw [h]; rfl
@[simp] theorem diffuse_sinkByte (x y : Nat) (e : Err3) (a' : Nat) (s : State) : (s.diffuse x y e).sinkByte a' = s.sinkByte a' := by
  obtain ⟨_, _, _, h⟩ := diffuse_shape x y e s; rw [h]; rfl
@[simp] theorem diffuse_nearest (x y : Nat) (e : Err3) (c' : Lab) (s : State) : (s.diffuse x y e).nearest c' = s.nearest c' := by
  obtain ⟨_, _, _, h⟩ := diffuse_shape x y e s; rw [h]; rfl
@[simp] theorem diffuse_nearestEntry (x y : Nat) (e : Err3) (c' : Lab) (s : State) : (s.diffuse x y e).nearestEntry c' = s.nearestEntry c' := by
  obtain ⟨_, _, _, h⟩ := diffuse_shape x y e s; rw [h]; rfl
@[simp] theorem diffuse_clipW (x y : Nat) (e : Err3) (n' : Nat) (s : State) : (s.diffuse x y e).clipW n' = s.clipW n' := by
  obtain ⟨_, _, _, h⟩ := diffuse_shape x y e s; rw [h]; rfl
@[simp] theorem diffuse_clipH (x y : Nat) (e : Err3) (n' : Nat) (s : State) : (s.diffuse x y e).clipH n' = s.clipH n' := by
  obtain ⟨_, _, _, h⟩ := diffuse_shape x y e s; rw [h]; rfl
@[simp] theorem diffuse_surfGet (x y : Nat) (e : Err3) (x' y' : Nat) (s : State) : (s.diffuse x y e).surfGet x' y' = s.surfGet x' y' := by
  obtain ⟨_, _, _, h⟩ := diffuse_shape x y e s; rw [h]; rfl

/-! `labStep` -/

theorem labStep_shape (x y : Nat) (c : RGB) (s : State) :
    ∃ fb fbc n nf st tr nr, s.labStep x y c =
      { s with fb := fb, fbc := fbc, choices := n, notfound := nf, sat := st, thisRow := tr, nextRow := nr } := by
  unfold State.labStep
  dsimp only
  generalize hn : State.nearest _ s = n
  obtain ⟨_, _, _, h3⟩ := diffuse_shape x y n.resid
    (((s.noteSat (saturatesTriple (s.adjusted x (s.params.toLab c)).1 (s.adjusted x (s.params.toLab c)).2.1
      (s.adjusted x (s.params.toLab c)).2.2)).nearestFlags (sat32Triple (s.adjusted x (s.params.toLab c)).1
        (s.adjusted x (s.params.toLab c)).2.1 (s.adjusted x (s.params.toLab c)).2.2)).surfSet x y n.index)
  obtain ⟨_, _, _, h2⟩ := surfSet_shape x y n.index
    ((s.noteSat (saturatesTriple (s.adjusted x (s.params.toLab c)).1 (s.adjusted x (s.params.toLab c)).2.1
      (s.adjusted x (s.params.toLab c)).2.2)).nearestFlags (sat32Triple (s.adjusted x (s.params.toLab c)).1
        (s.adjusted x (s.params.toLab c)).2.1 (s.adjusted x (s.params.toLab c)).2.2))
  obtain ⟨_, _, h1⟩ := nearestFlags_shape (sat32Triple (s.adjusted x (s.params.toLab c)).1
        (s.adjusted x (s.params.toLab c)).2.1 (s.adjusted x (s.params.toLab c)).2.2)
      (s.noteSat (saturatesTriple (s.adjusted x (s.params.toLab c)).1 (s.adjusted x (s.params.toLab c)).2.1
      (s.adjusted x (s.params.toLab c)).2.2))
  rw [h3, h2, h1]
  exact ⟨_, _, _, _, _, _, _, rfl⟩

@[simp] theorem labStep_r0 (x y : Nat) (c : RGB) (s : State) : (s.labStep x y c).r0 = s.r0 := by
  obtain ⟨_, _, _, _, _, _, _, h⟩ := labStep_shape x y c s; rw [h]
@[simp] theorem labStep_r1 (x y : Nat) (c : RGB) (s : State) : (s.labStep x y c).r1 = s.r1 := by
  obtain ⟨_, _, _, _, _, _, _, h⟩ := labStep_shape x y c s; rw [h]
@[simp] theorem labStep_r2 (x y : Nat) (c : RGB) (s : State) : (s.labStep x y c).r2 = s.r2 := by
  obtain ⟨_, _, _, _, _, _, _, h⟩ := labStep_shape x y c s; rw [h]
@[simp] theorem labStep_r3 (x y : Nat) (c : RGB) (s : State) : (s.labStep x y c).r3 = s.r3 := by
  obtain ⟨_, _, _, _, _, _, _, h⟩ := labStep_shape x y c s; rw [h]
@[simp] theorem labStep_err (x y : Nat) (c : RGB) (s : State) : (s.labStep x y c).err = s.err := by
  obtain ⟨_, _, _, _, _, _, _, h⟩ := labStep_shape x y c s; rw [h]
@[simp] theorem labStep_bderr (x y : Nat) (c : RGB) (s : State) : (s.labStep x y c).bderr = s.bderr := by
  obtain ⟨_, _, _, _, _, _, _, h⟩ := labStep_shape x y c s; rw [h]
@[simp] theorem labStep_fails (x y : Nat) (c : RGB) (s : State) : (s.labStep x y c).fails = s.fails := by
  obtain ⟨_, _, _, _, _, _, _, h⟩ := labStep_shape x y c s; rw [h]
@[simp] theorem labStep_cmdcnt (x y : Nat) (c : RGB) (s : State) : (s.labStep x y c).cmdcnt = s.cmdcnt := by
  obtain ⟨_, _, _, _, _, _, _, h⟩ := labStep_shape x y c s; rw [h]
@[simp] theorem labStep_ctrl (x y : Nat) (c : RGB) (s : State) : (s.labStep x y c).ctrl = s.ctrl := by
  obtain ⟨_, _, _, _, _, _, _, h⟩ := labStep_shape x y c s; rw [h]
@[simp] theorem labStep_acc (x y : Nat) (c : RGB) (s : State) : (s.labStep x y c).acc = s.acc := by
  obtain ⟨_, _, _, _, _, _, _, h⟩ := labStep_shape x y c s; rw [h]
@[simp] theorem labStep_fmt (x y : Nat) (c : RGB) (s : State) : (s.labStep x y c).fmt = s.fmt := by
  obtain ⟨_, _, _, _, _, _, _, h⟩ := labStep_shape x y c s; rw [h]
@[simp] theorem labStep_surfW (x y : Nat) (c : RGB) (s : State) : (s.labStep x y c).surfW = s.surfW := by
  obtain ⟨_, _, _, _, _, _, _, h⟩ := labStep_shape x y c s; rw [h]
@[simp] theorem labStep_surfH (x y : Nat) (c : RGB) (s : State) : (s.labStep x y c).surfH = s.surfH := by
  obtain ⟨_, _, _, _, _, _, _, h⟩ := labStep_shape x y c s; rw [h]
@[simp] theorem labStep_plut (x y : Nat) (c : RGB) (s : State) : (s.labStep x y c).plut = s.plut := by
  obtain ⟨_, _, _, _, _, _, _, h⟩ := labStep_shape x y c s; rw [h]
@[simp] theorem labStep_pal (x y : Nat) (c : RGB) (s : State) : (s.labStep x y c).pal = s.pal := by
  obtain ⟨_, _, _, _, _, _, _, h⟩ := labStep_shape x y c s; rw [h]
@[simp] theorem labStep_mono (x y : Nat) (c : RGB) (s : State) : (s.labStep x y c).mono = s.mono := by
  obtain ⟨_, _, _, _, _, _, _, h⟩ := labStep_shape x y c s; rw [h]
@[simp] theorem labStep_curValid (x y : Nat) (c : RGB) (s : State) : (s.labStep x y c).curValid = s.curValid := by
  obtain ⟨_, _, _, _, _, _, _, h⟩ := labStep_shape x y c s; rw [h]
@[simp] theorem labStep_curRow (x y : Nat) (c : RGB) (s : State) : (s.labStep x y c).curRow = s.curRow := by
  obtain ⟨_, _, _, _, _, _, _, h⟩ := labStep_shape x y c s; rw [h]
@[simp] theorem labStep_cmdq (x y : Nat) (c : RGB) (s : State) : (s.labStep x y c).cmdq = s.cmdq := by
  obtain ⟨_, _, _, _, _, _, _, h⟩ := labStep_shape x y c s; rw [h]
@[simp] theorem labStep_rspq (x y : Nat) (c : RGB) (s : State) : (s.labStep x y c).rspq = s.rspq := by
  obtain ⟨_, _, _, _, _, _, _, h⟩ := labStep_shape x y c s; rw [h]
@[simp] theorem labStep_progq (x y : Nat) (c : RGB) (s : State) : (s.labStep x y c).progq = s.progq := by
  obtain ⟨_, _, _, _, _, _, _, h⟩ := labStep_shape x y c s; rw [h]
@[simp] theorem labStep_halted (x y : Nat) (c : RGB) (s : State) : (s.labStep x y c).halted = s.halted := by
  obtain ⟨_, _, _, _, _, _, _, h⟩ := labStep_shape x y c s; rw [h]
@[simp] theorem labStep_seq (x y : Nat) (c : RGB) (s : State) : (s.labStep x y c).seq = s.seq := by
  obtain ⟨_, _, _, _, _, _, _, h⟩ := labStep_shape x y c s; rw [h]
@[simp] theorem labStep_params (x y : Nat) (c : RGB) (s : State) : (s.labStep x y c).params = s.params := by
  obtain ⟨_, _, _, _, _, _, _, h⟩ := labStep_shape x y c s; rw [h]
@[simp] theorem labStep_bsTotals (x y : Nat) (c : RGB) (s : State) : (s.labStep x y c).bsTotals = s.bsTotals := by
  obtain ⟨_, _, _, _, _, _, _, h⟩ := labStep_shape x y c s; rw [h]
@[simp] theorem labStep_bsReads (x y : Nat) (c : RGB) (s : State) : (s.labStep x y c).bsReads = s.bsReads := by
  obtain ⟨_, _, _, _, _, _, _, h⟩ := labStep_shape x y c s; rw [h]
@[simp] theorem labStep_bdInits (x y : Nat) (c : RGB) (s : State) : (s.labStep x y c).bdInits = s.bdInits := by
  obtain ⟨_, _, _, _, _, _, _, h⟩ := labStep_shape x y c s; rw [h]
@[simp] theorem labStep_dropped (x y : Nat) (c : RGB) (s : State) : (s.labStep x y c).dropped = s.dropped := by
  obtain ⟨_, _, _, _, _, _, _, h⟩ := labStep_shape x y c s; rw [h]
@[simp] theorem labStep_rowsOfDecode (x y : Nat) (c : RGB) (s : State) : (s.labStep x y c).rowsOfDecode = s.rowsOfDecode := by
  obtain ⟨_, _, _, _, _, _, _, h⟩ := labStep_shape x y c s; rw [h]
@[simp] theorem labStep_bdMcus (x y : Nat) (c : RGB) (s : State) : (s.labStep x y c).bdMcus = s.bdMcus := by
  obtain ⟨_, _, _, _, _, _, _, h⟩ := labStep_shape x y c s; rw [h]
@[simp] theorem labStep_reqs (x y : Nat) (c : RGB) (s : State) : (s.labStep x y c).reqs = s.reqs := by
  obtain ⟨_, _, _, _, _, _, _, h⟩ := labStep_shape x y c s; rw [h]
@[simp] theorem labStep_qmode (x y : Nat) (c : RGB) (s : State) : (s.labStep x y c).qmode = s.qmode := by
  obtain ⟨_, _, _, _, _, _, _, h⟩ := labStep_shape x y c s; rw [h]; rfl
@[simp] theorem labStep_progen (x y : Nat) (c : RGB) (s : State) : (s.labStep x y c).progen = s.progen := by
  obtain ⟨_, _, _, _, _, _, _, h⟩ := labStep_shape x y c s; rw [h]; rfl
@[simp] theorem labStep_swap565 (x y : Nat) (c : RGB) (s : State) : (s.labStep x y c).swap565 = s.swap565 := by
  obtain ⟨_, _, _, _, _, _, _, h⟩ := labStep_shape x y c s; rw [h]; rfl
@[simp] theorem labStep_vfirst (x y : Nat) (c : RGB) (s : State) : (s.labStep x y c).vfirst = s.vfirst := by
  obtain ⟨_, _, _, _, _, _, _, h⟩ := labStep_shape x y c s; rw [h]; rfl
@[simp] theorem labStep_stride (x y : Nat) (c : RGB) (s : State) : (s.labStep x y c).stride = s.stride := by
  obtain ⟨_, _, _, _, _, _, _, h⟩ := labStep_shape x y c s; rw [h]; rfl
@[simp] theorem labStep_planeBytes (x y : Nat) (c : RGB) (s : State) : (s.labStep x y c).planeBytes = s.planeBytes := by
  obtain ⟨_, _, _, _, _, _, _, h⟩ := labStep_shape x y c s; rw [h]; rfl
@[simp] theorem labStep_surfBytes (x y : Nat) (c : RGB) (s : State) : (s.labStep x y c).surfBytes = s.surfBytes := by
  obtain ⟨_, _, _, _, _, _, _, h⟩ := labStep_shape x y c s; rw [h]; rfl
@[simp] theorem labStep_inside (x y : Nat) (c : RGB) (x' y' : Nat) (s : State) : (s.labStep x y c).inside x' y' = s.inside x' y' := by
  obtain ⟨_, _, _, _, _, _, _, h⟩ := labStep_shape x y c s; rw [h]; rfl
@[simp] theorem labStep_pixelAddr (x y : Nat) (c : RGB) (x' y' : Nat) (s : State) : (s.labStep x y c).pixelAddr x' y' = s.pixelAddr x' y' := by
  obtain ⟨_, _, _, _, _, _, _, h⟩ := labStep_shape x y c s; rw [h]; rfl
@[simp] theorem labStep_nearest (x y : Nat) (c : RGB) (c' : Lab) (s : State) : (s.labStep x y c).nearest c' = s.nearest c' := by
  obtain ⟨_, _, _, _, _, _, _, h⟩ := labStep_shape x y c s; rw [h]; rfl
@[simp] theorem labStep_nearestEntry (x y : Nat) (c : RGB) (c' : Lab) (s : State) : (s.labStep x y c).nearestEntry c' = s.nearestEntry c' := by
  obtain ⟨_, _, _, _, _, _, _, h⟩ := labStep_shape x y c s; rw [h]; rfl
@[simp] theorem labStep_clipW (x y : Nat) (c : RGB) (n' : Nat) (s : State) : (s.labStep x y c).clipW n' = s.clipW n' := by
  obtain ⟨_, _, _, _, _, _, _, h⟩ := labStep_shape x y c s; rw [h]; rfl
@[simp] theorem labStep_clipH (x y : Nat) (c : RGB) (n' : Nat) (s : State) : (s.labStep x y c).clipH n' = s.clipH n' := by
  obtain ⟨_, _, _, _, _, _, _, h⟩ := labStep_shape x y c s; rw [h]; rfl

/-! `rgbStep` -/

theorem rgbStep_shape (x y : Nat) (c : RGB) (s : State) :
    ∃ fb fbc n nf st tr nr, s.rgbStep x y c =
      { s with fb := fb, fbc := fbc, choices := n, notfound := nf, sat := st, thisRow := tr, nextRow := nr } := by
  unfold State.rgbStep
  dsimp only
  generalize rgbError _ _ = e
  generalize State.nearest _ s = n
  generalize s.params.toLab _ = l
  obtain ⟨_, _, _, h3⟩ := diffuse_shape x y e ((s.nearestFlags l).surfSet x y n.index)
  obtain ⟨_, _, _, h2⟩ := surfSet_shape x y n.index (s.nearestFlags l)
  obtain ⟨_, _, h1⟩ := nearestFlags_shape l s
  rw [h3, h2, h1]
  exact ⟨_, _, _, _, _, _, _, rfl⟩

@[simp] theorem rgbStep_r0 (x y : Nat) (c : RGB) (s : State) : (s.rgbStep x y c).r0 = s.r0 := by
  obtain ⟨_, _, _, _, _, _, _, h⟩ := rgbStep_shape x y c s; rw [h]
@[simp] theorem rgbStep_r1 (x y : Nat) (c : RGB) (s : State) : (s.rgbStep x y c).r1 = s.r1 := by
  obtain ⟨_, _, _, _, _, _, _, h⟩ := rgbStep_shape x y c s; rw [h]
@[simp] theorem rgbStep_r2 (x y : Nat) (c : RGB) (s : State) : (s.rgbStep x y c).r2 = s.r2 := by
  obtain ⟨_, _, _, _, _, _, _, h⟩ := rgbStep_shape x y c s; rw [h]
@[simp] theorem rgbStep_r3 (x y : Nat) (c : RGB) (s : State) : (s.rgbStep x y c).r3 = s.r3 := by
  obtain ⟨_, _, _, _, _, _, _, h⟩ := rgbStep_shape x y c s; rw [h]
@[simp] theorem rgbStep_err (x y : Nat) (c : RGB) (s : State) : (s.rgbStep x y c).err = s.err := by
  obtain ⟨_, _, _, _, _, _, _, h⟩ := rgbStep_shape x y c s; rw [h]
@[simp] theorem rgbStep_bderr (x y : Nat) (c : RGB) (s : State) : (s.rgbStep x y c).bderr = s.bderr := by
  obtain ⟨_, _, _, _, _, _, _, h⟩ := rgbStep_shape x y c s; rw [h]
@[simp] theorem rgbStep_fails (x y : Nat) (c : RGB) (s : State) : (s.rgbStep x y c).fails = s.fails := by
  obtain ⟨_, _, _, _, _, _, _, h⟩ := rgbStep_shape x y c s; rw [h]
@[simp] theorem rgbStep_cmdcnt (x y : Nat) (c : RGB) (s : State) : (s.rgbStep x y c).cmdcnt = s.cmdcnt := by
  obtain ⟨_, _, _, _, _, _, _, h⟩ := rgbStep_shape x y c s; rw [h]
@[simp] theorem rgbStep_ctrl (x y : Nat) (c : RGB) (s : State) : (s.rgbStep x y c).ctrl = s.ctrl := by
  obtain ⟨_, _, _, _, _, _, _, h⟩ := rgbStep_shape x y c s; rw [h]
@[simp] theorem rgbStep_acc (x y : Nat) (c : RGB) (s : State) : (s.rgbStep x y c).acc = s.acc := by
  obtain ⟨_, _, _, _, _, _, _, h⟩ := rgbStep_shape x y c s; rw [h]
@[simp] theorem rgbStep_fmt (x y : Nat) (c : RGB) (s : State) : (s.rgbStep x y c).fmt = s.fmt := by
  obtain ⟨_, _, _, _, _, _, _, h⟩ := rgbStep_shape x y c s; rw [h]
@[simp] theorem rgbStep_surfW (x y : Nat) (c : RGB) (s : State) : (s.rgbStep x y c).surfW = s.surfW := by
  obtain ⟨_, _, _, _, _, _, _, h⟩ := rgbStep_shape x y c s; rw [h]
@[simp] theorem rgbStep_surfH (x y : Nat) (c : RGB) (s : State) : (s.rgbStep x y c).surfH = s.surfH := by
  obtain ⟨_, _, _, _, _, _, _, h⟩ := rgbStep_shape x y c s; rw [h]
@[simp] theorem rgbStep_plut (x y : Nat) (c : RGB) (s : State) : (s.rgbStep x y c).plut = s.plut := by
  obtain ⟨_, _, _, _, _, _, _, h⟩ := rgbStep_shape x y c s; rw [h]
@[simp] theorem rgbStep_pal (x y : Nat) (c : RGB) (s : State) : (s.rgbStep x y c).pal = s.pal := by
  obtain ⟨_, _, _, _, _, _, _, h⟩ := rgbStep_shape x y c s; rw [h]
@[simp] theorem rgbStep_mono (x y : Nat) (c : RGB) (s : State) : (s.rgbStep x y c).mono = s.mono := by
  obtain ⟨_, _, _, _, _, _, _, h⟩ := rgbStep_shape x y c s; rw [h]
@[simp] theorem rgbStep_curValid (x y : Nat) (c : RGB) (s : State) : (s.rgbStep x y c).curValid = s.curValid := by
  obtain ⟨_, _, _, _, _, _, _, h⟩ := rgbStep_shape x y c s; rw [h]
@[simp] theorem rgbStep_curRow (x y : Nat) (c : RGB) (s : State) : (s.rgbStep x y c).curRow = s.curRow := by
  obtain ⟨_, _, _, _, _, _, _, h⟩ := rgbStep_shape x y c s; rw [h]
@[simp] theorem rgbStep_cmdq (x y : Nat) (c : RGB) (s : State) : (s.rgbStep x y c).cmdq = s.cmdq := by
  obtain ⟨_, _, _, _, _, _, _, h⟩ := rgbStep_shape x y c s; rw [h]
@[simp] theorem rgbStep_rspq (x y : Nat) (c : RGB) (s : State) : (s.rgbStep x y c).rspq = s.rspq := by
  obtain ⟨_, _, _, _, _, _, _, h⟩ := rgbStep_shape x y c s; rw [h]
@[simp] theorem rgbStep_progq (x y : Nat) (c : RGB) (s : State) : (s.rgbStep x y c).progq = s.progq := by
  obtain ⟨_, _, _, _, _, _, _, h⟩ := rgbStep_shape x y c s; rw [h]
@[simp] theorem rgbStep_halted (x y : Nat) (c : RGB) (s : State) : (s.rgbStep x y c).halted = s.halted := by
  obtain ⟨_, _, _, _, _, _, _, h⟩ := rgbStep_shape x y c s; rw [h]
@[simp] theorem rgbStep_seq (x y : Nat) (c : RGB) (s : State) : (s.rgbStep x y c).seq = s.seq := by
  obtain ⟨_, _, _, _, _, _, _, h⟩ := rgbStep_shape x y c s; rw [h]
@[simp] theorem rgbStep_params (x y : Nat) (c : RGB) (s : State) : (s.rgbStep x y c).params = s.params := by
  obtain ⟨_, _, _, _, _, _, _, h⟩ := rgbStep_shape x y c s; rw [h]
@[simp] theorem rgbStep_bsTotals (x y : Nat) (c : RGB) (s : State) : (s.rgbStep x y c).bsTotals = s.bsTotals := by
  obtain ⟨_, _, _, _, _, _, _, h⟩ := rgbStep_shape x y c s; rw [h]
@[simp] theorem rgbStep_bsReads (x y : Nat) (c : RGB) (s : State) : (s.rgbStep x y c).bsReads = s.bsReads := by
  obtain ⟨_, _, _, _, _, _, _, h⟩ := rgbStep_shape x y c s; rw [h]
@[simp] theorem rgbStep_bdInits (x y : Nat) (c : RGB) (s : State) : (s.rgbStep x y c).bdInits = s.bdInits := by
  obtain ⟨_, _, _, _, _, _, _, h⟩ := rgbStep_shape x y c s; rw [h]
@[simp] theorem rgbStep_dropped (x y : Nat) (c : RGB) (s : State) : (s.rgbStep x y c).dropped = s.dropped := by
  obtain ⟨_, _, _, _, _, _, _, h⟩ := rgbStep_shape x y c s; rw [h]
@[simp] theorem rgbStep_rowsOfDecode (x y : Nat) (c : RGB) (s : State) : (s.rgbStep x y c).rowsOfDecode = s.rowsOfDecode := by
  obtain ⟨_, _, _, _, _, _, _, h⟩ := rgbStep_shape x y c s; rw [h]
@[simp] theorem rgbStep_bdMcus (x y : Nat) (c : RGB) (s : State) : (s.rgbStep x y c).bdMcus = s.bdMcus := by
  obtain ⟨_, _, _, _, _, _, _, h⟩ := rgbStep_shape x y c s; rw [h]
@[simp] theorem rgbStep_reqs (x y : Nat) (c : RGB) (s : State) : (s.rgbStep x y c).reqs = s.reqs := by
  obtain ⟨_, _, _, _, _, _, _, h⟩ := rgbStep_shape x y c s; rw [h]
@[simp] theorem rgbStep_qmode (x y : Nat) (c : RGB) (s : State) : (s.rgbStep x y c).qmode = s.qmode := by
  obtain ⟨_, _, _, _, _, _, _, h⟩ := rgbStep_shape x y c s; rw [h]; rfl
@[simp] theorem rgbStep_progen (x y : Nat) (c : RGB) (s : State) : (s.rgbStep x y c).progen = s.progen := by
  obtain ⟨_, _, _, _, _, _, _, h⟩ := rgbStep_shape x y c s; rw [h]; rfl
@[simp] theorem rgbStep_swap565 (x y : Nat) (c : RGB) (s : State) : (s.rgbStep x y c).swap565 = s.swap565 := by
  obtain ⟨_, _, _, _, _, _, _, h⟩ := rgbStep_shape x y c s; rw [h]; rfl
@[simp] theorem rgbStep_vfirst (x y : Nat) (c : RGB) (s : State) : (s.rgbStep x y c).vfirst = s.vfirst := by
  obtain ⟨_, _, _, _, _, _, _, h⟩ := rgbStep_shape x y c s; rw [h]; rfl
@[simp] theorem rgbStep_stride (x y : Nat) (c : RGB) (s : State) : (s.rgbStep x y c).stride = s.stride := by
  obtain ⟨_, _, _, _, _, _, _, h⟩ := rgbStep_shape x y c s; rw [h]; rfl
@[simp] theorem rgbStep_planeBytes (x y : Nat) (c : RGB) (s : State) : (s.rgbStep x y c).planeBytes = s.planeBytes := by
  obtain ⟨_, _, _, _, _, _, _, h⟩ := rgbStep_shape x y c s; rw [h]; rfl
@[simp] theorem rgbStep_surfBytes (x y : Nat) (c : RGB) (s : State) : (s.rgbStep x y c).surfBytes = s.surfBytes := by
  obtain ⟨_, _, _, _, _, _, _, h⟩ := rgbStep_shape x y c s; rw [h]; rfl
@[simp] theorem rgbStep_inside (x y : Nat) (c : RGB) (x' y' : Nat) (s : State) : (s.rgbStep x y c).inside x' y' = s.inside x' y' := by
  obtain ⟨_, _, _, _, _, _, _, h⟩ := rgbStep_shape x y c s; rw [h]; rfl
@[simp] theorem rgbStep_pixelAddr (x y : Nat) (c : RGB) (x' y' : Nat) (s : State) : (s.rgbStep x y c).pixelAddr x' y' = s.pixelAddr x' y' := by
  obtain ⟨_, _, _, _, _, _, _, h⟩ := rgbStep_shape x y c s; rw [h]; rfl
@[simp] theorem rgbStep_nearest (x y : Nat) (c : RGB) (c' : Lab) (s : State) : (s.rgbStep x y c).nearest c' = s.nearest c' := by
  obtain ⟨_, _, _, _, _, _, _, h⟩ := rgbStep_shape x y c s; rw [h]; rfl
@[simp] theorem rgbStep_nearestEntry (x y : Nat) (c : RGB) (c' : Lab) (s : State) : (s.rgbStep x y c).nearestEntry c' = s.nearestEntry c' := by
  obtain ⟨_, _, _, _, _, _, _, h⟩ := rgbStep_shape x y c s; rw [h]; rfl
@[simp] theorem rgbStep_clipW (x y : Nat) (c : RGB) (n' : Nat) (s : State) : (s.rgbStep x y c).clipW n' = s.clipW n' := by
  obtain ⟨_, _, _, _, _, _, _, h⟩ := rgbStep_shape x y c s; rw [h]; rfl
@[simp] theorem rgbStep_clipH (x y : Nat) (c : RGB) (n' : Nat) (s : State) : (s.rgbStep x y c).clipH n' = s.clipH n' := by
  obtain ⟨_, _, _, _, _, _, _, h⟩ := rgbStep_shape x y c s; rw [h]; rfl

/-! `viewSet` -/

theorem viewSet_shape (x y : Nat) (c : RGB) (s : State) :
    ∃ fb fbc n nf st tr nr cr cv, s.viewSet x y c =
      { s with fb := fb, fbc := fbc, choices := n, notfound := nf, sat := st, thisRow := tr, nextRow := nr, curRow := cr, curValid := cv } := by
  unfold State.viewSet
  dsimp only
  split
  · split
    · generalize State.nearest _ s = n
      generalize s.params.toLab _ = l
      obtain ⟨_, _, _, h2⟩ := surfSet_shape x y n.index (s.nearestFlags l)
      obtain ⟨_, _, h1⟩ := nearestFlags_shape l s
      rw [h2, h1]
      exact ⟨_, _, _, _, _, _, _, _, _, rfl⟩
    · obtain ⟨_, _, _, _, h1⟩ := rowMgmt_shape y s
      obtain ⟨_, _, _, _, _, _, _, h2⟩ := labStep_shape x y c (s.rowMgmt y)
      rw [h2, h1]
      exact ⟨_, _, _, _, _, _, _, _, _, rfl⟩
    · obtain ⟨_, _, _, _, h1⟩ := rowMgmt_shape y s
      obtain ⟨_, _, _, _, _, _, _, h2⟩ := rgbStep_shape x y c (s.rowMgmt y)
      rw [h2, h1]
      exact ⟨_, _, _, _, _, _, _, _, _, rfl⟩
  · exact ⟨_, _, _, _, _, _, _, _, _, rfl⟩

@[simp] theorem viewSet_r0 (x y : Nat) (c : RGB) (s : State) : (s.viewSet x y c).r0 = s.r0 := by
  obtain ⟨_, _, _, _, _, _, _, _, _, h⟩ := viewSet_shape x y c s; rw [h]
@[simp] theorem viewSet_r1 (x y : Nat) (c : RGB) (s : State) : (s.viewSet x y c).r1 = s.r1 := by
  obtain ⟨_, _, _, _, _, _, _, _, _, h⟩ := viewSet_shape x y c s; rw [h]
@[simp] theorem viewSet_r2 (x y : Nat) (c : RGB) (s : State) : (s.viewSet x y c).r2 = s.r2 := by
  obtain ⟨_, _, _, _, _, _, _, _, _, h⟩ := viewSet_shape x y c s; rw [h]
@[simp] theorem viewSet_r3 (x y : Nat) (c : RGB) (s : State) : (s.viewSet x y c).r3 = s.r3 := by
  obtain ⟨_, _, _, _, _, _, _, _, _, h⟩ := viewSet_shape x y c s; rw [h]
@[simp] theorem viewSet_err (x y : Nat) (c : RGB) (s : State) : (s.viewSet x y c).err = s.err := by
  obtain ⟨_, _, _, _, _, _, _, _, _, h⟩ := viewSet_shape x y c s; rw [h]
@[simp] theorem viewSet_bderr (x y : Nat) (c : RGB) (s : State) : (s.viewSet x y c).bderr = s.bderr := by
  obtain ⟨_, _, _, _, _, _, _, _, _, h⟩ := viewSet_shape x y c s; rw [h]
@[simp] theorem viewSet_fails (x y : Nat) (c : RGB) (s : State) : (s.viewSet x y c).fails = s.fails := by
  obtain ⟨_, _, _, _, _, _, _, _, _, h⟩ := viewSet_shape x y c s; rw [h]
@[simp] theorem viewSet_cmdcnt (x y : Nat) (c : RGB) (s : State) : (s.viewSet x y c).cmdcnt = s.cmdcnt := by
  obtain ⟨_, _, _, _, _, _, _, _, _, h⟩ := viewSet_shape x y c s; rw [h]
@[simp] theorem viewSet_ctrl (x y : Nat) (c : RGB) (s : State) : (s.viewSet x y c).ctrl = s.ctrl := by
  obtain ⟨_, _, _, _, _, _, _, _, _, h⟩ := viewSet_shape x y c s; rw [h]
@[simp] theorem viewSet_acc (x y : Nat) (c : RGB) (s : State) : (s.viewSet x y c).acc = s.acc := by
  obtain ⟨_, _, _, _, _, _, _, _, _, h⟩ := viewSet_shape x y c s; rw [h]
@[simp] theorem viewSet_fmt (x y : Nat) (c : RGB) (s : State) : (s.viewSet x y c).fmt = s.fmt := by
  obtain ⟨_, _, _, _, _, _, _, _, _, h⟩ := viewSet_shape x y c s; rw [h]
@[simp] theorem viewSet_surfW (x y : Nat) (c : RGB) (s : State) : (s.viewSet x y c).surfW = s.surfW := by
  obtain ⟨_, _, _, _, _, _, _, _, _, h⟩ := viewSet_shape x y c s; rw [h]
@[simp] theorem viewSet_surfH (x y : Nat) (c : RGB) (s : State) : (s.viewSet x y c).surfH = s.surfH := by
  obtain ⟨_, _, _, _, _, _, _, _, _, h⟩ := viewSet_shape x y c s; rw [h]
@[simp] theorem viewSet_plut (x y : Nat) (c : RGB) (s : State) : (s.viewSet x y c).plut = s.plut := by
  obtain ⟨_, _, _, _, _, _, _, _, _, h⟩ := viewSet_shape x y c s; rw [h]
@[simp] theorem viewSet_pal (x y : Nat) (c : RGB) (s : State) : (s.viewSet x y c).pal = s.pal := by
  obtain ⟨_, _, _, _, _, _, _, _, _, h⟩ := viewSet_shape x y c s; rw [h]
@[simp] theorem viewSet_mono (x y : Nat) (c : RGB) (s : State) : (s.viewSet x y c).mono = s.mono := by
  obtain ⟨_, _, _, _, _, _, _, _, _, h⟩ := viewSet_shape x y c s; rw [h]
@[simp] theorem viewSet_cmdq (x y : Nat) (c : RGB) (s : State) : (s.viewSet x y c).cmdq = s.cmdq := by
  obtain ⟨_, _, _, _, _, _, _, _, _, h⟩ := viewSet_shape x y c s; rw [h]
@[simp] theorem viewSet_rspq (x y : Nat) (c : RGB) (s : State) : (s.viewSet x y c).rspq = s.rspq := by
  obtain ⟨_, _, _, _, _, _, _, _, _, h⟩ := viewSet_shape x y c s; rw [h]
@[simp] theorem viewSet_progq (x y : Nat) (c : RGB) (s : State) : (s.viewSet x y c).progq = s.progq := by
  obtain ⟨_, _, _, _, _, _, _, _, _, h⟩ := viewSet_shape x y c s; rw [h]
@[simp] theorem viewSet_halted (x y : Nat) (c : RGB) (s : State) : (s.viewSet x y c).halted = s.halted := by
  obtain ⟨_, _, _, _, _, _, _, _, _, h⟩ := viewSet_shape x y c s; rw [h]
@[simp] theorem viewSet_seq (x y : Nat) (c : RGB) (s : State) : (s.viewSet x y c).seq = s.seq := by
  obtain ⟨_, _, _, _, _, _, _, _, _, h⟩ := viewSet_shape x y c s; rw [h]
@[simp] theorem viewSet_params (x y : Nat) (c : RGB) (s : State) : (s.viewSet x y c).params = s.params := by
  obtain ⟨_, _, _, _, _, _, _, _, _, h⟩ := viewSet_shape x y c s; rw [h]
@[simp] theorem viewSet_bsTotals (x y : Nat) (c : RGB) (s : State) : (s.viewSet x y c).bsTotals = s.bsTotals := by
  obtain ⟨_, _, _, _, _, _, _, _, _, h⟩ := viewSet_shape x y c s; rw [h]
@[simp] theorem viewSet_bsReads (x y : Nat) (c : RGB) (s : State) : (s.viewSet x y c).bsReads = s.bsReads := by
  obtain ⟨_, _, _, _, _, _, _, _, _, h⟩ := viewSet_shape x y c s; rw [h]
@[simp] theorem viewSet_bdInits (x y : Nat) (c : RGB) (s : State) : (s.viewSet x y c).bdInits = s.bdInits := by
  obtain ⟨_, _, _, _, _, _, _, _, _, h⟩ := viewSet_shape x y c s; rw [h]
@[simp] theorem viewSet_dropped (x y : Nat) (c : RGB) (s : State) : (s.viewSet x y c).dropped = s.dropped := by
  obtain ⟨_, _, _, _, _, _, _, _, _, h⟩ := viewSet_shape x y c s; rw [h]
@[simp] theorem viewSet_rowsOfDecode (x y : Nat) (c : RGB) (s : State) : (s.viewSet x y c).rowsOfDecode = s.rowsOfDecode := by
  obtain ⟨_, _, _, _, _, _, _, _, _, h⟩ := viewSet_shape x y c s; rw [h]
@[simp] theorem viewSet_bdMcus (x y : Nat) (c : RGB) (s : State) : (s.viewSet x y c).bdMcus = s.bdMcus := by
  obtain ⟨_, _, _, _, _, _, _, _, _, h⟩ := viewSet_shape x y c s; rw [h]
@[simp] theorem viewSet_reqs (x y : Nat) (c : RGB) (s : State) : (s.viewSet x y c).reqs = s.reqs := by
  obtain ⟨_, _, _, _, _, _, _, _, _, h⟩ := viewSet_shape x y c s; rw [h]
@[simp] theorem viewSet_qmode (x y : Nat) (c : RGB) (s : State) : (s.viewSet x y c).qmode = s.qmode := by
  obtain ⟨_, _, _, _, _, _, _, _, _, h⟩ := viewSet_shape x y c s; rw [h]; rfl
@[simp] theorem viewSet_progen (x y : Nat) (c : RGB) (s : State) : (s.viewSet x y c).progen = s.progen := by
  obtain ⟨_, _, _, _, _, _, _, _, _, h⟩ := viewSet_shape x y c s; rw [h]; rfl
@[simp] theorem viewSet_swap565 (x y : Nat) (c : RGB) (s : State) : (s.viewSet x y c).swap565 = s.swap565 := by
  obtain ⟨_, _, _, _, _, _, _, _, _, h⟩ := viewSet_shape x y c s; rw [h]; rfl
@[simp] theorem viewSet_vfirst (x y : Nat) (c : RGB) (s : State) : (s.viewSet x y c).vfirst = s.vfirst := by
  obtain ⟨_, _, _, _, _, _, _, _, _, h⟩ := viewSet_shape x y c s; rw [h]; rfl
@[simp] theorem viewSet_stride (x y : Nat) (c : RGB) (s : State) : (s.viewSet x y c).stride = s.stride := by
  obtain ⟨_, _, _, _, _, _, _, _, _, h⟩ := viewSet_shape x y c s; rw [h]; rfl
@[simp] theorem viewSet_planeBytes (x y : Nat) (c : RGB) (s : State) : (s.viewSet x y c).planeBytes = s.planeBytes := by
  obtain ⟨_, _, _, _, _, _, _, _, _, h⟩ := viewSet_shape x y c s; rw [h]; rfl
@[simp] theorem viewSet_surfBytes (x y : Nat) (c : RGB) (s : State) : (s.viewSet x y c).surfBytes = s.surfBytes := by
  obtain ⟨_, _, _, _, _, _, _, _, _, h⟩ := viewSet_shape x y c s; rw [h]; rfl
@[simp] theorem viewSet_inside (x y : Nat) (c : RGB) (x' y' : Nat) (s : State) : (s.viewSet x y c).inside x' y' = s.inside x' y' := by
  obtain ⟨_, _, _, _, _, _, _, _, _, h⟩ := viewSet_shape x y c s; rw [h]; rfl
@[simp] theorem viewSet_pixelAddr (x y : Nat) (c : RGB) (x' y' : Nat) (s : State) : (s.viewSet x y c).pixelAddr x' y' = s.pixelAddr x' y' := by
  obtain ⟨_, _, _, _, _, _, _, _, _, h⟩ := viewSet_shape x y c s; rw [h]; rfl
@[simp] theorem viewSet_nearest (x y : Nat) (c : RGB) (c' : Lab) (s : State) : (s.viewSet x y c).nearest c' = s.nearest c' := by
  obtain ⟨_, _, _, _, _, _, _, _, _, h⟩ := viewSet_shape x y c s; rw [h]; rfl
@[simp] theorem viewSet_nearestEntry (x y : Nat) (c : RGB) (c' : Lab) (s : State) : (s.viewSet x y c).nearestEntry c' = s.nearestEntry c' := by
  obtain ⟨_, _, _, _, _, _, _, _, _, h⟩ := viewSet_shape x y c s; rw [h]; rfl
@[simp] theorem viewSet_clipW (x y : Nat) (c : RGB) (n' : Nat) (s : State) : (s.viewSet x y c).clipW n' = s.clipW n' := by
  obtain ⟨_, _, _, _, _, _, _, _, _, h⟩ := viewSet_shape x y c s; rw [h]; rfl
@[simp] theorem viewSet_clipH (x y : Nat) (c : RGB) (n' : Nat) (s : State) : (s.viewSet x y c).clipH n' = s.clipH n' := by
  obtain ⟨_, _, _, _, _, _, _, _, _, h⟩ := viewSet_shape x y c s; rw [h]; rfl

/-! `viewRow` -/

theorem viewRow_shape (y : Nat) (x : Nat) (cs : List RGB) (s : State) :
    ∃ fb fbc n nf st tr nr cr cv, s.viewRow y x cs =
      { s with fb := fb, fbc := fbc, choices := n, notfound := nf, sat := st, thisRow := tr, nextRow := nr, curRow := cr, curValid := cv } := by
  induction cs generalizing x s with
  | nil => exact ⟨_, _, _, _, _, _, _, _, _, rfl⟩
  | cons c cs ih =>
    obtain ⟨_, _, _, _, _, _, _, _, _, h1⟩ := viewSet_shape x y c s
    obtain ⟨_, _, _, _, _, _, _, _, _, h2⟩ := ih (x + 1) (s.viewSet x y c)
    rw [State.viewRow, h2, h1]
    exact ⟨_, _, _, _, _, _, _, _, _, rfl⟩

@[simp] theorem viewRow_r0 (y : Nat) (x : Nat) (cs : List RGB) (s : State) : (s.viewRow y x cs).r0 = s.r0 := by
  obtain ⟨_, _, _, _, _, _, _, _, _, h⟩ := viewRow_shape y x cs s; rw [h]
@[simp] theorem viewRow_r1 (y : Nat) (x : Nat) (cs : List RGB) (s : State) : (s.viewRow y x cs).r1 = s.r1 := by
  obtain ⟨_, _, _, _, _, _, _, _, _, h⟩ := viewRow_shape y x cs s; rw [h]
@[simp] theorem viewRow_r2 (y : Nat) (x : Nat) (cs : List RGB) (s : State) : (s.viewRow y x cs).r2 = s.r2 := by
  obtain ⟨_, _, _, _, _, _, _, _, _, h⟩ := viewRow_shape y x cs s; rw [h]
@[simp] theorem viewRow_r3 (y : Nat) (x : Nat) (cs : List RGB) (s : State) : (s.viewRow y x cs).r3 = s.r3 := by
  obtain ⟨_, _, _, _, _, _, _, _, _, h⟩ := viewRow_shape y x cs s; rw [h]
@[simp] theorem viewRow_err (y : Nat) (x : Nat) (cs : List RGB) (s : State) : (s.viewRow y x cs).err = s.err := by
  obtain ⟨_, _, _, _, _, _, _, _, _, h⟩ := viewRow_shape y x cs s; rw [h]
@[simp] theorem viewRow_bderr (y : Nat) (x : Nat) (cs : List RGB) (s : State) : (s.viewRow y x cs).bderr = s.bderr := by
  obtain ⟨_, _, _, _, _, _, _, _, _, h⟩ := viewRow_shape y x cs s; rw [h]
@[simp] theorem viewRow_fails (y : Nat) (x : Nat) (cs : List RGB) (s : State) : (s.viewRow y x cs).fails = s.fails := by
  obtain ⟨_, _, _, _, _, _, _, _, _, h⟩ := viewRow_shape y x cs s; rw [h]
@[simp] theorem viewRow_cmdcnt (y : Nat) (x : Nat) (cs : List RGB) (s : State) : (s.viewRow y x cs).cmdcnt = s.cmdcnt := by
  obtain ⟨_, _, _, _, _, _, _, _, _, h⟩ := viewRow_shape y x cs s; rw [h]
@[simp] theorem viewRow_ctrl (y : Nat) (x : Nat) (cs : List RGB) (s : State) : (s.viewRow y x cs).ctrl = s.ctrl := by
  obtain ⟨_, _, _, _, _, _, _, _, _, h⟩ := viewRow_shape y x cs s; rw [h]
@[simp] theorem viewRow_acc (y : Nat) (x : Nat) (cs : List RGB) (s : State) : (s.viewRow y x cs).acc = s.acc := by
  obtain ⟨_, _, _, _, _, _, _, _, _, h⟩ := viewRow_shape y x cs s; rw [h]
@[simp] theorem viewRow_fmt (y : Nat) (x : Nat) (cs : List RGB) (s : State) : (s.viewRow y x cs).fmt = s.fmt := by
  obtain ⟨_, _, _, _, _, _, _, _, _, h⟩ := viewRow_shape y x cs s; rw [h]
@[simp] theorem viewRow_surfW (y : Nat) (x : Nat) (cs : List RGB) (s : State) : (s.viewRow y x cs).surfW = s.surfW := by
  obtain ⟨_, _, _, _, _, _, _, _, _, h⟩ := viewRow_shape y x cs s; rw [h]
@[simp] theorem viewRow_surfH (y : Nat) (x : Nat) (cs : List RGB) (s : State) : (s.viewRow y x cs).surfH = s.surfH := by
  obtain ⟨_, _, _, _, _, _, _, _, _, h⟩ := viewRow_shape y x cs s; rw [h]
@[simp] theorem viewRow_plut (y : Nat) (x : Nat) (cs : List RGB) (s : State) : (s.viewRow y x cs).plut = s.plut := by
  obtain ⟨_, _, _, _, _, _, _, _, _, h⟩ := viewRow_shape y x cs s; rw [h]
@[simp] theorem viewRow_pal (y : Nat) (x : Nat) (cs : List RGB) (s : State) : (s.viewRow y x cs).pal = s.pal := by
  obtain ⟨_, _, _, _, _, _, _, _, _, h⟩ := viewRow_shape y x cs s; rw [h]
@[simp] theorem viewRow_mono (y : Nat) (x : Nat) (cs : List RGB) (s : State) : (s.viewRow y x cs).mono = s.mono := by
  obtain ⟨_, _, _, _, _, _, _, _, _, h⟩ := viewRow_shape y x cs s; rw [h]
@[simp] theorem viewRow_cmdq (y : Nat) (x : Nat) (cs : List RGB) (s : State) : (s.viewRow y x cs).cmdq = s.cmdq := by
  obtain ⟨_, _, _, _, _, _, _, _, _, h⟩ := viewRow_shape y x cs s; rw [h]
@[simp] theorem viewRow_rspq (y : Nat) (x : Nat) (cs : List RGB) (s : State) : (s.viewRow y x cs).rspq = s.rspq := by
  obtain ⟨_, _, _, _, _, _, _, _, _, h⟩ := viewRow_shape y x cs s; rw [h]
@[simp] theorem viewRow_progq (y : Nat) (x : Nat) (cs : List RGB) (s : State) : (s.viewRow y x cs).progq = s.progq := by
  obtain ⟨_, _, _, _, _, _, _, _, _, h⟩ := viewRow_shape y x cs s; rw [h]
@[simp] theorem viewRow_halted (y : Nat) (x : Nat) (cs : List RGB) (s : State) : (s.viewRow y x cs).halted = s.halted := by
  obtain ⟨_, _, _, _, _, _, _, _, _, h⟩ := viewRow_shape y x cs s; rw [h]
@[simp] theorem viewRow_seq (y : Nat) (x : Nat) (cs : List RGB) (s : State) : (s.viewRow y x cs).seq = s.seq := by
  obtain ⟨_, _, _, _, _, _, _, _, _, h⟩ := viewRow_shape y x cs s; rw [h]
@[simp] theorem viewRow_params (y : Nat) (x : Nat) (cs : List RGB) (s : State) : (s.viewRow y x cs).params = s.params := by
  obtain ⟨_, _, _, _, _, _, _, _, _, h⟩ := viewRow_shape y x cs s; rw [h]
@[simp] theorem viewRow_bsTotals (y : Nat) (x : Nat) (cs : List RGB) (s : State) : (s.viewRow y x cs).bsTotals = s.bsTotals := by
  obtain ⟨_, _, _, _, _, _, _, _, _, h⟩ := viewRow_shape y x cs s; rw [h]
@[simp] theorem viewRow_bsReads (y : Nat) (x : Nat) (cs : List RGB) (s : State) : (s.viewRow y x cs).bsReads = s.bsReads := by
  obtain ⟨_, _, _, _, _, _, _, _, _, h⟩ := viewRow_shape y x cs s; rw [h]
@[simp] theorem viewRow_bdInits (y : Nat) (x : Nat) (cs : List RGB) (s : State) : (s.viewRow y x cs).bdInits = s.bdInits := by
  obtain ⟨_, _, _, _, _, _, _, _, _, h⟩ := viewRow_shape y x cs s; rw [h]
@[simp] theorem viewRow_dropped (y : Nat) (x : Nat) (cs : List RGB) (s : State) : (s.viewRow y x cs).dropped = s.dropped := by
  obtain ⟨_, _, _, _, _, _, _, _, _, h⟩ := viewRow_shape y x cs s; rw [h]
@[simp] theorem viewRow_rowsOfDecode (y : Nat) (x : Nat) (cs : List RGB) (s : State) : (s.viewRow y x cs).rowsOfDecode = s.rowsOfDecode := by
  obtain ⟨_, _, _, _, _, _, _, _, _, h⟩ := viewRow_shape y x cs s; rw [h]
@[simp] theorem viewRow_bdMcus (y : Nat) (x : Nat) (cs : List RGB) (s : State) : (s.viewRow y x cs).bdMcus = s.bdMcus := by
  obtain ⟨_, _, _, _, _, _, _, _, _, h⟩ := viewRow_shape y x cs s; rw [h]
@[simp] theorem viewRow_reqs (y : Nat) (x : Nat) (cs : List RGB) (s : State) : (s.viewRow y x cs).reqs = s.reqs := by
  obtain ⟨_, _, _, _, _, _, _, _, _, h⟩ := viewRow_shape y x cs s; rw [h]
@[simp] theorem viewRow_qmode (y : Nat) (x : Nat) (cs : List RGB) (s : State) : (s.viewRow y x cs).qmode = s.qmode := by
  obtain ⟨_, _, _, _, _, _, _, _, _, h⟩ := viewRow_shape y x cs s; rw [h]; rfl
@[simp] theorem viewRow_progen (y : Nat) (x : Nat) (cs : List RGB) (s : State) : (s.viewRow y x cs).progen = s.progen := by
  obtain ⟨_, _, _, _, _, _, _, _, _, h⟩ := viewRow_shape y x cs s; rw [h]; rfl
@[simp] theorem viewRow_swap565 (y : Nat) (x : Nat) (cs : List RGB) (s : State) : (s.viewRow y x cs).swap565 = s.swap565 := by
  obtain ⟨_, _, _, _, _, _, _, _, _, h⟩ := viewRow_shape y x cs s; rw [h]; rfl
@[simp] theorem viewRow_vfirst (y : Nat) (x : Nat) (cs : List RGB) (s : State) : (s.viewRow y x cs).vfirst = s.vfirst := by
  obtain ⟨_, _, _, _, _, _, _, _, _, h⟩ := viewRow_shape y x cs s; rw [h]; rfl
@[simp] theorem viewRow_stride (y : Nat) (x : Nat) (cs : List RGB) (s : State) : (s.viewRow y x cs).stride = s.stride := by
  obtain ⟨_, _, _, _, _, _, _, _, _, h⟩ := viewRow_shape y x cs s; rw [h]; rfl
@[simp] theorem viewRow_planeBytes (y : Nat) (x : Nat) (cs : List RGB) (s : State) : (s.viewRow y x cs).planeBytes = s.planeBytes := by
  obtain ⟨_, _, _, _, _, _, _, _, _, h⟩ := viewRow_shape y x cs s; rw [h]; rfl
@[simp] theorem viewRow_surfBytes (y : Nat) (x : Nat) (cs : List RGB) (s : State) : (s.viewRow y x cs).surfBytes = s.surfBytes := by
  obtain ⟨_, _, _, _, _, _, _, _, _, h⟩ := viewRow_shape y x cs s; rw [h]; rfl
@[simp] theorem viewRow_inside (y : Nat) (x : Nat) (cs : List RGB) (x' y' : Nat) (s : State) : (s.viewRow y x cs).inside x' y' = s.inside x' y' := by
  obtain ⟨_, _, _, _, _, _, _, _, _, h⟩ := viewRow_shape y x cs s; rw [h]; rfl
@[simp] theorem viewRow_pixelAddr (y : Nat) (x : Nat) (cs : List RGB) (x' y' : Nat) (s : State) : (s.viewRow y x cs).pixelAddr x' y' = s.pixelAddr x' y' := by
  obtain ⟨_, _, _, _, _, _, _, _, _, h⟩ := viewRow_shape y x cs s; rw [h]; rfl
@[simp] theorem viewRow_nearest (y : Nat) (x : Nat) (cs : List RGB) (c' : Lab) (s : State) : (s.viewRow y x cs).nearest c' = s.nearest c' := by
  obtain ⟨_, _, _, _, _, _, _, _, _, h⟩ := viewRow_shape y x cs s; rw [h]; rfl
@[simp] theorem viewRow_nearestEntry (y : Nat) (x : Nat) (cs : List RGB) (c' : Lab) (s : State) : (s.viewRow y x cs).nearestEntry c' = s.nearestEntry c' := by
  obtain ⟨_, _, _, _, _, _, _, _, _, h⟩ := viewRow_shape y x cs s; rw [h]; rfl
@[simp] theorem viewRow_clipW (y : Nat) (x : Nat) (cs : List RGB) (n' : Nat) (s : State) : (s.viewRow y x cs).clipW n' = s.clipW n' := by
  obtain ⟨_, _, _, _, _, _, _, _, _, h⟩ := viewRow_shape y x cs s; rw [h]; rfl
@[simp] theorem viewRow_clipH (y : Nat) (x : Nat) (cs : List RGB) (n' : Nat) (s : State) : (s.viewRow y x cs).clipH n' = s.clipH n' := by
  obtain ⟨_, _, _, _, _, _, _, _, _, h⟩ := viewRow_shape y x cs s; rw [h]; rfl

/-! `progress` -/

theorem progress_shape (r n : Nat) (s : State) :
    ∃ pq, s.progress r n =
      { s with progq := pq } := by
  unfold State.progress
  split <;> exact ⟨_, rfl⟩

@[simp] theorem progress_r0 (r n : Nat) (s : State) : (s.progress r n).r0 = s.r0 := by
  obtain ⟨_, h⟩ := progress_shape r n s; rw [h]
@[simp] theorem progress_r1 (r n : Nat) (s : State) : (s.progress r n).r1 = s.r1 := by
  obtain ⟨_, h⟩ := progress_shape r n s; rw [h]
@[simp] theorem progress_r2 (r n : Nat) (s : State) : (s.progress r n).r2 = s.r2 := by
  obtain ⟨_, h⟩ := progress_shape r n s; rw [h]
@[simp] theorem progress_r3 (r n : Nat) (s : State) : (s.progress r n).r3 = s.r3 := by
  obtain ⟨_, h⟩ := progress_shape r n s; rw [h]
@[simp] theorem progress_err (r n : Nat) (s : State) : (s.progress r n).err = s.err := by
  obtain ⟨_, h⟩ := progress_shape r n s; rw [h]
@[simp] theorem progress_bderr (r n : Nat) (s : State) : (s.progress r n).bderr = s.bderr := by
  obtain ⟨_, h⟩ := progress_shape r n s; rw [h]
@[simp] theorem progress_fails (r n : Nat) (s : State) : (s.progress r n).fails = s.fails := by
  obtain ⟨_, h⟩ := progress_shape r n s; rw [h]
@[simp] theorem progress_notfound (r n : Nat) (s : State) : (s.progress r n).notfound = s.notfound := by
  obtain ⟨_, h⟩ := progress_shape r n s; rw [h]
@[simp] theorem progress_sat (r n : Nat) (s : State) : (s.progress r n).sat = s.sat := by
  obtain ⟨_, h⟩ := progress_shape r n s; rw [h]
@[simp] theorem progress_cmdcnt (r n : Nat) (s : State) : (s.progress r n).cmdcnt = s.cmdcnt := by
  obtain ⟨_, h⟩ := progress_shape r n s; rw [h]
@[simp] theorem progress_ctrl (r n : Nat) (s : State) : (s.progress r n).ctrl = s.ctrl := by
  obtain ⟨_, h⟩ := progress_shape r n s; rw [h]
@[simp] theorem progress_acc (r n : Nat) (s : State) : (s.progress r n).acc = s.acc := by
  obtain ⟨_, h⟩ := progress_shape r n s; rw [h]
@[simp] theorem progress_fmt (r n : Nat) (s : State) : (s.progress r n).fmt = s.fmt := by
  obtain ⟨_, h⟩ := progress_shape r n s; rw [h]
@[simp] theorem progress_surfW (r n : Nat) (s : State) : (s.progress r n).surfW = s.surfW := by
  obtain ⟨_, h⟩ := progress_shape r n s; rw [h]
@[simp] theorem progress_surfH (r n : Nat) (s : State) : (s.progress r n).surfH = s.surfH := by
  obtain ⟨_, h⟩ := progress_shape r n s; rw [h]
@[simp] theorem progress_plut (r n : Nat) (s : State) : (s.progress r n).plut = s.plut := by
  obtain ⟨_, h⟩ := progress_shape r n s; rw [h]
@[simp] theorem progress_pal (r n : Nat) (s : State) : (s.progress r n).pal = s.pal := by
  obtain ⟨_, h⟩ := progress_shape r n s; rw [h]
@[simp] theorem progress_mono (r n : Nat) (s : State) : (s.progress r n).mono = s.mono := by
  obtain ⟨_, h⟩ := progress_shape r n s; rw [h]
@[simp] theorem progress_curValid (r n : Nat) (s : State) : (s.progress r n).curValid = s.curValid := by
  obtain ⟨_, h⟩ := progress_shape r n s; rw [h]
@[simp] theorem progress_curRow (r n : Nat) (s : State) : (s.progress r n).curRow = s.curRow := by
  obtain ⟨_, h⟩ := progress_shape r n s; rw [h]
@[simp] theorem progress_thisRow (r n : Nat) (s : State) : (s.progress r n).thisRow = s.thisRow := by
  obtain ⟨_, h⟩ := progress_shape r n s; rw [h]
@[simp] theorem progress_nextRow (r n : Nat) (s : State) : (s.progress r n).nextRow = s.nextRow := by
  obtain ⟨_, h⟩ := progress_shape r n s; rw [h]
@[simp] theorem progress_fb (r n : Nat) (s : State) : (s.progress r n).fb = s.fb := by
  obtain ⟨_, h⟩ := progress_shape r n s; rw [h]
@[simp] theorem progress_fbc (r n : Nat) (s : State) : (s.progress r n).fbc = s.fbc := by
  obtain ⟨_, h⟩ := progress_shape r n s; rw [h]
@[simp] theorem progress_cmdq (r n : Nat) (s : State) : (s.progress r n).cmdq = s.cmdq := by
  obtain ⟨_, h⟩ := progress_shape r n s; rw [h]
@[simp] theorem progress_rspq (r n : Nat) (s : State) : (s.progress r n).rspq = s.rspq := by
  obtain ⟨_, h⟩ := progress_shape r n s; rw [h]
@[simp] theorem progress_halted (r n : Nat) (s : State) : (s.progress r n).halted = s.halted := by
  obtain ⟨_, h⟩ := progress_shape r n s; rw [h]
@[simp] theorem progress_seq (r n : Nat) (s : State) : (s.progress r n).seq = s.seq := by
  obtain ⟨_, h⟩ := progress_shape r n s; rw [h]
@[simp] theorem progress_params (r n : Nat) (s : State) : (s.progress r n).params = s.params := by
  obtain ⟨_, h⟩ := progress_shape r n s; rw [h]
@[simp] theorem progress_bsTotals (r n : Nat) (s : State) : (s.progress r n).bsTotals = s.bsTotals := by
  obtain ⟨_, h⟩ := progress_shape r n s; rw [h]
@[simp] theorem progress_bsReads (r n : Nat) (s : State) : (s.progress r n).bsReads = s.bsReads := by
  obtain ⟨_, h⟩ := progress_shape r n s; rw [h]
@[simp] theorem progress_bdInits (r n : Nat) (s : State) : (s.progress r n).bdInits = s.bdInits := by
  obtain ⟨_, h⟩ := progress_shape r n s; rw [h]
@[simp] theorem progress_dropped (r n : Nat) (s : State) : (s.progress r n).dropped = s.dropped := by
  obtain ⟨_, h⟩ := progress_shape r n s; rw [h]
@[simp] theorem progress_rowsOfDecode (r n : Nat) (s : State) : (s.progress r n).rowsOfDecode = s.rowsOfDecode := by
  obtain ⟨_, h⟩ := progress_shape r n s; rw [h]
@[simp] theorem progress_bdMcus (r n : Nat) (s : State) : (s.progress r n).bdMcus = s.bdMcus := by
  obtain ⟨_, h⟩ := progress_shape r n s; rw [h]
@[simp] theorem progress_reqs (r n : Nat) (s : State) : (s.progress r n).reqs = s.reqs := by
  obtain ⟨_, h⟩ := progress_shape r n s; rw [h]
@[simp] theorem progress_choices (r n : Nat) (s : State) : (s.progress r n).choices = s.choices := by
  obtain ⟨_, h⟩ := progress_shape r n s; rw [h]
@[simp] theorem progress_qmode (r n : Nat) (s : State) : (s.progress r n).qmode = s.qmode := by
  obtain ⟨_, h⟩ := progress_shape r n s; rw [h]; rfl
@[simp] theorem progress_progen (r n : Nat) (s : State) : (s.progress r n).progen = s.progen := by
  obtain ⟨_, h⟩ := progress_shape r n s; rw [h]; rfl
@[simp] theorem progress_swap565 (r n : Nat) (s : State) : (s.progress r n).swap565 = s.swap565 := by
  obtain ⟨_, h⟩ := progress_shape r n s; rw [h]; rfl
@[simp] theorem progress_vfirst (r n : Nat) (s : State) : (s.progress r n).vfirst = s.vfirst := by
  obtain ⟨_, h⟩ := progress_shape r n s; rw [h]; rfl
@[simp] theorem progress_stride (r n : Nat) (s : State) : (s.progress r n).stride = s.stride := by
  obtain ⟨_, h⟩ := progress_shape r n s; rw [h]; rfl
@[simp] theorem progress_planeBytes (r n : Nat) (s : State) : (s.progress r n).planeBytes = s.planeBytes := by
  obtain ⟨_, h⟩ := progress_shape r n s; rw [h]; rfl
@[simp] theorem progress_surfBytes (r n : Nat) (s : State) : (s.progress r n).surfBytes = s.surfBytes := by
  obtain ⟨_, h⟩ := progress_shape r n s; rw [h]; rfl
@[simp] theorem progress_inside (r n : Nat) (x' y' : Nat) (s : State) : (s.progress r n).inside x' y' = s.inside x' y' := by
  obtain ⟨_, h⟩ := progress_shape r n s; rw [h]; rfl
@[simp] theorem progress_pixelAddr (r n : Nat) (x' y' : Nat) (s : State) : (s.progress r n).pixelAddr x' y' = s.pixelAddr x' y' := by
  obtain ⟨_, h⟩ := progress_shape r n s; rw [h]; rfl
@[simp] theorem progress_memRead (r n : Nat) (a' : Nat) (s : State) : (s.progress r n).memRead a' = s.memRead a' := by
  obtain ⟨_, h⟩ := progress_shape r n s; rw [h]; rfl
@[simp] theorem progress_sinkByte (r n : Nat) (a' : Nat) (s : State) : (s.progress r n).sinkByte a' = s.sinkByte a' := by
  obtain ⟨_, h⟩ := progress_shape r n s; rw [h]; rfl
@[simp] theorem progress_nearest (r n : Nat) (c' : Lab) (s : State) : (s.progress r n).nearest c' = s.nearest c' := by
  obtain ⟨_, h⟩ := progress_shape r n s; rw [h]; rfl
@[simp] theorem progress_nearestEntry (r n : Nat) (c' : Lab) (s : State) : (s.progress r n).nearestEntry c' = s.nearestEntry c' := by
  obtain ⟨_, h⟩ := progress_shape r n s; rw [h]; rfl
@[simp] theorem progress_clipW (r n : Nat) (n' : Nat) (s : State) : (s.progress r n).clipW n' = s.clipW n' := by
  obtain ⟨_, h⟩ := progress_shape r n s; rw [h]; rfl
@[simp] theorem progress_clipH (r n : Nat) (n' : Nat) (s : State) : (s.progress r n).clipH n' = s.clipH n' := by
  obtain ⟨_, h⟩ := progress_shape r n s; rw [h]; rfl
@[simp] theorem progress_surfGet (r n : Nat) (x' y' : Nat) (s : State) : (s.progress r n).surfGet x' y' = s.surfGet x' y' := by
  obtain ⟨_, h⟩ := progress_shape r n s; rw [h]; rfl

/-! `emitRow` -/

theorem emitRow_shape (w h y : Nat) (f : Nat → RGB) (s : State) :
    ∃ fb fbc n nf st tr nr cr cv, s.emitRow w h y f =
      { s with fb := fb, fbc := fbc, choices := n, notfound := nf, sat := st, thisRow := tr, nextRow := nr, curRow := cr, curValid := cv } := by
  unfold State.emitRow
  split
  · exact viewRow_shape _ _ _ _
  · exact ⟨_, _, _, _, _, _, _, _, _, rfl⟩

@[simp] theorem emitRow_r0 (w h y : Nat) (f : Nat → RGB) (s : State) : (s.emitRow w h y f).r0 = s.r0 := by
  obtain ⟨_, _, _, _, _, _, _, _, _, h⟩ := emitRow_shape w h y f s; rw [h]
@[simp] theorem emitRow_r1 (w h y : Nat) (f : Nat → RGB) (s : State) : (s.emitRow w h y f).r1 = s.r1 := by
  obtain ⟨_, _, _, _, _, _, _, _, _, h⟩ := emitRow_shape w h y f s; rw [h]
@[simp] theorem emitRow_r2 (w h y : Nat) (f : Nat → RGB) (s : State) : (s.emitRow w h y f).r2 = s.r2 := by
  obtain ⟨_, _, _, _, _, _, _, _, _, h⟩ := emitRow_shape w h y f s; rw [h]
@[simp] theorem emitRow_r3 (w h y : Nat) (f : Nat → RGB) (s : State) : (s.emitRow w h y f).r3 = s.r3 := by
  obtain ⟨_, _, _, _, _, _, _, _, _, h⟩ := emitRow_shape w h y f s; rw [h]
@[simp] theorem emitRow_err (w h y : Nat) (f : Nat → RGB) (s : State) : (s.emitRow w h y f).err = s.err := by
  obtain ⟨_, _, _, _, _, _, _, _, _, h⟩ := emitRow_shape w h y f s; rw [h]
@[simp] theorem emitRow_bderr (w h y : Nat) (f : Nat → RGB) (s : State) : (s.emitRow w h y f).bderr = s.bderr := by
  obtain ⟨_, _, _, _, _, _, _, _, _, h⟩ := emitRow_shape w h y f s; rw [h]
@[simp] theorem emitRow_fails (w h y : Nat) (f : Nat → RGB) (s : State) : (s.emitRow w h y f).fails = s.fails := by
  obtain ⟨_, _, _, _, _, _, _, _, _, h⟩ := emitRow_shape w h y f s; rw [h]
@[simp] theorem emitRow_cmdcnt (w h y : Nat) (f : Nat → RGB) (s : State) : (s.emitRow w h y f).cmdcnt = s.cmdcnt := by
  obtain ⟨_, _, _, _, _, _, _, _, _, h⟩ := emitRow_shape w h y f s; rw [h]
@[simp] theorem emitRow_ctrl (w h y : Nat) (f : Nat → RGB) (s : State) : (s.emitRow w h y f).ctrl = s.ctrl := by
  obtain ⟨_, _, _, _, _, _, _, _, _, h⟩ := emitRow_shape w h y f s; rw [h]
@[simp] theorem emitRow_acc (w h y : Nat) (f : Nat → RGB) (s : State) : (s.emitRow w h y f).acc = s.acc := by
  obtain ⟨_, _, _, _, _, _, _, _, _, h⟩ := emitRow_shape w h y f s; rw [h]
@[simp] theorem emitRow_fmt (w h y : Nat) (f : Nat → RGB) (s : State) : (s.emitRow w h y f).fmt = s.fmt := by
  obtain ⟨_, _, _, _, _, _, _, _, _, h⟩ := emitRow_shape w h y f s; rw [h]
@[simp] theorem emitRow_surfW (w h y : Nat) (f : Nat → RGB) (s : State) : (s.emitRow w h y f).surfW = s.surfW := by
  obtain ⟨_, _, _, _, _, _, _, _, _, h⟩ := emitRow_shape w h y f s; rw [h]
@[simp] theorem emitRow_surfH (w h y : Nat) (f : Nat → RGB) (s : State) : (s.emitRow w h y f).surfH = s.surfH := by
  obtain ⟨_, _, _, _, _, _, _, _, _, h⟩ := emitRow_shape w h y f s; rw [h]
@[simp] theorem emitRow_plut (w h y : Nat) (f : Nat → RGB) (s : State) : (s.emitRow w h y f).plut = s.plut := by
  obtain ⟨_, _, _, _, _, _, _, _, _, h⟩ := emitRow_shape w h y f s; rw [h]
@[simp] theorem emitRow_pal (w h y : Nat) (f : Nat → RGB) (s : State) : (s.emitRow w h y f).pal = s.pal := by
  obtain ⟨_, _, _, _, _, _, _, _, _, h⟩ := emitRow_shape w h y f s; rw [h]
@[simp] theorem emitRow_mono (w h y : Nat) (f : Nat → RGB) (s : State) : (s.emitRow w h y f).mono = s.mono := by
  obtain ⟨_, _, _, _, _, _, _, _, _, h⟩ := emitRow_shape w h y f s; rw [h]
@[simp] theorem emitRow_cmdq (w h y : Nat) (f : Nat → RGB) (s : State) : (s.emitRow w h y f).cmdq = s.cmdq := by
  obtain ⟨_, _, _, _, _, _, _, _, _, h⟩ := emitRow_shape w h y f s; rw [h]
@[simp] theorem emitRow_rspq (w h y : Nat) (f : Nat → RGB) (s : State) : (s.emitRow w h y f).rspq = s.rspq := by
  obtain ⟨_, _, _, _, _, _, _, _, _, h⟩ := emitRow_shape w h y f s; rw [h]
@[simp] theorem emitRow_progq (w h y : Nat) (f : Nat → RGB) (s : State) : (s.emitRow w h y f).progq = s.progq := by
  obtain ⟨_, _, _, _, _, _, _, _, _, h⟩ := emitRow_shape w h y f s; rw [h]
@[simp] theorem emitRow_halted (w h y : Nat) (f : Nat → RGB) (s : State) : (s.emitRow w h y f).halted = s.halted := by
  obtain ⟨_, _, _, _, _, _, _, _, _, h⟩ := emitRow_shape w h y f s; rw [h]
@[simp] theorem emitRow_seq (w h y : Nat) (f : Nat → RGB) (s : State) : (s.emitRow w h y f).seq = s.seq := by
  obtain ⟨_, _, _, _, _, _, _, _, _, h⟩ := emitRow_shape w h y f s; rw [h]
@[simp] theorem emitRow_params (w h y : Nat) (f : Nat → RGB) (s : State) : (s.emitRow w h y f).params = s.params := by
  obtain ⟨_, _, _, _, _, _, _, _, _, h⟩ := emitRow_shape w h y f s; rw [h]
@[simp] theorem emitRow_bsTotals (w h y : Nat) (f : Nat → RGB) (s : State) : (s.emitRow w h y f).bsTotals = s.bsTotals := by
  obtain ⟨_, _, _, _, _, _, _, _, _, h⟩ := emitRow_shape w h y f s; rw [h]
@[simp] theorem emitRow_bsReads (w h y : Nat) (f : Nat → RGB) (s : State) : (s.emitRow w h y f).bsReads = s.bsReads := by
  obtain ⟨_, _, _, _, _, _, _, _, _, h⟩ := emitRow_shape w h y f s; rw [h]
@[simp] theorem emitRow_bdInits (w h y : Nat) (f : Nat → RGB) (s : State) : (s.emitRow w h y f).bdInits = s.bdInits := by
  obtain ⟨_, _, _, _, _, _, _, _, _, h⟩ := emitRow_shape w h y f s; rw [h]
@[simp] theorem emitRow_dropped (w h y : Nat) (f : Nat → RGB) (s : State) : (s.emitRow w h y f).dropped = s.dropped := by
  obtain ⟨_, _, _, _, _, _, _, _, _, h⟩ := emitRow_shape w h y f s; rw [h]
@[simp] theorem emitRow_rowsOfDecode (w h y : Nat) (f : Nat → RGB) (s : State) : (s.emitRow w h y f).rowsOfDecode = s.rowsOfDecode := by
  obtain ⟨_, _, _, _, _, _, _, _, _, h⟩ := emitRow_shape w h y f s; rw [h]
@[simp] theorem emitRow_bdMcus (w h y : Nat) (f : Nat → RGB) (s : State) : (s.emitRow w h y f).bdMcus = s.bdMcus := by
  obtain ⟨_, _, _, _, _, _, _, _, _, h⟩ := emitRow_shape w h y f s; rw [h]
@[simp] theorem emitRow_reqs (w h y : Nat) (f : Nat → RGB) (s : State) : (s.emitRow w h y f).reqs = s.reqs := by
  obtain ⟨_, _, _, _, _, _, _, _, _, h⟩ := emitRow_shape w h y f s; rw [h]
@[simp] theorem emitRow_qmode (w h y : Nat) (f : Nat → RGB) (s : State) : (s.emitRow w h y f).qmode = s.qmode := by
  obtain ⟨_, _, _, _, _, _, _, _, _, h⟩ := emitRow_shape w h y f s; rw [h]; rfl
@[simp] theorem emitRow_progen (w h y : Nat) (f : Nat → RGB) (s : State) : (s.emitRow w h y f).progen = s.progen := by
  obtain ⟨_, _, _, _, _, _, _, _, _, h⟩ := emitRow_shape w h y f s; rw [h]; rfl
@[simp] theorem emitRow_swap565 (w h y : Nat) (f : Nat → RGB) (s : State) : (s.emitRow w h y f).swap565 = s.swap565 := by
  obtain ⟨_, _, _, _, _, _, _, _, _, h⟩ := emitRow_shape w h y f s; rw [h]; rfl
@[simp] theorem emitRow_vfirst (w h y : Nat) (f : Nat → RGB) (s : State) : (s.emitRow w h y f).vfirst = s.vfirst := by
  obtain ⟨_, _, _, _, _, _, _, _, _, h⟩ := emitRow_shape w h y f s; rw [h]; rfl
@[simp] theorem emitRow_stride (w h y : Nat) (f : Nat → RGB) (s : State) : (s.emitRow w h y f).stride = s.stride := by
  obtain ⟨_, _, _, _, _, _, _, _, _, h⟩ := emitRow_shape w h y f s; rw [h]; rfl
@[simp] theorem emitRow_planeBytes (w h y : Nat) (f : Nat → RGB) (s : State) : (s.emitRow w h y f).planeBytes = s.planeBytes := by
  obtain ⟨_, _, _, _, _, _, _, _, _, h⟩ := emitRow_shape w h y f s; rw [h]; rfl
@[simp] theorem emitRow_surfBytes (w h y : Nat) (f : Nat → RGB) (s : State) : (s.emitRow w h y f).surfBytes = s.surfBytes := by
  obtain ⟨_, _, _, _, _, _, _, _, _, h⟩ := emitRow_shape w h y f s; rw [h]; rfl
@[simp] theorem emitRow_inside (w h y : Nat) (f : Nat → RGB) (x' y' : Nat) (s : State) : (s.emitRow w h y f).inside x' y' = s.inside x' y' := by
  obtain ⟨_, _, _, _, _, _, _, _, _, h⟩ := emitRow_shape w h y f s; rw [h]; rfl
@[simp] theorem emitRow_pixelAddr (w h y : Nat) (f : Nat → RGB) (x' y' : Nat) (s : State) : (s.emitRow w h y f).pixelAddr x' y' = s.pixelAddr x' y' := by
  obtain ⟨_, _, _, _, _, _, _, _, _, h⟩ := emitRow_shape w h y f s; rw [h]; rfl
@[simp] theorem emitRow_nearest (w h y : Nat) (f : Nat → RGB) (c' : Lab) (s : State) : (s.emitRow w h y f).nearest c' = s.nearest c' := by
  obtain ⟨_, _, _, _, _, _, _, _, _, h⟩ := emitRow_shape w h y f s; rw [h]; rfl
@[simp] theorem emitRow_nearestEntry (w h y : Nat) (f : Nat → RGB) (c' : Lab) (s : State) : (s.emitRow w h y f).nearestEntry c' = s.nearestEntry c' := by
  obtain ⟨_, _, _, _, _, _, _, _, _, h⟩ := emitRow_shape w h y f s; rw [h]; rfl
@[simp] theorem emitRow_clipW (w h y : Nat) (f : Nat → RGB) (n' : Nat) (s : State) : (s.emitRow w h y f).clipW n' = s.clipW n' := by
  obtain ⟨_, _, _, _, _, _, _, _, _, h⟩ := emitRow_shape w h y f s; rw [h]; rfl
@[simp] theorem emitRow_clipH (w h y : Nat) (f : Nat → RGB) (n' : Nat) (s : State) : (s.emitRow w h y f).clipH n' = s.clipH n' := by
  obtain ⟨_, _, _, _, _, _, _, _, _, h⟩ := emitRow_shape w h y f s; rw [h]; rfl

/-! `emit3l` -/

theorem emit3l_shape (w h y : Nat) (p : List Byte) (a b : Option (List Byte)) (s : State) :
    ∃ fb fbc n nf st tr nr cr cv pq, s.emit3l w h y p a b =
      { s with fb := fb, fbc := fbc, choices := n, notfound := nf, sat := st, thisRow := tr, nextRow := nr, curRow := cr, curValid := cv, progq := pq } := by
  unfold State.emit3l
  generalize (fun x : Nat => _) = f
  obtain ⟨_, _, _, _, _, _, _, _, _, h2⟩ := emitRow_shape w h y f (s.progress y h)
  obtain ⟨_, h1⟩ := progress_shape y h s
  rw [h2, h1]
  exact ⟨_, _, _, _, _, _, _, _, _, _, rfl⟩

@[simp] theorem emit3l_r0 (w h y : Nat) (p : List Byte) (a b : Option (List Byte)) (s : State) : (s.emit3l w h y p a b).r0 = s.r0 := by
  obtain ⟨_, _, _, _, _, _, _, _, _, _, h⟩ := emit3l_shape w h y p a b s; rw [h]
@[simp] theorem emit3l_r1 (w h y : Nat) (p : List Byte) (a b : Option (List Byte)) (s : State) : (s.emit3l w h y p a b).r1 = s.r1 := by
  obtain ⟨_, _, _, _, _, _, _, _, _, _, h⟩ := emit3l_shape w h y p a b s; rw [h]
@[simp] theorem emit3l_r2 (w h y : Nat) (p : List Byte) (a b : Option (List Byte)) (s : State) : (s.emit3l w h y p a b).r2 = s.r2 := by
  obtain ⟨_, _, _, _, _, _, _, _, _, _, h⟩ := emit3l_shape w h y p a b s; rw [h]
@[simp] theorem emit3l_r3 (w h y : Nat) (p : List Byte) (a b : Option (List Byte)) (s : State) : (s.emit3l w h y p a b).r3 = s.r3 := by
  obtain ⟨_, _, _, _, _, _, _, _, _, _, h⟩ := emit3l_shape w h y p a b s; rw [h]
@[simp] theorem emit3l_err (w h y : Nat) (p : List Byte) (a b : Option (List Byte)) (s : State) : (s.emit3l w h y p a b).err = s.err := by
  obtain ⟨_, _, _, _, _, _, _, _, _, _, h⟩ := emit3l_shape w h y p a b s; rw [h]
@[simp] theorem emit3l_bderr (w h y : Nat) (p : List Byte) (a b : Option (List Byte)) (s : State) : (s.emit3l w h y p a b).bderr = s.bderr := by
  obtain ⟨_, _, _, _, _, _, _, _, _, _, h⟩ := emit3l_shape w h y p a b s; rw [h]
@[simp] theorem emit3l_fails (w h y : Nat) (p : List Byte) (a b : Option (List Byte)) (s : State) : (s.emit3l w h y p a b).fails = s.fails := by
  obtain ⟨_, _, _, _, _, _, _, _, _, _, h⟩ := emit3l_shape w h y p a b s; rw [h]
@[simp] theorem emit3l_cmdcnt (w h y : Nat) (p : List Byte) (a b : Option (List Byte)) (s : State) : (s.emit3l w h y p a b).cmdcnt = s.cmdcnt := by
  obtain ⟨_, _, _, _, _, _, _, _, _, _, h⟩ := emit3l_shape w h y p a b s; rw [h]
@[simp] theorem emit3l_ctrl (w h y : Nat) (p : List Byte) (a b : Option (List Byte)) (s : State) : (s.emit3l w h y p a b).ctrl = s.ctrl := by
  obtain ⟨_, _, _, _, _, _, _, _, _, _, h⟩ := emit3l_shape w h y p a b s; rw [h]
@[simp] theorem emit3l_acc (w h y : Nat) (p : List Byte) (a b : Option (List Byte)) (s : State) : (s.emit3l w h y p a b).acc = s.acc := by
  obtain ⟨_, _, _, _, _, _, _, _, _, _, h⟩ := emit3l_shape w h y p a b s; rw [h]
@[simp] theorem emit3l_fmt (w h y : Nat) (p : List Byte) (a b : Option (List Byte)) (s : State) : (s.emit3l w h y p a b).fmt = s.fmt := by
  obtain ⟨_, _, _, _, _, _, _, _, _, _, h⟩ := emit3l_shape w h y p a b s; rw [h]
@[simp] theorem emit3l_surfW (w h y : Nat) (p : List Byte) (a b : Option (List Byte)) (s : State) : (s.emit3l w h y p a b).surfW = s.surfW := by
  obtain ⟨_, _, _, _, _, _, _, _, _, _, h⟩ := emit3l_shape w h y p a b s; rw [h]
@[simp] theorem emit3l_surfH (w h y : Nat) (p : List Byte) (a b : Option (List Byte)) (s : State) : (s.emit3l w h y p a b).surfH = s.surfH := by
  obtain ⟨_, _, _, _, _, _, _, _, _, _, h⟩ := emit3l_shape w h y p a b s; rw [h]
@[simp] theorem emit3l_plut (w h y : Nat) (p : List Byte) (a b : Option (List Byte)) (s : State) : (s.emit3l w h y p a b).plut = s.plut := by
  obtain ⟨_, _, _, _, _, _, _, _, _, _, h⟩ := emit3l_shape w h y p a b s; rw [h]
@[simp] theorem emit3l_pal (w h y : Nat) (p : List Byte) (a b : Option (List Byte)) (s : State) : (s.emit3l w h y p a b).pal = s.pal := by
  obtain ⟨_, _, _, _, _, _, _, _, _, _, h⟩ := emit3l_shape w h y p a b s; rw [h]
@[simp] theorem emit3l_mono (w h y : Nat) (p : List Byte) (a b : Option (List Byte)) (s : State) : (s.emit3l w h y p a b).mono = s.mono := by
  obtain ⟨_, _, _, _, _, _, _, _, _, _, h⟩ := emit3l_shape w h y p a b s; rw [h]
@[simp] theorem emit3l_cmdq (w h y : Nat) (p : List Byte) (a b : Option (List Byte)) (s : State) : (s.emit3l w h y p a b).cmdq = s.cmdq := by
  obtain ⟨_, _, _, _, _, _, _, _, _, _, h⟩ := emit3l_shape w h y p a b s; rw [h]
@[simp] theorem emit3l_rspq (w h y : Nat) (p : List Byte) (a b : Option (List Byte)) (s : State) : (s.emit3l w h y p a b).rspq = s.rspq := by
  obtain ⟨_, _, _, _, _, _, _, _, _, _, h⟩ := emit3l_shape w h y p a b s; rw [h]
@[simp] theorem emit3l_halted (w h y : Nat) (p : List Byte) (a b : Option (List Byte)) (s : State) : (s.emit3l w h y p a b).halted = s.halted := by
  obtain ⟨_, _, _, _, _, _, _, _, _, _, h⟩ := emit3l_shape w h y p a b s; rw [h]
@[simp] theorem emit3l_seq (w h y : Nat) (p : List Byte) (a b : Option (List Byte)) (s : State) : (s.emit3l w h y p a b).seq = s.seq := by
  obtain ⟨_, _, _, _, _, _, _, _, _, _, h⟩ := emit3l_shape w h y p a b s; rw [h]
@[simp] theorem emit3l_params (w h y : Nat) (p : List Byte) (a b : Option (List Byte)) (s : State) : (s.emit3l w h y p a b).params = s.params := by
  obtain ⟨_, _, _, _, _, _, _, _, _, _, h⟩ := emit3l_shape w h y p a b s; rw [h]
@[simp] theorem emit3l_bsTotals (w h y : Nat) (p : List Byte) (a b : Option (List Byte)) (s : State) : (s.emit3l w h y p a b).bsTotals = s.bsTotals := by
  obtain ⟨_, _, _, _, _, _, _, _, _, _, h⟩ := emit3l_shape w h y p a b s; rw [h]
@[simp] theorem emit3l_bsReads (w h y : Nat) (p : List Byte) (a b : Option (List Byte)) (s : State) : (s.emit3l w h y p a b).bsReads = s.bsReads := by
  obtain ⟨_, _, _, _, _, _, _, _, _, _, h⟩ := emit3l_shape w h y p a b s; rw [h]
@[simp] theorem emit3l_bdInits (w h y : Nat) (p : List Byte) (a b : Option (List Byte)) (s : State) : (s.emit3l w h y p a b).bdInits = s.bdInits := by
  obtain ⟨_, _, _, _, _, _, _, _, _, _, h⟩ := emit3l_shape w h y p a b s; rw [h]
@[simp] theorem emit3l_dropped (w h y : Nat) (p : List Byte) (a b : Option (List Byte)) (s : State) : (s.emit3l w h y p a b).dropped = s.dropped := by
  obtain ⟨_, _, _, _, _, _, _, _, _, _, h⟩ := emit3l_shape w h y p a b s; rw [h]
@[simp] theorem emit3l_rowsOfDecode (w h y : Nat) (p : List Byte) (a b : Option (List Byte)) (s : State) : (s.emit3l w h y p a b).rowsOfDecode = s.rowsOfDecode := by
  obtain ⟨_, _, _, _, _, _, _, _, _, _, h⟩ := emit3l_shape w h y p a b s; rw [h]
@[simp] theorem emit3l_bdMcus (w h y : Nat) (p : List Byte) (a b : Option (List Byte)) (s : State) : (s.emit3l w h y p a b).bdMcus = s.bdMcus := by
  obtain ⟨_, _, _, _, _, _, _, _, _, _, h⟩ := emit3l_shape w h y p a b s; rw [h]
@[simp] theorem emit3l_reqs (w h y : Nat) (p : List Byte) (a b : Option (List Byte)) (s : State) : (s.emit3l w h y p a b).reqs = s.reqs := by
  obtain ⟨_, _, _, _, _, _, _, _, _, _, h⟩ := emit3l_shape w h y p a b s; rw [h]
@[simp] theorem emit3l_qmode (w h y : Nat) (p : List Byte) (a b : Option (List Byte)) (s : State) : (s.emit3l w h y p a b).qmode = s.qmode := by
  obtain ⟨_, _, _, _, _, _, _, _, _, _, h⟩ := emit3l_shape w h y p a b s; rw [h]; rfl
@[simp] theorem emit3l_progen (w h y : Nat) (p : List Byte) (a b : Option (List Byte)) (s : State) : (s.emit3l w h y p a b).progen = s.progen := by
  obtain ⟨_, _, _, _, _, _, _, _, _, _, h⟩ := emit3l_shape w h y p a b s; rw [h]; rfl
@[simp] theorem emit3l_swap565 (w h y : Nat) (p : List Byte) (a b : Option (List Byte)) (s : State) : (s.emit3l w h y p a b).swap565 = s.swap565 := by
  obtain ⟨_, _, _, _, _, _, _, _, _, _, h⟩ := emit3l_shape w h y p a b s; rw [h]; rfl
@[simp] theorem emit3l_vfirst (w h y : Nat) (p : List Byte) (a b : Option (List Byte)) (s : State) : (s.emit3l w h y p a b).vfirst = s.vfirst := by
  obtain ⟨_, _, _, _, _, _, _, _, _, _, h⟩ := emit3l_shape w h y p a b s; rw [h]; rfl
@[simp] theorem emit3l_stride (w h y : Nat) (p : List Byte) (a b : Option (List Byte)) (s : State) : (s.emit3l w h y p a b).stride = s.stride := by
  obtain ⟨_, _, _, _, _, _, _, _, _, _, h⟩ := emit3l_shape w h y p a b s; rw [h]; rfl
@[simp] theorem emit3l_planeBytes (w h y : Nat) (p : List Byte) (a b : Option (List Byte)) (s : State) : (s.emit3l w h y p a b).planeBytes = s.planeBytes := by
  obtain ⟨_, _, _, _, _, _, _, _, _, _, h⟩ := emit3l_shape w h y p a b s; rw [h]; rfl
@[simp] theorem emit3l_surfBytes (w h y : Nat) (p : List Byte) (a b : Option (List Byte)) (s : State) : (s.emit3l w h y p a b).surfBytes = s.surfBytes := by
  obtain ⟨_, _, _, _, _, _, _, _, _, _, h⟩ := emit3l_shape w h y p a b s; rw [h]; rfl
@[simp] theorem emit3l_inside (w h y : Nat) (p : List Byte) (a b : Option (List Byte)) (x' y' : Nat) (s : State) : (s.emit3l w h y p a b).inside x' y' = s.inside x' y' := by
  obtain ⟨_, _, _, _, _, _, _, _, _, _, h⟩ := emit3l_shape w h y p a b s; rw [h]; rfl
@[simp] theorem emit3l_pixelAddr (w h y : Nat) (p : List Byte) (a b : Option (List Byte)) (x' y' : Nat) (s : State) : (s.emit3l w h y p a b).pixelAddr x' y' = s.pixelAddr x' y' := by
  obtain ⟨_, _, _, _, _, _, _, _, _, _, h⟩ := emit3l_shape w h y p a b s; rw [h]; rfl
@[simp] theorem emit3l_nearest (w h y : Nat) (p : List Byte) (a b : Option (List Byte)) (c' : Lab) (s : State) : (s.emit3l w h y p a b).nearest c' = s.nearest c' := by
  obtain ⟨_, _, _, _, _, _, _, _, _, _, h⟩ := emit3l_shape w h y p a b s; rw [h]; rfl
@[simp] theorem emit3l_nearestEntry (w h y : Nat) (p : List Byte) (a b : Option (List Byte)) (c' : Lab) (s : State) : (s.emit3l w h y p a b).nearestEntry c' = s.nearestEntry c' := by
  obtain ⟨_, _, _, _, _, _, _, _, _, _, h⟩ := emit3l_shape w h y p a b s; rw [h]; rfl
@[simp] theorem emit3l_clipW (w h y : Nat) (p : List Byte) (a b : Option (List Byte)) (n' : Nat) (s : State) : (s.emit3l w h y p a b).clipW n' = s.clipW n' := by
  obtain ⟨_, _, _, _, _, _, _, _, _, _, h⟩ := emit3l_shape w h y p a b s; rw [h]; rfl
@[simp] theorem emit3l_clipH (w h y : Nat) (p : List Byte) (a b : Option (List Byte)) (n' : Nat) (s : State) : (s.emit3l w h y p a b).clipH n' = s.clipH n' := by
  obtain ⟨_, _, _, _, _, _, _, _, _, _, h⟩ := emit3l_shape w h y p a b s; rw [h]; rfl

/-! `beforeLine` -/

theorem beforeLine_shape (k : StreamKind) (h y : Nat) (s : State) :
    ∃ pq, s.beforeLine k h y =
      { s with progq := pq } := by
  unfold State.beforeLine
  split
  · exact progress_shape _ _ _
  · exact progress_shape _ _ _
  · exact progress_shape _ _ _
  · exact ⟨_, rfl⟩

@[simp] theorem beforeLine_r0 (k : StreamKind) (h y : Nat) (s : State) : (s.beforeLine k h y).r0 = s.r0 := by
  obtain ⟨_, h⟩ := beforeLine_shape k h y s; rw [h]
@[simp] theorem beforeLine_r1 (k : StreamKind) (h y : Nat) (s : State) : (s.beforeLine k h y).r1 = s.r1 := by
  obtain ⟨_, h⟩ := beforeLine_shape k h y s; rw [h]
@[simp] theorem beforeLine_r2 (k : StreamKind) (h y : Nat) (s : State) : (s.beforeLine k h y).r2 = s.r2 := by
  obtain ⟨_, h⟩ := beforeLine_shape k h y s; rw [h]
@[simp] theorem beforeLine_r3 (k : StreamKind) (h y : Nat) (s : State) : (s.beforeLine k h y).r3 = s.r3 := by
  obtain ⟨_, h⟩ := beforeLine_shape k h y s; rw [h]
@[simp] theorem beforeLine_err (k : StreamKind) (h y : Nat) (s : State) : (s.beforeLine k h y).err = s.err := by
  obtain ⟨_, h⟩ := beforeLine_shape k h y s; rw [h]
@[simp] theorem beforeLine_bderr (k : StreamKind) (h y : Nat) (s : State) : (s.beforeLine k h y).bderr = s.bderr := by
  obtain ⟨_, h⟩ := beforeLine_shape k h y s; rw [h]
@[simp] theorem beforeLine_fails (k : StreamKind) (h y : Nat) (s : State) : (s.beforeLine k h y).fails = s.fails := by
  obtain ⟨_, h⟩ := beforeLine_shape k h y s; rw [h]
@[simp] theorem beforeLine_notfound (k : StreamKind) (h y : Nat) (s : State) : (s.beforeLine k h y).notfound = s.notfound := by
  obtain ⟨_, h⟩ := beforeLine_shape k h y s; rw [h]
@[simp] theorem beforeLine_sat (k : StreamKind) (h y : Nat) (s : State) : (s.beforeLine k h y).sat = s.sat := by
  obtain ⟨_, h⟩ := beforeLine_shape k h y s; rw [h]
@[simp] theorem beforeLine_cmdcnt (k : StreamKind) (h y : Nat) (s : State) : (s.beforeLine k h y).cmdcnt = s.cmdcnt := by
  obtain ⟨_, h⟩ := beforeLine_shape k h y s; rw [h]
@[simp] theorem beforeLine_ctrl (k : StreamKind) (h y : Nat) (s : State) : (s.beforeLine k h y).ctrl = s.ctrl := by
  obtain ⟨_, h⟩ := beforeLine_shape k h y s; rw [h]
@[simp] theorem beforeLine_acc (k : StreamKind) (h y : Nat) (s : State) : (s.beforeLine k h y).acc = s.acc := by
  obtain ⟨_, h⟩ := beforeLine_shape k h y s; rw [h]
@[simp] theorem beforeLine_fmt (k : StreamKind) (h y : Nat) (s : State) : (s.beforeLine k h y).fmt = s.fmt := by
  obtain ⟨_, h⟩ := beforeLine_shape k h y s; rw [h]
@[simp] theorem beforeLine_surfW (k : StreamKind) (h y : Nat) (s : State) : (s.beforeLine k h y).surfW = s.surfW := by
  obtain ⟨_, h⟩ := beforeLine_shape k h y s; rw [h]
@[simp] theorem beforeLine_surfH (k : StreamKind) (h y : Nat) (s : State) : (s.beforeLine k h y).surfH = s.surfH := by
  obtain ⟨_, h⟩ := beforeLine_shape k h y s; rw [h]
@[simp] theorem beforeLine_plut (k : StreamKind) (h y : Nat) (s : State) : (s.beforeLine k h y).plut = s.plut := by
  obtain ⟨_, h⟩ := beforeLine_shape k h y s; rw [h]
@[simp] theorem beforeLine_pal (k : StreamKind) (h y : Nat) (s : State) : (s.beforeLine k h y).pal = s.pal := by
  obtain ⟨_, h⟩ := beforeLine_shape k h y s; rw [h]
@[simp] theorem beforeLine_mono (k : StreamKind) (h y : Nat) (s : State) : (s.beforeLine k h y).mono = s.mono := by
  obtain ⟨_, h⟩ := beforeLine_shape k h y s; rw [h]
@[simp] theorem beforeLine_curValid (k : StreamKind) (h y : Nat) (s : State) : (s.beforeLine k h y).curValid = s.curValid := by
  obtain ⟨_, h⟩ := beforeLine_shape k h y s; rw [h]
@[simp] theorem beforeLine_curRow (k : StreamKind) (h y : Nat) (s : State) : (s.beforeLine k h y).curRow = s.curRow := by
  obtain ⟨_, h⟩ := beforeLine_shape k h y s; rw [h]
@[simp] theorem beforeLine_thisRow (k : StreamKind) (h y : Nat) (s : State) : (s.beforeLine k h y).thisRow = s.thisRow := by
  obtain ⟨_, h⟩ := beforeLine_shape k h y s; rw [h]
@[simp] theorem beforeLine_nextRow (k : StreamKind) (h y : Nat) (s : State) : (s.beforeLine k h y).nextRow = s.nextRow := by
  obtain ⟨_, h⟩ := beforeLine_shape k h y s; rw [h]
@[simp] theorem beforeLine_fb (k : StreamKind) (h y : Nat) (s : State) : (s.beforeLine k h y).fb = s.fb := by
  obtain ⟨_, h⟩ := beforeLine_shape k h y s; rw [h]
@[simp] theorem beforeLine_fbc (k : StreamKind) (h y : Nat) (s : State) : (s.beforeLine k h y).fbc = s.fbc := by
  obtain ⟨_, h⟩ := beforeLine_shape k h y s; rw [h]
@[simp] theorem beforeLine_cmdq (k : StreamKind) (h y : Nat) (s : State) : (s.beforeLine k h y).cmdq = s.cmdq := by
  obtain ⟨_, h⟩ := beforeLine_shape k h y s; rw [h]
@[simp] theorem beforeLine_rspq (k : StreamKind) (h y : Nat) (s : State) : (s.beforeLine k h y).rspq = s.rspq := by
  obtain ⟨_, h⟩ := beforeLine_shape k h y s; rw [h]
@[simp] theorem beforeLine_halted (k : StreamKind) (h y : Nat) (s : State) : (s.beforeLine k h y).halted = s.halted := by
  obtain ⟨_, h⟩ := beforeLine_shape k h y s; rw [h]
@[simp] theorem beforeLine_seq (k : StreamKind) (h y : Nat) (s : State) : (s.beforeLine k h y).seq = s.seq := by
  obtain ⟨_, h⟩ := beforeLine_shape k h y s; rw [h]
@[simp] theorem beforeLine_params (k : StreamKind) (h y : Nat) (s : State) : (s.beforeLine k h y).params = s.params := by
  obtain ⟨_, h⟩ := beforeLine_shape k h y s; rw [h]
@[simp] theorem beforeLine_bsTotals (k : StreamKind) (h y : Nat) (s : State) : (s.beforeLine k h y).bsTotals = s.bsTotals := by
  obtain ⟨_, h⟩ := beforeLine_shape k h y s; rw [h]
@[simp] theorem beforeLine_bsReads (k : StreamKind) (h y : Nat) (s : State) : (s.beforeLine k h y).bsReads = s.bsReads := by
  obtain ⟨_, h⟩ := beforeLine_shape k h y s; rw [h]
@[simp] theorem beforeLine_bdInits (k : StreamKind) (h y : Nat) (s : State) : (s.beforeLine k h y).bdInits = s.bdInits := by
  obtain ⟨_, h⟩ := beforeLine_shape k h y s; rw [h]
@[simp] theorem beforeLine_dropped (k : StreamKind) (h y : Nat) (s : State) : (s.beforeLine k h y).dropped = s.dropped := by
  obtain ⟨_, h⟩ := beforeLine_shape k h y s; rw [h]
@[simp] theorem beforeLine_rowsOfDecode (k : StreamKind) (h y : Nat) (s : State) : (s.beforeLine k h y).rowsOfDecode = s.rowsOfDecode := by
  obtain ⟨_, h⟩ := beforeLine_shape k h y s; rw [h]
@[simp] theorem beforeLine_bdMcus (k : StreamKind) (h y : Nat) (s : State) : (s.beforeLine k h y).bdMcus = s.bdMcus := by
  obtain ⟨_, h⟩ := beforeLine_shape k h y s; rw [h]
@[simp] theorem beforeLine_reqs (k : StreamKind) (h y : Nat) (s : State) : (s.beforeLine k h y).reqs = s.reqs := by
  obtain ⟨_, h⟩ := beforeLine_shape k h y s; rw [h]
@[simp] theorem beforeLine_choices (k : StreamKind) (h y : Nat) (s : State) : (s.beforeLine k h y).choices = s.choices := by
  obtain ⟨_, h⟩ := beforeLine_shape k h y s; rw [h]
@[simp] theorem beforeLine_qmode (k : StreamKind) (h y : Nat) (s : State) : (s.beforeLine k h y).qmode = s.qmode := by
  obtain ⟨_, h⟩ := beforeLine_shape k h y s; rw [h]; rfl
@[simp] theorem beforeLine_progen (k : StreamKind) (h y : Nat) (s : State) : (s.beforeLine k h y).progen = s.progen := by
  obtain ⟨_, h⟩ := beforeLine_shape k h y s; rw [h]; rfl
@[simp] theorem beforeLine_swap565 (k : StreamKind) (h y : Nat) (s : State) : (s.beforeLine k h y).swap565 = s.swap565 := by
  obtain ⟨_, h⟩ := beforeLine_shape k h y s; rw [h]; rfl
@[simp] theorem beforeLine_vfirst (k : StreamKind) (h y : Nat) (s : State) : (s.beforeLine k h y).vfirst = s.vfirst := by
  obtain ⟨_, h⟩ := beforeLine_shape k h y s; rw [h]; rfl
@[simp] theorem beforeLine_stride (k : StreamKind) (h y : Nat) (s : State) : (s.beforeLine k h y).stride = s.stride := by
  obtain ⟨_, h⟩ := beforeLine_shape k h y s; rw [h]; rfl
@[simp] theorem beforeLine_planeBytes (k : StreamKind) (h y : Nat) (s : State) : (s.beforeLine k h y).planeBytes = s.planeBytes := by
  obtain ⟨_, h⟩ := beforeLine_shape k h y s; rw [h]; rfl
@[simp] theorem beforeLine_surfBytes (k : StreamKind) (h y : Nat) (s : State) : (s.beforeLine k h y).surfBytes = s.surfBytes := by
  obtain ⟨_, h⟩ := beforeLine_shape k h y s; rw [h]; rfl
@[simp] theorem beforeLine_inside (k : StreamKind) (h y : Nat) (x' y' : Nat) (s : State) : (s.beforeLine k h y).inside x' y' = s.inside x' y' := by
  obtain ⟨_, h⟩ := beforeLine_shape k h y s; rw [h]; rfl
@[simp] theorem beforeLine_pixelAddr (k : StreamKind) (h y : Nat) (x' y' : Nat) (s : State) : (s.beforeLine k h y).pixelAddr x' y' = s.pixelAddr x' y' := by
  obtain ⟨_, h⟩ := beforeLine_shape k h y s; rw [h]; rfl
@[simp] theorem beforeLine_memRead (k : StreamKind) (h y : Nat) (a' : Nat) (s : State) : (s.beforeLine k h y).memRead a' = s.memRead a' := by
  obtain ⟨_, h⟩ := beforeLine_shape k h y s; rw [h]; rfl
@[simp] theorem beforeLine_sinkByte (k : StreamKind) (h y : Nat) (a' : Nat) (s : State) : (s.beforeLine k h y).sinkByte a' = s.sinkByte a' := by
  obtain ⟨_, h⟩ := beforeLine_shape k h y s; rw [h]; rfl
@[simp] theorem beforeLine_nearest (k : StreamKind) (h y : Nat) (c' : Lab) (s : State) : (s.beforeLine k h y).nearest c' = s.nearest c' := by
  obtain ⟨_, h⟩ := beforeLine_shape k h y s; rw [h]; rfl
@[simp] theorem beforeLine_nearestEntry (k : StreamKind) (h y : Nat) (c' : Lab) (s : State) : (s.beforeLine k h y).nearestEntry c' = s.nearestEntry c' := by
  obtain ⟨_, h⟩ := beforeLine_shape k h y s; rw [h]; rfl
@[simp] theorem beforeLine_clipW (k : StreamKind) (h y : Nat) (n' : Nat) (s : State) : (s.beforeLine k h y).clipW n' = s.clipW n' := by
  obtain ⟨_, h⟩ := beforeLine_shape k h y s; rw [h]; rfl
@[simp] theorem beforeLine_clipH (k : StreamKind) (h y : Nat) (n' : Nat) (s : State) : (s.beforeLine k h y).clipH n' = s.clipH n' := by
  obtain ⟨_, h⟩ := beforeLine_shape k h y s; rw [h]; rfl
@[simp] theorem beforeLine_surfGet (k : StreamKind) (h y : Nat) (x' y' : Nat) (s : State) : (s.beforeLine k h y).surfGet x' y' = s.surfGet x' y' := by
  obtain ⟨_, h⟩ := beforeLine_shape k h y s; rw [h]; rfl

/-! `afterLine` -/

theorem afterLine_shape (k : StreamKind) (w h y : Nat) (p a b : List Byte) (s : State) :
    ∃ fb fbc n nf st tr nr cr cv pq, s.afterLine k w h y p a b =
      { s with fb := fb, fbc := fbc, choices := n, notfound := nf, sat := st, thisRow := tr, nextRow := nr, curRow := cr, curValid := cv, progq := pq } := by
  unfold State.afterLine
  split
  · obtain ⟨_, _, _, _, _, _, _, _, _, h⟩ := emitRow_shape w h y (pixel565 s.swap565 p) s
    exact ⟨_, _, _, _, _, _, _, _, _, _, h⟩
  · obtain ⟨_, _, _, _, _, _, _, _, _, h⟩ := emitRow_shape w h y (fun x => s.params.yuv (pixelYuyv w p x)) s
    exact ⟨_, _, _, _, _, _, _, _, _, _, h⟩
  · obtain ⟨_, _, _, _, _, _, _, _, _, h⟩ :=
      emitRow_shape (w / 2) (h / 2) y (fun i => s.params.yuv (pixelYuyvh w p i)) s
    exact ⟨_, _, _, _, _, _, _, _, _, _, h⟩
  · split
    · exact ⟨_, _, _, _, _, _, _, _, _, _, rfl⟩
    · split <;> exact emit3l_shape _ _ _ _ _ _ _

@[simp] theorem afterLine_r0 (k : StreamKind) (w h y : Nat) (p a b : List Byte) (s : State) : (s.afterLine k w h y p a b).r0 = s.r0 := by
  obtain ⟨_, _, _, _, _, _, _, _, _, _, h⟩ := afterLine_shape k w h y p a b s; rw [h]
@[simp] theorem afterLine_r1 (k : StreamKind) (w h y : Nat) (p a b : List Byte) (s : State) : (s.afterLine k w h y p a b).r1 = s.r1 := by
  obtain ⟨_, _, _, _, _, _, _, _, _, _, h⟩ := afterLine_shape k w h y p a b s; rw [h]
@[simp] theorem afterLine_r2 (k : StreamKind) (w h y : Nat) (p a b : List Byte) (s : State) : (s.afterLine k w h y p a b).r2 = s.r2 := by
  obtain ⟨_, _, _, _, _, _, _, _, _, _, h⟩ := afterLine_shape k w h y p a b s; rw [h]
@[simp] theorem afterLine_r3 (k : StreamKind) (w h y : Nat) (p a b : List Byte) (s : State) : (s.afterLine k w h y p a b).r3 = s.r3 := by
  obtain ⟨_, _, _, _, _, _, _, _, _, _, h⟩ := afterLine_shape k w h y p a b s; rw [h]
@[simp] theorem afterLine_err (k : StreamKind) (w h y : Nat) (p a b : List Byte) (s : State) : (s.afterLine k w h y p a b).err = s.err := by
  obtain ⟨_, _, _, _, _, _, _, _, _, _, h⟩ := afterLine_shape k w h y p a b s; rw [h]
@[simp] theorem afterLine_bderr (k : StreamKind) (w h y : Nat) (p a b : List Byte) (s : State) : (s.afterLine k w h y p a b).bderr = s.bderr := by
  obtain ⟨_, _, _, _, _, _, _, _, _, _, h⟩ := afterLine_shape k w h y p a b s; rw [h]
@[simp] theorem afterLine_fails (k : StreamKind) (w h y : Nat) (p a b : List Byte) (s : State) : (s.afterLine k w h y p a b).fails = s.fails := by
  obtain ⟨_, _, _, _, _, _, _, _, _, _, h⟩ := afterLine_shape k w h y p a b s; rw [h]
@[simp] theorem afterLine_cmdcnt (k : StreamKind) (w h y : Nat) (p a b : List Byte) (s : State) : (s.afterLine k w h y p a b).cmdcnt = s.cmdcnt := by
  obtain ⟨_, _, _, _, _, _, _, _, _, _, h⟩ := afterLine_shape k w h y p a b s; rw [h]
@[simp] theorem afterLine_ctrl (k : StreamKind) (w h y : Nat) (p a b : List Byte) (s : State) : (s.afterLine k w h y p a b).ctrl = s.ctrl := by
  obtain ⟨_, _, _, _, _, _, _, _, _, _, h⟩ := afterLine_shape k w h y p a b s; rw [h]
@[simp] theorem afterLine_acc (k : StreamKind) (w h y : Nat) (p a b : List Byte) (s : State) : (s.afterLine k w h y p a b).acc = s.acc := by
  obtain ⟨_, _, _, _, _, _, _, _, _, _, h⟩ := afterLine_shape k w h y p a b s; rw [h]
@[simp] theorem afterLine_fmt (k : StreamKind) (w h y : Nat) (p a b : List Byte) (s : State) : (s.afterLine k w h y p a b).fmt = s.fmt := by
  obtain ⟨_, _, _, _, _, _, _, _, _, _, h⟩ := afterLine_shape k w h y p a b s; rw [h]
@[simp] theorem afterLine_surfW (k : StreamKind) (w h y : Nat) (p a b : List Byte) (s : State) : (s.afterLine k w h y p a b).surfW = s.surfW := by
  obtain ⟨_, _, _, _, _, _, _, _, _, _, h⟩ := afterLine_shape k w h y p a b s; rw [h]
@[simp] theorem afterLine_surfH (k : StreamKind) (w h y : Nat) (p a b : List Byte) (s : State) : (s.afterLine k w h y p a b).surfH = s.surfH := by
  obtain ⟨_, _, _, _, _, _, _, _, _, _, h⟩ := afterLine_shape k w h y p a b s; rw [h]
@[simp] theorem afterLine_plut (k : StreamKind) (w h y : Nat) (p a b : List Byte) (s : State) : (s.afterLine k w h y p a b).plut = s.plut := by
  obtain ⟨_, _, _, _, _, _, _, _, _, _, h⟩ := afterLine_shape k w h y p a b s; rw [h]
@[simp] theorem afterLine_pal (k : StreamKind) (w h y : Nat) (p a b : List Byte) (s : State) : (s.afterLine k w h y p a b).pal = s.pal := by
  obtain ⟨_, _, _, _, _, _, _, _, _, _, h⟩ := afterLine_shape k w h y p a b s; rw [h]
@[simp] theorem afterLine_mono (k : StreamKind) (w h y : Nat) (p a b : List Byte) (s : State) : (s.afterLine k w h y p a b).mono = s.mono := by
  obtain ⟨_, _, _, _, _, _, _, _, _, _, h⟩ := afterLine_shape k w h y p a b s; rw [h]
@[simp] theorem afterLine_cmdq (k : StreamKind) (w h y : Nat) (p a b : List Byte) (s : State) : (s.afterLine k w h y p a b).cmdq = s.cmdq := by
  obtain ⟨_, _, _, _, _, _, _, _, _, _, h⟩ := afterLine_shape k w h y p a b s; rw [h]
@[simp] theorem afterLine_rspq (k : StreamKind) (w h y : Nat) (p a b : List Byte) (s : State) : (s.afterLine k w h y p a b).rspq = s.rspq := by
  obtain ⟨_, _, _, _, _, _, _, _, _, _, h⟩ := afterLine_shape k w h y p a b s; rw [h]
@[simp] theorem afterLine_halted (k : StreamKind) (w h y : Nat) (p a b : List Byte) (s : State) : (s.afterLine k w h y p a b).halted = s.halted := by
  obtain ⟨_, _, _, _, _, _, _, _, _, _, h⟩ := afterLine_shape k w h y p a b s; rw [h]
@[simp] theorem afterLine_seq (k : StreamKind) (w h y : Nat) (p a b : List Byte) (s : State) : (s.afterLine k w h y p a b).seq = s.seq := by
  obtain ⟨_, _, _, _, _, _, _, _, _, _, h⟩ := afterLine_shape k w h y p a b s; rw [h]
@[simp] theorem afterLine_params (k : StreamKind) (w h y : Nat) (p a b : List Byte) (s : State) : (s.afterLine k w h y p a b).params = s.params := by
  obtain ⟨_, _, _, _, _, _, _, _, _, _, h⟩ := afterLine_shape k w h y p a b s; rw [h]
@[simp] theorem afterLine_bsTotals (k : StreamKind) (w h y : Nat) (p a b : List Byte) (s : State) : (s.afterLine k w h y p a b).bsTotals = s.bsTotals := by
  obtain ⟨_, _, _, _, _, _, _, _, _, _, h⟩ := afterLine_shape k w h y p a b s; rw [h]
@[simp] theorem afterLine_bsReads (k : StreamKind) (w h y : Nat) (p a b : List Byte) (s : State) : (s.afterLine k w h y p a b).bsReads = s.bsReads := by
  obtain ⟨_, _, _, _, _, _, _, _, _, _, h⟩ := afterLine_shape k w h y p a b s; rw [h]
@[simp] theorem afterLine_bdInits (k : StreamKind) (w h y : Nat) (p a b : List Byte) (s : State) : (s.afterLine k w h y p a b).bdInits = s.bdInits := by
  obtain ⟨_, _, _, _, _, _, _, _, _, _, h⟩ := afterLine_shape k w h y p a b s; rw [h]
@[simp] theorem afterLine_dropped (k : StreamKind) (w h y : Nat) (p a b : List Byte) (s : State) : (s.afterLine k w h y p a b).dropped = s.dropped := by
  obtain ⟨_, _, _, _, _, _, _, _, _, _, h⟩ := afterLine_shape k w h y p a b s; rw [h]
@[simp] theorem afterLine_rowsOfDecode (k : StreamKind) (w h y : Nat) (p a b : List Byte) (s : State) : (s.afterLine k w h y p a b).rowsOfDecode = s.rowsOfDecode := by
  obtain ⟨_, _, _, _, _, _, _, _, _, _, h⟩ := afterLine_shape k w h y p a b s; rw [h]
@[simp] theorem afterLine_bdMcus (k : StreamKind) (w h y : Nat) (p a b : List Byte) (s : State) : (s.afterLine k w h y p a b).bdMcus = s.bdMcus := by
  obtain ⟨_, _, _, _, _, _, _, _, _, _, h⟩ := afterLine_shape k w h y p a b s; rw [h]
@[simp] theorem afterLine_reqs (k : StreamKind) (w h y : Nat) (p a b : List Byte) (s : State) : (s.afterLine k w h y p a b).reqs = s.reqs := by
  obtain ⟨_, _, _, _, _, _, _, _, _, _, h⟩ := afterLine_shape k w h y p a b s; rw [h]
@[simp] theorem afterLine_qmode (k : StreamKind) (w h y : Nat) (p a b : List Byte) (s : State) : (s.afterLine k w h y p a b).qmode = s.qmode := by
  obtain ⟨_, _, _, _, _, _, _, _, _, _, h⟩ := afterLine_shape k w h y p a b s; rw [h]; rfl
@[simp] theorem afterLine_progen (k : StreamKind) (w h y : Nat) (p a b : List Byte) (s : State) : (s.afterLine k w h y p a b).progen = s.progen := by
  obtain ⟨_, _, _, _, _, _, _, _, _, _, h⟩ := afterLine_shape k w h y p a b s; rw [h]; rfl
@[simp] theorem afterLine_swap565 (k : StreamKind) (w h y : Nat) (p a b : List Byte) (s : State) : (s.afterLine k w h y p a b).swap565 = s.swap565 := by
  obtain ⟨_, _, _, _, _, _, _, _, _, _, h⟩ := afterLine_shape k w h y p a b s; rw [h]; rfl
@[simp] theorem afterLine_vfirst (k : StreamKind) (w h y : Nat) (p a b : List Byte) (s : State) : (s.afterLine k w h y p a b).vfirst = s.vfirst := by
  obtain ⟨_, _, _, _, _, _, _, _, _, _, h⟩ := afterLine_shape k w h y p a b s; rw [h]; rfl
@[simp] theorem afterLine_stride (k : StreamKind) (w h y : Nat) (p a b : List Byte) (s : State) : (s.afterLine k w h y p a b).stride = s.stride := by
  obtain ⟨_, _, _, _, _, _, _, _, _, _, h⟩ := afterLine_shape k w h y p a b s; rw [h]; rfl
@[simp] theorem afterLine_planeBytes (k : StreamKind) (w h y : Nat) (p a b : List Byte) (s : State) : (s.afterLine k w h y p a b).planeBytes = s.planeBytes := by
  obtain ⟨_, _, _, _, _, _, _, _, _, _, h⟩ := afterLine_shape k w h y p a b s; rw [h]; rfl
@[simp] theorem afterLine_surfBytes (k : StreamKind) (w h y : Nat) (p a b : List Byte) (s : State) : (s.afterLine k w h y p a b).surfBytes = s.surfBytes := by
  obtain ⟨_, _, _, _, _, _, _, _, _, _, h⟩ := afterLine_shape k w h y p a b s; rw [h]; rfl
@[simp] theorem afterLine_inside (k : StreamKind) (w h y : Nat) (p a b : List Byte) (x' y' : Nat) (s : State) : (s.afterLine k w h y p a b).inside x' y' = s.inside x' y' := by
  obtain ⟨_, _, _, _, _, _, _, _, _, _, h⟩ := afterLine_shape k w h y p a b s; rw [h]; rfl
@[simp] theorem afterLine_pixelAddr (k : StreamKind) (w h y : Nat) (p a b : List Byte) (x' y' : Nat) (s : State) : (s.afterLine k w h y p a b).pixelAddr x' y' = s.pixelAddr x' y' := by
  obtain ⟨_, _, _, _, _, _, _, _, _, _, h⟩ := afterLine_shape k w h y p a b s; rw [h]; rfl
@[simp] theorem afterLine_nearest (k : StreamKind) (w h y : Nat) (p a b : List Byte) (c' : Lab) (s : State) : (s.afterLine k w h y p a b).nearest c' = s.nearest c' := by
  obtain ⟨_, _, _, _, _, _, _, _, _, _, h⟩ := afterLine_shape k w h y p a b s; rw [h]; rfl
@[simp] theorem afterLine_nearestEntry (k : StreamKind) (w h y : Nat) (p a b : List Byte) (c' : Lab) (s : State) : (s.afterLine k w h y p a b).nearestEntry c' = s.nearestEntry c' := by
  obtain ⟨_, _, _, _, _, _, _, _, _, _, h⟩ := afterLine_shape k w h y p a b s; rw [h]; rfl
@[simp] theorem afterLine_clipW (k : StreamKind) (w h y : Nat) (p a b : List Byte) (n' : Nat) (s : State) : (s.afterLine k w h y p a b).clipW n' = s.clipW n' := by
  obtain ⟨_, _, _, _, _, _, _, _, _, _, h⟩ := afterLine_shape k w h y p a b s; rw [h]; rfl
@[simp] theorem afterLine_clipH (k : StreamKind) (w h y : Nat) (p a b : List Byte) (n' : Nat) (s : State) : (s.afterLine k w h y p a b).clipH n' = s.clipH n' := by
  obtain ⟨_, _, _, _, _, _, _, _, _, _, h⟩ := afterLine_shape k w h y p a b s; rw [h]; rfl

/-! `afterFrame` -/

theorem afterFrame_shape (k : StreamKind) (w h : Nat) (p a : List Byte) (s : State) :
    ∃ fb fbc n nf st tr nr cr cv pq, s.afterFrame k w h p a =
      { s with fb := fb, fbc := fbc, choices := n, notfound := nf, sat := st, thisRow := tr, nextRow := nr, curRow := cr, curValid := cv, progq := pq } := by
  unfold State.afterFrame
  split
  · exact ⟨_, _, _, _, _, _, _, _, _, _, rfl⟩
  · exact ⟨_, _, _, _, _, _, _, _, _, _, rfl⟩
  · exact ⟨_, _, _, _, _, _, _, _, _, _, rfl⟩
  · exact emit3l_shape _ _ _ _ _ _ _

@[simp] theorem afterFrame_r0 (k : StreamKind) (w h : Nat) (p a : List Byte) (s : State) : (s.afterFrame k w h p a).r0 = s.r0 := by
  obtain ⟨_, _, _, _, _, _, _, _, _, _, h⟩ := afterFrame_shape k w h p a s; rw [h]
@[simp] theorem afterFrame_r1 (k : StreamKind) (w h : Nat) (p a : List Byte) (s : State) : (s.afterFrame k w h p a).r1 = s.r1 := by
  obtain ⟨_, _, _, _, _, _, _, _, _, _, h⟩ := afterFrame_shape k w h p a s; rw [h]
@[simp] theorem afterFrame_r2 (k : StreamKind) (w h : Nat) (p a : List Byte) (s : State) : (s.afterFrame k w h p a).r2 = s.r2 := by
  obtain ⟨_, _, _, _, _, _, _, _, _, _, h⟩ := afterFrame_shape k w h p a s; rw [h]
@[simp] theorem afterFrame_r3 (k : StreamKind) (w h : Nat) (p a : List Byte) (s : State) : (s.afterFrame k w h p a).r3 = s.r3 := by
  obtain ⟨_, _, _, _, _, _, _, _, _, _, h⟩ := afterFrame_shape k w h p a s; rw [h]
@[simp] theorem afterFrame_err (k : StreamKind) (w h : Nat) (p a : List Byte) (s : State) : (s.afterFrame k w h p a).err = s.err := by
  obtain ⟨_, _, _, _, _, _, _, _, _, _, h⟩ := afterFrame_shape k w h p a s; rw [h]
@[simp] theorem afterFrame_bderr (k : StreamKind) (w h : Nat) (p a : List Byte) (s : State) : (s.afterFrame k w h p a).bderr = s.bderr := by
  obtain ⟨_, _, _, _, _, _, _, _, _, _, h⟩ := afterFrame_shape k w h p a s; rw [h]
@[simp] theorem afterFrame_fails (k : StreamKind) (w h : Nat) (p a : List Byte) (s : State) : (s.afterFrame k w h p a).fails = s.fails := by
  obtain ⟨_, _, _, _, _, _, _, _, _, _, h⟩ := afterFrame_shape k w h p a s; rw [h]
@[simp] theorem afterFrame_cmdcnt (k : StreamKind) (w h : Nat) (p a : List Byte) (s : State) : (s.afterFrame k w h p a).cmdcnt = s.cmdcnt := by
  obtain ⟨_, _, _, _, _, _, _, _, _, _, h⟩ := afterFrame_shape k w h p a s; rw [h]
@[simp] theorem afterFrame_ctrl (k : StreamKind) (w h : Nat) (p a : List Byte) (s : State) : (s.afterFrame k w h p a).ctrl = s.ctrl := by
  obtain ⟨_, _, _, _, _, _, _, _, _, _, h⟩ := afterFrame_shape k w h p a s; rw [h]
@[simp] theorem afterFrame_acc (k : StreamKind) (w h : Nat) (p a : List Byte) (s : State) : (s.afterFrame k w h p a).acc = s.acc := by
  obtain ⟨_, _, _, _, _, _, _, _, _, _, h⟩ := afterFrame_shape k w h p a s; rw [h]
@[simp] theorem afterFrame_fmt (k : StreamKind) (w h : Nat) (p a : List Byte) (s : State) : (s.afterFrame k w h p a).fmt = s.fmt := by
  obtain ⟨_, _, _, _, _, _, _, _, _, _, h⟩ := afterFrame_shape k w h p a s; rw [h]
@[simp] theorem afterFrame_surfW (k : StreamKind) (w h : Nat) (p a : List Byte) (s : State) : (s.afterFrame k w h p a).surfW = s.surfW := by
  obtain ⟨_, _, _, _, _, _, _, _, _, _, h⟩ := afterFrame_shape k w h p a s; rw [h]
@[simp] theorem afterFrame_surfH (k : StreamKind) (w h : Nat) (p a : List Byte) (s : State) : (s.afterFrame k w h p a).surfH = s.surfH := by
  obtain ⟨_, _, _, _, _, _, _, _, _, _, h⟩ := afterFrame_shape k w h p a s; rw [h]
@[simp] theorem afterFrame_plut (k : StreamKind) (w h : Nat) (p a : List Byte) (s : State) : (s.afterFrame k w h p a).plut = s.plut := by
  obtain ⟨_, _, _, _, _, _, _, _, _, _, h⟩ := afterFrame_shape k w h p a s; rw [h]
@[simp] theorem afterFrame_pal (k : StreamKind) (w h : Nat) (p a : List Byte) (s : State) : (s.afterFrame k w h p a).pal = s.pal := by
  obtain ⟨_, _, _, _, _, _, _, _, _, _, h⟩ := afterFrame_shape k w h p a s; rw [h]
@[simp] theorem afterFrame_mono (k : StreamKind) (w h : Nat) (p a : List Byte) (s : State) : (s.afterFrame k w h p a).mono = s.mono := by
  obtain ⟨_, _, _, _, _, _, _, _, _, _, h⟩ := afterFrame_shape k w h p a s; rw [h]
@[simp] theorem afterFrame_cmdq (k : StreamKind) (w h : Nat) (p a : List Byte) (s : State) : (s.afterFrame k w h p a).cmdq = s.cmdq := by
  obtain ⟨_, _, _, _, _, _, _, _, _, _, h⟩ := afterFrame_shape k w h p a s; rw [h]
@[simp] theorem afterFrame_rspq (k : StreamKind) (w h : Nat) (p a : List Byte) (s : State) : (s.afterFrame k w h p a).rspq = s.rspq := by
  obtain ⟨_, _, _, _, _, _, _, _, _, _, h⟩ := afterFrame_shape k w h p a s; rw [h]
@[simp] theorem afterFrame_halted (k : StreamKind) (w h : Nat) (p a : List Byte) (s : State) : (s.afterFrame k w h p a).halted = s.halted := by
  obtain ⟨_, _, _, _, _, _, _, _, _, _, h⟩ := afterFrame_shape k w h p a s; rw [h]
@[simp] theorem afterFrame_seq (k : StreamKind) (w h : Nat) (p a : List Byte) (s : State) : (s.afterFrame k w h p a).seq = s.seq := by
  obtain ⟨_, _, _, _, _, _, _, _, _, _, h⟩ := afterFrame_shape k w h p a s; rw [h]
@[simp] theorem afterFrame_params (k : StreamKind) (w h : Nat) (p a : List Byte) (s : State) : (s.afterFrame k w h p a).params = s.params := by
  obtain ⟨_, _, _, _, _, _, _, _, _, _, h⟩ := afterFrame_shape k w h p a s; rw [h]
@[simp] theorem afterFrame_bsTotals (k : StreamKind) (w h : Nat) (p a : List Byte) (s : State) : (s.afterFrame k w h p a).bsTotals = s.bsTotals := by
  obtain ⟨_, _, _, _, _, _, _, _, _, _, h⟩ := afterFrame_shape k w h p a s; rw [h]
@[simp] theorem afterFrame_bsReads (k : StreamKind) (w h : Nat) (p a : List Byte) (s : State) : (s.afterFrame k w h p a).bsReads = s.bsReads := by
  obtain ⟨_, _, _, _, _, _, _, _, _, _, h⟩ := afterFrame_shape k w h p a s; rw [h]
@[simp] theorem afterFrame_bdInits (k : StreamKind) (w h : Nat) (p a : List Byte) (s : State) : (s.afterFrame k w h p a).bdInits = s.bdInits := by
  obtain ⟨_, _, _, _, _, _, _, _, _, _, h⟩ := afterFrame_shape k w h p a s; rw [h]
@[simp] theorem afterFrame_dropped (k : StreamKind) (w h : Nat) (p a : List Byte) (s : State) : (s.afterFrame k w h p a).dropped = s.dropped := by
  obtain ⟨_, _, _, _, _, _, _, _, _, _, h⟩ := afterFrame_shape k w h p a s; rw [h]
@[simp] theorem afterFrame_rowsOfDecode (k : StreamKind) (w h : Nat) (p a : List Byte) (s : State) : (s.afterFrame k w h p a).rowsOfDecode = s.rowsOfDecode := by
  obtain ⟨_, _, _, _, _, _, _, _, _, _, h⟩ := afterFrame_shape k w h p a s; rw [h]
@[simp] theorem afterFrame_bdMcus (k : StreamKind) (w h : Nat) (p a : List Byte) (s : State) : (s.afterFrame k w h p a).bdMcus = s.bdMcus := by
  obtain ⟨_, _, _, _, _, _, _, _, _, _, h⟩ := afterFrame_shape k w h p a s; rw [h]
@[simp] theorem afterFrame_reqs (k : StreamKind) (w h : Nat) (p a : List Byte) (s : State) : (s.afterFrame k w h p a).reqs = s.reqs := by
  obtain ⟨_, _, _, _, _, _, _, _, _, _, h⟩ := afterFrame_shape k w h p a s; rw [h]
@[simp] theorem afterFrame_qmode (k : StreamKind) (w h : Nat) (p a : List Byte) (s : State) : (s.afterFrame k w h p a).qmode = s.qmode := by
  obtain ⟨_, _, _, _, _, _, _, _, _, _, h⟩ := afterFrame_shape k w h p a s; rw [h]; rfl
@[simp] theorem afterFrame_progen (k : StreamKind) (w h : Nat) (p a : List Byte) (s : State) : (s.afterFrame k w h p a).progen = s.progen := by
  obtain ⟨_, _, _, _, _, _, _, _, _, _, h⟩ := afterFrame_shape k w h p a s; rw [h]; rfl
@[simp] theorem afterFrame_swap565 (k : StreamKind) (w h : Nat) (p a : List Byte) (s : State) : (s.afterFrame k w h p a).swap565 = s.swap565 := by
  obtain ⟨_, _, _, _, _, _, _, _, _, _, h⟩ := afterFrame_shape k w h p a s; rw [h]; rfl
@[simp] theorem afterFrame_vfirst (k : StreamKind) (w h : Nat) (p a : List Byte) (s : State) : (s.afterFrame k w h p a).vfirst = s.vfirst := by
  obtain ⟨_, _, _, _, _, _, _, _, _, _, h⟩ := afterFrame_shape k w h p a s; rw [h]; rfl
@[simp] theorem afterFrame_stride (k : StreamKind) (w h : Nat) (p a : List Byte) (s : State) : (s.afterFrame k w h p a).stride = s.stride := by
  obtain ⟨_, _, _, _, _, _, _, _, _, _, h⟩ := afterFrame_shape k w h p a s; rw [h]; rfl
@[simp] theorem afterFrame_planeBytes (k : StreamKind) (w h : Nat) (p a : List Byte) (s : State) : (s.afterFrame k w h p a).planeBytes = s.planeBytes := by
  obtain ⟨_, _, _, _, _, _, _, _, _, _, h⟩ := afterFrame_shape k w h p a s; rw [h]; rfl
@[simp] theorem afterFrame_surfBytes (k : StreamKind) (w h : Nat) (p a : List Byte) (s : State) : (s.afterFrame k w h p a).surfBytes = s.surfBytes := by
  obtain ⟨_, _, _, _, _, _, _, _, _, _, h⟩ := afterFrame_shape k w h p a s; rw [h]; rfl
@[simp] theorem afterFrame_inside (k : StreamKind) (w h : Nat) (p a : List Byte) (x' y' : Nat) (s : State) : (s.afterFrame k w h p a).inside x' y' = s.inside x' y' := by
  obtain ⟨_, _, _, _, _, _, _, _, _, _, h⟩ := afterFrame_shape k w h p a s; rw [h]; rfl
@[simp] theorem afterFrame_pixelAddr (k : StreamKind) (w h : Nat) (p a : List Byte) (x' y' : Nat) (s : State) : (s.afterFrame k w h p a).pixelAddr x' y' = s.pixelAddr x' y' := by
  obtain ⟨_, _, _, _, _, _, _, _, _, _, h⟩ := afterFrame_shape k w h p a s; rw [h]; rfl
@[simp] theorem afterFrame_nearest (k : StreamKind) (w h : Nat) (p a : List Byte) (c' : Lab) (s : State) : (s.afterFrame k w h p a).nearest c' = s.nearest c' := by
  obtain ⟨_, _, _, _, _, _, _, _, _, _, h⟩ := afterFrame_shape k w h p a s; rw [h]; rfl
@[simp] theorem afterFrame_nearestEntry (k : StreamKind) (w h : Nat) (p a : List Byte) (c' : Lab) (s : State) : (s.afterFrame k w h p a).nearestEntry c' = s.nearestEntry c' := by
  obtain ⟨_, _, _, _, _, _, _, _, _, _, h⟩ := afterFrame_shape k w h p a s; rw [h]; rfl
@[simp] theorem afterFrame_clipW (k : StreamKind) (w h : Nat) (p a : List Byte) (n' : Nat) (s : State) : (s.afterFrame k w h p a).clipW n' = s.clipW n' := by
  obtain ⟨_, _, _, _, _, _, _, _, _, _, h⟩ := afterFrame_shape k w h p a s; rw [h]; rfl
@[simp] theorem afterFrame_clipH (k : StreamKind) (w h : Nat) (p a : List Byte) (n' : Nat) (s : State) : (s.afterFrame k w h p a).clipH n' = s.clipH n' := by
  obtain ⟨_, _, _, _, _, _, _, _, _, _, h⟩ := afterFrame_shape k w h p a s; rw [h]; rfl

/-! `blit` -/

theorem blit_shape (cw ch y : Nat) (rows : List (List RGB)) (s : State) :
    ∃ fb fbc n nf st tr nr cr cv, s.blit cw ch y rows =
      { s with fb := fb, fbc := fbc, choices := n, notfound := nf, sat := st, thisRow := tr, nextRow := nr, curRow := cr, curValid := cv } := by
  induction rows generalizing y s with
  | nil => exact ⟨_, _, _, _, _, _, _, _, _, rfl⟩
  | cons r rows ih =>
    rw [State.blit]
    split
    · obtain ⟨_, _, _, _, _, _, _, _, _, h1⟩ := viewRow_shape y 0 (r.take cw) s
      obtain ⟨_, _, _, _, _, _, _, _, _, h2⟩ := ih (y + 1) (s.viewRow y 0 (r.take cw))
      rw [h2, h1]
      exact ⟨_, _, _, _, _, _, _, _, _, rfl⟩
    · exact ih (y + 1) s

@[simp] theorem blit_r0 (cw ch y : Nat) (rows : List (List RGB)) (s : State) : (s.blit cw ch y rows).r0 = s.r0 := by
  obtain ⟨_, _, _, _, _, _, _, _, _, h⟩ := blit_shape cw ch y rows s; rw [h]
@[simp] theorem blit_r1 (cw ch y : Nat) (rows : List (List RGB)) (s : State) : (s.blit cw ch y rows).r1 = s.r1 := by
  obtain ⟨_, _, _, _, _, _, _, _, _, h⟩ := blit_shape cw ch y rows s; rw [h]
@[simp] theorem blit_r2 (cw ch y : Nat) (rows : List (List RGB)) (s : State) : (s.blit cw ch y rows).r2 = s.r2 := by
  obtain ⟨_, _, _, _, _, _, _, _, _, h⟩ := blit_shape cw ch y rows s; rw [h]
@[simp] theorem blit_r3 (cw ch y : Nat) (rows : List (List RGB)) (s : State) : (s.blit cw ch y rows).r3 = s.r3 := by
  obtain ⟨_, _, _, _, _, _, _, _, _, h⟩ := blit_shape cw ch y rows s; rw [h]
@[simp] theorem blit_err (cw ch y : Nat) (rows : List (List RGB)) (s : State) : (s.blit cw ch y rows).err = s.err := by
  obtain ⟨_, _, _, _, _, _, _, _, _, h⟩ := blit_shape cw ch y rows s; rw [h]
@[simp] theorem blit_bderr (cw ch y : Nat) (rows : List (List RGB)) (s : State) : (s.blit cw ch y rows).bderr = s.bderr := by
  obtain ⟨_, _, _, _, _, _, _, _, _, h⟩ := blit_shape cw ch y rows s; rw [h]
@[simp] theorem blit_fails (cw ch y : Nat) (rows : List (List RGB)) (s : State) : (s.blit cw ch y rows).fails = s.fails := by
  obtain ⟨_, _, _, _, _, _, _, _, _, h⟩ := blit_shape cw ch y rows s; rw [h]
@[simp] theorem blit_cmdcnt (cw ch y : Nat) (rows : List (List RGB)) (s : State) : (s.blit cw ch y rows).cmdcnt = s.cmdcnt := by
  obtain ⟨_, _, _, _, _, _, _, _, _, h⟩ := blit_shape cw ch y rows s; rw [h]
@[simp] theorem blit_ctrl (cw ch y : Nat) (rows : List (List RGB)) (s : State) : (s.blit cw ch y rows).ctrl = s.ctrl := by
  obtain ⟨_, _, _, _, _, _, _, _, _, h⟩ := blit_shape cw ch y rows s; rw [h]
@[simp] theorem blit_acc (cw ch y : Nat) (rows : List (List RGB)) (s : State) : (s.blit cw ch y rows).acc = s.acc := by
  obtain ⟨_, _, _, _, _, _, _, _, _, h⟩ := blit_shape cw ch y rows s; rw [h]
@[simp] theorem blit_fmt (cw ch y : Nat) (rows : List (List RGB)) (s : State) : (s.blit cw ch y rows).fmt = s.fmt := by
  obtain ⟨_, _, _, _, _, _, _, _, _, h⟩ := blit_shape cw ch y rows s; rw [h]
@[simp] theorem blit_surfW (cw ch y : Nat) (rows : List (List RGB)) (s : State) : (s.blit cw ch y rows).surfW = s.surfW := by
  obtain ⟨_, _, _, _, _, _, _, _, _, h⟩ := blit_shape cw ch y rows s; rw [h]
@[simp] theorem blit_surfH (cw ch y : Nat) (rows : List (List RGB)) (s : State) : (s.blit cw ch y rows).surfH = s.surfH := by
  obtain ⟨_, _, _, _, _, _, _, _, _, h⟩ := blit_shape cw ch y rows s; rw [h]
@[simp] theorem blit_plut (cw ch y : Nat) (rows : List (List RGB)) (s : State) : (s.blit cw ch y rows).plut = s.plut := by
  obtain ⟨_, _, _, _, _, _, _, _, _, h⟩ := blit_shape cw ch y rows s; rw [h]
@[simp] theorem blit_pal (cw ch y : Nat) (rows : List (List RGB)) (s : State) : (s.blit cw ch y rows).pal = s.pal := by
  obtain ⟨_, _, _, _, _, _, _, _, _, h⟩ := blit_shape cw ch y rows s; rw [h]
@[simp] theorem blit_mono (cw ch y : Nat) (rows : List (List RGB)) (s : State) : (s.blit cw ch y rows).mono = s.mono := by
  obtain ⟨_, _, _, _, _, _, _, _, _, h⟩ := blit_shape cw ch y rows s; rw [h]
@[simp] theorem blit_cmdq (cw ch y : Nat) (rows : List (List RGB)) (s : State) : (s.blit cw ch y rows).cmdq = s.cmdq := by
  obtain ⟨_, _, _, _, _, _, _, _, _, h⟩ := blit_shape cw ch y rows s; rw [h]
@[simp] theorem blit_rspq (cw ch y : Nat) (rows : List (List RGB)) (s : State) : (s.blit cw ch y rows).rspq = s.rspq := by
  obtain ⟨_, _, _, _, _, _, _, _, _, h⟩ := blit_shape cw ch y rows s; rw [h]
@[simp] theorem blit_progq (cw ch y : Nat) (rows : List (List RGB)) (s : State) : (s.blit cw ch y rows).progq = s.progq := by
  obtain ⟨_, _, _, _, _, _, _, _, _, h⟩ := blit_shape cw ch y rows s; rw [h]
@[simp] theorem blit_halted (cw ch y : Nat) (rows : List (List RGB)) (s : State) : (s.blit cw ch y rows).halted = s.halted := by
  obtain ⟨_, _, _, _, _, _, _, _, _, h⟩ := blit_shape cw ch y rows s; rw [h]
@[simp] theorem blit_seq (cw ch y : Nat) (rows : List (List RGB)) (s : State) : (s.blit cw ch y rows).seq = s.seq := by
  obtain ⟨_, _, _, _, _, _, _, _, _, h⟩ := blit_shape cw ch y rows s; rw [h]
@[simp] theorem blit_params (cw ch y : Nat) (rows : List (List RGB)) (s : State) : (s.blit cw ch y rows).params = s.params := by
  obtain ⟨_, _, _, _, _, _, _, _, _, h⟩ := blit_shape cw ch y rows s; rw [h]
@[simp] theorem blit_bsTotals (cw ch y : Nat) (rows : List (List RGB)) (s : State) : (s.blit cw ch y rows).bsTotals = s.bsTotals := by
  obtain ⟨_, _, _, _, _, _, _, _, _, h⟩ := blit_shape cw ch y rows s; rw [h]
@[simp] theorem blit_bsReads (cw ch y : Nat) (rows : List (List RGB)) (s : State) : (s.blit cw ch y rows).bsReads = s.bsReads := by
  obtain ⟨_, _, _, _, _, _, _, _, _, h⟩ := blit_shape cw ch y rows s; rw [h]
@[simp] theorem blit_bdInits (cw ch y : Nat) (rows : List (List RGB)) (s : State) : (s.blit cw ch y rows).bdInits = s.bdInits := by
  obtain ⟨_, _, _, _, _, _, _, _, _, h⟩ := blit_shape cw ch y rows s; rw [h]
@[simp] theorem blit_dropped (cw ch y : Nat) (rows : List (List RGB)) (s : State) : (s.blit cw ch y rows).dropped = s.dropped := by
  obtain ⟨_, _, _, _, _, _, _, _, _, h⟩ := blit_shape cw ch y rows s; rw [h]
@[simp] theorem blit_rowsOfDecode (cw ch y : Nat) (rows : List (List RGB)) (s : State) : (s.blit cw ch y rows).rowsOfDecode = s.rowsOfDecode := by
  obtain ⟨_, _, _, _, _, _, _, _, _, h⟩ := blit_shape cw ch y rows s; rw [h]
@[simp] theorem blit_bdMcus (cw ch y : Nat) (rows : List (List RGB)) (s : State) : (s.blit cw ch y rows).bdMcus = s.bdMcus := by
  obtain ⟨_, _, _, _, _, _, _, _, _, h⟩ := blit_shape cw ch y rows s; rw [h]
@[simp] theorem blit_reqs (cw ch y : Nat) (rows : List (List RGB)) (s : State) : (s.blit cw ch y rows).reqs = s.reqs := by
  obtain ⟨_, _, _, _, _, _, _, _, _, h⟩ := blit_shape cw ch y rows s; rw [h]
@[simp] theorem blit_qmode (cw ch y : Nat) (rows : List (List RGB)) (s : State) : (s.blit cw ch y rows).qmode = s.qmode := by
  obtain ⟨_, _, _, _, _, _, _, _, _, h⟩ := blit_shape cw ch y rows s; rw [h]; rfl
@[simp] theorem blit_progen (cw ch y : Nat) (rows : List (List RGB)) (s : State) : (s.blit cw ch y rows).progen = s.progen := by
  obtain ⟨_, _, _, _, _, _, _, _, _, h⟩ := blit_shape cw ch y rows s; rw [h]; rfl
@[simp] theorem blit_swap565 (cw ch y : Nat) (rows : List (List RGB)) (s : State) : (s.blit cw ch y rows).swap565 = s.swap565 := by
  obtain ⟨_, _, _, _, _, _, _, _, _, h⟩ := blit_shape cw ch y rows s; rw [h]; rfl
@[simp] theorem blit_vfirst (cw ch y : Nat) (rows : List (List RGB)) (s : State) : (s.blit cw ch y rows).vfirst = s.vfirst := by
  obtain ⟨_, _, _, _, _, _, _, _, _, h⟩ := blit_shape cw ch y rows s; rw [h]; rfl
@[simp] theorem blit_stride (cw ch y : Nat) (rows : List (List RGB)) (s : State) : (s.blit cw ch y rows).stride = s.stride := by
  obtain ⟨_, _, _, _, _, _, _, _, _, h⟩ := blit_shape cw ch y rows s; rw [h]; rfl
@[simp] theorem blit_planeBytes (cw ch y : Nat) (rows : List (List RGB)) (s : State) : (s.blit cw ch y rows).planeBytes = s.planeBytes := by
  obtain ⟨_, _, _, _, _, _, _, _, _, h⟩ := blit_shape cw ch y rows s; rw [h]; rfl
@[simp] theorem blit_surfBytes (cw ch y : Nat) (rows : List (List RGB)) (s : State) : (s.blit cw ch y rows).surfBytes = s.surfBytes := by
  obtain ⟨_, _, _, _, _, _, _, _, _, h⟩ := blit_shape cw ch y rows s; rw [h]; rfl
@[simp] theorem blit_inside (cw ch y : Nat) (rows : List (List RGB)) (x' y' : Nat) (s : State) : (s.blit cw ch y rows).inside x' y' = s.inside x' y' := by
  obtain ⟨_, _, _, _, _, _, _, _, _, h⟩ := blit_shape cw ch y rows s; rw [h]; rfl
@[simp] theorem blit_pixelAddr (cw ch y : Nat) (rows : List (List RGB)) (x' y' : Nat) (s : State) : (s.blit cw ch y rows).pixelAddr x' y' = s.pixelAddr x' y' := by
  obtain ⟨_, _, _, _, _, _, _, _, _, h⟩ := blit_shape cw ch y rows s; rw [h]; rfl
@[simp] theorem blit_nearest (cw ch y : Nat) (rows : List (List RGB)) (c' : Lab) (s : State) : (s.blit cw ch y rows).nearest c' = s.nearest c' := by
  obtain ⟨_, _, _, _, _, _, _, _, _, h⟩ := blit_shape cw ch y rows s; rw [h]; rfl
@[simp] theorem blit_nearestEntry (cw ch y : Nat) (rows : List (List RGB)) (c' : Lab) (s : State) : (s.blit cw ch y rows).nearestEntry c' = s.nearestEntry c' := by
  obtain ⟨_, _, _, _, _, _, _, _, _, h⟩ := blit_shape cw ch y rows s; rw [h]; rfl
@[simp] theorem blit_clipW (cw ch y : Nat) (rows : List (List RGB)) (n' : Nat) (s : State) : (s.blit cw ch y rows).clipW n' = s.clipW n' := by
  obtain ⟨_, _, _, _, _, _, _, _, _, h⟩ := blit_shape cw ch y rows s; rw [h]; rfl
@[simp] theorem blit_clipH (cw ch y : Nat) (rows : List (List RGB)) (n' : Nat) (s : State) : (s.blit cw ch y rows).clipH n' = s.clipH n' := by
  obtain ⟨_, _, _, _, _, _, _, _, _, h⟩ := blit_shape cw ch y rows s; rw [h]; rfl

end Sys2Proof.Machine
end

