-- ==== Sys2Proof/Laws/Invariant.lean ====
section
/-!
SUPPORT. That the shared operations keep `State.Inv`, one lemma per operation: what the proof that every step keeps it
is put together from.
-/

namespace Sys2Proof.Machine

variable {s : State}

/-! ### Operations that write no field the invariant speaks of -/

theorem inv_setR0 (h : s.Inv) (v : Word) : (s.setR0 v).Inv :=
  ⟨h.1, h.2, h.3, h.4, h.5, h.6, h.7, h.8, h.9, h.10, h.11⟩

theorem inv_setR123 (h : s.Inv) (e : Err3) : (s.setR123 e).Inv :=
  ⟨h.1, h.2, h.3, h.4, h.5, h.6, h.7, h.8, h.9, h.10, h.11⟩

theorem inv_pushRsp (h : s.Inv) (w : Word) : (s.pushRsp w).Inv :=
  ⟨h.1, h.2, h.3, h.4, h.5, h.6, h.7, h.8, h.9, h.10, h.11⟩

theorem inv_pushProg (h : s.Inv) (w : Word) : (s.pushProg w).Inv :=
  ⟨h.1, h.2, h.3, h.4, h.5, h.6, h.7, h.8, h.9, h.10, h.11⟩

theorem inv_progress (h : s.Inv) (r n : Nat) : (s.progress r n).Inv := by
  unfold State.progress
  split
  · exact inv_pushProg h _
  · exact h

theorem inv_request (h : s.Inv) (q : PortReq) : (s.request q).Inv :=
  ⟨h.1, h.2, h.3, h.4, h.5, h.6, h.7, h.8, h.9, h.10, h.11⟩

theorem inv_setBderr (h : s.Inv) (v : Byte) : (s.setBderr v).Inv :=
  ⟨h.1, h.2, h.3, h.4, h.5, h.6, h.7, h.8, h.9, h.10, h.11⟩

theorem inv_noteSat (h : s.Inv) (b : Bool) : (s.noteSat b).Inv :=
  ⟨h.1, h.2, h.3, h.4, h.5, h.6, h.7, h.8, h.9, h.10, h.11⟩

theorem inv_noteNotFound (h : s.Inv) : s.noteNotFound.Inv :=
  ⟨h.1, h.2, h.3, h.4, h.5, h.6, h.7, h.8, h.9, h.10, h.11⟩

theorem inv_retireQuiet (h : s.Inv) : s.retireQuiet.Inv :=
  ⟨h.1, h.2, h.3, h.4, h.5, h.6, h.7, h.8, h.9, h.10, h.11⟩

theorem inv_nearestFlags (h : s.Inv) (c : Lab) : (s.nearestFlags c).Inv := by
  unfold State.nearestFlags
  split
  · exact inv_noteNotFound h
  · exact inv_noteSat h _

theorem inv_afterRead (h : s.Inv) (l : List ReadAnswer) (q : List PortReq) : (s.afterRead l q).Inv :=
  ⟨h.1, h.2, h.3, h.4, h.5, h.6, h.7, h.8, h.9, h.10, h.11⟩

theorem inv_afterMcus (h : s.Inv) (l : List McuAnswer) (q : List PortReq) : (s.afterMcus l q).Inv :=
  ⟨h.1, h.2, h.3, h.4, h.5, h.6, h.7, h.8, h.9, h.10, h.11⟩

/-- Taking words from `CMDQ` keeps the invariant. -/
theorem inv_cmdq (h : s.Inv) (q : List Word) : ({ s with cmdq := q } : State).Inv :=
  ⟨h.1, h.2, h.3, h.4, h.5, h.6, h.7, h.8, h.9, h.10, h.11⟩

theorem inv_bsTotals (h : s.Inv) (l : List Word) : ({ s with bsTotals := l } : State).Inv :=
  ⟨h.1, h.2, h.3, h.4, h.5, h.6, h.7, h.8, h.9, h.10, h.11⟩

theorem inv_bdInits (h : s.Inv) (l : List InitAnswer) : ({ s with bdInits := l } : State).Inv :=
  ⟨h.1, h.2, h.3, h.4, h.5, h.6, h.7, h.8, h.9, h.10, h.11⟩

/-! ### Status, control, halt, waits -/

theorem inv_retire (h : s.Inv) (rc : Code) : (s.retire rc).Inv := by
  refine ⟨h.1, h.2, h.3, h.4, h.5, h.6, h.7, ?_, h.9, h.10, h.11⟩
  simp only [State.statusLegal, retire_err, retire_fails]
  by_cases hr : rc = .ok <;> simp [hr]

theorem inv_halt (h : s.Inv) : s.halt.Inv :=
  ⟨h.1, h.2, h.3, h.4, h.5, h.6, h.7, h.8, by simp [State.haltLegal], h.10, rfl⟩

theorem inv_invalidate (h : s.Inv) : s.invalidate.Inv :=
  ⟨h.1, h.2, h.3, h.4, h.5, h.6, rfl, h.8, h.9, h.10, h.11⟩

theorem inv_beginRows (h : s.Inv) : s.beginRows.Inv :=
  ⟨h.1, h.2, h.3, h.4, h.5, h.6, rfl, h.8, h.9, h.10, h.11⟩

theorem inv_openRows (h : s.Inv) (x y : Nat) : (s.openRows x y).Inv := by
  unfold State.openRows
  split
  · exact ⟨h.1, h.2, h.3, h.4, h.5, h.6, rfl, h.8, h.9, h.10, h.11⟩
  · exact h

/-- The sequencer of a running engine may come to wait for anything that fits. -/
theorem inv_seq (h : s.Inv) (hh : s.halted = false) {q : Sequencer}
    (hq : ({ s with seq := q } : State).sequencerFits = true) : ({ s with seq := q } : State).Inv :=
  ⟨h.1, h.2, h.3, h.4, h.5, h.6, h.7, h.8, by simp [State.haltLegal, hh], h.10, hq⟩

theorem inv_seq_idle (h : s.Inv) : ({ s with seq := .idle } : State).Inv :=
  ⟨h.1, h.2, h.3, h.4, h.5, h.6, h.7, h.8, by simp [State.haltLegal], h.10, rfl⟩

theorem inv_acc (h : s.Inv) (v : Word) : ({ s with acc := accStored v } : State).Inv := by
  refine ⟨h.1, h.2, h.3, ?_, h.5, h.6, h.7, h.8, h.9, h.10, h.11⟩
  have hc := h.control
  simp only [State.controlLegal, Bool.and_eq_true, decide_eq_true_eq] at hc ⊢
  refine ⟨hc.1, ?_⟩
  unfold accStored
  split
  · assumption
  · decide

theorem inv_ctrl (h : s.Inv) {v : Word} (hv : ctrlLegal v = true)
    (hq : qmodeField v = qmodeField s.ctrl ∨ s.curValid = false) : ({ s with ctrl := v } : State).Inv := by
  refine ⟨h.1, h.2, h.3, ?_, h.5, h.6, ?_, h.8, h.9, h.10, h.11⟩
  · have hc := h.control
    simp only [State.controlLegal, Bool.and_eq_true] at hc ⊢
    exact ⟨hv, hc.2⟩
  · have hd := h.diffusion
    simp only [State.diffusionLegal, Bool.or_eq_true, Bool.and_eq_true, decide_eq_true_eq] at hd ⊢
    simp only [State.qmode] at hd ⊢
    rcases hq with hq | hq
    · rw [hq]; exact hd
    · left; simp [hq]

/-! ### The palette -/

theorem indicesUnique_map (f : PalEntry → PalEntry) (hf : ∀ e, (f e).index = e.index) :
    ∀ l : List PalEntry, indicesUnique (l.map f) = indicesUnique l := by
  intro l
  induction l with
  | nil => rfl
  | cons e l ih => simp [indicesUnique, ih, hf, List.all_map, Function.comp_def]

theorem indicesUnique_mkEntry (p : Params) (mono : Bool) :
    ∀ l : List PalSpec, hasDupIndex l = false →
      indicesUnique (l.map (fun e => mkEntry p mono e.name e.index e.rgb)) = true := by
  have hi : ∀ n i c, (mkEntry p mono n i c).index = i := by
    intro n i c; unfold mkEntry; dsimp only; split <;> rfl
  intro l
  induction l with
  | nil => intro _; rfl
  | cons e l ih =>
    intro h
    simp only [hasDupIndex, Bool.or_eq_false_iff] at h
    simp only [List.map_cons, indicesUnique, Bool.and_eq_true, ih h.2, and_true, List.all_map, Function.comp_def, hi]
    simpa using h.1

theorem isGray_mkEntry (p : Params) (n i : Byte) (c : RGB) : (mkEntry p true n i c).isGray p = true := by
  simp [mkEntry, PalEntry.isGray]

theorem inv_setPalette (h : s.Inv) {p : List PalEntry} {m : Bool} (hl : p.length ≤ Config.palMax)
    (hu : indicesUnique p = true) (hg : m = true → p.all (PalEntry.isGray s.params) = true) :
    (s.setPalette p m).Inv := by
  refine ⟨h.1, h.2, h.3, h.4, h.5, ?_, h.7, h.8, h.9, h.10, h.11⟩
  simp only [State.paletteLegal, setPalette_pal, setPalette_mono, setPalette_params, Bool.and_eq_true]
  refine ⟨⟨decide_eq_true hl, hu⟩, ?_⟩
  cases m
  · rfl
  · simpa using hg rfl

/-- A palette rebuilt entry by entry, indices kept, greys kept grey. -/
theorem inv_mapPalette (h : s.Inv) (f : PalEntry → PalEntry) (hi : ∀ e, (f e).index = e.index)
    (hg : s.mono = true → ∀ e, e.isGray s.params = true → (f e).isGray s.params = true) :
    (s.setPalette (s.pal.map f) s.mono).Inv := by
  have hp := h.palette
  simp only [State.paletteLegal, Bool.and_eq_true, decide_eq_true_eq] at hp
  refine inv_setPalette h (by simpa using hp.1.1) (by rw [indicesUnique_map f hi]; exact hp.1.2) ?_
  intro hm
  simp only [hm, Bool.not_true, Bool.false_or, List.all_eq_true] at hp
  simp only [List.all_eq_true, List.mem_map]
  rintro _ ⟨e, he, rfl⟩
  exact hg hm e (hp.2 e he)

/-! ### Row buffers -/

theorem inv_rows (h : s.Inv) {t n : Row} (ht : t.wf = true) (hn : n.wf = true)
    (ht' : sparseBelow s.params.rowMax t = true) (hn' : sparseBelow s.params.rowMax n = true) :
    ({ s with thisRow := t, nextRow := n } : State).Inv := by
  refine ⟨h.1, ?_, ?_, h.4, h.5, h.6, h.7, h.8, h.9, h.10, h.11⟩
  · have hw := h.memoriesWf
    simp only [State.memoriesWf, Bool.and_eq_true] at hw ⊢
    exact ⟨⟨hw.1.1, ht⟩, hn⟩
  · have hw := h.memoriesFit
    simp only [State.memoriesFit, Bool.and_eq_true] at hw ⊢
    exact ⟨⟨hw.1.1, ht'⟩, hn'⟩

theorem inv_thisWf (h : s.Inv) : s.thisRow.wf = true := by
  have := h.memoriesWf; simp only [State.memoriesWf, Bool.and_eq_true] at this; exact this.1.2

theorem inv_nextWf (h : s.Inv) : s.nextRow.wf = true := by
  have := h.memoriesWf; simp only [State.memoriesWf, Bool.and_eq_true] at this; exact this.2

theorem inv_fbWf (h : s.Inv) : s.fb.wf = true := by
  have := h.memoriesWf; simp only [State.memoriesWf, Bool.and_eq_true] at this; exact this.1.1.1

theorem inv_fbcWf (h : s.Inv) : s.fbc.wf = true := by
  have := h.memoriesWf; simp only [State.memoriesWf, Bool.and_eq_true] at this; exact this.1.1.2

theorem inv_thisBelow (h : s.Inv) : sparseBelow s.params.rowMax s.thisRow = true := by
  have := h.memoriesFit; simp only [State.memoriesFit, Bool.and_eq_true] at this; exact this.1.2

theorem inv_nextBelow (h : s.Inv) : sparseBelow s.params.rowMax s.nextRow = true := by
  have := h.memoriesFit; simp only [State.memoriesFit, Bool.and_eq_true] at this; exact this.2

theorem inv_surfW (h : s.Inv) : s.surfW.toNat ≤ s.params.rowMax := by
  have := h.surface; simp only [State.surfaceFits, Bool.and_eq_true, decide_eq_true_eq] at this; exact this.1

theorem inv_surfBytes (h : s.Inv) : s.surfBytes ≤ s.params.fbBytes := by
  have := h.surface; simp only [State.surfaceFits, Bool.and_eq_true, decide_eq_true_eq] at this; exact this.2

theorem inv_addThis (h : s.Inv) {x : Nat} (hx : x < s.surfW.toNat) (e : Err3) (k : Int) : (s.addThis x e k).Inv := by
  have hw := inv_surfW h
  exact inv_noteSat (inv_rows h (rowWf_setEntry _ (inv_thisWf h)) (inv_nextWf h)
    (sparseBelow_write (by omega) (inv_thisBelow h)) (inv_nextBelow h)) _

theorem inv_addNext (h : s.Inv) {x : Nat} (hx : x < s.surfW.toNat) (e : Err3) (k : Int) : (s.addNext x e k).Inv := by
  have hw := inv_surfW h
  exact inv_noteSat (inv_rows h (inv_thisWf h) (rowWf_setEntry _ (inv_nextWf h)) (inv_thisBelow h)
    (sparseBelow_write (by omega) (inv_nextBelow h))) _

theorem inv_diffuse (h : s.Inv) {x : Nat} (hx : x < s.surfW.toNat) (y : Nat) (e : Err3) : (s.diffuse x y e).Inv := by
  unfold State.diffuse State.onlyIf
  dsimp only
  have h1 : (if decide (x + 1 < s.surfW.toNat) then s.addThis (x + 1) e 7 else s).Inv := by
    split
    next hr => exact inv_addThis h (by simpa using hr) e 7
    next => exact h
  have w1 : (if decide (x + 1 < s.surfW.toNat) then s.addThis (x + 1) e 7 else s).surfW = s.surfW := by
    split <;> simp
  generalize (if decide (x + 1 < s.surfW.toNat) then s.addThis (x + 1) e 7 else s) = t1 at h1 w1 ⊢
  have h2 : (if (decide (y + 1 < s.surfH.toNat) && decide (x + 1 < s.surfW.toNat)) then
      t1.addNext (x + 1) e 1 else t1).Inv := by
    split
    next hr =>
      simp only [Bool.and_eq_true, decide_eq_true_eq] at hr
      exact inv_addNext h1 (by rw [w1]; exact hr.2) e 1
    next => exact h1
  have w2 : (if (decide (y + 1 < s.surfH.toNat) && decide (x + 1 < s.surfW.toNat)) then
      t1.addNext (x + 1) e 1 else t1).surfW = s.surfW := by
    split <;> simp [w1]
  generalize (if (decide (y + 1 < s.surfH.toNat) && decide (x + 1 < s.surfW.toNat)) then
      t1.addNext (x + 1) e 1 else t1) = t2 at h2 w2 ⊢
  have h3 : (if (decide (y + 1 < s.surfH.toNat) && decide (1 ≤ x)) then t2.addNext (x - 1) e 3 else t2).Inv := by
    split
    · exact inv_addNext h2 (by rw [w2]; omega) e 3
    · exact h2
  have w3 : (if (decide (y + 1 < s.surfH.toNat) && decide (1 ≤ x)) then t2.addNext (x - 1) e 3 else t2).surfW =
      s.surfW := by
    split <;> simp [w2]
  generalize (if (decide (y + 1 < s.surfH.toNat) && decide (1 ≤ x)) then t2.addNext (x - 1) e 3 else t2) = t3 at h3 w3 ⊢
  split
  · exact inv_addNext h3 (by rw [w3]; exact hx) e 5
  · exact h3

theorem inv_rowMgmt (h : s.Inv) {y : Nat} (hy : y < s.surfH.toNat) (hm : s.qmode ≠ .direct) : (s.rowMgmt y).Inv := by
  have hlt : y < 65536 := by have := s.surfH.isLt; omega
  have hcur : ∀ t n : Row, t.wf = true → n.wf = true → sparseBelow s.params.rowMax t = true →
      sparseBelow s.params.rowMax n = true → ∀ b : Bool,
      ({ s with thisRow := t, nextRow := n, curRow := BitVec.ofNat 16 y, curValid := b } : State).Inv := by
    intro t n ht hn ht' hn' b
    have hr := inv_rows h ht hn ht' hn'
    refine ⟨hr.1, hr.2, hr.3, hr.4, hr.5, hr.6, ?_, hr.8, hr.9, hr.10, hr.11⟩
    simp only [State.diffusionLegal, Bool.or_eq_true, Bool.and_eq_true, decide_eq_true_eq]
    right
    refine ⟨?_, hm⟩
    simp only [BitVec.toNat_ofNat]
    omega
  unfold State.rowMgmt
  dsimp only
  split
  · exact h
  · split
    next hv =>
      have hb := hcur _ _ (sparseWf_copy (n := s.surfW.toNat) (inv_nextWf h) (inv_thisWf h))
        (sparseWf_clear (n := s.surfW.toNat) (inv_nextWf h))
        (sparseBelow_copy (inv_nextBelow h) (inv_thisBelow h)) (sparseBelow_clear (inv_nextBelow h)) s.curValid
      exact hb
    next hv =>
      exact hcur _ _ (sparseWf_clear (n := s.surfW.toNat) (inv_thisWf h))
        (sparseWf_clear (n := s.surfW.toNat) (inv_nextWf h))
        (sparseBelow_clear (inv_thisBelow h)) (sparseBelow_clear (inv_nextBelow h)) true

end Sys2Proof.Machine
end

