-- ==== Sys2Proof/Laws/Surface.lean ====
section
/-!
SUPPORT. Where a pixel lies, what a pixel write leaves in every byte, that two pixels do not disturb each other, and
that the unused bits stay 0.
-/

namespace Sys2Proof.Machine

/-! ### Addresses -/

/-- The byte column of a pixel column. -/
def byteCol (fmt : Fmt) (x : Nat) : Nat :=
  match fmt with
  | .dense8 => x
  | .pack4 => x / 2
  | .plane2 => x / 8

theorem pixelAddr_eq (x y : Nat) (s : State) : s.pixelAddr x y = y * s.stride + byteCol s.fmt x := by
  unfold State.pixelAddr byteCol
  cases s.fmt <;> rfl

theorem byteCol_lt {fmt : Fmt} {x w : Nat} (h : x < w) : byteCol fmt x < strideOf fmt w := by
  cases fmt <;> simp only [byteCol, strideOf, ceilDiv] <;> omega

theorem inside_iff (x y : Nat) (s : State) : s.inside x y = true ↔ x < s.surfW.toNat ∧ y < s.surfH.toNat := by
  simp [State.inside]

theorem pixelAddr_lt {x y : Nat} {s : State} (h : s.inside x y = true) : s.pixelAddr x y < s.planeBytes := by
  rw [inside_iff] at h
  rw [pixelAddr_eq]
  have hc := byteCol_lt (fmt := s.fmt) h.1
  simp only [State.planeBytes, planeBytesOf, State.stride] at *
  calc y * strideOf s.fmt s.surfW.toNat + byteCol s.fmt x
      < y * strideOf s.fmt s.surfW.toNat + strideOf s.fmt s.surfW.toNat := by omega
    _ = strideOf s.fmt s.surfW.toNat * (y + 1) := by rw [Nat.mul_comm y, Nat.mul_succ]
    _ ≤ strideOf s.fmt s.surfW.toNat * s.surfH.toNat := Nat.mul_le_mul_left _ h.2

theorem planeBytes_le (s : State) : s.planeBytes ≤ s.surfBytes := by
  unfold State.planeBytes State.surfBytes surfBytesOf
  cases s.fmt <;> simp <;> omega

theorem surfBytes_plane2 {s : State} (h : s.fmt = .plane2) : s.surfBytes = s.planeBytes + s.planeBytes := by
  simp [State.planeBytes, State.surfBytes, surfBytesOf, h]; omega

theorem surfBytes_not_plane2 {s : State} (h : s.fmt ≠ .plane2) : s.surfBytes = s.planeBytes := by
  revert h
  unfold State.planeBytes State.surfBytes surfBytesOf
  cases s.fmt <;> simp

/-- Two pixels of the surface share their byte exactly when they share their row and their byte column. -/
theorem pixelAddr_inj {x y x' y' : Nat} {s : State} (h : s.inside x y = true) (h' : s.inside x' y' = true) :
    s.pixelAddr x y = s.pixelAddr x' y' ↔ y = y' ∧ byteCol s.fmt x = byteCol s.fmt x' := by
  rw [inside_iff] at h h'
  rw [pixelAddr_eq, pixelAddr_eq]
  have hc := byteCol_lt (fmt := s.fmt) h.1
  have hc' := byteCol_lt (fmt := s.fmt) h'.1
  simp only [State.stride]
  generalize strideOf s.fmt s.surfW.toNat = n at *
  generalize byteCol s.fmt x = c at *
  generalize byteCol s.fmt x' = c' at *
  constructor
  · intro he
    have hy : y = y' := by
      have h1 : (y * n + c) / n = y := by
        rw [Nat.mul_comm, Nat.mul_add_div (by omega), Nat.div_eq_of_lt hc, Nat.add_zero]
      have h2 : (y' * n + c') / n = y' := by
        rw [Nat.mul_comm, Nat.mul_add_div (by omega), Nat.div_eq_of_lt hc', Nat.add_zero]
      rw [← h1, ← h2, he]
    subst hy
    exact ⟨rfl, by omega⟩
  · rintro ⟨rfl, rfl⟩; rfl

/-! ### What a pixel write leaves in every byte -/

/-- What the write of one byte leaves in every byte. -/
theorem memRead_memWrite {k : Nat} (v : Byte) {s : State} (h : s.fb.wf = true) (a : Nat) :
    (s.memWrite k v).memRead a = if a = k then v else s.memRead a := by
  split
  next he => rw [he]; exact memRead_memWrite_self v h
  next he => exact memRead_memWrite_of_ne he v s

/-- Out of bounds a pixel write does nothing at all (R100). -/
theorem surfSet_outside {x y : Nat} (v : Byte) {s : State} (h : s.inside x y = false) : s.surfSet x y v = s := by
  simp [State.surfSet, h]

/-- What a pixel write inside the surface leaves in every byte of the frame buffer (R212). -/
theorem memRead_surfSet {x y : Nat} (v : Byte) {s : State} (hi : s.inside x y = true) (hw : s.fb.wf = true) (a : Nat) :
    (s.surfSet x y v).memRead a =
      match s.fmt with
      | .dense8 => if a = s.pixelAddr x y then v else s.memRead a
      | .pack4 => if a = s.pixelAddr x y then setNibble x (s.memRead a) v else s.memRead a
      | .plane2 =>
        match plutFind s.plut v with
        | none => s.memRead a
        | some k =>
          if a = s.pixelAddr x y + s.planeBytes then setPlaneBit x (s.memRead a) (k / 2 == 1)
          else if a = s.pixelAddr x y then setPlaneBit x (s.memRead a) (k % 2 == 1)
          else s.memRead a := by
  unfold State.surfSet
  rw [if_pos hi]
  dsimp only
  cases hf : s.fmt with
  | dense8 => exact memRead_memWrite v hw a
  | pack4 =>
    dsimp only
    rw [memRead_memWrite _ hw]
    split
    next he => rw [he]
    next => rfl
  | plane2 =>
    dsimp only
    cases hk : plutFind s.plut v with
    | none => rfl
    | some k =>
      dsimp only
      rw [memRead_memWrite _ (memWf_memWrite _ _ hw), memRead_memWrite _ hw, memRead_memWrite _ hw]
      have hp := pixelAddr_lt hi
      have hne : ¬ s.pixelAddr x y + s.planeBytes = s.pixelAddr x y := by omega
      by_cases he : a = s.pixelAddr x y + s.planeBytes
      · rw [if_pos he, if_pos he, if_neg hne, he]
      · rw [if_neg he, if_neg he]
        by_cases he' : a = s.pixelAddr x y
        · rw [if_pos he', if_pos he', he']
        · rw [if_neg he', if_neg he']

/-- A byte that no plane of the pixel lies in is left alone, whatever the state. -/
theorem memRead_surfSet_of_ne {x y a : Nat} (v : Byte) {s : State} (h1 : a ≠ s.pixelAddr x y)
    (h2 : s.fmt = .plane2 → a ≠ s.pixelAddr x y + s.planeBytes) : (s.surfSet x y v).memRead a = s.memRead a := by
  unfold State.surfSet
  dsimp only
  split
  · split
    · exact memRead_memWrite_of_ne h1 _ _
    · exact memRead_memWrite_of_ne h1 _ _
    next hf =>
      split
      · rfl
      · rw [memRead_memWrite_of_ne (h2 hf), memRead_memWrite_of_ne h1]
  · rfl

/-- The same for the DisplaySink's copy. -/
theorem sinkByte_surfSet_of_ne {x y a : Nat} (v : Byte) {s : State} (h1 : a ≠ s.pixelAddr x y)
    (h2 : s.fmt = .plane2 → a ≠ s.pixelAddr x y + s.planeBytes) : (s.surfSet x y v).sinkByte a = s.sinkByte a := by
  unfold State.surfSet
  dsimp only
  split
  · split
    · exact sinkByte_memWrite_of_ne h1 _ _
    · exact sinkByte_memWrite_of_ne h1 _ _
    next hf =>
      split
      · rfl
      · rw [sinkByte_memWrite_of_ne (h2 hf), sinkByte_memWrite_of_ne h1]
  · rfl

/-- What a byte of the DisplaySink's copy can be after a byte write: what it was, or what the frame buffer held. -/
theorem sinkByte_memWrite_cases {s : State} (hw : s.fbc.wf = true) (k : Nat) (v : Byte) (a : Nat) :
    (s.memWrite k v).sinkByte a = s.sinkByte a ∨ (s.memWrite k v).sinkByte a = s.memRead a := by
  by_cases ha : a = k
  · subst ha
    show (s.maybeCommit a).sinkByte a = _ ∨ (s.maybeCommit a).sinkByte a = _
    rw [sinkByte_maybeCommit_self hw]
    split
    · right; rfl
    · left; rfl
  · left; exact sinkByte_memWrite_of_ne ha v s

/-- The same after `SURF_SET` (R95, R212). -/
theorem sinkByte_surfSet_cases {x y : Nat} (v : Byte) {s : State} (hi : s.inside x y = true) (hw : s.fbc.wf = true) (a : Nat) :
    (s.surfSet x y v).sinkByte a = s.sinkByte a ∨ (s.surfSet x y v).sinkByte a = s.memRead a := by
  unfold State.surfSet
  dsimp only
  rw [if_pos hi]
  split
  · exact sinkByte_memWrite_cases hw _ _ a
  · exact sinkByte_memWrite_cases hw _ _ a
  next hf =>
    split
    · exact .inl rfl
    · have hc : s.pixelAddr x y + s.planeBytes ≠ s.pixelAddr x y := by have := pixelAddr_lt hi; omega
      by_cases ha : a = s.pixelAddr x y + s.planeBytes
      · subst ha
        have key := fun v1 v2 => sinkByte_memWrite_cases (sinkWf_memWrite (s.pixelAddr x y) v1 hw)
          (s.pixelAddr x y + s.planeBytes) v2 (s.pixelAddr x y + s.planeBytes)
        simp only [sinkByte_memWrite_of_ne hc, memRead_memWrite_of_ne hc] at key
        exact key _ _
      · rw [sinkByte_memWrite_of_ne ha]
        exact sinkByte_memWrite_cases hw _ _ a

/-! ### Reading back -/

theorem getNibble_setNibble_self (x : Nat) (o v : Byte) : getNibble x (setNibble x o v) = v &&& 0x0F := by
  unfold getNibble setNibble
  split
  · apply BitVec.eq_of_getLsbD_eq
    intro i hi
    have : i = 0 ∨ i = 1 ∨ i = 2 ∨ i = 3 ∨ i = 4 ∨ i = 5 ∨ i = 6 ∨ i = 7 := by omega
    rcases this with rfl | rfl | rfl | rfl | rfl | rfl | rfl | rfl <;> simp
  · apply BitVec.eq_of_getLsbD_eq
    intro i hi
    have : i = 0 ∨ i = 1 ∨ i = 2 ∨ i = 3 ∨ i = 4 ∨ i = 5 ∨ i = 6 ∨ i = 7 := by omega
    rcases this with rfl | rfl | rfl | rfl | rfl | rfl | rfl | rfl <;> simp

theorem getNibble_setNibble_other {x x' : Nat} (h : x % 2 ≠ x' % 2) (o v : Byte) :
    getNibble x' (setNibble x o v) = getNibble x' o := by
  unfold getNibble setNibble
  by_cases hx : x % 2 = 0
  · have hx' : ¬ x' % 2 = 0 := by omega
    rw [if_pos hx, if_neg hx', if_neg hx']
    apply BitVec.eq_of_getLsbD_eq
    intro i hi
    have : i = 0 ∨ i = 1 ∨ i = 2 ∨ i = 3 ∨ i = 4 ∨ i = 5 ∨ i = 6 ∨ i = 7 := by omega
    rcases this with rfl | rfl | rfl | rfl | rfl | rfl | rfl | rfl <;> simp
  · have hx' : x' % 2 = 0 := by omega
    rw [if_neg hx, if_pos hx', if_pos hx']
    apply BitVec.eq_of_getLsbD_eq
    intro i hi
    have : i = 0 ∨ i = 1 ∨ i = 2 ∨ i = 3 ∨ i = 4 ∨ i = 5 ∨ i = 6 ∨ i = 7 := by omega
    rcases this with rfl | rfl | rfl | rfl | rfl | rfl | rfl | rfl <;> simp

theorem planeMask_bit : ∀ (i j : Fin 8), (0x80#8 >>> i.val).getLsbD (7 - j.val) = decide (j = i) := by decide

theorem getPlaneBit_setPlaneBit (x x' : Nat) (o : Byte) (b : Bool) :
    getPlaneBit x' (setPlaneBit x o b) = if x' % 8 = x % 8 then b else getPlaneBit x' o := by
  have h := planeMask_bit ⟨x % 8, Nat.mod_lt _ (by decide)⟩ ⟨x' % 8, Nat.mod_lt _ (by decide)⟩
  simp only [Fin.mk.injEq] at h
  have hl : 7 - x' % 8 < 8 := by omega
  unfold getPlaneBit setPlaneBit planeMask
  generalize (0x80#8 >>> (x % 8)) = m at h ⊢
  cases b <;> by_cases hx : x' % 8 = x % 8 <;>
    simp only [hx, if_true, if_false, Bool.false_eq_true, BitVec.getLsbD_and, BitVec.getLsbD_or, BitVec.getLsbD_not,
      decide_true, decide_false] at h ⊢
  · simp [h]
  · simp [h]; omega
  · simp [h]
  · simp [h]

theorem plutFind_some {plut : Word} {v : Byte} {k : Nat} (h : plutFind plut v = some k) :
    k < 4 ∧ plutByte plut k = v := by
  have hm := List.mem_of_find?_eq_some h
  have hp := List.find?_some h
  simp only [List.mem_cons, List.not_mem_nil, or_false] at hm
  exact ⟨by omega, by simpa using hp⟩

theorem plutFind_isSome {plut : Word} {v : Byte} {k : Nat} (hk : k < 4) (h : plutByte plut k = v) :
    ∃ j, plutFind plut v = some j := by
  unfold plutFind
  have : ([0, 1, 2, 3].find? (fun k => plutByte plut k == v)).isSome := by
    rw [List.find?_isSome]
    refine ⟨k, ?_, by simpa using h⟩
    simp only [List.mem_cons, List.not_mem_nil, or_false]
    omega
  exact Option.isSome_iff_exists.1 this

/-- What reads back at the pixel just written (R218): in `PACK4` the low nibble, in `PLANE2` the index when `PLUT` has
it. -/
theorem surfGet_surfSet_self {x y : Nat} (v : Byte) {s : State} (hi : s.inside x y = true) (hw : s.fb.wf = true) :
    (s.surfSet x y v).surfGet x y =
      match s.fmt with
      | .dense8 => v
      | .pack4 => v &&& 0x0F
      | .plane2 => if (plutFind s.plut v).isSome then v else s.surfGet x y := by
  have hr := memRead_surfSet v hi hw
  have hp := pixelAddr_lt hi
  cases hf : s.fmt with
  | dense8 =>
    rw [hf] at hr
    simp only [State.surfGet, surfSet_inside, hi, if_true, surfSet_fmt, hf, surfSet_pixelAddr, hr]
  | pack4 =>
    rw [hf] at hr
    simp only [State.surfGet, surfSet_inside, hi, if_true, surfSet_fmt, hf, surfSet_pixelAddr, hr,
      getNibble_setNibble_self]
  | plane2 =>
    rw [hf] at hr
    dsimp only at hr ⊢
    cases hk : plutFind s.plut v with
    | none =>
      simp only [hk] at hr
      simp only [Option.isSome_none, Bool.false_eq_true, if_false]
      simp only [State.surfGet, surfSet_inside, hi, if_true, surfSet_fmt, hf, surfSet_pixelAddr, surfSet_planeBytes, hr,
        surfSet_plut]
    | some k =>
      obtain ⟨hk4, hkv⟩ := plutFind_some hk
      simp only [hk] at hr
      simp only [Option.isSome_some, if_true]
      have hne : ¬ s.pixelAddr x y = s.pixelAddr x y + s.planeBytes := by omega
      simp only [State.surfGet, surfSet_inside, hi, if_true, surfSet_fmt, hf, surfSet_pixelAddr, surfSet_planeBytes, hr,
        surfSet_plut, hne, if_false, getPlaneBit_setPlaneBit]
      rw [← hkv]
      congr 1
      have : k = 0 ∨ k = 1 ∨ k = 2 ∨ k = 3 := by omega
      rcases this with rfl | rfl | rfl | rfl <;> rfl

/-- A pixel write leaves what every other pixel of the surface reads (R218). -/
theorem surfGet_surfSet_other {x y x' y' : Nat} (v : Byte) {s : State} (hi' : s.inside x' y' = true)
    (hne : ¬ (x' = x ∧ y' = y)) (hw : s.fb.wf = true) : (s.surfSet x y v).surfGet x' y' = s.surfGet x' y' := by
  by_cases hi : s.inside x y = true
  · have hr := memRead_surfSet v hi hw
    have hp := pixelAddr_lt hi
    have hp' := pixelAddr_lt hi'
    have hinj := pixelAddr_inj hi' hi
    cases hf : s.fmt with
    | dense8 =>
      rw [hf] at hr hinj
      have : ¬ s.pixelAddr x' y' = s.pixelAddr x y := by
        rw [hinj]; simp only [byteCol]; omega
      simp only [State.surfGet, surfSet_inside, hi', if_true, surfSet_fmt, hf, surfSet_pixelAddr, hr, this, if_false]
    | pack4 =>
      rw [hf] at hr hinj
      simp only [State.surfGet, surfSet_inside, hi', if_true, surfSet_fmt, hf, surfSet_pixelAddr, hr]
      split
      next he =>
        rw [getNibble_setNibble_other]
        rw [hinj] at he
        simp only [byteCol] at he
        omega
      next => rfl
    | plane2 =>
      rw [hf] at hr hinj
      dsimp only at hr
      cases hk : plutFind s.plut v with
      | none =>
        simp only [hk] at hr
        simp only [State.surfGet, surfSet_inside, hi', if_true, surfSet_fmt, hf, surfSet_pixelAddr, surfSet_planeBytes,
          hr, surfSet_plut]
      | some k =>
        simp only [hk] at hr
        have h1 : ¬ s.pixelAddr x' y' = s.pixelAddr x y + s.planeBytes := by omega
        have h2 : ¬ s.pixelAddr x' y' + s.planeBytes = s.pixelAddr x y := by omega
        simp only [State.surfGet, surfSet_inside, hi', if_true, surfSet_fmt, hf, surfSet_pixelAddr, surfSet_planeBytes,
          hr, surfSet_plut, h1, h2, if_false]
        by_cases he : s.pixelAddr x' y' = s.pixelAddr x y
        · have he' := hinj.1 he
          simp only [byteCol] at he'
          have hb : ¬ x' % 8 = x % 8 := by omega
          simp only [he, if_true, getPlaneBit_setPlaneBit, hb, if_false]
        · have he' : ¬ s.pixelAddr x' y' + s.planeBytes = s.pixelAddr x y + s.planeBytes := by omega
          simp only [he, he', if_false]
  · rw [surfSet_outside v (by simpa using hi)]

/-! ### The unused bits -/

theorem mod_stride {y c n : Nat} (hc : c < n) : (y * n + c) % n = c := by
  rw [Nat.mul_comm, Nat.mul_add_mod, Nat.mod_eq_of_lt hc]

theorem setNibble_padding {x w a : Nat} {o v : Byte} (hx : x < w) (ha : a % strideOf .pack4 w = x / 2)
    (ho : o &&& paddingMask .pack4 w a = 0) : setNibble x o v &&& paddingMask .pack4 w a = 0 := by
  unfold paddingMask at *
  dsimp only at *
  split at ho
  next hc =>
    rw [if_pos hc]
    have hx0 : x % 2 = 0 := by
      rw [ha] at hc; simp only [strideOf, ceilDiv] at hc; omega
    unfold setNibble
    rw [if_pos hx0]
    rw [← ho]
    apply BitVec.eq_of_getLsbD_eq
    intro i hi
    have : i = 0 ∨ i = 1 ∨ i = 2 ∨ i = 3 ∨ i = 4 ∨ i = 5 ∨ i = 6 ∨ i = 7 := by omega
    rcases this with rfl | rfl | rfl | rfl | rfl | rfl | rfl | rfl <;> simp
  next hc => rw [if_neg hc]; simp

theorem lowMask_bit (n i : Nat) (hn : n ≤ 8) (hi : i < 8) :
    (BitVec.ofNat 8 (2 ^ n - 1)).getLsbD i = decide (i < n) := by
  have hn' : n = 0 ∨ n = 1 ∨ n = 2 ∨ n = 3 ∨ n = 4 ∨ n = 5 ∨ n = 6 ∨ n = 7 ∨ n = 8 := by omega
  have hi' : i = 0 ∨ i = 1 ∨ i = 2 ∨ i = 3 ∨ i = 4 ∨ i = 5 ∨ i = 6 ∨ i = 7 := by omega
  rcases hn' with rfl | rfl | rfl | rfl | rfl | rfl | rfl | rfl | rfl <;>
    rcases hi' with rfl | rfl | rfl | rfl | rfl | rfl | rfl | rfl <;> decide

theorem setPlaneBit_padding {x w a : Nat} {o : Byte} {b : Bool} (hx : x < w) (ha : a % strideOf .plane2 w = x / 8)
    (ho : o &&& paddingMask .plane2 w a = 0) : setPlaneBit x o b &&& paddingMask .plane2 w a = 0 := by
  unfold paddingMask at *
  dsimp only at *
  split at ho
  next hc =>
    rw [if_pos hc]
    rw [ha] at hc
    simp only [strideOf, ceilDiv] at hc ho ⊢
    have hn : 8 * ((w + 8 - 1) / 8) - w ≤ 8 := by omega
    have hxn : 8 * ((w + 8 - 1) / 8) - w ≤ 7 - x % 8 := by omega
    generalize 8 * ((w + 8 - 1) / 8) - w = n at *
    replace ho : o &&& BitVec.ofNat 8 (2 ^ n - 1) = 0#8 := ho
    show setPlaneBit x o b &&& BitVec.ofNat 8 (2 ^ n - 1) = 0#8
    apply BitVec.eq_of_getLsbD_eq
    intro i hi
    have hoi := congrArg (fun t => BitVec.getLsbD t i) ho
    simp only [BitVec.getLsbD_and, lowMask_bit n i hn hi, BitVec.getLsbD_zero, Bool.and_eq_false_iff,
      decide_eq_false_iff_not] at hoi ⊢
    by_cases hin : i < n
    · left
      have hoi' : o.getLsbD i = false := by
        rcases hoi with h | h
        · exact h
        · exact absurd hin h
      have hm : (planeMask x).getLsbD i = false := by
        have h := planeMask_bit ⟨x % 8, Nat.mod_lt _ (by decide)⟩ ⟨7 - i, by omega⟩
        simp only [Fin.mk.injEq] at h
        rw [show 7 - (7 - i) = i by omega] at h
        unfold planeMask
        rw [h]
        simp only [decide_eq_false_iff_not]
        omega
      unfold setPlaneBit
      cases b <;> simp [hoi', hm]
    · right; exact hin
  next hc => rw [if_neg hc]; simp

/-- A pixel write keeps the unused bits 0 (R87). -/
theorem padding_surfSet {s : State} (hp : s.paddingZero) (hw : s.fb.wf = true) (hw' : s.fbc.wf = true) (x y : Nat)
    (v : Byte) : (s.surfSet x y v).paddingZero := by
  by_cases hi : s.inside x y = true
  case neg => rw [surfSet_outside v (by simpa using hi)]; exact hp
  have hin := (inside_iff x y s).1 hi
  have hcol := byteCol_lt (fmt := s.fmt) hin.1
  have haddr : s.pixelAddr x y % strideOf s.fmt s.surfW.toNat = byteCol s.fmt x := by
    rw [pixelAddr_eq]; exact mod_stride hcol
  intro a ha
  simp only [surfSet_surfBytes, surfSet_fmt, surfSet_surfW] at ha ⊢
  have ho := hp a ha
  refine ⟨?_, ?_⟩
  · rw [memRead_surfSet v hi hw a]
    cases hf : s.fmt with
    | dense8 => simp [paddingMask]
    | pack4 =>
      rw [hf] at ho haddr
      dsimp only
      split
      next he => exact setNibble_padding hin.1 (by rw [he]; exact haddr) ho.1
      next => exact ho.1
    | plane2 =>
      rw [hf] at ho haddr
      dsimp only
      split
      next => exact ho.1
      next k hk =>
        split
        next he =>
          refine setPlaneBit_padding hin.1 ?_ ho.1
          rw [he, State.planeBytes, planeBytesOf, hf, Nat.add_mul_mod_self_left]
          exact haddr
        next =>
          split
          next he => exact setPlaneBit_padding hin.1 (by rw [he]; exact haddr) ho.1
          next => exact ho.1
  · unfold State.surfSet
    rw [if_pos hi]
    dsimp only
    have one : ∀ k (w : Byte), (s.memWrite k w).sinkByte a &&& paddingMask s.fmt s.surfW.toNat a = 0 := by
      intro k w
      rcases sinkByte_memWrite_cases hw' k w a with h | h <;> rw [h]
      · exact ho.2
      · exact ho.1
    split
    · exact one _ _
    · exact one _ _
    next hf =>
      split
      · exact ho.2
      next k hk =>
        have hne : ¬ s.pixelAddr x y + s.planeBytes = s.pixelAddr x y := by have := pixelAddr_lt hi; omega
        rcases sinkByte_memWrite_cases (sinkWf_memWrite (s.pixelAddr x y)
          (setPlaneBit x (s.memRead (s.pixelAddr x y)) (k % 2 == 1)) hw') (s.pixelAddr x y + s.planeBytes)
          (setPlaneBit x ((s.memWrite (s.pixelAddr x y)
            (setPlaneBit x (s.memRead (s.pixelAddr x y)) (k % 2 == 1))).memRead (s.pixelAddr x y + s.planeBytes))
            (k / 2 == 1)) a with h | h <;> rw [h]
        · exact one _ _
        · rw [memRead_memWrite _ hw]
          split
          next he =>
            rw [hf] at ho haddr ⊢
            exact setPlaneBit_padding hin.1 (by rw [he]; exact haddr) (by rw [← he]; exact ho.1)
          next => exact ho.1

/-! ### The invariant -/

theorem surfSet_memoriesWf {s : State} (h : s.memoriesWf = true) (x y : Nat) (v : Byte) :
    (s.surfSet x y v).memoriesWf = true := by
  simp only [State.memoriesWf, Bool.and_eq_true] at h
  have h2 : ∀ k w, (s.memWrite k w).memoriesWf = true := by
    intro k w
    simp only [State.memoriesWf, Bool.and_eq_true]
    exact ⟨⟨⟨memWf_memWrite k w h.1.1.1, sinkWf_memWrite k w h.1.1.2⟩, h.1.2⟩, h.2⟩
  unfold State.surfSet
  dsimp only
  split
  · split
    · exact h2 _ _
    · exact h2 _ _
    · split
      · simp only [State.memoriesWf, Bool.and_eq_true]; exact h
      · have h3 := h2 (s.pixelAddr x y)
        simp only [State.memoriesWf, Bool.and_eq_true] at h3 ⊢
        exact ⟨⟨⟨memWf_memWrite _ _ (h3 _).1.1.1, sinkWf_memWrite _ _ (h3 _).1.1.2⟩, (h3 0).1.2⟩, (h3 0).2⟩
  · simp only [State.memoriesWf, Bool.and_eq_true]; exact h

theorem below_maybeCommit {s : State} {n k : Nat} (hk : k < n) (h : sparseBelow n s.fbc = true) :
    sparseBelow n (s.maybeCommit k).fbc = true := by
  simp only [maybeCommit_fbc]
  split
  · exact sparseBelow_write hk h
  · exact h

theorem surfSet_memoriesFit {s : State} (h : s.memoriesFit = true) (hs : s.surfBytes ≤ s.params.fbBytes) (x y : Nat)
    (v : Byte) : (s.surfSet x y v).memoriesFit = true := by
  have hle := planeBytes_le s
  have h2 : ∀ t : State, t.memoriesFit = true → t.params = s.params → ∀ k w, k < s.params.fbBytes →
      (t.memWrite k w).memoriesFit = true := by
    intro t ht hpar k w hk
    simp only [State.memoriesFit, Bool.and_eq_true] at ht ⊢
    simp only [memWrite_fb, memWrite_fbc, memWrite_params, memWrite_thisRow, memWrite_nextRow]
    rw [hpar] at ht ⊢
    exact ⟨⟨⟨sparseBelow_write hk ht.1.1.1, below_maybeCommit hk ht.1.1.2⟩, ht.1.2⟩, ht.2⟩
  unfold State.surfSet
  dsimp only
  split
  next hi =>
    have hp := pixelAddr_lt hi
    split
    · exact h2 s h rfl _ _ (by omega)
    · exact h2 s h rfl _ _ (by omega)
    next hf =>
      have hb := surfBytes_plane2 hf
      split
      · exact h
      · exact h2 _ (h2 s h rfl _ _ (by omega)) (by simp) _ _ (by omega)
  · exact h

theorem inv_surfSet {s : State} (h : s.Inv) (x y : Nat) (v : Byte) : (s.surfSet x y v).Inv := by
  have hpad := padding_surfSet h.padding (inv_fbWf h) (inv_fbcWf h) x y v
  have hwf := surfSet_memoriesWf h.memoriesWf x y v
  have hfit := surfSet_memoriesFit h.memoriesFit (inv_surfBytes h) x y v
  obtain ⟨fb, fbc, n, he⟩ := surfSet_shape x y v s
  rw [he] at hpad hwf hfit ⊢
  exact ⟨h.1, hwf, hfit, h.4, h.5, h.6, h.7, h.8, h.9, hpad, h.11⟩

theorem inv_labStep {s : State} (h : s.Inv) {x : Nat} (hx : x < s.surfW.toNat) (y : Nat) (c : RGB) :
    (s.labStep x y c).Inv := by
  unfold State.labStep
  exact inv_diffuse (inv_surfSet (inv_nearestFlags (inv_noteSat h _) _) _ _ _) (by simpa using hx) _ _

theorem inv_rgbStep {s : State} (h : s.Inv) {x : Nat} (hx : x < s.surfW.toNat) (y : Nat) (c : RGB) :
    (s.rgbStep x y c).Inv := by
  unfold State.rgbStep
  exact inv_diffuse (inv_surfSet (inv_nearestFlags h _) _ _ _) (by simpa using hx) _ _

theorem inv_viewSet {s : State} (h : s.Inv) (x y : Nat) (c : RGB) : (s.viewSet x y c).Inv := by
  unfold State.viewSet
  split
  next hi =>
    rw [inside_iff] at hi
    split
    · exact inv_surfSet (inv_nearestFlags h _) _ _ _
    next hm => exact inv_labStep (inv_rowMgmt h hi.2 (by rw [hm]; decide)) (by simpa using hi.1) _ _
    next hm => exact inv_rgbStep (inv_rowMgmt h hi.2 (by rw [hm]; decide)) (by simpa using hi.1) _ _
  · exact h

theorem inv_viewRow {s : State} (h : s.Inv) (y x : Nat) (cs : List RGB) : (s.viewRow y x cs).Inv := by
  induction cs generalizing x s with
  | nil => exact h
  | cons c cs ih => exact ih (inv_viewSet h x y c) (x + 1)

end Sys2Proof.Machine
end

