-- ==== Sys2Proof/Laws/Io.lean ====
section
/-!
SUPPORT. Setting pixels and pushing progress words neither look at nor touch the collaborators' answers, the trace of
requests and the mark of a decode's rows: each operation commutes with a change of those six fields.
-/

namespace Sys2Proof.Machine

/-- The fields of State that belong to ports BS and BD, and the mark that `SETPIX` alone looks at (log entry 25). -/
structure Io where
  totals : List Word
  reads : List ReadAnswer
  inits : List InitAnswer
  mcus : List McuAnswer
  reqs : List PortReq
  mark : Bool

/-- The port fields replaced. -/
def State.setIo (io : Io) (s : State) : State :=
  { s with
    bsTotals := io.totals, bsReads := io.reads, bdInits := io.inits, bdMcus := io.mcus, reqs := io.reqs
    rowsOfDecode := io.mark }

/-- The port fields of a state. -/
def State.io (s : State) : Io := ⟨s.bsTotals, s.bsReads, s.bdInits, s.bdMcus, s.reqs, s.rowsOfDecode⟩

@[simp] theorem setIo_io (s : State) : s.setIo s.io = s := rfl

@[simp] theorem setIo_setIo (a b : Io) (s : State) : (s.setIo a).setIo b = s.setIo b := rfl

theorem afterRead_eq_setIo (l : List ReadAnswer) (q : List PortReq) (s : State) :
    s.afterRead l q = s.setIo { s.io with reads := l, reqs := s.reqs ++ q } := rfl

theorem afterMcus_eq_setIo (l : List McuAnswer) (q : List PortReq) (s : State) :
    s.afterMcus l q = s.setIo { s.io with mcus := l, reqs := s.reqs ++ q } := rfl

/-- An operation that commutes with every change of the port fields. -/
def Portless (f : State → State) : Prop := ∀ (io : Io) (s : State), f (s.setIo io) = (f s).setIo io

theorem portless_id : Portless id := fun _ _ => rfl

theorem portless_comp {f g : State → State} (hf : Portless f) (hg : Portless g) : Portless (fun s => f (g s)) := by
  intro io s; show f (g (s.setIo io)) = _; rw [hg, hf]

theorem portless_noteSat (b : Bool) : Portless (State.noteSat b) := fun _ _ => rfl

theorem portless_memWrite (k : Nat) (v : Byte) : Portless (State.memWrite k v) := fun _ _ => rfl

theorem portless_nearestFlags (c : Lab) : Portless (State.nearestFlags c) := by
  intro io s
  unfold State.nearestFlags
  have h' : (s.setIo io).nearestEntry c = s.nearestEntry c := rfl
  cases h : s.nearestEntry c with
  | none => simp only [h', h]; rfl
  | some e => simp only [h', h]; rfl

theorem portless_surfSet (x y : Nat) (v : Byte) : Portless (State.surfSet x y v) := by
  intro io s
  unfold State.surfSet
  dsimp only
  have hi' : (s.setIo io).inside x y = s.inside x y := rfl
  have hf' : (s.setIo io).fmt = s.fmt := rfl
  have hp' : plutFind (s.setIo io).plut v = plutFind s.plut v := rfl
  cases hi : s.inside x y
  · simp only [hi', hi]; rfl
  · cases hf : s.fmt with
    | dense8 => simp only [hi', hi, hf', hf]; rfl
    | pack4 => simp only [hi', hi, hf', hf]; rfl
    | plane2 =>
      cases hp : plutFind s.plut v with
      | none => simp only [hi', hi, hf', hf, hp', hp]; rfl
      | some k => simp only [hi', hi, hf', hf, hp', hp]; rfl

theorem portless_rowMgmt (y : Nat) : Portless (State.rowMgmt y) := by
  intro io s
  unfold State.rowMgmt
  dsimp only
  have h1' : ((s.setIo io).curValid && y == (s.setIo io).curRow.toNat) = (s.curValid && y == s.curRow.toNat) := rfl
  have h2' : ((s.setIo io).curValid && y == (s.setIo io).curRow.toNat + 1) =
    (s.curValid && y == s.curRow.toNat + 1) := rfl
  rw [h1', h2']
  split
  · rfl
  · split <;> rfl

theorem portless_onlyIf (p : Bool) {f : State → State} (hf : Portless f) : Portless (State.onlyIf p f) := by
  intro io s
  unfold State.onlyIf
  split
  · exact hf io s
  · rfl

theorem portless_addThis (x : Nat) (e : Err3) (k : Int) : Portless (State.addThis x e k) := fun _ _ => rfl

theorem portless_addNext (x : Nat) (e : Err3) (k : Int) : Portless (State.addNext x e k) := fun _ _ => rfl

theorem portless_diffuse (x y : Nat) (e : Err3) : Portless (State.diffuse x y e) := by
  intro io s
  unfold State.diffuse
  dsimp only
  rw [show (s.setIo io).surfW = s.surfW from rfl, show (s.setIo io).surfH = s.surfH from rfl,
    portless_onlyIf _ (portless_addThis _ _ _), portless_onlyIf _ (portless_addNext _ _ _),
    portless_onlyIf _ (portless_addNext _ _ _), portless_onlyIf _ (portless_addNext _ _ _)]

theorem portless_labStep (x y : Nat) (c : RGB) : Portless (State.labStep x y c) := by
  intro io s
  unfold State.labStep
  show State.diffuse x y _ (State.surfSet x y _ (State.nearestFlags _ (State.noteSat _ (s.setIo io)))) = _
  rw [portless_noteSat, portless_nearestFlags, portless_surfSet, portless_diffuse]
  rfl

theorem portless_rgbStep (x y : Nat) (c : RGB) : Portless (State.rgbStep x y c) := by
  intro io s
  unfold State.rgbStep
  show State.diffuse x y _ (State.surfSet x y _ (State.nearestFlags _ (s.setIo io))) = _
  rw [portless_nearestFlags, portless_surfSet, portless_diffuse]
  rfl

theorem portless_viewSet (x y : Nat) (c : RGB) : Portless (State.viewSet x y c) := by
  intro io s
  unfold State.viewSet
  have hi' : (s.setIo io).inside x y = s.inside x y := rfl
  have hm' : (s.setIo io).qmode = s.qmode := rfl
  cases hi : s.inside x y
  · simp only [hi', hi]; rfl
  · cases hm : s.qmode with
    | direct =>
      simp only [hi', hi, hm', hm, if_true]
      show State.surfSet x y _ (State.nearestFlags _ (s.setIo io)) = _
      rw [portless_nearestFlags, portless_surfSet]
      rfl
    | lab => simp only [hi', hi, hm', hm, if_true]; rw [portless_rowMgmt, portless_labStep]
    | rgb => simp only [hi', hi, hm', hm, if_true]; rw [portless_rowMgmt, portless_rgbStep]

/-- `VIEW_SET` neither looks at nor touches the mark of a decode's rows. -/
theorem viewSet_mark (x y : Nat) (c : RGB) (m : Bool) (s : State) :
    State.viewSet x y c { s with rowsOfDecode := m } = { s.viewSet x y c with rowsOfDecode := m } := by
  have h := portless_viewSet x y c { s.io with mark := m } s
  refine h.trans ?_
  unfold State.setIo State.io
  simp

theorem portless_viewRow (y x : Nat) (cs : List RGB) : Portless (State.viewRow y x cs) := by
  induction cs generalizing x with
  | nil => intro io s; rfl
  | cons c cs ih =>
    intro io s
    rw [State.viewRow, portless_viewSet, ih]
    rfl

theorem portless_progress (r n : Nat) : Portless (State.progress r n) := by
  intro io s
  unfold State.progress
  rw [show (s.setIo io).progen = s.progen from rfl]
  split <;> rfl

theorem portless_emitRow (w h y : Nat) (f : Nat → RGB) : Portless (State.emitRow w h y f) := by
  intro io s
  unfold State.emitRow
  rw [show (s.setIo io).clipH h = s.clipH h from rfl, show (s.setIo io).clipW w = s.clipW w from rfl]
  split
  · exact portless_viewRow _ _ _ _ _
  · rfl

end Sys2Proof.Machine
end

