-- ==== Sys2Proof/Laws/Stream.lean ====
section
/-!
SUPPORT. What `READLINE` and the line loop of the byte-stream decoders do: how answers add up to lines, that a served
frame is decoded to its end, and that the invariant is kept wherever a decode stops or waits.
-/

namespace Sys2Proof.Machine

/-! ### Answers and lines -/

theorem streamOf_nil : streamOf [] = [] := rfl

theorem streamOf_cons (a : ReadAnswer) (as : List ReadAnswer) : streamOf (a :: as) = a.bytes ++ streamOf as := rfl

theorem streamOf_append (as bs : List ReadAnswer) : streamOf (as ++ bs) = streamOf as ++ streamOf bs := by
  simp [streamOf]

/-- Answers that serve one part of a frame and answers that serve the next serve both (R272). -/
theorem answersServe_append {ceiling n : Nat} {bs : List ReadAnswer} : ∀ {as : List ReadAnswer} {pos : Nat},
    answersServe ceiling n pos as = true → answersServe ceiling n (pos + (streamOf as).length) bs = true →
      answersServe ceiling n pos (as ++ bs) = true ∧
      requestsFor ceiling n pos (as ++ bs) =
        requestsFor ceiling n pos as ++ requestsFor ceiling n (pos + (streamOf as).length) bs := by
  intro as
  induction as with
  | nil => intro pos _ hb; exact ⟨by simpa [streamOf_nil] using hb, by simp [requestsFor, streamOf_nil]⟩
  | cons a as ih =>
    intro pos ha hb
    simp only [answersServe, Bool.and_eq_true, decide_eq_true_eq, beq_iff_eq] at ha
    obtain ⟨⟨⟨h0, h1⟩, h2⟩, h3⟩ := ha
    rw [streamOf_cons, List.length_append, h2, ← Nat.add_assoc] at hb
    obtain ⟨g1, g2⟩ := ih h3 hb
    refine ⟨by simp [answersServe, h0, h1, h2, g1], ?_⟩
    rw [List.cons_append, requestsFor, g2, requestsFor, streamOf_cons, List.length_append, h2, Nat.add_assoc]
    rfl

/-- The answers that serve a frame split after each line: no answer straddles two lines (R272). -/
theorem serve_split {ceiling n : Nat} : ∀ {as : List ReadAnswer} {pos : Nat}, 0 < n →
    answersServe ceiling n pos as = true → n - pos % n ≤ (streamOf as).length →
    ∃ as1 as2, as = as1 ++ as2 ∧ (streamOf as1).length = n - pos % n ∧
      answersServe ceiling n pos as1 = true ∧ answersServe ceiling n (pos + (n - pos % n)) as2 = true ∧
      requestsFor ceiling n pos as =
        requestsFor ceiling n pos as1 ++ requestsFor ceiling n (pos + (n - pos % n)) as2 := by
  intro as
  induction as with
  | nil =>
    intro pos hn _ hl
    have := Nat.mod_lt pos hn
    simp only [streamOf_nil, List.length_nil] at hl
    omega
  | cons a as ih =>
    intro pos hn hs hl
    have hm := Nat.mod_lt pos hn
    simp only [answersServe, Bool.and_eq_true, decide_eq_true_eq, beq_iff_eq] at hs
    obtain ⟨⟨⟨h0, h1⟩, h2⟩, h3⟩ := hs
    simp only [streamOf_cons, List.length_append] at hl
    by_cases he : a.count = n - pos % n
    · refine ⟨[a], as, rfl, by simp [streamOf, h2, he], ?_, by rw [← he]; exact h3, ?_⟩
      · simp [answersServe, h0, h1, h2]
      · rw [← he]; rfl
    · have hmod : (pos + a.count) % n = pos % n + a.count := by
        rw [Nat.add_mod, Nat.mod_eq_of_lt (show a.count < n by omega), Nat.mod_eq_of_lt (by omega)]
      obtain ⟨as1, as2, e1, e2, e3, e4, e5⟩ := ih (pos := pos + a.count) hn h3 (by rw [hmod]; omega)
      have hp : pos + a.count + (n - (pos + a.count) % n) = pos + (n - pos % n) := by rw [hmod]; omega
      rw [hp] at e4 e5
      refine ⟨a :: as1, as2, by rw [e1]; rfl, ?_, ?_, e4, ?_⟩
      · rw [streamOf_cons, List.length_append, e2, hmod, h2]; omega
      · simp [answersServe, h0, h1, h2, e3]
      · show _ :: requestsFor ceiling n (pos + a.count) as = (_ :: requestsFor ceiling n (pos + a.count) as1) ++ _
        rw [e5]; rfl

/-- A line that the answers fill exactly is read in full (R272). -/
theorem readLine_of_served {ceiling n : Nat} (rest : List ReadAnswer) :
    ∀ {as : List ReadAnswer} {got : List Byte} {pos : Nat}, pos % n = got.length % n → got.length ≤ n → 
      answersServe ceiling n pos as = true → got.length + (streamOf as).length = n →
      readLine ceiling n (as ++ rest) false got = (.full (got ++ streamOf as), rest, requestsFor ceiling n pos as) := by
  intro as
  induction as with
  | nil =>
    intro got pos _ _ _ hl
    simp only [streamOf_nil, List.length_nil, Nat.add_zero] at hl
    cases rest <;> simp [readLine, hl, streamOf_nil, requestsFor]
  | cons a as ih =>
    intro got pos hp hle hs hl
    simp only [answersServe, Bool.and_eq_true, decide_eq_true_eq, beq_iff_eq] at hs
    obtain ⟨⟨⟨h0, h1⟩, h2⟩, h3⟩ := hs
    simp only [streamOf_cons, List.length_append] at hl
    have hlt : got.length < n := by omega
    have hpm : pos % n = got.length := by rw [hp, Nat.mod_eq_of_lt hlt]
    rw [hpm] at h1
    have hreq : requestSize ceiling n got.length = min ceiling (n - pos % n) := by rw [hpm]; rfl
    rw [List.cons_append, readLine, if_neg (by omega)]
    have hok : answerOk (requestSize ceiling n got.length) a = true := by
      simp only [answerOk, requestSize, Bool.and_eq_true, beq_iff_eq]; exact ⟨decide_eq_true h1, h2⟩
    have hc : ¬ a.count = 0 := by omega
    simp only [hok, Bool.not_true, Bool.false_eq_true, if_false, hc]
    have hnext := ih (got := got ++ a.bytes) (pos := pos + a.count)
      (by rw [List.length_append, h2, Nat.add_mod, hp, ← Nat.add_mod]) (by rw [List.length_append]; omega) h3
      (by rw [List.length_append]; omega)
    rw [hnext]
    simp only [List.append_assoc, streamOf_cons, requestsFor, hreq, List.singleton_append]

/-- Served answers that do not fill the line: what comes after them decides (R272). -/
theorem readLine_append_served {ceiling n : Nat} (rest : List ReadAnswer) :
    ∀ {as : List ReadAnswer} {got : List Byte} {pos : Nat}, pos % n = got.length % n →
      answersServe ceiling n pos as = true → got.length + (streamOf as).length < n →
      readLine ceiling n (as ++ rest) false got =
        ((readLine ceiling n rest false (got ++ streamOf as)).1,
          (readLine ceiling n rest false (got ++ streamOf as)).2.1,
          requestsFor ceiling n pos as ++ (readLine ceiling n rest false (got ++ streamOf as)).2.2) := by
  intro as
  induction as with
  | nil => intro got pos _ _ _; simp [streamOf_nil, requestsFor]
  | cons a as ih =>
    intro got pos hp hs hl
    simp only [answersServe, Bool.and_eq_true, decide_eq_true_eq, beq_iff_eq] at hs
    obtain ⟨⟨⟨h0, h1⟩, h2⟩, h3⟩ := hs
    simp only [streamOf_cons, List.length_append] at hl
    have hlt : got.length < n := by omega
    have hpm : pos % n = got.length := by rw [hp, Nat.mod_eq_of_lt hlt]
    rw [hpm] at h1
    have hreq : requestSize ceiling n got.length = min ceiling (n - pos % n) := by rw [hpm]; rfl
    rw [List.cons_append, readLine, if_neg (by omega)]
    have hok : answerOk (requestSize ceiling n got.length) a = true := by
      simp only [answerOk, requestSize, Bool.and_eq_true, beq_iff_eq]; exact ⟨decide_eq_true h1, h2⟩
    have hc : ¬ a.count = 0 := by omega
    simp only [hok, Bool.not_true, Bool.false_eq_true, if_false, hc]
    have hnext := ih (got := got ++ a.bytes) (pos := pos + a.count)
      (by rw [List.length_append, h2, Nat.add_mod, hp, ← Nat.add_mod]) h3
      (by rw [List.length_append]; omega)
    rw [hnext]
    simp only [List.append_assoc, streamOf_cons, requestsFor, hreq, List.cons_append, List.nil_append]

/-- The answers that serve a frame split after any number of lines that they fill. -/
theorem serve_lines {ceiling n : Nat} (hn : 0 < n) : ∀ (m : Nat) {as : List ReadAnswer} {y : Nat},
    answersServe ceiling n (n * y) as = true → m * n ≤ (streamOf as).length →
    ∃ as1 as2, as = as1 ++ as2 ∧ (streamOf as1).length = m * n ∧ answersServe ceiling n (n * y) as1 = true ∧
      answersServe ceiling n (n * (y + m)) as2 = true ∧
      requestsFor ceiling n (n * y) as =
        requestsFor ceiling n (n * y) as1 ++ requestsFor ceiling n (n * (y + m)) as2 := by
  intro m
  induction m with
  | zero => intro as y h _; exact ⟨[], as, rfl, by simp [streamOf_nil], rfl, h, rfl⟩
  | succ m ih =>
    intro as y h hl
    have hz : n * y % n = 0 := Nat.mul_mod_right n y
    rw [Nat.succ_mul] at hl
    obtain ⟨as1, as2, e1, e2, e3, e4, e5⟩ := serve_split hn h (by rw [hz]; omega)
    rw [hz, Nat.sub_zero] at e2 e4 e5
    rw [← Nat.mul_succ] at e4 e5
    have hlen : (streamOf as).length = n + (streamOf as2).length := by
      rw [e1, streamOf_append, List.length_append, e2]
    obtain ⟨bs1, bs2, f1, f2, f3, f4, f5⟩ := ih (as := as2) (y := y + 1) e4 (by omega)
    rw [show y + 1 + m = y + (m + 1) by omega] at f4 f5
    have hpos : n * y + (streamOf as1).length = n * (y + 1) := by rw [e2, Nat.mul_succ]
    obtain ⟨g1, g2⟩ := answersServe_append e3 (by rw [hpos]; exact f3)
    rw [hpos] at g2
    refine ⟨as1 ++ bs1, bs2, by rw [e1, f1, List.append_assoc], ?_, g1, f4, ?_⟩
    · rw [streamOf_append, List.length_append, e2, f2, Nat.succ_mul, Nat.add_comm]
    · rw [e5, f5, g2, List.append_assoc]

/-! ### The line loop -/

theorem portless_beforeLine (k : StreamKind) (h y : Nat) : Portless (State.beforeLine k h y) := by
  intro io s
  unfold State.beforeLine
  cases k <;> first | exact portless_progress _ _ io s | rfl

theorem portless_emit3l (w h y : Nat) (p : List Byte) (a b : Option (List Byte)) :
    Portless (State.emit3l w h y p a b) := by
  intro io s
  unfold State.emit3l
  rw [portless_progress]
  exact portless_emitRow _ _ _ _ io _

theorem portless_afterLine (k : StreamKind) (w h y : Nat) (p a b : List Byte) :
    Portless (State.afterLine k w h y p a b) := by
  intro io s
  unfold State.afterLine
  cases k with
  | rgb565 => exact portless_emitRow _ _ _ _ io s
  | yuyv => exact portless_emitRow _ _ _ _ io s
  | yuyvh => exact portless_emitRow _ _ _ _ io s
  | yuv3l =>
    dsimp only
    split
    · rfl
    · split <;> exact portless_emit3l _ _ _ _ _ _ io s

theorem portless_afterFrame (k : StreamKind) (w h : Nat) (p a : List Byte) : Portless (State.afterFrame k w h p a) := by
  intro io s
  unfold State.afterFrame
  cases k with
  | rgb565 => rfl
  | yuyv => rfl
  | yuyvh => rfl
  | yuv3l => exact portless_emit3l _ _ _ _ _ _ io s

/-- Line number `y` of a stream of lines of `n` bytes. -/
def lineOf (n : Nat) (stream : List Byte) (y : Nat) : List Byte := (stream.drop (n * y)).take n

/-- The line before line `y`, if there is one. -/
def prevLine (n : Nat) (stream : List Byte) (y : Nat) : List Byte := if y = 0 then [] else lineOf n stream (y - 1)

/-- What a decoder does for line `y` of a stream, its reading apart. -/
def State.lineWork (k : StreamKind) (w h : Nat) (stream : List Byte) (y : Nat) (s : State) : State :=
  (s.beforeLine k h y).afterLine k w h y (lineOf (k.lineBytes w) stream y) (prevLine (k.lineBytes w) stream y)
    (prevLine (k.lineBytes w) stream (y - 1))

theorem portless_lineWork (k : StreamKind) (w h : Nat) (stream : List Byte) (y : Nat) :
    Portless (State.lineWork k w h stream y) := by
  intro io s
  unfold State.lineWork
  rw [portless_beforeLine, portless_afterLine]

theorem afterLine_line2 (k : StreamKind) (w h : Nat) (stream : List Byte) (y : Nat) (l0 l1 l2 : List Byte)
    (hl : 2 ≤ y → l2 = prevLine (k.lineBytes w) stream (y - 1)) (s : State) :
    s.afterLine k w h y l0 l1 l2 = s.afterLine k w h y l0 l1 (prevLine (k.lineBytes w) stream (y - 1)) := by
  unfold State.afterLine
  cases k with
  | rgb565 => rfl
  | yuyv => rfl
  | yuyvh => rfl
  | yuv3l =>
    dsimp only
    split
    · rfl
    · split
      · rfl
      · rw [hl (by omega)]

/-- The `m` lines from `y` on that some answers serve are decoded, and the loop goes on after them, whatever comes then
(R271 to R275, R101). -/
theorem runLines_of_served_prefix (k : StreamKind) (w h : Half) (stream : List Byte) (rest : List ReadAnswer)
    (left : Nat) :
    ∀ (m y : Nat) (as : List ReadAnswer) (line2 : List Byte) (s : State),
      (stream.drop (k.lineBytes w.toNat * y)).take (m * k.lineBytes w.toNat) = streamOf as →
      (streamOf as).length = m * k.lineBytes w.toNat →
      answersServe k.ceiling (k.lineBytes w.toNat) (k.lineBytes w.toNat * y) as = true →
      s.bsReads = as ++ rest →
      line2 = (if y = 0 then [] else prevLine (k.lineBytes w.toNat) stream (y - 1)) →
      runLines k w h (m + left) y none (prevLine (k.lineBytes w.toNat) stream y) line2 s =
        runLines k w h left (y + m) none (prevLine (k.lineBytes w.toNat) stream (y + m))
          (if y + m = 0 then [] else prevLine (k.lineBytes w.toNat) stream (y + m - 1))
          (((List.range' y m).foldl (fun t j => t.lineWork k w.toNat h.toNat stream j) s).afterRead rest
            (requestsFor k.ceiling (k.lineBytes w.toNat) (k.lineBytes w.toNat * y) as)) := by
  intro m
  induction m with
  | zero =>
    intro y as line2 s hdrop hlen hserve hreads hl2
    have has : as = [] := by
      cases as with
      | nil => rfl
      | cons a as =>
        simp only [answersServe, Bool.and_eq_true, decide_eq_true_eq, beq_iff_eq] at hserve
        simp only [streamOf_cons, List.length_append, Nat.zero_mul] at hlen
        omega
    subst has
    rw [List.nil_append] at hreads
    have hio : s.afterRead rest [] = s := by
      rw [← hreads]; simp [State.afterRead]
    rw [hl2, Nat.zero_add, Nat.add_zero]
    simp only [List.range'_zero, List.foldl_nil, requestsFor, hio]
  | succ m ih =>
    intro y as line2 s hdrop hlen hserve hreads hl2
    generalize hn : k.lineBytes w.toNat = n at *
    -- the answers of this line, and those of the later ones
    obtain ⟨as1, as2, e1, e2, e3, e4, e5⟩ : ∃ as1 as2, as = as1 ++ as2 ∧ (streamOf as1).length = n ∧
        answersServe k.ceiling n (n * y) as1 = true ∧ answersServe k.ceiling n (n * (y + 1)) as2 = true ∧
        requestsFor k.ceiling n (n * y) as =
          requestsFor k.ceiling n (n * y) as1 ++ requestsFor k.ceiling n (n * (y + 1)) as2 := by
      by_cases h0 : n = 0
      · subst h0
        exact ⟨[], as, rfl, rfl, rfl, by simpa using hserve, by simp [requestsFor]⟩
      · have hz : n * y % n = 0 := Nat.mul_mod_right n y
        have := serve_split (pos := n * y) (by omega) hserve (by
          rw [hz, hlen, Nat.succ_mul]; omega)
        rw [hz] at this
        simpa [Nat.mul_succ] using this
    have hline : streamOf as1 = lineOf n stream y := by
      unfold lineOf
      have : (stream.drop (n * y)).take n = ((stream.drop (n * y)).take ((m + 1) * n)).take n := by
        rw [List.take_take, Nat.min_eq_left (by rw [Nat.succ_mul]; omega)]
      rw [this, hdrop, e1, streamOf_append, List.take_left' e2]
    have hdrop2 : (stream.drop (n * (y + 1))).take (m * n) = streamOf as2 := by
      rw [Nat.mul_succ, ← List.drop_drop, List.take_drop]
      rw [show n + m * n = (m + 1) * n by rw [Nat.succ_mul, Nat.add_comm], hdrop, e1, streamOf_append,
        List.drop_left' e2]
    have hlen2 : (streamOf as2).length = m * n := by
      have : (streamOf as).length = n + (streamOf as2).length := by
        rw [e1, streamOf_append, List.length_append, e2]
      rw [hlen, Nat.succ_mul] at this
      omega
    have hread : readLine k.ceiling n (s.beforeLine k h.toNat y).bsReads false [] =
        (.full (lineOf n stream y), as2 ++ rest, requestsFor k.ceiling n (n * y) as1) := by
      rw [beforeLine_bsReads, hreads, e1, List.append_assoc, ← hline]
      have := readLine_of_served (as2 ++ rest) (got := []) (pos := n * y) (ceiling := k.ceiling) (n := n) (as := as1)
        (by simp) (by simp) e3 (by simpa using e2)
      simpa using this
    rw [Nat.add_right_comm, runLines]
    simp only [Option.isSome_none, Bool.false_eq_true, if_false, Option.getD_none, hn, hread]
    have hl2' : 2 ≤ y → line2 = prevLine (k.lineBytes w.toNat) stream (y - 1) := by
      intro hy; rw [hl2, if_neg (by omega), hn]
    rw [afterLine_line2 k w.toNat h.toNat stream y _ _ line2 hl2']
    have hwork : ((s.beforeLine k h.toNat y).afterRead (as2 ++ rest) (requestsFor k.ceiling n (n * y) as1)).afterLine k
        w.toNat h.toNat y (lineOf n stream y) (prevLine n stream y)
        (prevLine (k.lineBytes w.toNat) stream (y - 1)) =
        (s.lineWork k w.toNat h.toNat stream y).setIo
          { s.io with reads := as2 ++ rest, reqs := s.reqs ++ requestsFor k.ceiling n (n * y) as1 } := by
      rw [afterRead_eq_setIo, portless_afterLine, hn]
      simp only [State.lineWork, hn, State.io, beforeLine_reqs, beforeLine_bsTotals, beforeLine_bdInits,
        beforeLine_bdMcus, beforeLine_rowsOfDecode]
    rw [hwork]
    have hp1 : lineOf n stream y = prevLine n stream (y + 1) := by simp [prevLine]
    rw [hp1, ih (y + 1) as2 (prevLine n stream y) _ hdrop2 hlen2 e4 (by rfl) (by simp)]
    have hfold : ∀ (io : Io) (l : List Nat) (t : State),
        l.foldl (fun t j => t.lineWork k w.toNat h.toNat stream j) (t.setIo io) =
          (l.foldl (fun t j => t.lineWork k w.toNat h.toNat stream j) t).setIo io := by
      intro io l
      induction l with
      | nil => intro t; rfl
      | cons j l ihl => intro t; rw [List.foldl_cons, portless_lineWork, ihl, List.foldl_cons]
    rw [hfold, List.range'_succ, List.foldl_cons, afterRead_eq_setIo, afterRead_eq_setIo, setIo_setIo]
    have hio : ∀ (l : List Nat) (t : State),
        (l.foldl (fun t j => t.lineWork k w.toNat h.toNat stream j) t).io = t.io := by
      intro l
      induction l with
      | nil => intro t; rfl
      | cons j l ihl => intro t; rw [List.foldl_cons, ihl]; simp [State.io, State.lineWork]
    have hlw : (s.lineWork k w.toNat h.toNat stream y).io = s.io := by simp [State.io, State.lineWork]
    rw [show y + 1 + m = y + (m + 1) by omega]
    congr 2
    have hreqs : ∀ (t : State), t.reqs = t.io.reqs := fun _ => rfl
    rw [hreqs (List.foldl _ _ _), hio, hlw, e5]
    show ({ totals := _, reads := _, inits := _, mcus := _, reqs := (s.reqs ++ _) ++ _, mark := _ } : Io) = _
    rw [List.append_assoc]
    rfl

/-- A frame that some answers serve is decoded to its end, whatever answers come after (R271 to R275, R101). -/
theorem runLines_of_served (k : StreamKind) (w h : Half) (rest : List ReadAnswer) (left : Nat)
    (as : List ReadAnswer) (s : State) (hlen : (streamOf as).length = left * k.lineBytes w.toNat)
    (hserve : answersServe k.ceiling (k.lineBytes w.toNat) 0 as = true) (hreads : s.bsReads = as ++ rest) :
    runLines k w h left 0 none [] [] s =
      succeedDecode (((List.range left).foldl (fun t j => t.lineWork k w.toNat h.toNat (streamOf as) j)
        (s.afterRead rest (requestsFor k.ceiling (k.lineBytes w.toNat) 0 as))).afterFrame k w.toNat h.toNat
          (prevLine (k.lineBytes w.toNat) (streamOf as) left)
          (if left = 0 then [] else prevLine (k.lineBytes w.toNat) (streamOf as) (left - 1))) := by
  have hp := runLines_of_served_prefix k w h (streamOf as) rest 0 left 0 as [] s
    (by rw [Nat.mul_zero, List.drop_zero, List.take_of_length_le (Nat.le_of_eq hlen)]) hlen (by simpa using hserve)
    hreads (by simp)
  rw [Nat.add_zero, Nat.zero_add, Nat.mul_zero] at hp
  have h0 : prevLine (k.lineBytes w.toNat) (streamOf as) 0 = [] := by simp [prevLine]
  rw [h0] at hp
  rw [hp, runLines]
  have hfold : ∀ (io : Io) (l : List Nat) (t : State),
      l.foldl (fun t j => t.lineWork k w.toNat h.toNat (streamOf as) j) (t.setIo io) =
        (l.foldl (fun t j => t.lineWork k w.toNat h.toNat (streamOf as) j) t).setIo io := by
    intro io l
    induction l with
    | nil => intro t; rfl
    | cons j l ihl => intro t; rw [List.foldl_cons, portless_lineWork, ihl, List.foldl_cons]
  have hio : ∀ (l : List Nat) (t : State),
      (l.foldl (fun t j => t.lineWork k w.toNat h.toNat (streamOf as) j) t).io = t.io := by
    intro l
    induction l with
    | nil => intro t; rfl
    | cons j l ihl => intro t; rw [List.foldl_cons, ihl]; simp [State.io, State.lineWork]
  rw [← List.range_eq_range']
  have hcomm : ∀ t : State, t.io = s.io → t.afterRead rest (requestsFor k.ceiling (k.lineBytes w.toNat) 0 as) =
      t.setIo { s.io with reads := rest, reqs := s.reqs ++ requestsFor k.ceiling (k.lineBytes w.toNat) 0 as } := by
    intro t ht
    rw [afterRead_eq_setIo, ht, show t.reqs = t.io.reqs from rfl, ht]
    rfl
  rw [hcomm _ (hio _ _), hcomm s rfl, hfold]

end Sys2Proof.Machine
end

