-- ==== Sys2Proof/Laws/Run.lean ====
section
/-!
SUPPORT. How a decode ends: one lemma for the byte-stream decoders and one for `DEC_JPEG`, each for any property that
the operations on the way keep; and the same for the quantizing view. A fact about every decode is an instance.
-/

namespace Sys2Proof.Machine

/-! ### The quantizing view -/

/-- What the parts of `VIEW_SET(x, y, ·)` keep, it keeps (R240). -/
theorem viewSet_keeps {P : State → Prop} {x y : Nat}
    (hn : ∀ c s, P s → P (State.nearestFlags c s)) (hb : ∀ b s, P s → P (State.noteSat b s))
    (hs : ∀ v s, P s → P (State.surfSet x y v s)) (hr : ∀ s, P s → P (State.rowMgmt y s))
    (hd : ∀ e s, P s → P (State.diffuse x y e s)) (c : RGB) (s : State) (h : P s) : P (s.viewSet x y c) := by
  unfold State.viewSet
  split
  · split
    · exact hs _ _ (hn _ _ h)
    · exact hd _ _ (hs _ _ (hn _ _ (hb _ _ (hr _ h))))
    · exact hd _ _ (hs _ _ (hn _ _ (hr _ h)))
  · exact h

/-- What every `VIEW_SET` of a row keeps, the row keeps. -/
theorem viewRow_keeps {P : State → Prop} {y : Nat} (cs : List RGB) :
    ∀ (x : Nat) (s : State), (∀ j c t, x ≤ j → j < x + cs.length → P t → P (State.viewSet j y c t)) → P s →
      P (s.viewRow y x cs) := by
  induction cs with
  | nil => intro x s _ h; exact h
  | cons c cs ih =>
    intro x s hv h
    refine ih (x + 1) _ (fun j d t h1 h2 => hv j d t (by omega) (by simp only [List.length_cons]; omega)) ?_
    exact hv x c s (Nat.le_refl x) (by simp only [List.length_cons]; omega) h

/-- What every `VIEW_SET` in the clip of a row keeps, the row keeps (R274). -/
theorem emitRow_keeps {P : State → Prop} {ow oh y : Nat} {f : Nat → RGB} {s : State}
    (hv : ∀ j c t, j < ow → y < oh → P t → P (State.viewSet j y c t)) (h : P s) : P (s.emitRow ow oh y f) := by
  unfold State.emitRow
  split
  next hy =>
    refine viewRow_keeps _ 0 s (fun j c t _ h2 => hv j c t ?_ ?_) h
    · simp only [List.length_map, List.length_range, State.clipW] at h2; omega
    · simp only [State.clipH] at hy; omega
  · exact h

/-- The output height of a frame of height `h`. -/
def StreamKind.outHeight (k : StreamKind) (h : Nat) : Nat := k.rows h

/-- What the progress words and the pixels of a frame keep, the work on one line keeps. -/
theorem afterLine_keeps {P : State → Prop} {k : StreamKind} {w h y : Nat} {a b c : List Byte} {s : State}
    (hp : ∀ r n t, P t → P (State.progress r n t))
    (hv : ∀ i j d t, i < k.outWidth w → j < k.outHeight h → P t → P (State.viewSet i j d t)) (hs : P s) :
    P (s.afterLine k w h y a b c) := by
  have he : ∀ ow oh j f t, ow ≤ k.outWidth w → oh ≤ k.outHeight h → P t → P (State.emitRow ow oh j f t) := by
    intro ow oh j f t h1 h2
    exact emitRow_keeps (fun i d t h3 h4 => hv i j d t (by omega) (by omega))
  unfold State.afterLine
  cases k with
  | rgb565 => exact he _ _ _ _ _ (Nat.le_refl _) (Nat.le_refl _) hs
  | yuyv => exact he _ _ _ _ _ (Nat.le_refl _) (Nat.le_refl _) hs
  | yuyvh => exact he _ _ _ _ _ (Nat.le_refl _) (Nat.le_refl _) hs
  | yuv3l =>
    dsimp only
    split
    · exact hs
    · split <;> exact he _ _ _ _ _ (Nat.le_refl _) (Nat.le_refl _) (hp _ _ _ hs)

theorem beforeLine_keeps {P : State → Prop} {k : StreamKind} {h y : Nat} {s : State}
    (hp : ∀ r n t, P t → P (State.progress r n t)) (hs : P s) : P (s.beforeLine k h y) := by
  unfold State.beforeLine
  cases k <;> first | exact hp _ _ _ hs | exact hs

theorem afterFrame_keeps {P : State → Prop} {k : StreamKind} {w h : Nat} {a b : List Byte} {s : State}
    (hp : ∀ r n t, P t → P (State.progress r n t))
    (hv : ∀ i j d t, i < k.outWidth w → j < k.outHeight h → P t → P (State.viewSet i j d t)) (hs : P s) :
    P (s.afterFrame k w h a b) := by
  unfold State.afterFrame
  cases k with
  | rgb565 => exact hs
  | yuyv => exact hs
  | yuyvh => exact hs
  | yuv3l => exact emitRow_keeps (fun i d t h3 h4 => hv i _ d t h3 h4) (hp _ _ _ hs)

/-! ### READLINE -/

/-- Everything `READLINE` can do (R272). -/
theorem readLine_spec {c n : Nat} (hc : 0 < c) : ∀ (as : List ReadAnswer) (asked : Bool) (got : List Byte),
      (readLine c n as asked got).2.1 <:+ as ∧
      (∀ q ∈ (readLine c n as asked got).2.2, ∃ m, q = .tryRead m ∧ 1 ≤ m ∧ m ≤ c ∧ m ≤ n) ∧
      (got.length ≤ n → ∀ l, (readLine c n as asked got).1 = .full l → l.length = n) ∧
      (∀ g, (readLine c n as asked got).1 = .waiting g → g.length < n ∧ (readLine c n as asked got).2.1 = []) := by
  intro as
  induction as with
  | nil =>
    intro asked got
    rw [readLine]
    split
    · refine ⟨List.suffix_refl _, by simp, ?_, by simp⟩
      intro hg l hl; cases hl; omega
    · refine ⟨List.suffix_refl _, ?_, by simp, ?_⟩
      · intro q hq
        cases asked
        · simp only [Bool.false_eq_true, if_false, List.mem_singleton] at hq
          subst hq
          exact ⟨_, rfl, by unfold requestSize; omega, by unfold requestSize; omega, by unfold requestSize; omega⟩
        · simp at hq
      · intro g hg'; cases hg'; exact ⟨by omega, rfl⟩
  | cons a as ih =>
    intro asked got
    rw [readLine]
    split
    · refine ⟨List.suffix_refl _, by simp, ?_, by simp⟩
      intro hg l hl; cases hl; omega
    next hlt =>
      have hreq : ∀ q ∈ (if asked = true then [] else [PortReq.tryRead (requestSize c n got.length)]),
          ∃ m, q = .tryRead m ∧ 1 ≤ m ∧ m ≤ c ∧ m ≤ n := by
        intro q hq
        cases asked
        · simp only [Bool.false_eq_true, if_false, List.mem_singleton] at hq
          subst hq
          exact ⟨_, rfl, by unfold requestSize; omega, by unfold requestSize; omega, by unfold requestSize; omega⟩
        · simp at hq
      dsimp only
      split
      · exact ⟨List.suffix_refl _, hreq, by simp, by simp⟩
      next hok =>
        split
        · exact ⟨List.suffix_cons _ _, hreq, by simp, by simp⟩
        next hne =>
          simp only [answerOk, requestSize, Bool.not_eq_true', Bool.not_eq_false, Bool.and_eq_true, beq_iff_eq] at hok
          have hle := of_decide_eq_true hok.1
          obtain ⟨i1, i2, i3, i4⟩ := ih false (got ++ a.bytes)
          refine ⟨i1.trans (List.suffix_cons _ _), ?_, fun _ => i3 (by rw [List.length_append]; omega), i4⟩
          intro q hq
          rcases List.mem_append.mp hq with hq | hq
          · exact hreq q hq
          · exact i2 q hq

theorem ceiling_pos (k : StreamKind) : 0 < k.ceiling := by cases k <;> decide

/-! ### Byte-stream decoders -/

/-- Everything the line loop can do, for any property that what it does on the way keeps (R271 to R275). -/
theorem runLines_ends {k : StreamKind} {w h : Half} {P : State → Prop}
    (hbefore : ∀ y s, P s → P (State.beforeLine k h.toNat y s))
    (hread : ∀ rest reqs s, rest <:+ s.bsReads → (∀ q ∈ reqs, ∃ m, q = PortReq.tryRead m ∧ 1 ≤ m ∧ m ≤ k.ceiling ∧
      m ≤ k.lineBytes w.toNat) → P s → P (State.afterRead rest reqs s))
    (hafter : ∀ y a b c s, P s → P (State.afterLine k w.toNat h.toNat y a b c s))
    (hframe : ∀ a b s, P s → P (State.afterFrame k w.toNat h.toNat a b s)) :
    ∀ (left y : Nat) (pend : Option (List Byte)) (l1 l2 : List Byte) (s : State), P s →
      (∃ u, P u ∧ runLines k w h left y pend l1 l2 s = succeedDecode u) ∨
      (∃ u, P u ∧ runLines k w h left y pend l1 l2 s = failDecode .io u) ∨
      (∃ u j g a b, P u ∧ u.bsReads = [] ∧ y ≤ j ∧ j < y + left ∧ g.length < k.lineBytes w.toNat ∧
        ((pend.getD []).length ≤ k.lineBytes w.toNat → l1.length ≤ k.lineBytes w.toNat →
          l2.length ≤ k.lineBytes w.toNat → a.length ≤ k.lineBytes w.toNat ∧ b.length ≤ k.lineBytes w.toNat) ∧
        runLines k w h left y pend l1 l2 s = .next { u with seq := .awaitRead ⟨k, w, h, j, g, a, b⟩ }) ∨
      runLines k w h left y pend l1 l2 s = .refused .byteSourceProtocol := by
  intro left
  induction left with
  | zero =>
    intro y pend l1 l2 s hp
    exact .inl ⟨_, hframe _ _ _ hp, rfl⟩
  | succ left ih =>
    intro y pend l1 l2 s hp
    rw [runLines]
    have ht : P (if pend.isSome then s else s.beforeLine k h.toNat y) := by
      split
      · exact hp
      · exact hbefore _ _ hp
    generalize (if pend.isSome then s else s.beforeLine k h.toNat y) = t at ht ⊢
    obtain ⟨i1, i2, i3, i4⟩ :=
      readLine_spec (n := k.lineBytes w.toNat) (ceiling_pos k) t.bsReads pend.isSome (pend.getD [])
    generalize readLine k.ceiling (k.lineBytes w.toNat) t.bsReads pend.isSome (pend.getD []) = r at i1 i2 i3 i4 ⊢
    have hu := hread _ _ _ i1 i2 ht
    obtain ⟨r1, r2, r3⟩ := r
    dsimp only at i1 i2 i3 i4 hu ⊢
    cases r1 with
    | full line =>
      dsimp only
      rcases ih (y + 1) none line l1 _ (hafter y line l1 l2 _ hu) with hc | hc | hc | hc
      · exact .inl hc
      · exact .inr (.inl hc)
      · obtain ⟨u, j, g, a, b, q1, q2, q3, q4, q5, q6, q7⟩ := hc
        exact .inr (.inr (.inl ⟨u, j, g, a, b, q1, q2, by omega, by omega, q5,
          fun h0 h1 _ => q6 (Nat.zero_le _) (Nat.le_of_eq (i3 h0 line rfl)) h1, q7⟩))
      · exact .inr (.inr (.inr hc))
    | dead => exact .inr (.inl ⟨_, hu, rfl⟩)
    | waiting got =>
      obtain ⟨g1, g2⟩ := i4 got rfl
      exact .inr (.inr (.inl ⟨_, y, got, l1, l2, hu, g2, Nat.le_refl y, by omega, g1, fun _ h1 h2 => ⟨h1, h2⟩, rfl⟩))
    | broken => exact .inr (.inr (.inr rfl))

/-! ### DEC_JPEG -/

/-- An MCU-row buffer with `n` MCUs in it. -/
def MrowHolds (scan : ScanType) (n : Nat) (m : List (List RGB)) : Prop :=
  m.length = scan.mcuH ∧ ∀ r ∈ m, r.length = n * scan.mcuW

theorem mrowHolds_empty (scan : ScanType) : MrowHolds scan 0 (emptyMrow scan) := by
  refine ⟨by simp [emptyMrow], fun r hr => ?_⟩
  simp only [emptyMrow, List.mem_replicate] at hr
  simp [hr.2]

theorem mrowHolds_addMcu {scan : ScanType} {n : Nat} {m : List (List RGB)} (a : McuAnswer) (h : MrowHolds scan n m) :
    MrowHolds scan (n + 1) (addMcu scan a m) := by
  refine ⟨by simp [addMcu, mcuRows, h.1], fun r hr => ?_⟩
  obtain ⟨i, hi, rfl⟩ := List.mem_iff_getElem.mp hr
  simp only [addMcu, List.getElem_zipWith, List.length_append, mcuRows, List.getElem_map, List.length_map,
    List.length_range]
  rw [h.2 _ (List.getElem_mem _), Nat.succ_mul]

/-- Everything the `mx` loop can do (R310): the answers left are a suffix, the requests are all for MCUs, a full buffer has all
its MCUs, and what a wait leaves has those before the one awaited. -/
theorem readMcus_spec {scan : ScanType} : ∀ (left mx : Nat) (asked : Bool) (mrow : List (List RGB))
    (as : List McuAnswer),
      (readMcus scan left mx asked mrow as).2.1 <:+ as ∧
      (∀ q ∈ (readMcus scan left mx asked mrow as).2.2, q = .bdMcu) ∧
      (MrowHolds scan mx mrow → ∀ m, (readMcus scan left mx asked mrow as).1 = .full m →
        MrowHolds scan (mx + left) m) ∧
      (∀ code, (readMcus scan left mx asked mrow as).1 = .error code → code ≠ 0) ∧
      (∀ x m, (readMcus scan left mx asked mrow as).1 = .waiting x m →
        (readMcus scan left mx asked mrow as).2.1 = [] ∧ mx ≤ x ∧ x < mx + left ∧
          (MrowHolds scan mx mrow → MrowHolds scan x m)) := by
  intro left
  induction left with
  | zero =>
    intro mx asked mrow as
    rw [readMcus]
    refine ⟨List.suffix_refl _, by simp, ?_, by simp, by simp⟩
    intro h m hm; cases hm; exact h
  | succ left ih =>
    intro mx asked mrow as
    have hreq : ∀ q ∈ (if asked = true then [] else [PortReq.bdMcu]), q = .bdMcu := by
      intro q hq; cases asked <;> simp_all
    cases as with
    | nil =>
      rw [readMcus]
      refine ⟨List.suffix_refl _, hreq, by simp, by simp, ?_⟩
      intro x m hm; cases hm; exact ⟨rfl, Nat.le_refl _, by omega, id⟩
    | cons a as =>
      rw [readMcus]
      dsimp only
      split
      next hne =>
        refine ⟨List.suffix_cons _ _, hreq, by simp, ?_, by simp⟩
        intro code hc; cases hc; exact hne
      · obtain ⟨i1, i2, i3, i4, i5⟩ := ih (mx + 1) false (addMcu scan a mrow) as
        refine ⟨i1.trans (List.suffix_cons _ _), ?_, ?_, i4, ?_⟩
        · intro q hq
          rcases List.mem_append.mp hq with hq | hq
          · exact hreq q hq
          · exact i2 q hq
        · intro h m hm
          rw [show mx + (left + 1) = mx + 1 + left by omega]
          exact i3 (mrowHolds_addMcu a h) m hm
        · intro x m hm
          obtain ⟨j1, j2, j3, j4⟩ := i5 x m hm
          exact ⟨j1, by omega, by omega, fun h => j4 (mrowHolds_addMcu a h)⟩

/-- What every `VIEW_SET` in the clip keeps, a blit keeps (R310). -/
theorem blit_keeps {P : State → Prop} {cw ch : Nat} (rows : List (List RGB)) :
    ∀ (y : Nat) (s : State), (∀ i j c t, i < cw → j < ch → P t → P (State.viewSet i j c t)) → P s →
      P (s.blit cw ch y rows) := by
  induction rows with
  | nil => intro y s _ h; exact h
  | cons row rows ih =>
    intro y s hv h
    refine ih (y + 1) _ hv ?_
    split
    next hy =>
      refine viewRow_keeps _ 0 s (fun j c t _ h2 => hv j y c t ?_ hy) h
      simp only [List.length_take] at h2; omega
    · exact h

/-- Everything the MCU-row loop can do, for any property that what it does on the way keeps (R310, R311). -/
theorem runMcuRows_ends {scan : ScanType} {w h : Half} {P : State → Prop}
    (hprog : ∀ y s, P s → P (State.progress y (mcuRowCount scan h.toNat) s))
    (hread : ∀ rest reqs s, rest <:+ s.bdMcus → (∀ q ∈ reqs, q = PortReq.bdMcu) → P s →
      P (State.afterMcus rest reqs s))
    (hblit : ∀ y m s, P s → P (State.blit (s.clipW w.toNat) (s.clipH h.toNat) y m s)) :
    ∀ (left my : Nat) (pend : Option (Nat × List (List RGB))) (s : State), P s →
      (∃ u, P u ∧ runMcuRows scan w h left my pend s = succeedDecode u) ∨
      (∃ u code, P u ∧ code ≠ 0 ∧ runMcuRows scan w h left my pend s = failDecode .bd (u.setBderr code)) ∨
      (∃ u j x m, P u ∧ u.bdMcus = [] ∧ my ≤ j ∧ j < my + left ∧ x < mcusPerRow scan w.toNat ∧
        ((∀ p, pend = some p → MrowHolds scan p.1 p.2) → MrowHolds scan x m) ∧
        runMcuRows scan w h left my pend s = .next { u with seq := .awaitMcu ⟨w, h, scan, j, x, m⟩ }) := by
  intro left
  induction left with
  | zero =>
    intro my pend s hp
    exact .inl ⟨_, hp, rfl⟩
  | succ left ih =>
    intro my pend s hp
    rw [runMcuRows]
    have ht : P (if pend.isSome then s else s.progress my (mcuRowCount scan h.toNat)) := by
      split
      · exact hp
      · exact hprog _ _ hp
    generalize (if pend.isSome then s else s.progress my (mcuRowCount scan h.toNat)) = t at ht ⊢
    have hat : (∀ p, pend = some p → MrowHolds scan p.1 p.2) →
        MrowHolds scan (pend.getD (0, emptyMrow scan)).1 (pend.getD (0, emptyMrow scan)).2 := by
      intro h0
      cases pend with
      | none => exact mrowHolds_empty scan
      | some p => exact h0 p rfl
    generalize pend.getD (0, emptyMrow scan) = p at hat ⊢
    obtain ⟨i1, i2, i3, i4, i5⟩ :=
      readMcus_spec (scan := scan) (mcusPerRow scan w.toNat - p.1) p.1 pend.isSome p.2 t.bdMcus
    generalize readMcus scan (mcusPerRow scan w.toNat - p.1) p.1 pend.isSome p.2 t.bdMcus = r at i1 i2 i3 i4 i5 ⊢
    have hu := hread _ _ _ i1 i2 ht
    obtain ⟨r1, r2, r3⟩ := r
    dsimp only at i1 i2 i3 i4 i5 hu ⊢
    cases r1 with
    | full mrow =>
      dsimp only
      rcases ih (my + 1) none _ (hblit (my * scan.mcuH) mrow _ hu) with hc | hc | hc
      · exact .inl hc
      · exact .inr (.inl hc)
      · obtain ⟨u, j, x, m, q1, q2, q3, q4, q5, q6, q7⟩ := hc
        exact .inr (.inr ⟨u, j, x, m, q1, q2, by omega, by omega, q5, fun _ => q6 (by simp), q7⟩)
    | error code => exact .inr (.inl ⟨_, code, hu, i4 code rfl, rfl⟩)
    | waiting x m =>
      obtain ⟨g1, g2, g3, g4⟩ := i5 x m rfl
      exact .inr (.inr ⟨_, my, x, m, hu, g1, Nat.le_refl _, by omega, by omega, fun h => g4 (hat h), rfl⟩)

end Sys2Proof.Machine
end

