-- ==== Sys2Proof/Laws/Frames.lean ====
section
/-!
SUPPORT. The pixels of a whole frame: what a line buffer holds in terms of the stream, the pixel formats of the decoders in
terms of the frame colours of Sys2Proof/Safety.lean, and `forRows`.
-/

namespace Sys2Proof.Machine

/-! ### Rows -/

theorem forRows_zero (f : Nat → State → State) (s : State) : s.forRows 0 f = s := rfl

theorem forRows_succ (n : Nat) (f : Nat → State → State) (s : State) : s.forRows (n + 1) f = f n (s.forRows n f) := by
  unfold State.forRows
  rw [List.range_succ, List.foldl_append]
  rfl

/-- Rows done alike. -/
theorem forRows_congr {n : Nat} {f g : Nat → State → State} {P : State → Prop} {s : State} (hs : P s)
    (hf : ∀ y t, P t → P (f y t)) (h : ∀ y t, y < n → P t → f y t = g y t) : s.forRows n f = s.forRows n g := by
  have key : s.forRows n f = s.forRows n g ∧ P (s.forRows n f) := by
    induction n with
    | zero => exact ⟨rfl, hs⟩
    | succ n ih =>
      obtain ⟨h1, h2⟩ := ih (fun y t hy ht => h y t (by omega) ht)
      rw [forRows_succ, forRows_succ, ← h1]
      exact ⟨h n _ (by omega) h2, hf n _ h2⟩
  exact key.1

/-- What every row keeps, all rows keep. -/
theorem forRows_keeps {P : State → Prop} {f : Nat → State → State} (hf : ∀ y t, P t → P (f y t)) (n : Nat) {s : State}
    (hs : P s) : P (s.forRows n f) := by
  induction n with
  | zero => exact hs
  | succ n ih => rw [forRows_succ]; exact hf n _ ih

theorem portless_forRows {f : Nat → State → State} (hf : ∀ y, Portless (f y)) (n : Nat) : Portless (State.forRows n f) := by
  intro io s
  induction n with
  | zero => rfl
  | succ n ih => rw [forRows_succ, ih, hf, forRows_succ]

/-- Only the colours of the output columns matter to a row. -/
theorem emitRow_congr {ow oh y : Nat} {f g : Nat → RGB} (h : ∀ x, x < ow → f x = g x) (s : State) :
    s.emitRow ow oh y f = s.emitRow ow oh y g := by
  unfold State.emitRow
  split
  · congr 1
    apply List.map_congr_left
    intro x hx
    refine h x ?_
    simp only [List.mem_range, State.clipW] at hx
    omega
  · rfl

/-! ### Line buffers -/

/-- Byte `k` of line `y` is byte `n y + k` of the stream (R101). -/
theorem lineByte_lineOf {n k : Nat} (hk : k < n) (stream : List Byte) (y : Nat) :
    lineByte (lineOf n stream y) k = frameByte stream (n * y + k) := by
  unfold lineByte lineOf frameByte
  rw [List.getD_eq_getElem?_getD, List.getD_eq_getElem?_getD, List.getElem?_take, if_pos hk, List.getElem?_drop]

theorem pixel565_lineOf {w x : Nat} (hx : x < w) (swap : Bool) (stream : List Byte) (y : Nat) :
    pixel565 swap (lineOf (2 * w) stream y) x = frame565 swap w stream y x := by
  unfold pixel565 frame565
  rw [lineByte_lineOf (by omega), lineByte_lineOf (by omega)]
  unfold expand565 sample565
  rw [Nat.add_assoc]
  dsimp only
  rw [BitVec.setWidth_and, BitVec.setWidth_and, BitVec.setWidth_and]
  rfl

theorem pixelYuyv_lineOf {w x : Nat} (hx : x < w) (hw : w % 2 = 0) (p : Params) (stream : List Byte) (y : Nat) :
    p.yuv (pixelYuyv w (lineOf (2 * w) stream y) x) = frameYuyv p w stream y x := by
  unfold pixelYuyv frameYuyv Params.yuv
  dsimp only
  have hb : ∀ k, k < 2 * w → lineByte (lineOf (2 * w) stream y) k = frameByte stream (2 * w * y + k) :=
    fun k hk => lineByte_lineOf hk stream y
  by_cases h2 : x % 2 = 0
  · rw [if_pos h2, if_pos h2]
    dsimp only
    have e0 : 2 * x = 4 * (x / 2) := by omega
    rw [hb _ (by omega), hb _ (by omega), hb _ (by omega), hb _ (by omega)]
    congr 1
    · congr 1; omega
    · by_cases h0 : x = 0
      · rw [if_pos h0, if_pos h0]; congr 1; subst h0; omega
      · rw [if_neg h0, if_neg h0]; rfl
  · rw [if_neg h2, if_neg h2]
    dsimp only
    have e0 : 2 * x = 4 * (x / 2) + 2 := by omega
    rw [e0, hb (4 * (x / 2) + 2) (by omega), hb (4 * (x / 2) + 1) (by omega), hb (4 * (x / 2) + 3) (by omega)]
    congr 1
    by_cases h0 : x + 1 = w
    · rw [if_pos h0, if_pos (by omega)]; rfl
    · rw [if_neg h0, if_neg (by omega), hb (4 * (x / 2 + 1) + 1) (by omega)]; rfl

theorem pixelYuyvh_lineOf {w x : Nat} (hx : x < w / 2) (p : Params) (stream : List Byte) (y : Nat) :
    p.yuv (pixelYuyvh w (lineOf (4 * w) stream y) x) = frameYuyvh p w stream y x := by
  unfold pixelYuyvh frameYuyvh Params.yuv
  dsimp only
  have hb : ∀ k, k < 4 * w → lineByte (lineOf (4 * w) stream y) k = frameByte stream (4 * w * y + k) :=
    fun k hk => lineByte_lineOf hk stream y
  have e1 : 2 * w * (2 * y) = 4 * w * y := by ring
  have e2 : 2 * w * (2 * y + 1) = 4 * w * y + 2 * w := by ring
  rw [e1, e2]
  simp only [Nat.add_assoc]
  rw [hb _ (by omega), hb _ (by omega), hb _ (by omega), hb _ (by omega), hb _ (by omega), hb _ (by omega),
    hb _ (by omega), hb _ (by omega)]

/-- A pending line of a three-line image with its neighbours, where they exist (R295, R296). -/
theorem pixelYuv3l_lineOf {w h x y : Nat} (hx : x < w) (hy : y < h) (h2 : 2 ≤ h) (vfirst : Bool) (p : Params)
    (stream : List Byte) :
    p.yuv (pixelYuv3l (isURow vfirst y) (lineOf (2 * w) stream y)
      (if y = 0 then none else some (lineOf (2 * w) stream (y - 1)))
      (if y + 1 = h then none else some (lineOf (2 * w) stream (y + 1))) x) = frameYuv3l p vfirst w h stream y x := by
  have hb : ∀ k r, k < 2 * w → lineByte (lineOf (2 * w) stream r) k = frameByte stream (2 * w * r + k) :=
    fun k r hk => lineByte_lineOf hk stream r
  have ho : otherChroma (if y = 0 then none else some (lineOf (2 * w) stream (y - 1)))
      (if y + 1 = h then none else some (lineOf (2 * w) stream (y + 1))) x =
      (if y = 0 then frameByte stream (2 * w * 1 + 2 * x + 1)
        else if y = h - 1 then frameByte stream (2 * w * (y - 1) + 2 * x + 1)
        else mean2 (frameByte stream (2 * w * (y - 1) + 2 * x + 1)) (frameByte stream (2 * w * (y + 1) + 2 * x + 1))) := by
    by_cases h0 : y = 0
    · subst h0
      rw [if_pos rfl, if_pos rfl, if_neg (by omega)]
      simp only [otherChroma]
      rw [hb _ _ (by omega)]; rfl
    · rw [if_neg h0, if_neg h0]
      by_cases h1 : y + 1 = h
      · rw [if_pos h1, if_pos (by omega)]
        simp only [otherChroma]
        rw [hb _ _ (by omega)]; rfl
      · rw [if_neg h1, if_neg (by omega)]
        simp only [otherChroma]
        rw [hb _ _ (by omega), hb _ _ (by omega)]; rfl
  unfold pixelYuv3l frameYuv3l Params.yuv
  dsimp only
  rw [ho, hb _ _ (by omega), hb _ _ (by omega)]
  have hu : (isURow vfirst y = true) ↔ ((y % 2 = 0) = (vfirst = false)) := by
    unfold isURow
    cases vfirst <;> simp
  by_cases hc : (y % 2 = 0) = (vfirst = false)
  · rw [if_pos hc, if_pos (hu.mpr hc)]; rfl
  · rw [if_neg hc, if_neg (fun x => hc (hu.mp x))]; rfl

end Sys2Proof.Machine
end

