-- ==== Sys2Proof/Laws/Jpeg.lean ====
section
/-!
SUPPORT. What the MCU loops of `DEC_JPEG` do: how answers add up to an MCU-row buffer, what a blit of it sets, and that an
image whose MCUs all come is decoded to its end (spec/45_jpeg_mcu.md R310 to R316).
-/

namespace Sys2Proof.Machine

/-! ### Rows from the front -/

theorem forRows_succ_front (n : Nat) (f : Nat → State → State) (s : State) :
    s.forRows (n + 1) f = (f 0 s).forRows n (fun i => f (i + 1)) := by
  unfold State.forRows
  rw [List.range_succ_eq_map, List.foldl_cons, List.foldl_map]

/-! ### The MCUs of a row -/

/-- MCUs that all come without an error fill the rest of the row (R310). -/
theorem readMcus_of_served (scan : ScanType) (rest : List McuAnswer) :
    ∀ (ms : List McuAnswer) (mx : Nat) (mrow : List (List RGB)), (∀ m ∈ ms, m.err = 0) →
      readMcus scan ms.length mx false mrow (ms ++ rest) =
        (.full (ms.foldl (fun r m => addMcu scan m r) mrow), rest, List.replicate ms.length .bdMcu) := by
  intro ms
  induction ms with
  | nil => intro mx mrow _; cases rest <;> rfl
  | cons m ms ih =>
    intro mx mrow h
    have hm : ¬ m.err ≠ 0 := by simp [h m List.mem_cons_self]
    rw [List.length_cons, List.cons_append, readMcus]
    simp only [hm, if_false, Bool.false_eq_true]
    rw [ih (mx + 1) _ (fun m' h' => h m' (List.mem_cons_of_mem _ h'))]
    rfl

/-- An error answer ends the row at once (R311). -/
theorem readMcus_of_error (scan : ScanType) (rest : List McuAnswer) {bad : McuAnswer} (hb : bad.err ≠ 0) :
    ∀ (ms : List McuAnswer) (left mx : Nat) (mrow : List (List RGB)), ms.length < left → (∀ m ∈ ms, m.err = 0) →
      readMcus scan left mx false mrow (ms ++ bad :: rest) =
        (.error bad.err, rest, List.replicate (ms.length + 1) .bdMcu) := by
  intro ms
  induction ms with
  | nil =>
    intro left mx mrow hl _
    obtain ⟨l, rfl⟩ : ∃ l, left = l + 1 := ⟨left - 1, by simp only [List.length_nil] at hl; omega⟩
    rw [List.nil_append, readMcus]
    simp only [hb, ne_eq, not_false_eq_true, if_true]
    rfl
  | cons m ms ih =>
    intro left mx mrow hl h
    simp only [List.length_cons] at hl
    obtain ⟨l, rfl⟩ : ∃ l, left = l + 1 := ⟨left - 1, by omega⟩
    have hm : ¬ m.err ≠ 0 := by simp [h m List.mem_cons_self]
    rw [List.cons_append, readMcus]
    simp only [hm, if_false, Bool.false_eq_true]
    rw [ih l (mx + 1) _ (by omega) (fun m' h' => h m' (List.mem_cons_of_mem _ h'))]
    rfl

/-- The MCU that a row of MCUs lacks. -/
def noMcu : McuAnswer := ⟨0, Vector.replicate 256 0, Vector.replicate 256 0, Vector.replicate 256 0⟩

/-- Pixel `x` of row `py` of a row of MCUs. -/
def rowPixel (scan : ScanType) (ms : List McuAnswer) (py x : Nat) : RGB :=
  mcuPixel scan (ms.getD (x / scan.mcuW) noMcu) (x % scan.mcuW) py

theorem mcuW_pos (scan : ScanType) : 0 < scan.mcuW := by cases scan <;> decide
theorem mcuH_pos (scan : ScanType) : 0 < scan.mcuH := by cases scan <;> decide

/-- What the MCU-row buffer holds when some MCUs have been added to an empty one (R310). -/
theorem mrow_pixels (scan : ScanType) (ms : List McuAnswer) :
    ms.foldl (fun r m => addMcu scan m r) (emptyMrow scan) =
      (List.range scan.mcuH).map (fun py => (List.range (ms.length * scan.mcuW)).map (rowPixel scan ms py)) := by
  have hW := mcuW_pos scan
  induction ms using List.reverseRecOn with
  | nil =>
    simp only [List.foldl_nil, List.length_nil, Nat.zero_mul, List.range_zero, List.map_nil, emptyMrow]
    rw [List.map_const', List.length_range]
  | append_singleton ms m ih =>
    rw [List.foldl_append, ih, List.foldl_cons, List.foldl_nil, addMcu, mcuRows, List.zipWith_map, List.zipWith_self]
    refine List.map_congr_left (fun py _ => ?_)
    rw [List.length_append, List.length_singleton, Nat.succ_mul, List.range_add, List.map_append, List.map_map]
    congr 1
    · refine List.map_congr_left (fun x hx => ?_)
      rw [List.mem_range] at hx
      have hlt : x / scan.mcuW < ms.length := (Nat.div_lt_iff_lt_mul hW).mpr hx
      simp only [rowPixel, List.getD_eq_getElem?_getD]
      rw [List.getElem?_append_left hlt]
    · refine List.map_congr_left (fun x hx => ?_)
      rw [List.mem_range] at hx
      have h1 : (ms.length * scan.mcuW + x) / scan.mcuW = ms.length := by
        rw [Nat.mul_comm, Nat.mul_add_div hW, Nat.div_eq_of_lt hx, Nat.add_zero]
      have h2 : (ms.length * scan.mcuW + x) % scan.mcuW = x := by
        rw [Nat.mul_comm, Nat.mul_add_mod, Nat.mod_eq_of_lt hx]
      simp only [Function.comp_apply, rowPixel, h1, h2, List.getD_eq_getElem?_getD]
      rw [List.getElem?_append_right (Nat.le_refl _), Nat.sub_self]
      rfl

/-! ### The blit -/

theorem blit_eq_forRows (cw ch : Nat) (rows : List (List RGB)) :
    ∀ (y : Nat) (s : State), s.blit cw ch y rows = s.forRows rows.length
      (fun ly v => if y + ly < ch then v.viewRow (y + ly) 0 ((rows.getD ly []).take cw) else v) := by
  induction rows with
  | nil => intro y s; rfl
  | cons row rows ih =>
    intro y s
    rw [State.blit, ih, List.length_cons, forRows_succ_front]
    congr 1
    funext ly v
    rw [show y + 1 + ly = y + (ly + 1) by omega]
    rfl

/-- A blit of rows that are at least as wide as the image sets their pixels in the clip (R310, R274). -/
theorem blit_emitRow {w h y mcuH rw' : Nat} (hw : w ≤ rw') (F : Nat → Nat → RGB) (s : State) :
    s.blit (s.clipW w) (s.clipH h) y ((List.range mcuH).map (fun py => (List.range rw').map (F py))) =
      s.forRows mcuH (fun ly v => v.emitRow w h (y + ly) (F ly)) := by
  rw [blit_eq_forRows, List.length_map, List.length_range]
  refine forRows_congr (P := fun v => v.clipW w = s.clipW w ∧ v.clipH h = s.clipH h) ⟨rfl, rfl⟩ ?_ ?_
  · intro ly v hv
    split
    · simpa using hv
    · exact hv
  · intro ly v hl hv
    unfold State.emitRow
    rw [hv.1, hv.2]
    split
    next hlt =>
      congr 1
      rw [List.getD_eq_getElem?_getD, List.getElem?_map, List.getElem?_range hl]
      simp only [Option.map_some, Option.getD_some]
      rw [← List.map_take, List.take_range, Nat.min_eq_left]
      unfold State.clipW
      omega
    · rfl

theorem portless_blit (cw ch : Nat) (rows : List (List RGB)) : ∀ y, Portless (State.blit cw ch y rows) := by
  induction rows with
  | nil => intro y io s; rfl
  | cons row rows ih =>
    intro y io s
    rw [State.blit, State.blit]
    split
    · rw [portless_viewRow, ih]
    · rw [ih]

/-! ### The MCU rows -/

/-- The image of MCUs of a scan type. -/
def frameMcu (scan : ScanType) (mpr : Nat) (mcus : List McuAnswer) (y x : Nat) : RGB :=
  mcuImage (decide (scan = .gray)) scan.mcuW scan.mcuH mpr mcus y x

/-- Each line of R312's table is a scan type, and the codes are read as it says. -/
theorem scanTable_of_mem {c : Byte} {gray : Bool} {mw mh : Nat} (h : (c.toNat, gray, mw, mh) ∈ scanTable) :
    ∃ scan, scanOf c = some scan ∧ gray = decide (scan = .gray) ∧ mw = scan.mcuW ∧ mh = scan.mcuH := by
  have hc : ∀ n, n < 256 → c.toNat = n → c = BitVec.ofNat 8 n := by
    intro n hn e; rw [← e, BitVec.ofNat_toNat, BitVec.setWidth_eq]
  simp only [scanTable, List.mem_cons, Prod.mk.injEq, List.not_mem_nil, or_false] at h
  rcases h with ⟨e, rfl, rfl, rfl⟩ | ⟨e, rfl, rfl, rfl⟩ | ⟨e, rfl, rfl, rfl⟩ | ⟨e, rfl, rfl, rfl⟩ | ⟨e, rfl, rfl, rfl⟩
  · exact ⟨.gray, by rw [hc _ (by omega) e]; rfl, rfl, rfl, rfl⟩
  · exact ⟨.h1v1, by rw [hc _ (by omega) e]; rfl, rfl, rfl, rfl⟩
  · exact ⟨.h2v1, by rw [hc _ (by omega) e]; rfl, rfl, rfl, rfl⟩
  · exact ⟨.h1v2, by rw [hc _ (by omega) e]; rfl, rfl, rfl, rfl⟩
  · exact ⟨.h2v2, by rw [hc _ (by omega) e]; rfl, rfl, rfl, rfl⟩

/-- What `DEC_JPEG` does for MCU row `my` of an image, its reading apart. -/
def State.mcuRowWork (scan : ScanType) (w h : Nat) (ms : List McuAnswer) (my : Nat) (s : State) : State :=
  (s.progress my (mcuRowCount scan h)).forRows scan.mcuH (fun ly v =>
    v.emitRow w h (my * scan.mcuH + ly) (frameMcu scan (mcusPerRow scan w) ms (my * scan.mcuH + ly)))

theorem portless_mcuRowWork (scan : ScanType) (w h : Nat) (ms : List McuAnswer) (my : Nat) :
    Portless (State.mcuRowWork scan w h ms my) := by
  intro io s
  unfold State.mcuRowWork
  rw [portless_progress, portless_forRows (fun y => portless_emitRow _ _ _ _)]

theorem le_mcusPerRow (scan : ScanType) (w : Nat) : w ≤ mcusPerRow scan w * scan.mcuW := by
  unfold mcusPerRow ceilDiv
  cases scan <;> simp only [ScanType.mcuW] <;> omega

/-- The pixels of an image row in terms of the MCUs of its MCU row (R313, R316). -/
theorem rowPixel_eq_frameMcu {scan : ScanType} {w my ly x : Nat} (ms one : List McuAnswer) (hly : ly < scan.mcuH)
    (hx : x < w) (hone : one = (ms.drop (my * mcusPerRow scan w)).take (mcusPerRow scan w)) :
    rowPixel scan one ly x = frameMcu scan (mcusPerRow scan w) ms (my * scan.mcuH + ly) x := by
  have hH := mcuH_pos scan
  have h1 : (my * scan.mcuH + ly) / scan.mcuH = my := by
    rw [Nat.mul_comm, Nat.mul_add_div hH, Nat.div_eq_of_lt hly, Nat.add_zero]
  have h2 : (my * scan.mcuH + ly) % scan.mcuH = ly := by
    rw [Nat.mul_comm, Nat.mul_add_mod, Nat.mod_eq_of_lt hly]
  have h3 : x / scan.mcuW < mcusPerRow scan w :=
    (Nat.div_lt_iff_lt_mul (mcuW_pos scan)).mpr (Nat.lt_of_lt_of_le hx (le_mcusPerRow scan w))
  have h4 : one.getD (x / scan.mcuW) noMcu = ms.getD (my * mcusPerRow scan w + x / scan.mcuW) noMcu := by
    rw [hone, List.getD_eq_getElem?_getD, List.getD_eq_getElem?_getD, List.getElem?_take, if_pos h3, List.getElem?_drop]
  unfold rowPixel frameMcu mcuImage mcuPixel planeOffset
  simp only [h1, h2, h4, decide_eq_true_eq]
  rfl

/-- The `m` MCU rows from `my` on whose MCUs all come are decoded, and the loop goes on after them (R310, R316). -/
theorem runMcuRows_of_served_prefix (scan : ScanType) (w h : Half) (image rest : List McuAnswer) (left : Nat) :
    ∀ (m my : Nat) (ms : List McuAnswer) (s : State),
      (image.drop (my * mcusPerRow scan w.toNat)).take (m * mcusPerRow scan w.toNat) = ms →
      ms.length = m * mcusPerRow scan w.toNat → (∀ a ∈ ms, a.err = 0) → s.bdMcus = ms ++ rest →
      runMcuRows scan w h (m + left) my none s =
        runMcuRows scan w h left (my + m) none
          (((List.range' my m).foldl (fun t j => t.mcuRowWork scan w.toNat h.toNat image j) s).afterMcus rest
            (List.replicate ms.length .bdMcu)) := by
  intro m
  induction m with
  | zero =>
    intro my ms s _ hlen _ hs
    have hms : ms = [] := by rw [← List.length_eq_zero_iff, hlen, Nat.zero_mul]
    subst hms
    rw [List.nil_append] at hs
    have hio : s.afterMcus rest [] = s := by rw [← hs]; simp [State.afterMcus]
    rw [Nat.zero_add, Nat.add_zero]
    simp only [List.range'_zero, List.foldl_nil, List.length_nil, List.replicate_zero, hio]
  | succ m ih =>
    intro my ms s hdrop hlen herr hs
    generalize hn : mcusPerRow scan w.toNat = n at *
    have hle : n ≤ ms.length := by rw [hlen, Nat.succ_mul]; omega
    have hsplit : ms = ms.take n ++ ms.drop n := (List.take_append_drop n ms).symm
    have hlen1 : (ms.take n).length = n := by rw [List.length_take]; omega
    have hlen2 : (ms.drop n).length = m * n := by rw [List.length_drop, hlen, Nat.succ_mul]; omega
    have hone : ms.take n = (image.drop (my * n)).take n := by
      rw [← hdrop, List.take_take, Nat.min_eq_left (by rw [Nat.succ_mul]; omega)]
    have htail : (image.drop ((my + 1) * n)).take (m * n) = ms.drop n := by
      rw [← hdrop, List.drop_take, List.drop_drop]
      rw [show (m + 1) * n - n = m * n by rw [Nat.succ_mul]; omega, Nat.succ_mul]
    have hread : readMcus scan n 0 false (emptyMrow scan) (s.progress my (mcuRowCount scan h.toNat)).bdMcus =
        (.full ((ms.take n).foldl (fun r a => addMcu scan a r) (emptyMrow scan)), ms.drop n ++ rest,
          List.replicate n .bdMcu) := by
      have := readMcus_of_served scan (ms.drop n ++ rest) (ms.take n) 0 (emptyMrow scan)
        (fun a ha => herr a (List.mem_of_mem_take ha))
      rw [hlen1] at this
      rw [progress_bdMcus, hs, ← this, ← List.append_assoc, List.take_append_drop]
    rw [Nat.add_right_comm, runMcuRows]
    simp only [Option.isSome_none, Bool.false_eq_true, if_false, Option.getD_none, Nat.sub_zero, hn, hread]
    rw [mrow_pixels, hlen1]
    have hw : w.toNat ≤ n * scan.mcuW := hn ▸ le_mcusPerRow scan w.toNat
    rw [blit_emitRow hw]
    have hwork : ((s.progress my (mcuRowCount scan h.toNat)).afterMcus (ms.drop n ++ rest)
        (List.replicate n .bdMcu)).forRows scan.mcuH
          (fun ly v => v.emitRow w.toNat h.toNat (my * scan.mcuH + ly) (rowPixel scan (ms.take n) ly)) =
        (s.mcuRowWork scan w.toNat h.toNat image my).setIo
          { s.io with mcus := ms.drop n ++ rest, reqs := s.reqs ++ List.replicate n .bdMcu } := by
      rw [afterMcus_eq_setIo, portless_forRows (fun y => portless_emitRow _ _ _ _)]
      have hrows : (s.progress my (mcuRowCount scan h.toNat)).forRows scan.mcuH
          (fun ly v => v.emitRow w.toNat h.toNat (my * scan.mcuH + ly) (rowPixel scan (ms.take n) ly)) =
          s.mcuRowWork scan w.toNat h.toNat image my := by
        unfold State.mcuRowWork
        refine forRows_congr (P := fun _ => True) trivial (fun _ _ _ => trivial) (fun ly v hl _ => ?_)
        exact emitRow_congr (fun x hx => rowPixel_eq_frameMcu image _ hl hx (by rw [hn]; exact hone)) v
      rw [hrows]
      simp only [State.io, progress_reqs, progress_bsTotals, progress_bsReads, progress_bdInits, progress_rowsOfDecode]
    rw [hwork]
    have hnext := ih (my + 1) (ms.drop n) ((s.mcuRowWork scan w.toNat h.toNat image my).setIo
      { s.io with mcus := ms.drop n ++ rest, reqs := s.reqs ++ List.replicate n .bdMcu }) htail hlen2
      (fun a ha => herr a (List.mem_of_mem_drop ha)) rfl
    rw [hnext]
    have hfold : ∀ (io : Io) (l : List Nat) (t : State),
        l.foldl (fun t j => t.mcuRowWork scan w.toNat h.toNat image j) (t.setIo io) =
          (l.foldl (fun t j => t.mcuRowWork scan w.toNat h.toNat image j) t).setIo io := by
      intro io l
      induction l with
      | nil => intro t; rfl
      | cons j l ihl => intro t; rw [List.foldl_cons, portless_mcuRowWork, ihl, List.foldl_cons]
    have hkeep : ∀ j (t : State), (t.mcuRowWork scan w.toNat h.toNat image j).io = t.io := by
      intro j t
      unfold State.mcuRowWork
      refine forRows_keeps (P := fun v => v.io = t.io) (fun y v hv => ?_) _ ?_
      · rw [← hv]; simp [State.io]
      · simp [State.io]
    have hio : ∀ (l : List Nat) (t : State),
        (l.foldl (fun t j => t.mcuRowWork scan w.toNat h.toNat image j) t).io = t.io := by
      intro l
      induction l with
      | nil => intro t; rfl
      | cons j l ihl => intro t; rw [List.foldl_cons, ihl, hkeep]
    rw [hfold, List.range'_succ, List.foldl_cons, afterMcus_eq_setIo, afterMcus_eq_setIo, setIo_setIo]
    rw [show my + 1 + m = my + (m + 1) by omega]
    congr 2
    have hf := (hio (List.range' (my + 1) m) (s.mcuRowWork scan w.toNat h.toNat image my)).trans (hkeep my s)
    generalize List.foldl _ _ _ = F at hf
    rw [show F.reqs = s.reqs from congrArg Io.reqs hf, hf]
    show ({ totals := _, reads := _, inits := _, mcus := _, reqs := (s.reqs ++ _) ++ _, mark := _ } : Io) = _
    rw [List.append_assoc, List.replicate_append_replicate, hlen2, hlen, Nat.succ_mul, Nat.add_comm n]
    rfl

end Sys2Proof.Machine
end

