-- ==== Sys2Proof/Laws/Late.lean ====
section
/-!
SUPPORT. When an answer of a collaborator comes makes no difference: `READLINE`, the line loop and the loops of `DEC_JPEG` with
answers that come after a wait. Where a line loop is refused: which answer broke the protocol. And the same answers served
from another line of the frame.
-/

namespace Sys2Proof.Machine

/-- Only the place in the line matters to what serves it (R272). -/
theorem answersServe_shift {c n : Nat} : ∀{as : List ReadAnswer} {p q : Nat}, p % n = q % n →
      answersServe c n p as = answersServe c n q as := by
  intro as
  induction as with
  | nil => intros; rfl
  | cons a as ih =>
    intro p q h
    rw [answersServe, answersServe, h, ih (q := q + a.count) (by rw [Nat.add_mod, h, ← Nat.add_mod])]

/-- `READLINE` with answers that come later (R272): where it had ended nothing changes but the answers left; where it
waited it goes on with those that come. -/
theorem readLine_late {c n : Nat} (more : List ReadAnswer) : ∀ (as : List ReadAnswer) (asked : Bool) (got : List Byte),
    readLine c n (as ++ more) asked got =
      match (readLine c n as asked got).1 with
      | .waiting g => ((readLine c n more true g).1, (readLine c n more true g).2.1,
          (readLine c n as asked got).2.2 ++ (readLine c n more true g).2.2)
      | r => (r, (readLine c n as asked got).2.1 ++ more, (readLine c n as asked got).2.2) := by
  intro as
  induction as with
  | nil =>
    intro asked got
    rw [List.nil_append]
    by_cases h : n ≤ got.length
    · rw [readLine.eq_1 c n asked, if_pos h]
      cases more <;> simp [readLine, h]
    · rw [readLine.eq_1 c n asked, if_neg h]
      simp only
      cases more with
      | nil => simp [readLine, h]
      | cons a more =>
        rw [readLine, readLine, if_neg h, if_neg h]
        dsimp only
        split
        · simp [*]
        · split
          · simp [*]
          · simp [*]
  | cons a as ih =>
    intro asked got
    rw [List.cons_append, readLine, readLine]
    split
    · rfl
    · dsimp only
      split
      · rfl
      · split
        · rfl
        · rw [ih]
          generalize readLine c n as false (got ++ a.bytes) = r
          obtain ⟨r1, r2, r3⟩ := r
          cases r1 <;> simp

/-- An operation that neither looks at nor touches the port fields does not mind more answers. -/
theorem Portless.withMore {f : State → State} (hf : Portless f) (hio : ∀ s, (f s).io = s.io) (a : LateAnswers) (s : State) :
    f (s.withMore a) = (f s).withMore a := by
  show f (s.setIo ⟨s.bsTotals ++ a.totals, s.bsReads ++ a.reads, s.bdInits ++ a.inits, s.bdMcus ++ a.mcus, s.reqs,
    s.rowsOfDecode⟩) = _
  have h := hio s
  simp only [State.io, Io.mk.injEq] at h
  obtain ⟨h1, h2, h3, h4, h5, h6⟩ := h
  rw [hf, ← h1, ← h2, ← h3, ← h4, ← h5, ← h6]
  rfl

/-- What a run with more answers does, beside the run without them: the same, but for the answers left, if that one ended;
if it waits, what it does when it goes on with them (R272, R390). -/
def LateRun (a : LateAnswers) (s t : State) (late : Result) : Prop :=
  t.halted = s.halted ∧
  (t.seq = .idle ∧ late = .next (t.withMore a) ∨
    t.decoding = true ∧ (t.halted = false → late = step (t.withMore a)))

/-- The line loop with answers that come later (R272, R390). -/
theorem runLines_late {k : StreamKind} {w h : Half} (a : LateAnswers) :
    ∀ (left y : Nat) (pend : Option (List Byte)) (l1 l2 : List Byte) (s t : State),
      left + y = k.rows h.toNat → s.seq = .idle → runLines k w h left y pend l1 l2 s = .next t →
      LateRun a s t (runLines k w h left y pend l1 l2 (s.withMore a)) := by
  intro left
  induction left with
  | zero =>
    intro y pend l1 l2 s t _ hi he
    rw [runLines] at he ⊢
    rw [(portless_afterFrame k w.toNat h.toNat l1 l2).withMore (fun s => by simp [State.io])]
    cases he
    exact ⟨by simp [State.retire, State.setR0], .inl ⟨by simp [State.retire, State.setR0, hi], rfl⟩⟩
  | succ left ih =>
    intro y pend l1 l2 s t hy hi he
    rw [runLines] at he ⊢
    have ht : (if pend.isSome then s.withMore a else (s.withMore a).beforeLine k h.toNat y) =
        (if pend.isSome then s else s.beforeLine k h.toNat y).withMore a := by
      split
      · rfl
      · exact (portless_beforeLine k h.toNat y).withMore (fun s => by simp [State.io]) a s
    rw [ht]
    have htl : (if pend.isSome then s else s.beforeLine k h.toNat y).seq = .idle ∧
        (if pend.isSome then s else s.beforeLine k h.toNat y).halted = s.halted := by
      split <;> simp [hi]
    generalize (if pend.isSome then s else s.beforeLine k h.toNat y) = u at he ⊢ htl
    obtain ⟨htl, hhl⟩ := htl
    rw [LateRun, ← hhl]
    rw [show (u.withMore a).bsReads = u.bsReads ++ a.reads from rfl, readLine_late]
    have hnil := readLine_spec (c := k.ceiling) (n := k.lineBytes w.toNat) (ceiling_pos k)
      u.bsReads pend.isSome (pend.getD [])
    generalize readLine k.ceiling (k.lineBytes w.toNat) u.bsReads pend.isSome (pend.getD []) = r at he ⊢ hnil
    obtain ⟨r1, r2, r3⟩ := r
    cases r1 with
    | full line =>
      dsimp only at he ⊢
      have hstep := ih (y + 1) none line l1 _ t (by omega) (by simp [State.afterRead, htl]) he
      rw [LateRun] at hstep
      rw [← (portless_afterLine k w.toNat h.toNat y line l1 l2).withMore (fun s => by simp [State.io])] at hstep
      exact ⟨hstep.1.trans (by simp [State.afterRead]), hstep.2⟩
    | dead => cases he; exact ⟨rfl, .inl ⟨htl, rfl⟩⟩
    | broken => cases he
    | waiting g =>
      dsimp only at he ⊢
      obtain ⟨-, -, -, hg⟩ := hnil
      have hg2 : r2 = [] := (hg g rfl).2
      cases he
      refine ⟨rfl, .inr ⟨rfl, fun hh => ?_⟩⟩
      rw [step_of_awaitRead (j := ⟨k, w, h, y, g, l1, l2⟩)
        (s := State.withMore a { u.afterRead r2 r3 with seq := .awaitRead ⟨k, w, h, y, g, l1, l2⟩ }) hh rfl, resumeRead]
      dsimp only
      rw [show k.rows h.toNat - y = left + 1 by omega, runLines]
      simp only [Option.isSome_some, if_true, Option.getD_some]
      rw [show (State.withMore a { u.afterRead r2 r3 with seq := .awaitRead ⟨k, w, h, y, g, l1, l2⟩ }).bsReads = a.reads by
        rw [hg2]; rfl]
      generalize readLine k.ceiling (k.lineBytes w.toNat) a.reads true g = r'
      obtain ⟨a1, a2, a3⟩ := r'
      have heq : State.afterRead a2 (r3 ++ a3) (u.withMore a) = State.afterRead a2 a3
          { State.withMore a { u.afterRead r2 r3 with seq := .awaitRead ⟨k, w, h, y, g, l1, l2⟩ } with seq := .idle } := by
        simp [State.afterRead, State.withMore, ← htl]
      dsimp only
      rw [heq]
      rfl

/-- A byte-stream decode from its first request on (R271, R390). -/
theorem resumeTotal_late {k : StreamKind} {w h : Half} (a : LateAnswers) {s t : State} (hi : s.seq = .idle)
    (he : resumeTotal k w h s = .next t) : LateRun a s t (resumeTotal k w h (s.withMore a)) := by
  unfold resumeTotal at he
  split at he
  next hb =>
    cases he
    refine ⟨rfl, .inr ⟨rfl, fun hh => ?_⟩⟩
    rw [step_of_awaitTotal (k := k) (w := w) (h := h)
      (s := State.withMore a { s with seq := .awaitTotal k w h }) hh rfl]
    cases s
    cases hi
    rfl
  next total rest hb =>
    have hm : resumeTotal k w h (s.withMore a) = runStream k w h total (State.withMore a { s with bsTotals := rest }) := by
      unfold resumeTotal
      rw [show (s.withMore a).bsTotals = s.bsTotals ++ a.totals from rfl, hb]
      rfl
    rw [hm]
    unfold runStream at he ⊢
    rw [show (State.withMore a { s with bsTotals := rest }).params = s.params from rfl]
    split at he
    next rc hp => rw [hp]; cases he; exact ⟨rfl, .inl ⟨hi, rfl⟩⟩
    next hp => rw [hp]; exact runLines_late a _ 0 none [] [] _ t (Nat.add_zero _) (by exact hi) he

/-- A byte-stream decode that goes on inside `READLINE` (R272, R390). -/
theorem resumeRead_late {j : StreamJob} (a : LateAnswers) {s t : State} (hj : j.row ≤ j.kind.rows j.h.toNat)
    (hi : s.seq = .idle) (he : resumeRead j s = .next t) : LateRun a s t (resumeRead j (s.withMore a)) :=
  runLines_late (k := j.kind) (w := j.w) (h := j.h) a _ j.row _ _ _ s t (Nat.sub_add_cancel hj) hi he

/-- The MCUs of a row with answers that come later (R310): where they had all come, or one had an error, nothing changes but
the answers left; where one was awaited it goes on with those that come. -/
theorem readMcus_late {scan : ScanType} (more : List McuAnswer) :
    ∀ (left mx : Nat) (asked : Bool) (mrow : List (List RGB)) (as : List McuAnswer),
    readMcus scan left mx asked mrow (as ++ more) =
      match (readMcus scan left mx asked mrow as).1 with
      | .waiting x m => ((readMcus scan (mx + left - x) x true m more).1, (readMcus scan (mx + left - x) x true m more).2.1,
          (readMcus scan left mx asked mrow as).2.2 ++ (readMcus scan (mx + left - x) x true m more).2.2)
      | r => (r, (readMcus scan left mx asked mrow as).2.1 ++ more, (readMcus scan left mx asked mrow as).2.2) := by
  intro left
  induction left with
  | zero => intro mx asked mrow as; simp only [readMcus]
  | succ left ih =>
    intro mx asked mrow as
    cases as with
    | nil =>
      rw [List.nil_append, readMcus]
      dsimp only
      rw [show mx + (left + 1) - mx = left + 1 by omega]
      cases more with
      | nil => simp [readMcus]
      | cons a more =>
        rw [readMcus, readMcus]
        dsimp only
        split <;> simp
    | cons a as =>
      rw [List.cons_append, readMcus, readMcus]
      dsimp only
      split
      · rfl
      · rw [ih, show mx + 1 + left = mx + (left + 1) by omega]
        generalize readMcus scan left (mx + 1) false (addMcu scan a mrow) as = r
        obtain ⟨r1, r2, r3⟩ := r
        cases r1 <;> simp

/-- The MCU-row loop with answers that come later (R310, R390). -/
theorem runMcuRows_late {scan : ScanType} {w h : Half} (a : LateAnswers) :
    ∀ (left my : Nat) (pend : Option (Nat × List (List RGB))) (s t : State),
      left + my = mcuRowCount scan h.toNat → (∀ p, pend = some p → p.1 ≤ mcusPerRow scan w.toNat) → s.seq = .idle →
      runMcuRows scan w h left my pend s = .next t →
      LateRun a s t (runMcuRows scan w h left my pend (s.withMore a)) := by
  intro left
  induction left with
  | zero =>
    intro my pend s t _ _ hi he
    rw [runMcuRows] at he ⊢
    cases he
    exact ⟨rfl, .inl ⟨hi, rfl⟩⟩
  | succ left ih =>
    intro my pend s t hy hp hi he
    rw [runMcuRows] at he ⊢
    have ht : (if pend.isSome then s.withMore a else (s.withMore a).progress my (mcuRowCount scan h.toNat)) =
        (if pend.isSome then s else s.progress my (mcuRowCount scan h.toNat)).withMore a := by
      split
      · rfl
      · exact (portless_progress my (mcuRowCount scan h.toNat)).withMore (fun s => by simp [State.io]) a s
    rw [ht]
    have htl : (if pend.isSome then s else s.progress my (mcuRowCount scan h.toNat)).seq = .idle ∧
        (if pend.isSome then s else s.progress my (mcuRowCount scan h.toNat)).halted = s.halted := by
      split <;> simp [hi]
    generalize (if pend.isSome then s else s.progress my (mcuRowCount scan h.toNat)) = u at he ⊢ htl
    have hp' : (pend.getD (0, emptyMrow scan)).1 ≤ mcusPerRow scan w.toNat := by
      cases pend with
      | none => exact Nat.zero_le _
      | some p => exact hp p rfl
    generalize pend.getD (0, emptyMrow scan) = p at he ⊢ hp'
    obtain ⟨htl, hhl⟩ := htl
    rw [LateRun, ← hhl]
    rw [show (u.withMore a).bdMcus = u.bdMcus ++ a.mcus from rfl, readMcus_late]
    obtain ⟨-, -, -, -, hw⟩ := readMcus_spec (scan := scan) (mcusPerRow scan w.toNat - p.1) p.1 pend.isSome p.2 u.bdMcus
    generalize readMcus scan (mcusPerRow scan w.toNat - p.1) p.1 pend.isSome p.2 u.bdMcus = r at he ⊢ hw
    obtain ⟨r1, r2, r3⟩ := r
    cases r1 with
    | full mrow =>
      dsimp only at he ⊢
      have hstep := ih (my + 1) none _ t (by omega) (by simp) (by simp [State.afterMcus, htl]) he
      rw [LateRun] at hstep
      rw [← (portless_blit _ _ mrow _).withMore (fun s => by simp [State.io])] at hstep
      exact ⟨hstep.1.trans (by simp [State.afterMcus]), hstep.2⟩
    | error code => cases he; exact ⟨rfl, .inl ⟨htl, rfl⟩⟩
    | waiting x m =>
      dsimp only at he ⊢
      obtain ⟨hg2, hx1, hx2, -⟩ := hw x m rfl
      have hg2 : r2 = [] := hg2
      cases he
      refine ⟨rfl, .inr ⟨rfl, fun hh => ?_⟩⟩
      rw [step_of_awaitMcu (j := ⟨w, h, scan, my, x, m⟩)
        (s := State.withMore a { u.afterMcus r2 r3 with seq := .awaitMcu ⟨w, h, scan, my, x, m⟩ }) hh rfl, resumeMcu]
      dsimp only
      rw [show mcuRowCount scan h.toNat - my = left + 1 by omega, runMcuRows,
        show p.1 + (mcusPerRow scan w.toNat - p.1) = mcusPerRow scan w.toNat by omega]
      simp only [Option.isSome_some, if_true, Option.getD_some]
      rw [show (State.withMore a { u.afterMcus r2 r3 with seq := .awaitMcu ⟨w, h, scan, my, x, m⟩ }).bdMcus = a.mcus by
        rw [hg2]; rfl]
      generalize readMcus scan (mcusPerRow scan w.toNat - x) x true m a.mcus = r'
      obtain ⟨a1, a2, a3⟩ := r'
      have heq : State.afterMcus a2 (r3 ++ a3) (u.withMore a) = State.afterMcus a2 a3
          { State.withMore a { u.afterMcus r2 r3 with seq := .awaitMcu ⟨w, h, scan, my, x, m⟩ } with seq := .idle } := by
        simp [State.afterMcus, State.withMore, ← htl]
      dsimp only
      rw [heq]
      rfl

/-- `DEC_JPEG` from its first request on (R310, R390). -/
theorem resumeInit_late {w h : Half} (a : LateAnswers) {s t : State} (hi : s.seq = .idle)
    (he : resumeInit w h s = .next t) : LateRun a s t (resumeInit w h (s.withMore a)) := by
  unfold resumeInit at he
  split at he
  next hb =>
    cases he
    refine ⟨rfl, .inr ⟨rfl, fun hh => ?_⟩⟩
    rw [step_of_awaitInit (w := w) (h := h) (s := State.withMore a { s with seq := .awaitInit w h }) hh rfl]
    cases s
    cases hi
    rfl
  next i rest hb =>
    have hm : resumeInit w h (s.withMore a) = runJpeg w h i (State.withMore a { s with bdInits := rest }) := by
      unfold resumeInit
      rw [show (s.withMore a).bdInits = s.bdInits ++ a.inits from rfl, hb]
      rfl
    rw [hm]
    unfold runJpeg at he ⊢
    split at he
    next hp => rw [if_pos hp]; cases he; exact ⟨rfl, .inl ⟨hi, rfl⟩⟩
    next hp =>
      rw [if_neg hp]
      split at he
      next hs => cases he; exact ⟨rfl, .inl ⟨hi, rfl⟩⟩
      next scan hs =>
        split at he
        next hl => rw [if_pos (by exact hl)]; cases he; exact ⟨rfl, .inl ⟨hi, rfl⟩⟩
        next hl =>
          rw [if_neg (by exact hl)]
          exact runMcuRows_late a _ 0 none _ t (Nat.add_zero _) (by simp) (by exact hi) he

/-- `DEC_JPEG` that goes on inside an MCU row (R310, R390). -/
theorem resumeMcu_late {j : JpegJob} (a : LateAnswers) {s t : State} (hy : j.my ≤ mcuRowCount j.scan j.h.toNat)
    (hx : j.mx ≤ mcusPerRow j.scan j.w.toNat) (hi : s.seq = .idle) (he : resumeMcu j s = .next t) :
    LateRun a s t (resumeMcu j (s.withMore a)) :=
  runMcuRows_late (w := j.w) (h := j.h) a _ j.my _ s t (Nat.sub_add_cancel hy) (by simpa using hx) hi he

/-! ### Answers that break the protocol -/

theorem answerOk_iff {m : Nat} {a : ReadAnswer} : answerOk m a = true ↔ a.count ≤ m ∧ a.bytes.length = a.count := by
  rw [answerOk, Bool.and_eq_true, beq_iff_eq]
  exact and_congr_left' ⟨of_decide_eq_true, decide_eq_true⟩

/-- A `READLINE` that fills its line has been served what it lacked (R272). -/
theorem readLine_full {c n : Nat} : ∀ {as : List ReadAnswer} {asked : Bool} {got line : List Byte}, got.length ≤ n →
    (readLine c n as asked got).1 = .full line →
    ∃ as1, as = as1 ++ (readLine c n as asked got).2.1 ∧ answersServe c n got.length as1 = true ∧
      got.length + (streamOf as1).length = n := by
  intro as
  induction as with
  | nil =>
    intro asked got line hg h
    rw [readLine] at h ⊢
    split at h
    · rw [if_pos ‹_›]; exact ⟨[], rfl, rfl, by simp only [streamOf_nil, List.length_nil]; omega⟩
    · cases h
  | cons a as ih =>
    intro asked got line hg h
    rw [readLine] at h ⊢
    split at h
    · rw [if_pos ‹_›]; exact ⟨[], rfl, rfl, by simp only [streamOf_nil, List.length_nil]; omega⟩
    next hlt =>
      rw [if_neg hlt]
      dsimp only at h ⊢
      split at h
      · cases h
      next hok =>
        rw [if_neg hok]
        split at h
        · cases h
        next hne =>
          rw [if_neg hne]
          rw [Bool.not_eq_true', Bool.not_eq_false, answerOk_iff, requestSize] at hok
          obtain ⟨as1, e1, e2, e3⟩ := ih (by rw [List.length_append]; omega) h
          rw [List.length_append, hok.2] at e2 e3
          refine ⟨a :: as1, by dsimp only; rw [List.cons_append, ← e1], ?_, by
            rw [streamOf_cons, List.length_append, hok.2]; omega⟩
          simp only [answersServe, Bool.and_eq_true, decide_eq_true_eq, beq_iff_eq]
          rw [Nat.mod_eq_of_lt (by omega)]
          exact ⟨⟨⟨by omega, hok.1⟩, hok.2⟩, e2⟩

/-- A `READLINE` that is refused was served some bytes of its line, and then came an answer that breaks the protocol (R272,
R351). -/
theorem readLine_broken {c n : Nat} : ∀ {as : List ReadAnswer} {asked : Bool} {got : List Byte},
    (readLine c n as asked got).1 = .broken →
    ∃ as1 bad rest, as = as1 ++ bad :: rest ∧ answersServe c n got.length as1 = true ∧
      got.length + (streamOf as1).length < n ∧ breaksProtocol c n (got.length + (streamOf as1).length) bad := by
  intro as
  induction as with
  | nil =>
    intro asked got h
    rw [readLine] at h
    split at h <;> cases h
  | cons a as ih =>
    intro asked got h
    rw [readLine] at h
    split at h
    · cases h
    next hlt =>
      dsimp only at h
      split at h
      next hbad =>
        refine ⟨[], a, as, rfl, rfl, by simp only [streamOf_nil, List.length_nil]; omega, ?_⟩
        rw [Bool.not_eq_true', ← Bool.not_eq_true, answerOk_iff, requestSize] at hbad
        rw [streamOf_nil, List.length_nil, Nat.add_zero, breaksProtocol, Nat.mod_eq_of_lt (by omega)]
        omega
      next hok =>
        split at h
        · cases h
        next hne =>
          rw [Bool.not_eq_true', Bool.not_eq_false, answerOk_iff, requestSize] at hok
          obtain ⟨as1, bad, rest, e1, e2, e3, e4⟩ := ih h
          rw [List.length_append, hok.2] at e2 e3 e4
          refine ⟨a :: as1, bad, rest, by rw [e1]; rfl, ?_, ?_, ?_⟩
          · simp only [answersServe, Bool.and_eq_true, decide_eq_true_eq, beq_iff_eq]
            rw [Nat.mod_eq_of_lt (by omega)]
            exact ⟨⟨⟨by omega, hok.1⟩, hok.2⟩, e2⟩
          · rw [streamOf_cons, List.length_append, hok.2]; omega
          · rw [streamOf_cons, List.length_append, hok.2, ← Nat.add_assoc]; exact e4

/-- A line loop that is refused was served up to the answer that breaks the protocol, which it needed (R272, R351). -/
theorem runLines_broken {k : StreamKind} {w h : Half} :
    ∀ (left y : Nat) (pend : Option (List Byte)) (l1 l2 : List Byte) (s : State),
      (∀ p, pend = some p → p.length < k.lineBytes w.toNat) →
      runLines k w h left y pend l1 l2 s = .refused .byteSourceProtocol →
      ∃ as bad rest, s.bsReads = as ++ bad :: rest ∧
        answersServe k.ceiling (k.lineBytes w.toNat) (k.lineBytes w.toNat * y + (pend.getD []).length) as = true ∧
        k.lineBytes w.toNat * y + (pend.getD []).length + (streamOf as).length < k.lineBytes w.toNat * (y + left) ∧
        breaksProtocol k.ceiling (k.lineBytes w.toNat)
          (k.lineBytes w.toNat * y + (pend.getD []).length + (streamOf as).length) bad := by
  intro left
  induction left with
  | zero => intro y pend l1 l2 s _ he; rw [runLines] at he; cases he
  | succ left ih =>
    intro y pend l1 l2 s hp he
    rw [runLines] at he
    have ht : (if pend.isSome then s else s.beforeLine k h.toNat y).bsReads = s.bsReads := by split <;> simp
    generalize (if pend.isSome then s else s.beforeLine k h.toNat y) = t at he ht
    rw [ht] at he
    generalize hn : k.lineBytes w.toNat = n at *
    have hgot : (pend.getD []).length ≤ n := by
      cases pend with
      | none => exact Nat.zero_le _
      | some p => exact Nat.le_of_lt (hp p rfl)
    have hmod : ∀ x, x % n = (n * y + x) % n := fun x => (Nat.mul_add_mod n y x).symm
    cases hr : (readLine k.ceiling n s.bsReads pend.isSome (pend.getD [])).1 with
    | full line =>
      rw [hr] at he
      obtain ⟨as1, e1, e2, e3⟩ := readLine_full hgot hr
      obtain ⟨as2, bad, rest, f1, f2, f3, f4⟩ := ih (y + 1) none line l1 _ (by simp) he
      simp only [afterLine_bsReads, State.afterRead, Option.getD_none, List.length_nil, Nat.add_zero] at f1 f2 f3 f4
      have hpos : n * y + (pend.getD []).length + (streamOf as1).length = n * (y + 1) := by
        rw [Nat.mul_succ, Nat.add_assoc, e3]
      rw [answersServe_shift (hmod _)] at e2
      refine ⟨as1 ++ as2, bad, rest, by rw [e1, f1, List.append_assoc], (answersServe_append e2 (by rw [hpos]; exact f2)).1, ?_⟩
      rw [streamOf_append, List.length_append, ← Nat.add_assoc, hpos]
      exact ⟨by rw [show y + (left + 1) = y + 1 + left by omega]; exact f3, f4⟩
    | dead => rw [hr] at he; cases he
    | waiting g => rw [hr] at he; cases he
    | broken =>
      obtain ⟨as, bad, rest, e1, e2, e3, e4⟩ := readLine_broken hr
      rw [answersServe_shift (hmod _)] at e2
      refine ⟨as, bad, rest, e1, e2, ?_, ?_⟩
      · rw [Nat.add_assoc, show y + (left + 1) = y + 1 + left by omega, Nat.mul_add, Nat.mul_succ]; omega
      · rw [breaksProtocol, hmod, ← Nat.add_assoc] at e4; exact e4

end Sys2Proof.Machine
end

