-- ==== Sys2Proof/Laws/Palette.lean ====
section
/-!
SUPPORT. The specifications of the palette's shared operations in the terms of Sys2Proof/Safety.lean: saturation, the lookups, the
entry builder, the search `NEAREST` and the endpoints of a renormalisation (spec/00_scope.md R18, R19; spec/41_palette.md R170,
R171, R173, R180, R181).
-/

namespace Sys2Proof.Machine

/-! ### Saturation and clamps -/

theorem holds_sat32 (v : Int) : Holds (sat32 v) v := by
  unfold Holds sat32 clamp clampS32 s32Min s32Max
  rw [BitVec.toInt_ofInt]
  split
  · rw [max_eq_left (by omega)]; decide
  · split
    · rw [min_eq_right (by omega), max_eq_right (by omega)]; decide
    · rw [min_eq_left (by omega), max_eq_right (by omega)]
      exact Int.bmod_eq_of_le (by omega) (by omega)

theorem saturates_iff (v : Int) : saturates v = true ↔ clampS32 v ≠ v := by
  unfold saturates clampS32 s32Min s32Max
  simp only [Bool.or_eq_true, decide_eq_true_eq]
  omega

theorem holdsTriple_sat32Triple (x y z : Int) : HoldsTriple (sat32Triple x y z) x y z :=
  ⟨holds_sat32 x, holds_sat32 y, holds_sat32 z⟩

theorem saturatesTriple_iff (x y z : Int) : saturatesTriple x y z = true ↔ Clamps x y z := by
  unfold saturatesTriple Clamps
  simp only [Bool.or_eq_true, saturates_iff, or_assoc]

/-- A word that holds zero holds nothing else. -/
theorem sat32_zero : sat32 0 = 0 := by decide

theorem clamp8_toNat (v : Int) : ((clamp8 v).toNat : Int) = max 0 (min v 255) := by
  unfold clamp8 clamp
  rw [BitVec.toNat_ofNat]
  split
  · omega
  · split <;> omega

/-! ### Lookups -/

/-- `find?` gives the first with the property. -/
theorem find_some_first {α : Type} {p : α → Bool} {l : List α} {e : α} (h : l.find? p = some e) :
    ∃ n : Nat, l[n]? = some e ∧ p e = true ∧ ∀ (q : Nat) (f : α), q < n → l[q]? = some f → p f = false := by
  rw [List.find?_eq_some_iff_getElem] at h
  obtain ⟨hp, n, hn, he, hq⟩ := h
  refine ⟨n, by rw [List.getElem?_eq_getElem hn, he], hp, ?_⟩
  intro q f hlt hf
  obtain ⟨hq', rfl⟩ := List.getElem?_eq_some_iff.mp hf
  simpa using hq q hlt

theorem find_of_first {α : Type} {p : α → Bool} {l : List α} {e : α} {n : Nat} (h1 : l[n]? = some e) (h2 : p e = true)
    (h3 : ∀ (q : Nat) (f : α), q < n → l[q]? = some f → p f = false) : l.find? p = some e := by
  rw [List.find?_eq_some_iff_getElem]
  obtain ⟨hn, rfl⟩ := List.getElem?_eq_some_iff.mp h1
  refine ⟨h2, n, hn, rfl, fun j hj => ?_⟩
  simp [h3 j _ hj (List.getElem?_eq_getElem (by omega))]

/-- `FIND_INDEX` (R170). -/
theorem findIndex_some_iff {pal : List PalEntry} {k : Byte} {e : PalEntry} :
    findIndex pal k = some e ↔ FirstWith pal (fun f => f.index = k) e := by
  constructor
  · intro h
    obtain ⟨n, h1, h2, h3⟩ := find_some_first h
    exact ⟨n, h1, by simpa using h2, fun q f hq hf => by simpa using h3 q f hq hf⟩
  · rintro ⟨n, h1, h2, h3⟩
    exact find_of_first h1 (by simpa using h2) (fun q f hq hf => by simpa using h3 q f hq hf)

/-- `FIND_NAME` (R170). -/
theorem findName_some_iff {pal : List PalEntry} {k : Byte} {e : PalEntry} :
    findName pal k = some e ↔ FirstWith pal (fun f => f.name = k) e := by
  constructor
  · intro h
    obtain ⟨n, h1, h2, h3⟩ := find_some_first h
    exact ⟨n, h1, by simpa using h2, fun q f hq hf => by simpa using h3 q f hq hf⟩
  · rintro ⟨n, h1, h2, h3⟩
    exact find_of_first h1 (by simpa using h2) (fun q f hq hf => by simpa using h3 q f hq hf)

theorem findIndex_none_iff {pal : List PalEntry} {k : Byte} : findIndex pal k = none ↔ ∀ e ∈ pal, e.index ≠ k := by
  simp [findIndex, List.find?_eq_none]

theorem findName_none_iff {pal : List PalEntry} {k : Byte} : findName pal k = none ↔ ∀ e ∈ pal, e.name ≠ k := by
  simp [findName, List.find?_eq_none]

/-- The first entry with a property is unique. -/
theorem firstWith_unique {pal : List PalEntry} {has : PalEntry → Prop} {e f : PalEntry} (he : FirstWith pal has e)
    (hf : FirstWith pal has f) : e = f := by
  obtain ⟨n, a1, a2, a3⟩ := he
  obtain ⟨m, b1, b2, b3⟩ := hf
  rcases Nat.lt_trichotomy n m with h | h | h
  · exact absurd a2 (b3 n e h a1)
  · subst h; rw [a1] at b1; exact Option.some.inj b1
  · exact absurd b2 (a3 m f h b1)

/-- No index is repeated in a `PAL_LOAD` (R172). -/
theorem hasDupIndex_iff (es : List PalSpec) : hasDupIndex es = true ↔ ¬ (es.map (·.index)).Nodup := by
  induction es with
  | nil => simp [hasDupIndex]
  | cons e es ih =>
    simp only [hasDupIndex, List.map_cons, List.nodup_cons, Bool.or_eq_true, ih]
    have : (es.any fun f => f.index == e.index) = true ↔ e.index ∈ es.map (·.index) := by
      simp
    rw [this]
    tauto

/-! ### Entries -/

/-- `MKENTRY` (R171). -/
theorem builtFrom_mkEntry (p : Params) (mono : Bool) (name index : Byte) (c : RGB) :
    BuiltFrom p mono name index c (mkEntry p mono name index c) := by
  cases mono <;> simp [BuiltFrom, mkEntry, grayRgb]

/-! ### NEAREST -/

/-- The distance the machine compares is the distance of R173. -/
theorem labDist_eq (mono : Bool) (c e : Lab) : (labDist mono c e : Int) = distance mono c e := by
  unfold labDist distance labDiff
  cases mono
  · simp only [Bool.false_eq_true, if_false]
    push_cast
    simp only [sq_abs]
  · simp

/-- The scan finds, from a best so far, the first of the nearest (R173). -/
theorem nearestScan_spec (mono : Bool) (c : Lab) : ∀ (l : List PalEntry) (p : Nat) (q : Nat) (f : PalEntry),
    ∃ (r : Nat) (e : PalEntry), nearestScan mono c l p (some (q, f, labDist mono c f.lab)) =
        some (r, e, labDist mono c e.lab) ∧
      (r = q ∧ e = f ∧ (∀ g ∈ l, labDist mono c f.lab ≤ labDist mono c g.lab) ∨
        ∃ i : Nat, r = p + i ∧ l[i]? = some e ∧ labDist mono c e.lab < labDist mono c f.lab ∧
          (∀ g ∈ l, labDist mono c e.lab ≤ labDist mono c g.lab) ∧
          ∀ (j : Nat) (g : PalEntry), j < i → l[j]? = some g → labDist mono c e.lab < labDist mono c g.lab) := by
  intro l
  induction l with
  | nil => intro p q f; exact ⟨q, f, rfl, .inl ⟨rfl, rfl, by simp⟩⟩
  | cons g l ih =>
    intro p q f
    rw [nearestScan]
    split
    next hlt =>
      obtain ⟨r, e, h1, h2⟩ := ih (p + 1) p g
      refine ⟨r, e, h1, .inr ?_⟩
      rcases h2 with ⟨rfl, rfl, h3⟩ | ⟨i, rfl, h3, h4, h5, h6⟩
      · refine ⟨0, rfl, rfl, hlt, ?_, by simp⟩
        intro x hx
        rcases List.mem_cons.mp hx with rfl | hx
        · exact Nat.le_refl _
        · exact h3 x hx
      · refine ⟨i + 1, by omega, by simpa using h3, by omega, ?_, ?_⟩
        · intro x hx
          rcases List.mem_cons.mp hx with rfl | hx
          · omega
          · exact h5 x hx
        · intro j x hj hx
          cases j with
          | zero => simp at hx; subst hx; exact h4
          | succ j => exact h6 j x (by omega) (by simpa using hx)
    next hge =>
      obtain ⟨r, e, h1, h2⟩ := ih (p + 1) q f
      refine ⟨r, e, h1, ?_⟩
      rcases h2 with ⟨rfl, rfl, h3⟩ | ⟨i, rfl, h3, h4, h5, h6⟩
      · refine .inl ⟨rfl, rfl, ?_⟩
        intro x hx
        rcases List.mem_cons.mp hx with rfl | hx
        · omega
        · exact h3 x hx
      · refine .inr ⟨i + 1, by omega, by simpa using h3, h4, ?_, ?_⟩
        · intro x hx
          rcases List.mem_cons.mp hx with rfl | hx
          · omega
          · exact h5 x hx
        · intro j x hj hx
          cases j with
          | zero => simp at hx; subst hx; omega
          | succ j => exact h6 j x (by omega) (by simpa using hx)

/-- `NEAREST` finds the first of the nearest entries (R173). -/
theorem nearestEntry_some {s : State} {c : Lab} {p : Nat} {e : PalEntry} (h : s.nearestEntry c = some (p, e)) :
    FirstNearest s.mono s.pal c p e := by
  unfold State.nearestEntry at h
  cases hp : s.pal with
  | nil => rw [hp] at h; simp [nearestScan] at h
  | cons g l =>
    rw [hp, nearestScan] at h
    obtain ⟨r, f, h1, h2⟩ := nearestScan_spec s.mono c l 1 0 g
    rw [h1] at h
    simp only [Option.some.injEq, Prod.mk.injEq] at h
    obtain ⟨rfl, rfl⟩ := h
    have key : ∀ (q : Nat) (x : PalEntry), (g :: l)[q]? = some x →
        labDist s.mono c f.lab ≤ labDist s.mono c x.lab ∧ (q < r → labDist s.mono c f.lab < labDist s.mono c x.lab) := by
      intro q x hx
      rcases h2 with ⟨rfl, rfl, h3⟩ | ⟨i, rfl, h3, h4, h5, h6⟩
      · refine ⟨?_, by omega⟩
        cases q with
        | zero => simp at hx; subst hx; exact Nat.le_refl _
        | succ q => exact h3 x (List.mem_of_getElem? (by simpa using hx))
      · cases q with
        | zero => simp at hx; subst hx; exact ⟨by omega, fun _ => h4⟩
        | succ q =>
          have hx' : l[q]? = some x := by simpa using hx
          exact ⟨h5 x (List.mem_of_getElem? hx'), fun hq => h6 q x (by omega) hx'⟩
    refine ⟨?_, ?_⟩
    · rcases h2 with ⟨rfl, rfl, h3⟩ | ⟨i, rfl, h3, h4, h5, h6⟩
      · rfl
      · rw [Nat.add_comm]; simpa using h3
    · intro q x hx
      rw [← labDist_eq, ← labDist_eq]
      have := key q x hx
      omega

/-- `NEAREST` finds nothing exactly on an empty palette (R173). -/
theorem nearestEntry_none_iff {s : State} {c : Lab} : s.nearestEntry c = none ↔ s.pal = [] := by
  unfold State.nearestEntry
  cases hp : s.pal with
  | nil => simp [nearestScan]
  | cons g l =>
    obtain ⟨r, f, h1, -⟩ := nearestScan_spec s.mono c l 1 0 g
    rw [nearestScan, h1]; simp

/-- There is only one first of the nearest. -/
theorem firstNearest_unique {mono : Bool} {pal : List PalEntry} {c : Lab} {p q : Nat} {e f : PalEntry}
    (he : FirstNearest mono pal c p e) (hf : FirstNearest mono pal c q f) : p = q ∧ e = f := by
  obtain ⟨a1, a2⟩ := he
  obtain ⟨b1, b2⟩ := hf
  rcases Nat.lt_trichotomy p q with h | h | h
  · have := (b2 p e a1).2 h; have := (a2 q f b1).1; omega
  · subst h; rw [a1] at b1; exact ⟨rfl, Option.some.inj b1⟩
  · have := (a2 q f b1).2 h; have := (b2 p e a1).1; omega

theorem nearestEntry_of_first {s : State} {c : Lab} {p : Nat} {e : PalEntry} (h : FirstNearest s.mono s.pal c p e) :
    s.nearestEntry c = some (p, e) := by
  cases hn : s.nearestEntry c with
  | none =>
    have := nearestEntry_none_iff.mp hn
    rw [this] at h; simp [FirstNearest] at h
  | some r =>
    obtain ⟨q, f⟩ := r
    obtain ⟨rfl, rfl⟩ := firstNearest_unique (nearestEntry_some hn) h
    rfl

/-! ### Endpoints -/

/-- The endpoint the machine computes, if any, is the endpoint of R180 and R181, which is unique. -/
theorem pinned_some_iff {α : Type} {pin : Bool} {pal : List PalEntry} {name : Byte} {value : PalEntry → α}
    {dflt v : α} : pinned pin pal name value dflt = some v ↔ Endpoint pin pal name value dflt v := by
  unfold pinned Endpoint
  cases pin
  · simp [eq_comm]
  · simp only [if_true, Option.map_eq_some_iff, Bool.true_eq_false, false_implies, true_and, forall_const]
    constructor
    · rintro ⟨e, he, rfl⟩; exact ⟨e, findName_some_iff.mp he, rfl⟩
    · rintro ⟨e, he, rfl⟩; exact ⟨e, findName_some_iff.mpr he, rfl⟩

/-- One rescaled channel (R180). -/
theorem channelRescaled_rescaleChannel (lo hi c : Byte) : ChannelRescaled lo hi c (rescaleChannel lo hi c) :=
  clamp8_toNat _

theorem rgbRescaled_rescaleRgb (lo hi c : RGB) : RgbRescaled lo hi c (rescaleRgb lo hi c) :=
  ⟨channelRescaled_rescaleChannel _ _ _, channelRescaled_rescaleChannel _ _ _, channelRescaled_rescaleChannel _ _ _⟩

theorem rgbRangeOk_iff (lo hi : RGB) :
    rgbRangeOk lo hi = true ↔ lo.r.toNat < hi.r.toNat ∧ lo.g.toNat < hi.g.toNat ∧ lo.b.toNat < hi.b.toNat := by
  unfold rgbRangeOk
  simp only [Bool.and_eq_true, decide_eq_true_eq, and_assoc]

/-- A rescaled lightness (R181). -/
theorem rescaleL_toInt (lo hi : Int) (l : LabNum) :
    (rescaleL lo hi l).toInt = max 0 (min (Int.tdiv ((l.toInt - lo) * 6553600) (hi - lo)) 6553600) := by
  unfold rescaleL clamp tdiv labHundred
  rw [BitVec.toInt_ofInt]
  generalize Int.tdiv ((l.toInt - lo) * 6553600) (hi - lo) = v
  have hb : ∀ x : Int, 0 ≤ x → x ≤ 6553600 → x.bmod (2 ^ 32) = x := fun x h1 h2 =>
    Int.bmod_eq_of_le (by omega) (by omega)
  split
  · rw [hb _ (by omega) (by omega)]; omega
  · split
    · rw [hb _ (by omega) (by omega)]; omega
    · rw [hb _ (by omega) (by omega)]; omega

end Sys2Proof.Machine
end

