-- ==== Sys2Proof/Laws/PerInstr.lean ====
section
/-!
SUPPORT. Facts stated of every instruction, one lemma per constructor. Family `Header`: the first word of an encoding carries
the match bits of its row of spec/30_encoding.md R120 and nothing in the row's reserved bits, and as many operand words
follow as R111 says of that header.
-/

namespace Sys2Proof

/-- The row of R120 that an instruction belongs to. -/
def Instr.row : Instr → Op
  | .nop => .nop
  | .wrcsr _ _ => .wrcsr
  | .rdcsr _ => .rdcsr
  | .clrstat _ => .clrstat
  | .palLoad _ _ => .palLoad
  | .nearLab _ => .nearLab
  | .nearRgb _ => .nearRgb
  | .torgb _ => .torgb
  | .tolab _ => .tolab
  | .indexof _ => .indexof
  | .normRgb _ _ => .normRgb
  | .normLab _ _ => .normLab
  | .surfCfg _ _ _ _ => .surfCfg
  | .setidx _ _ _ => .setidx
  | .getidx _ _ => .getidx
  | .flush => .flush
  | .rdfb _ => .rdfb
  | .setpix _ _ _ => .setpix
  | .diffReset => .diffReset
  | .rdrow _ _ => .rdrow
  | .decRgb565 _ _ => .decRgb565
  | .decYuyv _ _ => .decYuyv
  | .decYuyvh _ _ => .decYuyvh
  | .decYuv3l _ _ => .decYuv3l
  | .decJpeg _ _ => .decJpeg

namespace Laws

/-- The first word of the encoding is a header of the instruction's row, with the operand words it announces (R111, R120). -/
def Header.Statement (i : Instr) : Prop :=
  i.wellFormed = true → ∃ h ws, encode i = h :: ws ∧ h &&& i.row.mask = i.row.pattern ∧ ws.length = operandCount i.row h

/-- The pattern of a row has no bit outside its mask. -/
theorem pattern_masked (op : Op) : op.pattern &&& op.mask = op.pattern := by cases op <;> decide

/-- A field in the low `k` bits of a header leaves the bits that a mask without those bits keeps. -/
theorem field_masked {k : Nat} (op : Op) (x : BitVec k) (hm : ∀ j < 32, j < k → op.mask.getLsbD j = false) :
    (op.pattern ||| x.setWidth 32) &&& op.mask = op.pattern := by
  have hx : x.setWidth 32 &&& op.mask = 0 := by
    apply BitVec.eq_of_getLsbD_eq
    intro j hj
    rw [BitVec.getLsbD_and, BitVec.getLsbD_setWidth]
    by_cases h : j < k
    · simp [hm j hj h]
    · simp [BitVec.getLsbD_of_ge x j (by omega)]
  rw [show (op.pattern ||| x.setWidth 32) &&& op.mask = (op.pattern &&& op.mask) ||| (x.setWidth 32 &&& op.mask) by
    apply BitVec.eq_of_getLsbD_eq
    intro j _
    simp only [BitVec.getLsbD_and, BitVec.getLsbD_or, Bool.and_or_distrib_right], pattern_masked, hx]
  simp

/-- A colour in the low 24 bits of a header leaves its opcode. -/
theorem rgb_masked (op : Op) (c : RGB) (hm : ∀ j < 32, j < 24 → op.mask.getLsbD j = false) :
    rgbHeader op c &&& op.mask = op.pattern := by
  have h := field_masked op (c.r ++ c.g ++ c.b) hm
  rw [← h]
  unfold rgbHeader
  congr 2
  apply BitVec.eq_of_getLsbD_eq
  intro j hj
  simp only [BitVec.getLsbD_append, BitVec.getLsbD_setWidth, hj, decide_true, Bool.true_and]
  by_cases h1 : j < 8
  · simp [h1]
  · by_cases h2 : j - 8 < 8
    · simp [h1, h2]
    · by_cases h3 : j - 8 - 8 < 8
      · simp [h1, h2, h3]
      · simp [h1, h2, h3]
        rw [BitVec.getLsbD_of_ge c.r _ (by omega)]

theorem Header.nop : Header.Statement .nop := fun _ => ⟨_, [], rfl, pattern_masked .nop, rfl⟩

theorem Header.wrcsr (csr : Byte) (v : Word) : Header.Statement (.wrcsr csr v) :=
  fun _ => ⟨_, [v], rfl, field_masked .wrcsr csr (by decide), rfl⟩

theorem Header.rdcsr (csr : Byte) : Header.Statement (.rdcsr csr) :=
  fun _ => ⟨_, [], rfl, field_masked .rdcsr csr (by decide), rfl⟩

theorem Header.clrstat (m : BitVec 3) : Header.Statement (.clrstat m) :=
  fun _ => ⟨_, [], rfl, field_masked .clrstat m (by decide), rfl⟩

theorem Header.palLoad (mono : Bool) (es : List PalSpec) : Header.Statement (.palLoad mono es) := by
  intro hw
  have hl : es.length ≤ 65535 := of_decide_eq_true hw
  refine ⟨_, es.flatMap encodeEntry, rfl, field_masked (.palLoad) _ (by decide), ?_⟩
  have hc : ((Op.palLoad.pattern ||| (BitVec.ofBool mono ++ BitVec.ofNat 16 es.length).setWidth 32).extractLsb' 0 16) =
      BitVec.ofNat 16 es.length := by
    apply BitVec.eq_of_getLsbD_eq
    intro j hj
    have hp : (Op.palLoad.pattern).getLsbD j = false := by revert j; decide
    simp only [BitVec.getLsbD_extractLsb', hj, decide_true, Bool.true_and, Nat.zero_add, BitVec.getLsbD_or, hp,
      Bool.false_or, BitVec.getLsbD_setWidth, BitVec.getLsbD_append, if_true]
    simp [show j < 32 by omega, hj]
  show _ = 2 * _
  rw [hc, BitVec.toNat_ofNat, Nat.mod_eq_of_lt (by omega)]
  clear hc hl hw
  induction es with
  | nil => rfl
  | cons e es ih =>
    rw [List.flatMap_cons, List.length_append, ih]
    simp only [encodeEntry, List.length_cons, List.length_nil]; omega

theorem Header.nearLab (c : Lab) : Header.Statement (.nearLab c) := fun _ => ⟨_, _, rfl, pattern_masked .nearLab, rfl⟩

theorem Header.nearRgb (c : RGB) : Header.Statement (.nearRgb c) :=
  fun _ => ⟨_, [], rfl, rgb_masked .nearRgb c (by decide), rfl⟩

theorem Header.torgb (b : Byte) : Header.Statement (.torgb b) :=
  fun _ => ⟨_, [], rfl, field_masked .torgb b (by decide), rfl⟩

theorem Header.tolab (b : Byte) : Header.Statement (.tolab b) :=
  fun _ => ⟨_, [], rfl, field_masked .tolab b (by decide), rfl⟩

theorem Header.indexof (b : Byte) : Header.Statement (.indexof b) :=
  fun _ => ⟨_, [], rfl, field_masked .indexof b (by decide), rfl⟩

theorem Header.normRgb (pb pw : Bool) : Header.Statement (.normRgb pb pw) :=
  fun _ => ⟨_, [], rfl, field_masked (.normRgb) _ (by decide), rfl⟩

theorem Header.normLab (pb pw : Bool) : Header.Statement (.normLab pb pw) :=
  fun _ => ⟨_, [], rfl, field_masked (.normLab) _ (by decide), rfl⟩

theorem Header.surfCfg (f : Fmt) (w h : Half) (p : Word) : Header.Statement (.surfCfg f w h p) :=
  fun _ => ⟨_, _, rfl, field_masked .surfCfg f.code (by decide), rfl⟩

theorem Header.setidx (x y : Half) (v : Byte) : Header.Statement (.setidx x y v) :=
  fun _ => ⟨_, _, rfl, field_masked .setidx v (by decide), rfl⟩

theorem Header.getidx (x y : Half) : Header.Statement (.getidx x y) := fun _ => ⟨_, _, rfl, pattern_masked .getidx, rfl⟩

theorem Header.flush : Header.Statement .flush := fun _ => ⟨_, [], rfl, pattern_masked .flush, rfl⟩

theorem Header.rdfb (a : BitVec 24) : Header.Statement (.rdfb a) :=
  fun _ => ⟨_, [], rfl, field_masked .rdfb a (by decide), rfl⟩

theorem Header.setpix (x y : Half) (c : RGB) : Header.Statement (.setpix x y c) :=
  fun _ => ⟨_, _, rfl, rgb_masked .setpix c (by decide), rfl⟩

theorem Header.diffReset : Header.Statement .diffReset := fun _ => ⟨_, [], rfl, pattern_masked .diffReset, rfl⟩

theorem Header.rdrow (sel : Bool) (x : Half) : Header.Statement (.rdrow sel x) :=
  fun _ => ⟨_, [], rfl, field_masked (.rdrow) _ (by decide), rfl⟩

theorem Header.decRgb565 (w h : Half) : Header.Statement (.decRgb565 w h) :=
  fun _ => ⟨_, _, rfl, pattern_masked .decRgb565, rfl⟩

theorem Header.decYuyv (w h : Half) : Header.Statement (.decYuyv w h) :=
  fun _ => ⟨_, _, rfl, pattern_masked .decYuyv, rfl⟩

theorem Header.decYuyvh (w h : Half) : Header.Statement (.decYuyvh w h) :=
  fun _ => ⟨_, _, rfl, pattern_masked .decYuyvh, rfl⟩

theorem Header.decYuv3l (w h : Half) : Header.Statement (.decYuv3l w h) :=
  fun _ => ⟨_, _, rfl, pattern_masked .decYuv3l, rfl⟩

theorem Header.decJpeg (w h : Half) : Header.Statement (.decJpeg w h) :=
  fun _ => ⟨_, _, rfl, pattern_masked .decJpeg, rfl⟩

end Laws

end Sys2Proof
end

