-- ==== Sys2Proof/Laws/Sticky.lean ====
section
/-!
SUPPORT. The sticky flags `NOTFOUND` and `SAT` only grow under the operations of the quantizing view and the decoders
(spec/10_state.md R42), and no byte beyond the surface changes (R81, R91).
-/

namespace Sys2Proof.Machine

/-- The sticky flags of the search and of saturation are at least those of `s`. -/
def FlagsGrow (s t : State) : Prop := (s.notfound = true → t.notfound = true) ∧ (s.sat = true → t.sat = true)

theorem flagsGrow_refl (s : State) : FlagsGrow s s := ⟨id, id⟩

theorem flagsGrow_of_eq {s t u : State} (h : FlagsGrow s t) (hn : u.notfound = t.notfound) (hs : u.sat = t.sat) :
    FlagsGrow s u := ⟨fun x => by rw [hn]; exact h.1 x, fun x => by rw [hs]; exact h.2 x⟩

theorem flagsGrow_noteSat {s t : State} (b : Bool) (h : FlagsGrow s t) : FlagsGrow s (t.noteSat b) :=
  ⟨h.1, fun x => by simp [h.2 x]⟩

theorem flagsGrow_nearestFlags {s t : State} (c : Lab) (h : FlagsGrow s t) : FlagsGrow s (t.nearestFlags c) := by
  unfold State.nearestFlags
  split
  · exact ⟨fun _ => rfl, h.2⟩
  · exact flagsGrow_noteSat _ h

theorem flagsGrow_surfSet {s t : State} (x y : Nat) (v : Byte) (h : FlagsGrow s t) : FlagsGrow s (t.surfSet x y v) :=
  flagsGrow_of_eq h (by simp) (by simp)

theorem flagsGrow_diffuse {s t : State} (x y : Nat) (e : Err3) (h : FlagsGrow s t) : FlagsGrow s (t.diffuse x y e) := by
  have hadd : ∀ (p : Bool) (x : Nat) (k : Int) (t : State), FlagsGrow s t →
      FlagsGrow s (t.onlyIf p (State.addThis x e k)) ∧ FlagsGrow s (t.onlyIf p (State.addNext x e k)) := by
    intro p x k t h
    unfold State.onlyIf
    cases p
    · exact ⟨h, h⟩
    · exact ⟨flagsGrow_noteSat _ h, flagsGrow_noteSat _ h⟩
  unfold State.diffuse
  exact (hadd _ _ _ _ (hadd _ _ _ _ (hadd _ _ _ _ (hadd _ _ _ _ h).1).2).2).2

theorem flagsGrow_rowMgmt {s t : State} (y : Nat) (h : FlagsGrow s t) : FlagsGrow s (t.rowMgmt y) :=
  flagsGrow_of_eq h (by simp) (by simp)

theorem flagsGrow_progress {s t : State} (r n : Nat) (h : FlagsGrow s t) : FlagsGrow s (t.progress r n) :=
  flagsGrow_of_eq h (by simp) (by simp)

theorem flagsGrow_viewSet {s t : State} (x y : Nat) (c : RGB) (h : FlagsGrow s t) : FlagsGrow s (t.viewSet x y c) :=
  viewSet_keeps (P := FlagsGrow s) (fun c _ h => flagsGrow_nearestFlags c h) (fun b _ h => flagsGrow_noteSat b h)
    (fun v _ h => flagsGrow_surfSet x y v h) (fun _ h => flagsGrow_rowMgmt y h)
    (fun e _ h => flagsGrow_diffuse x y e h) c t h

/-- Beyond the surface of `s` the memories of `t` are those of `s`, and the surface is the same. -/
def SameBeyond (s t : State) : Prop :=
  t.surfBytes = s.surfBytes ∧ ∀ a, s.surfBytes ≤ a → t.memRead a = s.memRead a ∧ t.sinkByte a = s.sinkByte a

theorem sameBeyond_refl (s : State) : SameBeyond s s := ⟨rfl, fun _ _ => ⟨rfl, rfl⟩⟩

theorem sameBeyond_of_eq {s t u : State} (h : SameBeyond s t) (hs : u.surfBytes = t.surfBytes) (hf : u.fb = t.fb)
    (hc : u.fbc = t.fbc) : SameBeyond s u := by
  refine ⟨hs.trans h.1, fun a ha => ?_⟩
  have := h.2 a ha
  unfold State.memRead State.sinkByte at *
  rw [hf, hc]; exact this

theorem sameBeyond_surfSet {s t : State} (x y : Nat) (v : Byte) (h : SameBeyond s t) :
    SameBeyond s (t.surfSet x y v) := by
  cases hi : t.inside x y with
  | false => rw [surfSet_outside v hi]; exact h
  | true =>
    refine ⟨by simpa using h.1, fun a ha => ?_⟩
    have hp := pixelAddr_lt hi
    have hle := planeBytes_le t
    have h1 : a ≠ t.pixelAddr x y := by have := h.1; omega
    have h2 : t.fmt = .plane2 → a ≠ t.pixelAddr x y + t.planeBytes := by
      intro hf; have := surfBytes_plane2 hf; have := h.1; omega
    rw [memRead_surfSet_of_ne v h1 h2, sinkByte_surfSet_of_ne v h1 h2]
    exact h.2 a ha

theorem sameBeyond_viewSet {s t : State} (x y : Nat) (c : RGB) (h : SameBeyond s t) : SameBeyond s (t.viewSet x y c) :=
  viewSet_keeps (P := SameBeyond s) (fun c u h => sameBeyond_of_eq h (by simp) (by simp) (by simp))
    (fun b u h => sameBeyond_of_eq h (by simp) (by simp) (by simp)) (fun v _ h => sameBeyond_surfSet x y v h)
    (fun u h => sameBeyond_of_eq h (by simp) (by simp) (by simp))
    (fun e u h => sameBeyond_of_eq h (by simp) (by simp) (by simp)) c t h

end Sys2Proof.Machine
end

