-- ==== Sys2Proof/Laws/Quantize.lean ====
section
/-!
SUPPORT. The specifications of `ROWMGMT`, `ADD3` and `DIFFUSE` (spec/43_quantize.md R241, R244) in the terms of
Sys2Proof/Safety.lean.
-/

namespace Sys2Proof.Machine

/-- What a pixel write does to the memories depends on the memories, the surface and the free choices alone. -/
theorem surfSet_congr {s t : State} (hb : t.fb = s.fb) (hc : t.fbc = s.fbc) (hn : t.choices = s.choices)
    (hf : t.fmt = s.fmt) (hw : t.surfW = s.surfW) (hh : t.surfH = s.surfH) (hp : t.plut = s.plut) (x y : Nat)
    (v : Byte) :
    (t.surfSet x y v).fb = (s.surfSet x y v).fb ∧ (t.surfSet x y v).fbc = (s.surfSet x y v).fbc ∧
      (t.surfSet x y v).choices = (s.surfSet x y v).choices := by
  have hi : t.inside x y = s.inside x y := by unfold State.inside; rw [hw, hh]
  have ha : t.pixelAddr x y = s.pixelAddr x y := by unfold State.pixelAddr State.stride; rw [hf, hw]
  have hb' : t.planeBytes = s.planeBytes := by unfold State.planeBytes; rw [hf, hw, hh]
  have hm : ∀ a, t.memRead a = s.memRead a := by intro a; unfold State.memRead; rw [hb]
  have hwr : ∀ (a : Nat) (v : Byte) (s t : State), t.fb = s.fb → t.fbc = s.fbc → t.choices = s.choices →
      (t.memWrite a v).fb = (s.memWrite a v).fb ∧ (t.memWrite a v).fbc = (s.memWrite a v).fbc ∧
        (t.memWrite a v).choices = (s.memWrite a v).choices := by
    intro a v s t h1 h2 h3
    simp only [State.memWrite, State.maybeCommit, State.memRead, h1, h2, h3, and_self]
  unfold State.surfSet
  dsimp only
  rw [hi, ha, hb', hf, hp]
  split
  · split
    · exact hwr _ _ _ _ hb hc hn
    · rw [hm]; exact hwr _ _ _ _ hb hc hn
    · split
      · exact ⟨hb, hc, hn⟩
      · rw [hm]
        rename_i k _
        obtain ⟨h1, h2, h3⟩ := hwr (s.pixelAddr x y) (setPlaneBit x (s.memRead (s.pixelAddr x y)) (k % 2 == 1))
          _ _ hb hc hn
        have hm' : (t.memWrite (s.pixelAddr x y)
            (setPlaneBit x (s.memRead (s.pixelAddr x y)) (k % 2 == 1))).memRead (s.pixelAddr x y + s.planeBytes) =
            (s.memWrite (s.pixelAddr x y)
            (setPlaneBit x (s.memRead (s.pixelAddr x y)) (k % 2 == 1))).memRead (s.pixelAddr x y + s.planeBytes) := by
          unfold State.memRead at h1 ⊢; rw [h1]
        rw [hm']
        exact hwr _ _ _ _ h1 h2 h3
  · exact ⟨hb, hc, hn⟩

/-- `ADD3` (R244). -/
theorem cellAdded_add3 (old err : Err3) (k : Int) : CellAdded old err k (add3 old err k) := holdsTriple_sat32Triple _ _ _

theorem add3Saturates_iff (old err : Err3) (k : Int) : add3Saturates old err k = true ↔ CellClamps old err k :=
  saturatesTriple_iff _ _ _

/-- One conditional `ADD3` into `THIS` (R244): which cell, which flag. -/
theorem onlyIf_addThis_spec (p : Bool) (x : Nat) (err : Err3) (k : Int) {s : State} (hw : s.thisRow.wf = true) :
    (s.onlyIf p (State.addThis x err k)).thisRow.wf = true ∧
    (s.onlyIf p (State.addThis x err k)).nextRow = s.nextRow ∧
    (p = true → CellAdded (s.thisRow.entry x) err k ((s.onlyIf p (State.addThis x err k)).thisRow.entry x)) ∧
    (∀ j, ¬ (p = true ∧ j = x) → (s.onlyIf p (State.addThis x err k)).thisRow.entry j = s.thisRow.entry j) ∧
    ((s.onlyIf p (State.addThis x err k)).sat = true ↔
      s.sat = true ∨ p = true ∧ CellClamps (s.thisRow.entry x) err k) := by
  unfold State.onlyIf
  cases p
  · simp [hw]
  · simp only [if_true, true_and, forall_const]
    refine ⟨rowWf_setEntry _ hw, rfl, ?_, ?_, ?_⟩
    · show CellAdded _ _ _ (Row.entry (Row.setEntry _ _ _) x)
      rw [entry_setEntry_self _ hw]
      exact cellAdded_add3 _ _ _
    · intro j hj
      exact entry_setEntry_of_ne hj _ _
    · rw [← add3Saturates_iff]
      show (s.sat || add3Saturates _ _ _) = true ↔ _
      rw [Bool.or_eq_true]

/-- One conditional `ADD3` into `NEXT` (R244). -/
theorem onlyIf_addNext_spec (p : Bool) (x : Nat) (err : Err3) (k : Int) {s : State} (hw : s.nextRow.wf = true) :
    (s.onlyIf p (State.addNext x err k)).nextRow.wf = true ∧
    (s.onlyIf p (State.addNext x err k)).thisRow = s.thisRow ∧
    (p = true → CellAdded (s.nextRow.entry x) err k ((s.onlyIf p (State.addNext x err k)).nextRow.entry x)) ∧
    (∀ j, ¬ (p = true ∧ j = x) → (s.onlyIf p (State.addNext x err k)).nextRow.entry j = s.nextRow.entry j) ∧
    ((s.onlyIf p (State.addNext x err k)).sat = true ↔
      s.sat = true ∨ p = true ∧ CellClamps (s.nextRow.entry x) err k) := by
  unfold State.onlyIf
  cases p
  · simp [hw]
  · simp only [if_true, true_and, forall_const]
    refine ⟨rowWf_setEntry _ hw, rfl, ?_, ?_, ?_⟩
    · show CellAdded _ _ _ (Row.entry (Row.setEntry _ _ _) x)
      rw [entry_setEntry_self _ hw]
      exact cellAdded_add3 _ _ _
    · intro j hj
      exact entry_setEntry_of_ne hj _ _
    · rw [← add3Saturates_iff]
      show (s.sat || add3Saturates _ _ _) = true ↔ _
      rw [Bool.or_eq_true]

/-- Everything `DIFFUSE` does (R244). -/
theorem diffuse_spec (x y : Nat) (err : Err3) {s : State} (ht : s.thisRow.wf = true) (hn : s.nextRow.wf = true) :
    Diffused s.surfW.toNat s.surfH.toNat x y err s.thisRow s.nextRow (s.diffuse x y err).thisRow
      (s.diffuse x y err).nextRow ∧
    ((s.diffuse x y err).sat = true ↔
      s.sat = true ∨ DiffusionClamps s.surfW.toNat s.surfH.toNat x y err s.thisRow s.nextRow) := by
  unfold State.diffuse
  dsimp only
  obtain ⟨a1, a2, a3, a4, a5⟩ := onlyIf_addThis_spec (decide (x + 1 < s.surfW.toNat)) (x + 1) err 7 ht
  generalize s.onlyIf (decide (x + 1 < s.surfW.toNat)) (State.addThis (x + 1) err 7) = t1 at *
  obtain ⟨b1, b2, b3, b4, b5⟩ := onlyIf_addNext_spec (s := t1)
    (decide (y + 1 < s.surfH.toNat) && decide (x + 1 < s.surfW.toNat)) (x + 1) err 1 (by rw [a2]; exact hn)
  generalize t1.onlyIf (decide (y + 1 < s.surfH.toNat) && decide (x + 1 < s.surfW.toNat))
    (State.addNext (x + 1) err 1) = t2 at *
  obtain ⟨c1, c2, c3, c4, c5⟩ := onlyIf_addNext_spec (s := t2)
    (decide (y + 1 < s.surfH.toNat) && decide (1 ≤ x)) (x - 1) err 3 b1
  generalize t2.onlyIf (decide (y + 1 < s.surfH.toNat) && decide (1 ≤ x)) (State.addNext (x - 1) err 3) = t3 at *
  obtain ⟨d1, d2, d3, d4, d5⟩ := onlyIf_addNext_spec (s := t3) (decide (y + 1 < s.surfH.toNat)) x err 5 c1
  generalize t3.onlyIf (decide (y + 1 < s.surfH.toNat)) (State.addNext x err 5) = t4 at *
  have e1 : t4.thisRow = t1.thisRow := d2.trans (c2.trans b2)
  simp only [Bool.and_eq_true, decide_eq_true_eq] at *
  refine ⟨⟨?_, ?_, ?_, ?_, ?_, ?_⟩, ?_⟩
  · rintro j rfl hj; rw [e1]; exact a3 hj
  · intro j hj; rw [e1]; exact a4 j (by rintro ⟨h1, h2⟩; exact hj ⟨h2, by omega⟩)
  · rintro j rfl hj hy
    rw [d4 _ (by omega), c4 _ (by omega), ← a2]
    exact b3 ⟨hy, hj⟩
  · intro j hj hy
    rw [d4 _ (by omega), ← a2, ← b4 j (by omega)]
    have : j = x - 1 := by omega
    subst this
    exact c3 ⟨hy, by omega⟩
  · rintro j rfl hy
    rw [← a2, ← b4 j (by omega), ← c4 j (by omega)]
    exact d3 hy
  · intro j hj
    rw [d4 j (by rintro ⟨h1, h2⟩; exact hj ⟨h1, .inr (.inr h2)⟩),
      c4 j (by rintro ⟨⟨h1, h2⟩, h3⟩; exact hj ⟨h1, .inr (.inl (by omega))⟩),
      b4 j (by rintro ⟨⟨h1, h2⟩, h3⟩; exact hj ⟨h1, .inl ⟨h3, by omega⟩⟩), a2]
  · unfold DiffusionClamps
    rw [d5, c5, b5, a5, a2]
    have n1 : t2.nextRow.entry (x - 1) = s.nextRow.entry (x - 1) := by
      rw [b4 _ (by omega), a2]
    constructor
    · rintro ((((h | h) | h) | h) | h)
      · exact .inl h
      · exact .inr (.inl h)
      · exact .inr (.inr (.inl ⟨h.1.1, h.1.2, h.2⟩))
      · exact .inr (.inr (.inr (.inl ⟨h.1.1, h.1.2, by rw [← n1]; exact h.2⟩)))
      · refine .inr (.inr (.inr (.inr ⟨h.1, ?_⟩)))
        rw [← a2, ← b4 x (by omega), ← c4 x (by omega)]; exact h.2
    · rintro (h | h | h | h | h)
      · exact .inl (.inl (.inl (.inl h)))
      · exact .inl (.inl (.inl (.inr h)))
      · exact .inl (.inl (.inr ⟨⟨h.1, h.2.1⟩, h.2.2⟩))
      · exact .inl (.inr ⟨⟨h.1, h.2.1⟩, by rw [n1]; exact h.2.2⟩)
      · refine .inr ⟨h.1, ?_⟩
        rw [c4 x (by omega), b4 x (by omega), a2]; exact h.2

/-- Outside the surface, and in `DIRECT` mode, `SETPIX` finds the row buffers as they are. -/
theorem openRows_eq_self {x y : Nat} {s : State} (h : s.inside x y = false ∨ s.qmode = .direct) : s.openRows x y = s := by
  unfold State.openRows
  rcases h with h | h <;> simp [h]

/-- What `SETPIX` finds in the row buffers where it sets a pixel in a diffusion mode: the diffusion state as it is, or, when
a decode has left it, an invalid one (R246; log entry 25). -/
theorem openRows_spec {x y : Nat} {s : State} (hi : s.inside x y = true) (hm : s.qmode ≠ .direct) :
    s.openRows x y = { (if s.rowsOfDecode then s.invalidate else s) with rowsOfDecode := false } := by
  unfold State.openRows
  cases hr : s.rowsOfDecode with
  | false => rw [if_neg (by simp), if_neg (by simp), ← hr]
  | true => rw [if_pos (by simp [hi, hm]), if_pos rfl]

/-- Everything `ROWMGMT` does (R241). -/
theorem rowMgmt_spec {y : Nat} {s : State} (ht : s.thisRow.wf = true) (hn : s.nextRow.wf = true) :
    RowsManaged s y (s.rowMgmt y).thisRow (s.rowMgmt y).nextRow ∧ (s.rowMgmt y).thisRow.wf = true ∧
      (s.rowMgmt y).nextRow.wf = true ∧
      s.rowMgmt y = { s with
        curValid := true, curRow := BitVec.ofNat 16 y, thisRow := (s.rowMgmt y).thisRow
        nextRow := (s.rowMgmt y).nextRow } := by
  unfold State.rowMgmt
  dsimp only
  split
  next h =>
    simp only [Bool.and_eq_true, beq_iff_eq] at h
    refine ⟨⟨fun x _ => ⟨rfl, rfl⟩, fun x _ => ⟨fun _ _ => ⟨rfl, rfl⟩, fun _ h2 => ?_, fun h2 => ?_⟩⟩, ht, hn, ?_⟩
    · omega
    · rcases h2 with h2 | h2
      · rw [h.1] at h2; cases h2
      · omega
    · have : BitVec.ofNat 16 y = s.curRow := by rw [h.2]; simp
      rw [this, ← h.1]
  next h =>
    split
    next h' =>
      simp only [Bool.and_eq_true, beq_iff_eq] at h'
      refine ⟨⟨fun x hx => ?_, fun x hx => ⟨fun _ h2 => ?_, fun _ h2 => ?_, fun h2 => ?_⟩⟩, sparseWf_copy hn ht,
        sparseWf_clear hn, ?_⟩
      · dsimp only
        rw [entry_copy, entry_clear, if_neg (by omega), if_neg (by omega)]; exact ⟨rfl, rfl⟩
      · omega
      · dsimp only
        rw [entry_copy, entry_clear, if_pos hx, if_pos hx]; exact ⟨rfl, rfl⟩
      · rcases h2 with h2 | h2
        · rw [h'.1] at h2; cases h2
        · omega
      · rw [← h'.1]
    next h' =>
      simp only [Bool.and_eq_true, beq_iff_eq] at h h'
      refine ⟨⟨fun x hx => ?_, fun x hx => ⟨fun h1 h2 => absurd ⟨h1, h2⟩ h, fun h1 h2 => absurd ⟨h1, h2⟩ h', fun _ => ?_⟩⟩,
        sparseWf_clear ht, sparseWf_clear hn, rfl⟩
      · dsimp only
        rw [entry_clear, entry_clear, if_neg (by omega), if_neg (by omega)]; exact ⟨rfl, rfl⟩
      dsimp only
      rw [entry_clear, entry_clear, if_pos hx, if_pos hx]; exact ⟨rfl, rfl⟩

/-- Once `SETPIX` has used the row buffers they are no decode's any more. -/
theorem openRows_mark {x y : Nat} {s : State} (hi : s.inside x y = true) (hm : s.qmode ≠ .direct) :
    (s.openRows x y).rowsOfDecode = false := by
  rw [openRows_spec hi hm]

/-- The rows that `ROWMGMT` makes of what `SETPIX` finds are those that the statements speak of. -/
theorem rowsForSetpix_of_openRows {x y : Nat} {s : State} {this1 next1 : Row} (hi : s.inside x y = true)
    (hm : s.qmode ≠ .direct) (h : RowsManaged (s.openRows x y) y this1 next1) : RowsForSetpix s y this1 next1 := by
  rw [openRows_spec hi hm] at h
  constructor <;> intro hr
  · rw [if_neg (by simp [hr])] at h; exact h
  · rw [if_pos hr] at h; exact h

end Sys2Proof.Machine
end

