-- ==== Sys2Proof/Machine/Asm.lean ====
section
/-!
DEFINITION. The assembler syntax of spec/30_encoding.md R130 and R131, from a line already cut into its mnemonic and
its operands to the command it spells. A mnemonic that is none, a wrong number of operands or one out of its field's
range gives nothing. The syntax spells command words and nothing more (spec/00_scope.md R8): no step depends on it.
-/

namespace Sys2Proof.Machine

/-- One operand of a line: a number, a decimal number after a minus sign, a real written with a point, or a name. -/
inductive Atom where
  | num (n : Nat)
  | minus (n : Nat)
  | real (negative : Bool) (v : AsmReal)
  | name (s : String)
deriving DecidableEq, Repr

/-- An operand, or an entry of `PAL_LOAD` in parentheses. -/
inductive Operand where
  | atom (a : Atom)
  | entry (name index r g b : Atom)
deriving DecidableEq, Repr

/-- A line of the assembler, cut into its parts. -/
structure Line where
  mnemonic : String
  operands : List Operand
deriving DecidableEq, Repr

/-- The CSR names of R40. -/
def csrNames : List (String × Nat) :=
  [("ID", 0x00), ("STATUS", 0x01), ("CMDCNT", 0x02), ("CTRL", 0x03), ("ACC", 0x04), ("SURFDIM", 0x05),
   ("SURFFMT", 0x06), ("PLUT", 0x07), ("PALINFO", 0x08), ("DIFFROW", 0x09), ("CAP0", 0x0A), ("CAP1", 0x0B),
   ("CAP2", 0x0C), ("R0", 0x10), ("R1", 0x11), ("R2", 0x12), ("R3", 0x13)]

/-- The format names of R131. -/
def fmtNames : List (String × Nat) := [("DENSE8", 0), ("PACK4", 1), ("PLANE2", 2)]

/-- The mode names of R131. -/
def modeNames : List (String × Nat) := [("DIRECT", 0), ("LAB", 1), ("RGB", 2)]

/-- The name codes of R131. -/
def colourNames : List (String × Nat) := [("BLACK", 0x00), ("WHITE", 0x01), ("CLEAN", 0xFE)]

/-- An unsigned operand of `n` bits, written as a number or as one of some names. -/
def Atom.bits (names : List (String × Nat)) (n : Nat) : Atom → Option (BitVec n)
  | .num v => if v < 2 ^ n then some (BitVec.ofNat n v) else none
  | .name s => (names.lookup s).map (BitVec.ofNat n)
  | .minus _ | .real _ _ => none

/-- A flag operand, 0 or 1. -/
def Atom.flag (a : Atom) : Option Bool := (a.bits [] 1).map (fun b => b == 1#1)

/-- A LabNum operand: a word, a negative number of LabNum units, or a decimal real inside the range of a LabNum
(R12, R130). -/
def Atom.lab : Atom → Option LabNum
  | .num v => Atom.bits [] 32 (.num v)
  | .minus v => if v ≤ 2 ^ 31 then some (BitVec.ofInt 32 (-(v : Int))) else none
  | .real negative v =>
    if v.q16 negative < 2 ^ 31 ∨ negative = true ∧ v.q16 true = 2 ^ 31 then some (labLiteral negative v) else none
  | .name _ => none

/-- The operand of `SETACC`: a real from 0 to 1 (R132). -/
def Atom.unitReal : Atom → Option AsmReal
  | .num n => if n ≤ 1 then some ⟨n, 1⟩ else none
  | .real false v => if v.num ≤ v.den ∧ 0 < v.den then some v else none
  | .minus _ | .real true _ | .name _ => none

/-- A colour written as three operands. -/
def rgbOperand (r g b : Atom) : Option RGB :=
  match r.bits [] 8, g.bits [] 8, b.bits [] 8 with
  | some r, some g, some b => some ⟨r, g, b⟩
  | _, _, _ => none

/-- A pair of 16-bit operands: a coordinate or a size. -/
def halves (x y : Atom) : Option (Half × Half) :=
  match x.bits [] 16, y.bits [] 16 with
  | some x, some y => some (x, y)
  | _, _ => none

/-- The format an operand names (R131). -/
def Atom.fmt (a : Atom) : Option Fmt :=
  match (a.bits fmtNames 2).map BitVec.toNat with
  | some 0 => some .dense8
  | some 1 => some .pack4
  | some 2 => some .plane2
  | _ => none

/-- The entries of a `PAL_LOAD` line (R130). -/
def entryOperands : List Operand → Option (List PalSpec)
  | [] => some []
  | .entry n i r g b :: more =>
    match n.bits colourNames 8, i.bits [] 8, rgbOperand r g b, entryOperands more with
    | some n, some i, some c, some es => some (⟨n, i, c⟩ :: es)
    | _, _, _, _ => none
  | .atom _ :: _ => none

/-- The commands of a size word, by mnemonic. -/
def decodeMnemonic : String → Option (Half → Half → Instr)
  | "DEC_RGB565" => some .decRgb565
  | "DEC_YUYV" => some .decYuyv
  | "DEC_YUYVH" => some .decYuyvh
  | "DEC_YUV3L" => some .decYuv3l
  | "DEC_JPEG" => some .decJpeg
  | _ => none

/-- The command a line spells (R130); the pseudo-instructions of R132 but `DERIVE` among them. -/
def assembleLine (l : Line) : Option Instr :=
  match l.mnemonic, l.operands with
  | "NOP", [] => some .nop
  | "WRCSR", [.atom c, .atom v] =>
    match c.bits csrNames 8, v.bits [] 32 with
    | some c, some v => some (.wrcsr c v)
    | _, _ => none
  | "RDCSR", [.atom c] => (c.bits csrNames 8).map .rdcsr
  | "CLRSTAT", [.atom m] => (m.bits [] 3).map .clrstat
  | "PAL_LOAD", .atom m :: es =>
    match m.flag, entryOperands es with
    | some m, some es => some (.palLoad m es)
    | _, _ => none
  | "NEAR_LAB", [.atom l, .atom a, .atom b] =>
    match l.lab, a.lab, b.lab with
    | some l, some a, some b => some (.nearLab ⟨l, a, b⟩)
    | _, _, _ => none
  | "NEAR_RGB", [.atom r, .atom g, .atom b] => (rgbOperand r g b).map .nearRgb
  | "TORGB", [.atom i] => (i.bits [] 8).map .torgb
  | "TOLAB", [.atom i] => (i.bits [] 8).map .tolab
  | "INDEXOF", [.atom n] => (n.bits colourNames 8).map .indexof
  | "NORM_RGB", [.atom b, .atom w] =>
    match b.flag, w.flag with
    | some b, some w => some (.normRgb b w)
    | _, _ => none
  | "NORM_LAB", [.atom b, .atom w] =>
    match b.flag, w.flag with
    | some b, some w => some (.normLab b w)
    | _, _ => none
  | "SURF_CFG", [.atom f, .atom w, .atom h, .atom p] =>
    match f.fmt, halves w h, p.bits [] 32 with
    | some f, some (w, h), some p => some (.surfCfg f w h p)
    | _, _, _ => none
  | "SETIDX", [.atom x, .atom y, .atom v] =>
    match halves x y, v.bits [] 8 with
    | some (x, y), some v => some (.setidx x y v)
    | _, _ => none
  | "GETIDX", [.atom x, .atom y] => (halves x y).map (fun c => .getidx c.1 c.2)
  | "FLUSH", [] => some .flush
  | "RDFB", [.atom a] => (a.bits [] 24).map .rdfb
  | "SETPIX", [.atom x, .atom y, .atom r, .atom g, .atom b] =>
    match halves x y, rgbOperand r g b with
    | some (x, y), some c => some (.setpix x y c)
    | _, _ => none
  | "DIFF_RESET", [] => some .diffReset
  | "RDROW", [.atom s, .atom x] =>
    match s.flag, x.bits [] 16 with
    | some s, some x => some (.rdrow s x)
    | _, _ => none
  | "RDRES", [.atom i] => (i.bits [] 2).map (fun i => rdres ⟨i.toNat, i.isLt⟩)
  | "SETMODE", [.atom q, .atom p, .atom s, .atom v] =>
    match q.bits modeNames 2, p.flag, s.flag, v.flag with
    | some q, some p, some s, some v => some (setmode q p s v)
    | _, _, _, _ => none
  | "SETACC", [.atom v] => v.unitReal.map setacc
  | m, [.atom w, .atom h] =>
    match decodeMnemonic m, halves w h with
    | some f, some (w, h) => some (f w h)
    | _, _ => none
  | _, _ => none

/-- The words a line assembles to (R130); a `PAL_LOAD` with more entries than its count field holds has none. -/
def assemble (l : Line) : Option (List Word) :=
  match assembleLine l with
  | some i => if i.wellFormed then some (encode i) else none
  | none => none

end Sys2Proof.Machine
end

