-- ==== Sys2Proof/Tests/Slice0.lean ====
section
/-!
SUPPORT. Tests: the well-formedness checks, one word written out from spec/30_encoding.md R111, R112 and R120 for every
constructor, and single steps whose expected results are those of spec/95_test_vectors.md (the vector is named). The witnesses
of the statements' hypotheses are in Sys2Proof/Tests/Witnesses.lean.
-/

namespace Sys2Proof.Tests
open Sys2Proof.Machine

/-- What the next state of an outcome shows; none for a fault or a refusal. -/
def shows {α : Type} (r : Result) (f : State → α) : Option α :=
  match r with
  | .next t => some (f t)
  | _ => none

/-- An engine right after reset with some words in `CMDQ`. -/
def withWords (ws : List Word) : State := { State.reset with cmdq := ws }

/-- The colours that the tests use, from T0 of spec/95_test_vectors.md. -/
def t0 : Params :=
  { Params.reference with
    rgb2lab := [(⟨0, 0, 0⟩, ⟨0, 0, 0⟩), (⟨255, 255, 255⟩, ⟨6553600, 0xFFFFFFFF, 0⟩),
      (⟨255, 0, 0⟩, ⟨3489189, 5248939, 4404229⟩), (⟨128, 128, 128⟩, ⟨3511748, 0xFFFFFFFF, 0⟩),
      (⟨200, 60, 60⟩, ⟨3064821, 3610160, 2118366⟩)]
    l2gray := [(0, 0), (6553600, 255)]
    yuv2rgb := [((100, 50, 200), ⟨0, 0, 0⟩), ((120, 50, 200), ⟨255, 255, 255⟩)] }

/-- The palette BW of spec/95_test_vectors.md. -/
def bw : List PalEntry := [⟨0, 0, ⟨0, 0, 0⟩, ⟨0, 0, 0⟩⟩, ⟨1, 1, ⟨255, 255, 255⟩, ⟨6553600, 0xFFFFFFFF, 0⟩⟩]

/-- The palette BWR of spec/95_test_vectors.md. -/
def bwr : List PalEntry := bw ++ [⟨4, 2, ⟨255, 0, 0⟩, ⟨3489189, 5248939, 4404229⟩⟩]

/-- An engine with a palette and a `DENSE8` surface of `w` by `h` pixels. -/
def screen (pal : List PalEntry) (w h : Half) : State :=
  { State.reset with params := t0, pal := pal, surfW := w, surfH := h }

/-! ### Well-formedness: an ill-formed term for the one check -/

theorem test_wellFormed_palLoad_count_refused :
    Instr.wellFormed (.palLoad false (List.replicate 65536 ⟨0, 0, ⟨0, 0, 0⟩⟩)) = false := by
  simp only [Instr.wellFormed, List.length_replicate]; decide

theorem test_wellFormed_palLoad_count_accepted :
    Instr.wellFormed (.palLoad false (List.replicate 65535 ⟨0, 0, ⟨0, 0, 0⟩⟩)) = true := by
  simp only [Instr.wellFormed, List.length_replicate]; decide

/-! ### Decoding: one word or more for each constructor, written out from R111, R112, R120 -/

theorem test_decode_nop : (decode [0x00000000]).toOption = some (.nop, []) := by decide
theorem test_decode_wrcsr : (decode [0x01000004, 0x00012345]).toOption = some (.wrcsr 0x04 0x12345, []) := by decide
theorem test_decode_rdcsr : (decode [0x020000FF]).toOption = some (.rdcsr 0xFF, []) := by decide
theorem test_decode_clrstat : (decode [0x03000005]).toOption = some (.clrstat 5, []) := by decide
theorem test_decode_palLoad : (decode [0x10010002, 0x00000405, 0x00FF0A01, 0x0000FE07, 0x00123456, 0xDEADBEEF]).toOption =
    some (.palLoad true [⟨0x04, 0x05, ⟨0xFF, 0x0A, 0x01⟩⟩, ⟨0xFE, 0x07, ⟨0x12, 0x34, 0x56⟩⟩], [0xDEADBEEF]) := by decide
theorem test_decode_nearLab : (decode [0x11000000, 0x00320000, 0x001E8480, 0xFFD23940]).toOption =
    some (.nearLab ⟨0x00320000, 0x001E8480, 0xFFD23940⟩, []) := by decide
theorem test_decode_nearRgb : (decode [0x120A141E]).toOption = some (.nearRgb ⟨10, 20, 30⟩, []) := by decide
theorem test_decode_torgb : (decode [0x13000009]).toOption = some (.torgb 9, []) := by decide
theorem test_decode_tolab : (decode [0x14000006]).toOption = some (.tolab 6, []) := by decide
theorem test_decode_indexof : (decode [0x150000FE]).toOption = some (.indexof 0xFE, []) := by decide
theorem test_decode_normRgb : (decode [0x16000001]).toOption = some (.normRgb true false, []) := by decide
theorem test_decode_normLab : (decode [0x17000002]).toOption = some (.normLab false true, []) := by decide
theorem test_decode_surfCfg : (decode [0x20000002, 0x0001000A, 0x07020103]).toOption =
    some (.surfCfg .plane2 10 1 0x07020103, []) := by decide
theorem test_decode_setidx : (decode [0x2100000A, 0x00010002]).toOption = some (.setidx 2 1 10, []) := by decide
theorem test_decode_getidx : (decode [0x22000000, 0x00010003]).toOption = some (.getidx 3 1, []) := by decide
theorem test_decode_flush : (decode [0x23000000]).toOption = some (.flush, []) := by decide
theorem test_decode_rdfb : (decode [0x24FEDCBA]).toOption = some (.rdfb 0xFEDCBA, []) := by decide
theorem test_decode_setpix : (decode [0x30C83C3C, 0x00010002]).toOption = some (.setpix 2 1 ⟨200, 60, 60⟩, []) := by decide
theorem test_decode_diffReset : (decode [0x31000000]).toOption = some (.diffReset, []) := by decide
theorem test_decode_rdrow : (decode [0x32010203]).toOption = some (.rdrow true 0x0203, []) := by decide
theorem test_decode_decRgb565 : (decode [0x40000000, 0x00020004]).toOption = some (.decRgb565 4 2, []) := by decide
theorem test_decode_decYuyv : (decode [0x41000000, 0x00010002]).toOption = some (.decYuyv 2 1, []) := by decide
theorem test_decode_decYuyvh : (decode [0x42000000, 0x00020004]).toOption = some (.decYuyvh 4 2, []) := by decide
theorem test_decode_decYuv3l : (decode [0x43000000, 0x00030002]).toOption = some (.decYuv3l 2 3, []) := by decide
theorem test_decode_decJpeg : (decode [0x44000000, 0x00080010]).toOption = some (.decJpeg 16 8, []) := by decide

/-- The illegal first words of V-SYS-5. -/
theorem test_decode_illegal :
    [0x00000001, 0x02000100, 0x03000008, 0x10020000, 0x11000001, 0x16000004, 0x20000003, 0x20000004, 0x21000100,
      0x22000001, 0x23000001, 0x31000001, 0x32020000, 0x44000001, 0x04000000, 0x18000000, 0x25000000, 0x33000000,
      0x45000000, 0xFFFFFFFF].all (fun h => match headerOp h with | .ok _ => false | .error _ => true) = true := by decide

/-- The illegal entry words of V-SYS-5: the command is consumed and the engine halts. -/
theorem test_step_illegal_entry :
    shows (step (withWords [0x10000001, 0x00010000, 0x00000000, 0x00000000])) (fun t => (t.halted, t.cmdcnt, t.cmdq)) =
      some (true, 0, [0x00000000]) := by decide

/-- The illegal word of V-SYS-4 halts and stays uncounted; the words after it stay queued. -/
theorem test_step_illegal_header :
    shows (step (withWords [0x05000000, 0x21000009, 0x00000001])) (fun t => (t.halted, t.cmdcnt, t.cmdq)) =
      some (true, 0, [0x21000009, 0x00000001]) := by decide

/-! ### System commands -/

/-- V-SYS-1. -/
theorem test_step_nop : shows (step (withWords [0x00000000])) (fun t => (t.cmdcnt, t.cmdq)) = some (1, []) := by decide
/-- V-SYS-2: `ACC` takes at most 65536. -/
theorem test_step_wrcsr_acc : shows (step (withWords [0x01000004, 0x00012345])) (fun t => (t.acc, t.err)) =
    some (0x00010000, .ok) := by decide
/-- V-SYS-3: `QMODE = 3` is refused. -/
theorem test_step_wrcsr_ctrl : shows (step (withWords [0x01000003, 0x00000003])) (fun t => (t.ctrl, t.statusWord)) =
    some (0, 0x00010008) := by decide
/-- V-SYS-1: the identity word. -/
theorem test_step_rdcsr_id : shows (step (withWords [0x02000000])) (·.rspq) = some [0x50514401] := by decide
/-- V-SYS-1: `CAP1`. -/
theorem test_step_rdcsr_cap1 : shows (step (withWords [0x0200000B])) (·.rspq) = some [0x04000400] := by decide
/-- V-SYS-3: `CLRSTAT 1` clears `FAILS` and `ERR`. -/
theorem test_step_clrstat :
    shows (step { withWords [0x03000001] with err := .csr, fails := true, notfound := true }) (·.statusWord) =
      some 0x00020000 := by decide

/-! ### Palette -/

/-- V-PAL-3: a repeated index empties the palette. -/
theorem test_step_palLoad_dup :
    shows (step { withWords [0x10000002, 0x00000005, 0, 0x00000105, 0x00FFFFFF] with pal := bw })
      (fun t => (t.statusWord, t.pal)) = some (0x00010004, []) := by decide
/-- S3: a monochrome white. -/
theorem test_step_palLoad_mono :
    shows (step { withWords [0x10010001, 0x00000101, 0x00FFFFFF] with params := t0 }) (fun t => (t.pal, t.mono)) =
      some ([⟨1, 1, ⟨255, 255, 255⟩, ⟨6553600, 0, 0⟩⟩], true) := by decide
/-- V-PAL-5: black wins by one unit squared; the residual keeps `a` and `b`. -/
theorem test_step_nearLab :
    shows (step { withWords [0x11000000, 0x00320000, 0x001E8480, 0xFFD23940] with pal := bw })
      (fun t => (t.r0, t.r1, t.r2, t.r3)) = some (0, 0x00320000, 0x001E8480, 0xFFD23940) := by decide
/-- V-PAL-1: the empty palette. -/
theorem test_step_nearRgb_empty : shows (step { withWords [0x12FF0000] with params := t0 })
    (fun t => (t.r0, t.statusWord)) = some (0xFF, 0x00020000) := by decide
/-- Red is entry 2 of BWR (V-PAL-4). -/
theorem test_step_nearRgb : shows (step { withWords [0x12FF0000] with params := t0, pal := bwr }) (·.r0) = some 2 := by
  decide
/-- V-PAL-7. -/
theorem test_step_torgb : shows (step { withWords [0x13000002] with pal := bwr }) (·.r0) = some 0x00FF0000 := by decide
/-- V-PAL-7: a miss. -/
theorem test_step_torgb_miss : shows (step { withWords [0x13000009] with pal := bwr })
    (fun t => (t.r0, t.statusWord)) = some (0, 0x00020000) := by decide
/-- S1. -/
theorem test_step_tolab : shows (step { withWords [0x14000001] with pal := bw }) (fun t => (t.r1, t.r2, t.r3)) =
    some (0x00640000, 0xFFFFFFFF, 0) := by decide
/-- V-PAL-7: `CLEAN`. -/
theorem test_step_indexof_clean : shows (step { withWords [0x150000FE] with pal := bwr })
    (fun t => (t.r0, t.notfound)) = some (3, false) := by decide
/-- V-PAL-7: a miss. -/
theorem test_step_indexof_miss : shows (step { withWords [0x15000033] with pal := bwr })
    (fun t => (t.r0, t.notfound)) = some (255, true) := by decide
/-- V-PAL-8: the unpinned map keeps every colour. -/
theorem test_step_normRgb : shows (step { withWords [0x16000000] with params := t0, pal := bwr })
    (fun t => (t.pal, t.err)) = some (bwr, .ok) := by decide
/-- V-PAL-8: pinned black without a black entry. -/
theorem test_step_normRgb_pin : shows (step { withWords [0x16000001] with params := t0, pal := bw.drop 1 })
    (fun t => (t.pal, t.statusWord)) = some (bw.drop 1, 0x00010009) := by decide
/-- V-PAL-9, monochrome: the endpoints go to 0 and 100, greys 0 and 255. -/
theorem test_step_normLab :
    shows (step { withWords [0x17000003] with
        params := t0, mono := true
        pal := [⟨0, 0, ⟨22, 22, 22⟩, ⟨474890, 0, 0⟩⟩, ⟨1, 1, ⟨222, 222, 222⟩, ⟨5786898, 0, 0⟩⟩] }) (·.pal) =
      some [⟨0, 0, ⟨0, 0, 0⟩, ⟨0, 0, 0⟩⟩, ⟨1, 1, ⟨255, 255, 255⟩, ⟨6553600, 0, 0⟩⟩] := by decide

/-! ### Surface -/

/-- V-SURF-1: one byte too many. -/
theorem test_step_surfCfg_size : shows (step (withWords [0x20000000, 0x01010400, 0])) (fun t => (t.statusWord, t.surfW)) =
    some (0x00010007, 0) := by decide
/-- V-SURF-5: reconfiguring zero-fills. -/
theorem test_step_surfCfg : shows (step { withWords [0x20000000, 0x00010003, 0] with fb := [⟨0, 9⟩, ⟨1, 9⟩], surfW := 3, surfH := 1 })
    (fun t => (t.fb, t.surfW, t.surfH)) = some ([], 3, 1) := by decide
/-- S4: the high nibble of byte 4. -/
theorem test_step_setidx_pack4 :
    shows (step { withWords [0x2100000A, 0x00010002] with fmt := .pack4, surfW := 5, surfH := 2 }) (·.fb) =
      some [⟨4, 0xA0⟩] := by decide
/-- S5: pixel 9 sets bit 6 of bytes 1 and 3. -/
theorem test_step_setidx_plane2 :
    shows (step { withWords [0x21000007, 0x00000009] with fmt := .plane2, surfW := 10, surfH := 1, plut := 0x07020103 })
      (·.fb) = some [⟨1, 0x40⟩, ⟨3, 0x40⟩] := by decide
/-- S5: reading it back. -/
theorem test_step_getidx_plane2 :
    shows (step { withWords [0x22000000, 0x00000009] with
        fmt := .plane2, surfW := 10, surfH := 1, plut := 0x07020103, fb := [⟨1, 0x40⟩, ⟨3, 0x40⟩] }) (·.r0) =
      some 7 := by decide
/-- S4: the low nibble. -/
theorem test_step_getidx_pack4 :
    shows (step { withWords [0x22000000, 0x00010003] with fmt := .pack4, surfW := 5, surfH := 2, fb := [⟨4, 0xA5⟩] })
      (·.r0) = some 5 := by decide
/-- V-SURF-4: `FLUSH` commits. -/
theorem test_step_flush : shows (step { withWords [0x23000000] with surfW := 2, surfH := 2, fb := [⟨0, 0x11⟩, ⟨3, 0xFF⟩] })
    (·.fbc) = some [⟨0, 0x11⟩, ⟨3, 0xFF⟩] := by decide
/-- V-SURF-2: `RDFB` inside the surface. -/
theorem test_step_rdfb : shows (step { withWords [0x24000002] with fmt := .pack4, surfW := 5, surfH := 2, fb := [⟨2, 0xF0⟩] })
    (·.r0) = some 0xF0 := by decide
/-- V-SURF-2: `RDFB` at `SURFBYTES`. -/
theorem test_step_rdfb_end : shows (step { withWords [0x24000006] with fmt := .pack4, surfW := 5, surfH := 2, fb := [⟨6, 0xF0⟩] })
    (·.r0) = some 0 := by decide

/-! ### Quantizing view -/

/-- V-Q-2, first row of the table. -/
theorem test_step_setpix_lab :
    shows (step { screen bw 3 2 with cmdq := [0x30808080, 0x00000000], ctrl := 1 })
      (fun t => (t.fb, t.thisRow, t.nextRow, t.diffRow)) =
      some ([⟨0, 1⟩], [(1, ⟨BitVec.ofInt 32 (-1330810), 0, 0⟩)],
        [(0, ⟨BitVec.ofInt 32 (-950578), 0, 0⟩), (1, ⟨BitVec.ofInt 32 (-190115), 0, 0⟩)], 0x00010000) := by decide
/-- V-Q-3, first row of the table. -/
theorem test_step_setpix_rgb :
    shows (step { screen bwr 3 2 with cmdq := [0x30C83C3C, 0x00000000], ctrl := 2 })
      (fun t => (t.fb, t.thisRow, t.nextRow)) =
      some ([⟨0, 2⟩], [(1, ⟨BitVec.ofInt 32 (-24), 26, 26⟩)],
        [(0, ⟨BitVec.ofInt 32 (-17), 18, 18⟩), (1, ⟨BitVec.ofInt 32 (-3), 3, 3⟩)]) := by decide
/-- V-Q-7: after `DIFF_RESET`, `DIFFROW` reads 0. -/
theorem test_step_diffReset : shows (step { withWords [0x31000000] with curValid := true, curRow := 5 }) (·.diffRow) =
    some 0 := by decide
/-- V-Q-7: `NEXT[0]`. -/
theorem test_step_rdrow :
    shows (step { screen bw 2 2 with cmdq := [0x32010000], ctrl := 1, curValid := true, nextRow := [(0, ⟨0xFFF17ECE, 0, 0⟩)] })
      (·.r1) = some 0xFFF17ECE := by decide
/-- V-Q-7: `x = W`. -/
theorem test_step_rdrow_end :
    shows (step { screen bw 2 2 with cmdq := [0x32000002], ctrl := 1, curValid := true, thisRow := [(2, ⟨5, 0, 0⟩)] })
      (·.r1) = some 0 := by decide

/-! ### Decoders -/

/-- S10: the wrong total. -/
theorem test_step_decRgb565_count :
    shows (step { withWords [0x40000000, 0x00020004] with bsTotals := [15] }) (fun t => (t.r0, t.statusWord, t.reqs)) =
      some (0, 0x00010001, [.totalAvailable]) := by decide
/-- One red sample, `F8 00` (R281). -/
theorem test_step_decRgb565 :
    shows (step { screen bwr 1 1 with
        cmdq := [0x40000000, 0x00010001], bsTotals := [2], bsReads := [⟨1, [0xF8]⟩, ⟨1, [0x00]⟩]
        params := { t0 with rgb2lab := [(⟨248, 0, 0⟩, ⟨3394483, 5139391, 4312310⟩)] } })
      (fun t => (t.r0, t.fb, t.reqs)) =
      some (1, [⟨0, 2⟩], [.totalAvailable, .tryRead 2, .tryRead 1]) := by decide
/-- S8, with the two colours mapped to black and white. -/
theorem test_step_decYuyv :
    shows (step { screen bw 2 1 with
        cmdq := [0x41000000, 0x00010002], bsTotals := [4], bsReads := [⟨4, [0x64, 0x32, 0x78, 0xC8]⟩] })
      (fun t => (t.r0, t.fb, t.reqs)) = some (1, [⟨1, 1⟩], [.totalAvailable, .tryRead 4]) := by decide
/-- S7: the two averaged colours are `(33, 33, 66)` and `(99, 99, 132)`, here mapped to white and black. -/
theorem test_step_decYuyvh :
    shows (step { screen bw 2 1 with
        cmdq := [0x42000000, 0x00020004], bsTotals := [16]
        bsReads := [⟨16, [0x10, 0x20, 0x30, 0x40, 0x50, 0x60, 0x70, 0x80, 0x11, 0x22, 0x33, 0x44, 0x55, 0x66, 0x77, 0x89]⟩]
        params := { t0 with yuv2rgb := [((33, 33, 66), ⟨255, 255, 255⟩), ((99, 99, 132), ⟨0, 0, 0⟩)] } })
      (fun t => (t.r0, t.fb, t.reqs)) = some (1, [⟨0, 1⟩], [.totalAvailable, .tryRead 16]) := by decide
/-- R271 (3): a height below 2. -/
theorem test_step_decYuv3l_dim :
    shows (step { withWords [0x43000000, 0x00010001] with bsTotals := [2] }) (fun t => (t.r0, t.err, t.fails)) =
      some (0, .dim, true) := by decide
/-- A 1 by 2 frame: row 0 is `(Y, U, V)` from its own `U` and the `V` of row 1, row 1 the other way round (R295). -/
theorem test_step_decYuv3l :
    shows (step { screen bw 1 2 with
        cmdq := [0x43000000, 0x00020001], bsTotals := [4], bsReads := [⟨2, [100, 50]⟩, ⟨2, [120, 200]⟩] })
      (fun t => (t.r0, t.fb)) = some (1, [⟨1, 1⟩]) := by decide
/-- R311: an error of `init`. -/
theorem test_step_decJpeg_init :
    shows (step { withWords [0x44000000, 0x00080008] with bdInits := [⟨7, 0⟩] }) (fun t => (t.r0, t.statusWord, t.reqs)) =
      some (0, 0x00010706, [.bdInit]) := by decide
/-- A `DEC_JPEG` waits for its first MCU (R310). -/
theorem test_step_decJpeg_waits :
    shows (step { withWords [0x44000000, 0x00080008] with bdInits := [⟨0, 0⟩] }) (fun t => (t.cmdcnt, t.reqs, t.isIdle)) =
      some (0, [.bdInit, .bdMcu], false) := by decide
/-- R371: reset drops the pending request; its answer is ignored if it comes, even when a new decode waits, and the answer to
the new request is taken, whether the other has come or not. -/
theorem test_reset_drops_request :
    let t := ({ State.reset with seq := .awaitTotal .yuyv 2 1 } : State).assertReset
    let u : State := { t with seq := .awaitTotal .rgb565 1 1 }
    t.seq = .idle ∧ t.dropped = [.total] ∧ (u.answerTotal .dropped 9).bsTotals = [] ∧
      (u.answerTotal .pending 2).bsTotals = [2] ∧ ((u.answerTotal .dropped 9).answerTotal .pending 2).bsTotals = [2] := by
  decide
/-- R246: the first `SETPIX` after a decode starts fresh rows, here in the decode's last row; the next goes on. -/
theorem test_step_setpix_after_decode :
    shows (step { screen bw 2 4 with
        cmdq := [0x30808080, 1 <<< 16], ctrl := 1, curValid := true, curRow := 1, thisRow := [(0, ⟨5, 0, 0⟩)], rowsOfDecode := true })
      (fun t => (t.diffRow, t.thisRow.entry 0, t.rowsOfDecode)) = some (0x00010001, Lab.zero, false) := by decide

end Sys2Proof.Tests
end

