-- ==== Sys2Proof/Tests/Witnesses.lean ====
section
/-!
SUPPORT. For every statement of Sys2Proof/Certificates/Slice0/Obligations.lean that has hypotheses, concrete states and operands
that meet them: one theorem per statement, `witness_<its name>`, with one conjunct per clause, at a boundary value of its
range where it has one.
-/

namespace Sys2Proof.Tests
open Sys2Proof.Machine

/-! ### Encoding and the sequencer -/

theorem witness_DecodeReadsBackEncode :
    Instr.wellFormed (.palLoad false (List.replicate 65535 ⟨0, 0, ⟨0, 0, 0⟩⟩)) = true := by
  simp only [Instr.wellFormed, List.length_replicate]; decide

theorem witness_EncodeReadsBackDecode :
    decode [0x20000002, 0x0001000A, 0x07020103, 0x5] = .ok (.surfCfg .plane2 10 1 0x07020103, [0x5]) := rfl

theorem witness_HeaderAcceptedByOpcodeMap :
    headerOp 0x20000002 = .ok .surfCfg ∧ selects (0x20000000, 0xFFFFFFFC) 0x20000002 ∧
    selects (0x20000000, 0xFFFFFFFC) 0x20000003 ∧ headerOp 0x20000003 = .error .reservedFormat :=
  ⟨rfl, by unfold selects; decide, by unfold selects; decide, rfl⟩

theorem witness_IllegalCommandHalts :
    ((withWords [0x05000000, 0x7]).ready = true ∧ ∀ op, headerOp 0x05000000 ≠ .ok op) ∧
    ((withWords [0x10000001, 0x00010000, 0x0]).ready = true ∧ headerOp 0x10000001 = .ok .palLoad ∧
      2 * 1 ≤ [(0x00010000 : Word), 0x0].length ∧
      ([(0x00010000 : Word), 0x0].getD (2 * 0) 0).extractLsb' 16 16 ≠ 0) ∧
    ([(0x0 : Word), 0x01000000].getD (2 * 0 + 1) 0).extractLsb' 24 8 ≠ 0 ∧
    (({ withWords [0x01000000, 0x7] with seq := .operands [0x10000001, 0x0] } : State).halted = false ∧
      [(0x0 : Word)].length ≤ 2 * 1 ∧ 2 * 1 ≤ ([(0x0 : Word)] ++ [0x01000000, 0x7]).length) := by
  refine ⟨⟨rfl, ?_⟩, ⟨rfl, rfl, by decide, by decide⟩, by decide, rfl, by decide, by decide⟩
  intro op h
  cases h

theorem witness_HaltedBit :
    ((withWords [0x05000000]).ready = true ∧ (withWords [0x05000000]).cmdq = 0x05000000 :: [] ∧
      ∀ op, headerOp 0x05000000 ≠ .ok op) ∧
    (∃ t, step (withWords [0x05000000]) = .next t ∧ (withWords [0x05000000]).halted = false ∧ t.halted = true) ∧
    (∃ t, step { withWords [0x00010000, 0x0] with seq := .operands [0x10000001] } = .next t ∧ t.halted = true) ∧
    ({ State.reset with halted := true } : State).halted = true ∧
    (∃ t, ({ State.reset with rspq := [5] } : State).popRsp = some (5, t)) ∧
    (∃ t, ({ State.reset with progq := [7] } : State).popProg = some (7, t)) ∧
    (∃ b t, State.reset.dsRead 262143 = .ok (b, t)) := by
  refine ⟨⟨rfl, rfl, fun op h => ?_⟩, ⟨_, rfl, rfl, rfl⟩, ⟨_, rfl, rfl⟩, rfl, ⟨_, rfl⟩, ⟨_, rfl⟩, ⟨_, _, rfl⟩⟩
  cases h

theorem witness_StepRunsDecodedCommand :
    (Instr.surfCfg .dense8 2 1 0).wellFormed = true ∧ (withWords (encode (.surfCfg .dense8 2 1 0) ++ [0x7])).halted = false ∧
    (withWords (encode (.surfCfg .dense8 2 1 0) ++ [0x7])).seq = .idle ∧
    operandsPending [0x20000000, 0x00010002] = true ∧
    [0x20000000, 0x00010002] ++ [(0x0 : Word), 0x7] = encode (.surfCfg .dense8 2 1 0) ++ [0x7] := by decide

theorem witness_OperandWordsAwaited :
    operandsPending [0x20000000, 0x00010002] = true ∧ (withWords [0x20000000, 0x00010002]).halted = false ∧
    (withWords [0x20000000, 0x00010002]).seq = .idle ∧ [(0x20000000 : Word)] ≠ [] ∧
    [(0x20000000 : Word)] ++ [0x00010002] = [0x20000000, 0x00010002] := by decide

/-- A sound state with a surface of one pixel. -/
theorem screen_inv (ws : List Word) : State.Inv { screen bw 1 1 with cmdq := ws } where
  params := by show Params.legal t0 = true; decide
  memoriesWf := rfl
  memoriesFit := rfl
  control := by show State.controlLegal (screen bw 1 1) = true; decide
  surface := by show State.surfaceFits (screen bw 1 1) = true; decide
  palette := by show State.paletteLegal (screen bw 1 1) = true; decide
  diffusion := rfl
  status := rfl
  halt := rfl
  padding := fun a _ => by
    show (_ &&& 0#8 = 0#8) ∧ (_ &&& 0#8 = 0#8)
    exact ⟨BitVec.and_zero, BitVec.and_zero⟩
  sequencer := rfl

/-- A sound state with no surface in which a command waits. -/
theorem waiting_inv (q : Sequencer) (hq : ({ State.reset with seq := q } : State).sequencerFits = true) :
    State.Inv { State.reset with seq := q } where
  params := by show State.reset.params.legal = true; decide
  memoriesWf := rfl
  memoriesFit := rfl
  control := by show State.controlLegal State.reset = true; decide
  surface := by show State.surfaceFits State.reset = true; decide
  palette := rfl
  diffusion := rfl
  status := rfl
  halt := rfl
  padding := fun _ h => absurd h (Nat.not_lt_zero _)
  sequencer := hq

/-! ### The whole machine -/

theorem witness_EveryStepKeepsTheInvariant :
    State.Inv { screen bw 1 1 with cmdq := [0x21000001, 0x0] } ∧
    ∃ t, step { screen bw 1 1 with cmdq := [0x21000001, 0x0] } = .next t := ⟨screen_inv _, _, rfl⟩

/-- A sound state in which a line of two bytes waits for its second byte, and an answer of two bytes comes. -/
theorem witness_StepStopsOnlyOnBrokenProtocol :
    State.Inv { State.reset with seq := .awaitRead ⟨.rgb565, 1, 1, 0, [5], [], []⟩, bsReads := [⟨2, [6, 7]⟩] } ∧
    step { State.reset with seq := .awaitRead ⟨.rgb565, 1, 1, 0, [5], [], []⟩, bsReads := [⟨2, [6, 7]⟩] } =
      .refused .byteSourceProtocol := by
  refine ⟨?_, rfl⟩
  have h := waiting_inv (.awaitRead ⟨.rgb565, 1, 1, 0, [5], [], []⟩) (by decide)
  exact ⟨h.params, h.memoriesWf, h.memoriesFit, h.control, h.surface, h.palette, h.diffusion, h.status, h.halt, h.padding,
    h.sequencer⟩

theorem witness_CmdcntCountsRetiredCommands :
    (∃ t, exec .nop State.reset = .next t ∧ t.seq = .idle) ∧
    (∃ t, exec (.decJpeg 8 8) State.reset = .next t ∧ t.seq ≠ .idle) ∧ State.reset.seq = .idle ∧
    (∃ t, step { State.reset with seq := .awaitInit 8 8, bdInits := [⟨1, 0⟩] } = .next t ∧ t.seq = .idle) ∧
    (∃ t, step { State.reset with seq := .awaitInit 8 8 } = .next t ∧ t.seq = .awaitInit 8 8) ∧
    ({ State.reset with seq := .awaitInit 8 8 } : State).decoding = true ∧
    (∃ t, step (withWords [0x05000000]) = .next t ∧ (withWords [0x05000000]).halted = false ∧ t.halted = true) :=
  ⟨⟨_, rfl, rfl⟩, ⟨_, rfl, by decide⟩, rfl, ⟨_, rfl, rfl⟩, ⟨_, rfl, rfl⟩, rfl, ⟨_, rfl, rfl, rfl⟩⟩

theorem witness_StatusFlagsAreSticky :
    (∃ t, exec .nop State.reset = .next t ∧ Instr.nop.isQuiet = true) ∧
    (∃ t, exec (.wrcsr 0 0) State.reset = .next t ∧ (Instr.wrcsr 0 0).isQuiet = false ∧ State.reset.seq = .idle ∧
      t.seq = .idle ∧ t.err ≠ .ok) ∧
    (∃ t, exec .flush { State.reset with fails := true, notfound := true, sat := true } = .next t ∧
      (∀ m, Instr.flush ≠ .clrstat m) ∧ t.err = .ok ∧ t.fails = true) :=
  ⟨⟨_, rfl, rfl⟩, ⟨_, rfl, rfl, rfl, rfl, by decide⟩, ⟨_, rfl, fun _ h => (by cases h), rfl, rfl⟩⟩

theorem witness_OnlyItsCommandsWriteIt :
    (∃ t, exec .nop State.reset = .next t) ∧ Instr.nop.writesPalette = false ∧ (∀ f w h p, Instr.nop ≠ .surfCfg f w h p) ∧
    (∀ c v, Instr.nop ≠ .wrcsr c v) ∧ (∀ w h, Instr.nop ≠ .decJpeg w h) ∧ (∀ n, Instr.nop ≠ .rdcsr n) ∧
    (∀ x y v, Instr.nop ≠ .setidx x y v) ∧ Instr.nop.isDecode = false ∧ Instr.nop.isStream = false ∧
    Instr.nop.usesView = false ∧ Instr.nop.writesR0 = false ∧ Instr.nop.writesR123 = false ∧ Instr.nop.isQuiet = true ∧
    Instr.nop.writesNotfound = false ∧ Instr.nop.writesSat = false ∧ Instr.nop.writesCurValid = false :=
  ⟨⟨_, rfl⟩, rfl, fun _ _ _ _ h => (by cases h), fun _ _ h => (by cases h), fun _ _ h => (by cases h),
    fun _ h => (by cases h), fun _ _ _ h => (by cases h), rfl, rfl, rfl, rfl, rfl, rfl, rfl, rfl, rfl⟩

theorem witness_OnlyPixelWritersChangeMemory :
    (∃ t, exec (.setidx 0 0 5) (screen bw 1 1) = .next t ∧ (screen bw 1 1).surfBytes ≤ 1 ∧ t.surfBytes ≤ 1) ∧
    (∃ t, exec (.normRgb false false) (screen bw 1 1) = .next t) ∧ (Instr.normRgb false false).usesView = false ∧
    (∀ x y v, Instr.normRgb false false ≠ .setidx x y v) ∧ (∀ f w h p, Instr.normRgb false false ≠ .surfCfg f w h p) ∧
    Instr.normRgb false false ≠ .flush :=
  ⟨⟨_, rfl, by decide, by decide⟩, ⟨_, rfl⟩, rfl, fun _ _ _ h => (by cases h), fun _ _ _ _ h => (by cases h),
    fun h => (by cases h)⟩

theorem witness_ResetPinFromAnyState :
    State.reset.decoding = false ∧ (∀ k w h, State.reset.seq ≠ .awaitTotal k w h) ∧
    (∀ j, State.reset.seq ≠ .awaitRead j) ∧ (∀ w h, State.reset.seq ≠ .awaitInit w h) ∧
    (∀ j, State.reset.seq ≠ .awaitMcu j) ∧
    ({ State.reset with seq := .awaitTotal .yuyv 2 1 } : State).bsTotals = [] ∧
    ({ State.reset with seq := .awaitRead ⟨.rgb565, 1, 1, 0, [], [], []⟩, bsReads := [⟨1, [0]⟩, ⟨1, [1]⟩] } : State).bsReads =
      ⟨1, [0]⟩ :: [⟨1, [1]⟩] ∧
    ({ State.reset with seq := .awaitInit 8 8 } : State).bdInits = [] ∧
    ({ State.reset with seq := .awaitMcu ⟨8, 8, .gray, 0, 0, emptyMrow .gray⟩ } : State).bdMcus = [] ∧
    .read ∈ ({ State.reset with seq := .awaitRead ⟨.rgb565, 1, 1, 0, [], [], []⟩ } : State).assertReset.dropped ∧
    .total ∈ ({ State.reset with seq := .awaitTotal .yuyv 2 1 } : State).assertReset.dropped ∧
    .init ∈ ({ State.reset with seq := .awaitInit 8 8 } : State).assertReset.dropped ∧
    .mcu ∈ ({ State.reset with seq := .awaitMcu ⟨8, 8, .gray, 0, 0, emptyMrow .gray⟩ } : State).assertReset.dropped := by
  refine ⟨rfl, ?_, ?_, ?_, ?_, rfl, rfl, rfl, rfl, by decide, by decide, by decide, by decide⟩ <;>
    · intros; exact fun h => by cases h

theorem witness_RdcsrReadsEachRegister :
    ({ Params.reference with mrowBytes := 4294967295 } : Params).mrowBytes < 2 ^ 32 ∧
    ({ State.reset with pal := List.replicate 254 ⟨0, 0, ⟨0, 0, 0⟩, ⟨0, 0, 0⟩⟩ } : State).pal.length ≤ 254 ∧
    State.reset.params.legal = true ∧ 0x0D ≤ (0x0D : Byte).toNat ∧ (0x0F : Byte).toNat ≤ 0x0F ∧ 0x14 ≤ (0xFF : Byte).toNat := by
  refine ⟨by decide, ?_, by decide, by decide, by decide, by decide⟩
  simp only [List.length_replicate]; decide

/-! ### Palette -/

/-- As many triples as asked for, with distinct indices while they last. -/
def triples (n : Nat) : List PalSpec := (List.range n).map (fun k => ⟨0, BitVec.ofNat 8 k, ⟨8, 8, 8⟩⟩)

theorem witness_PalLoadBuildsTheTable :
    254 < (triples 255).length ∧
    ((triples 2 ++ triples 1).length ≤ 254 ∧ ¬ ((triples 2 ++ triples 1).map (·.index)).Nodup) ∧
    ((triples 254).length ≤ 254 ∧ ((triples 254).map (·.index)).Nodup ∧
      (triples 254)[253]? = some ⟨0, 253, ⟨8, 8, 8⟩⟩) := by
  refine ⟨by simp [triples], ⟨by simp [triples], by decide⟩, by simp [triples], ?_, by simp [triples]⟩
  unfold triples
  rw [List.map_map]
  refine List.Nodup.map_on ?_ List.nodup_range
  intro x hx y hy h
  simp only [Function.comp_apply] at h
  simp only [List.mem_range] at hx hy
  have := congrArg BitVec.toNat h
  rw [BitVec.toNat_ofNat, BitVec.toNat_ofNat, Nat.mod_eq_of_lt (by omega), Nat.mod_eq_of_lt (by omega)] at this
  exact this

theorem bw_cases {q : Nat} {f : PalEntry} (h : bw[q]? = some f) :
    q = 0 ∧ f = ⟨0, 0, ⟨0, 0, 0⟩, ⟨0, 0, 0⟩⟩ ∨ q = 1 ∧ f = ⟨1, 1, ⟨255, 255, 255⟩, ⟨6553600, 0xFFFFFFFF, 0⟩⟩ := by
  match q with
  | 0 => exact .inl ⟨rfl, (Option.some.inj h).symm⟩
  | 1 => exact .inr ⟨rfl, (Option.some.inj h).symm⟩
  | n + 2 => simp [bw] at h

/-- Black is the first of the nearest entries of BW to `L = 50` (V-PAL-5). -/
theorem bw_nearest : FirstNearest false bw ⟨0x00320000, 0, 0⟩ 0 ⟨0, 0, ⟨0, 0, 0⟩, ⟨0, 0, 0⟩⟩ := by
  refine ⟨rfl, fun q f h => ?_⟩
  rcases bw_cases h with ⟨rfl, rfl⟩ | ⟨rfl, rfl⟩ <;> exact ⟨by decide, fun h => absurd h (by decide)⟩

/-- White is the first of the nearest entries of BW to white. -/
theorem bw_nearest_white :
    FirstNearest false bw (t0.toLab ⟨255, 255, 255⟩) 1 ⟨1, 1, ⟨255, 255, 255⟩, ⟨6553600, 0xFFFFFFFF, 0⟩⟩ := by
  refine ⟨rfl, fun q f h => ?_⟩
  rcases bw_cases h with ⟨rfl, rfl⟩ | ⟨rfl, rfl⟩
  · exact ⟨by decide, fun _ => by decide⟩
  · exact ⟨by decide, fun h => absurd h (by decide)⟩

theorem witness_NearLabFindsTheFirstNearest :
    State.reset.pal = [] ∧ (screen bw 1 1).pal ≠ [] ∧
    FirstNearest (screen bw 1 1).mono (screen bw 1 1).pal ⟨0x00320000, 0, 0⟩ 0 ⟨0, 0, ⟨0, 0, 0⟩, ⟨0, 0, 0⟩⟩ :=
  ⟨rfl, by decide, bw_nearest⟩

theorem witness_NearRgbConvertsAndSearches :
    State.reset.pal = [] ∧ FirstNearest (screen bw 1 1).mono (screen bw 1 1).pal
      ((screen bw 1 1).params.toLab ⟨255, 255, 255⟩) 1 ⟨1, 1, ⟨255, 255, 255⟩, ⟨6553600, 0xFFFFFFFF, 0⟩⟩ :=
  ⟨rfl, bw_nearest_white⟩

theorem witness_PaletteRoundTrip :
    (bw[1]? = some ⟨1, 1, ⟨255, 255, 255⟩, ⟨6553600, 0xFFFFFFFF, 0⟩⟩ ∧
      ∀ (q : Nat) (f : PalEntry), q < 1 → bw[q]? = some f → f.lab ≠ ⟨6553600, 0xFFFFFFFF, 0⟩) ∧
    (∃ s : State, s.mono = true ∧ s.pal[0]? = some ⟨0, 0, ⟨0, 0, 0⟩, ⟨0, 0, 0⟩⟩ ∧ ∀ f ∈ s.pal, f.lab.a = 0 ∧ f.lab.b = 0) := by
  refine ⟨⟨rfl, fun q f hq h => ?_⟩, ⟨{ screen (bw.take 1) 1 1 with mono := true }, rfl, rfl, by decide⟩⟩
  rcases bw_cases h with ⟨rfl, rfl⟩ | ⟨rfl, rfl⟩
  · decide
  · exact absurd hq (by decide)

theorem witness_LookupsFindTheFirstEntry :
    FirstWith bw (fun f => f.index = 1) ⟨1, 1, ⟨255, 255, 255⟩, ⟨6553600, 0xFFFFFFFF, 0⟩⟩ ∧ (∀ e ∈ bw, e.index ≠ 9) ∧
    FirstWith bw (fun f => f.name = 1) ⟨1, 1, ⟨255, 255, 255⟩, ⟨6553600, 0xFFFFFFFF, 0⟩⟩ ∧
    (∀ e ∈ bw, e.name ≠ 0xFE) ∧ (∀ e ∈ bw, e.name ≠ 0x33) := by
  refine ⟨⟨1, rfl, rfl, ?_⟩, by decide, ⟨1, rfl, rfl, ?_⟩, by decide, by decide⟩
  all_goals
    intro q f hq h
    rcases bw_cases h with ⟨rfl, rfl⟩ | ⟨rfl, rfl⟩
    · decide
    · exact absurd hq (by decide)

/-- The black and the white entry of BW are the first of their names. -/
theorem bw_pins :
    FirstWith bw (fun f => f.name = 0x00) ⟨0, 0, ⟨0, 0, 0⟩, ⟨0, 0, 0⟩⟩ ∧
    FirstWith bw (fun f => f.name = 0x01) ⟨1, 1, ⟨255, 255, 255⟩, ⟨6553600, 0xFFFFFFFF, 0⟩⟩ := by
  refine ⟨⟨0, rfl, rfl, fun q f hq _ => absurd hq (by omega)⟩, ⟨1, rfl, rfl, fun q f hq h => ?_⟩⟩
  rcases bw_cases h with ⟨rfl, rfl⟩ | ⟨rfl, rfl⟩
  · decide
  · exact absurd hq (by decide)

theorem witness_NormRgbRescalesEveryEntry :
    (Endpoint true bw 0x00 (·.rgb) ⟨0, 0, 0⟩ ⟨0, 0, 0⟩ ∧ Endpoint false bw 0x01 (·.rgb) ⟨255, 255, 255⟩ ⟨255, 255, 255⟩ ∧
      (⟨0, 0, 0⟩ : RGB).r.toNat < (⟨255, 255, 255⟩ : RGB).r.toNat) ∧
    (¬ ∃ lo hi, Endpoint true [] 0x00 (·.rgb) ⟨0, 0, 0⟩ lo ∧ Endpoint true [] 0x01 (·.rgb) ⟨255, 255, 255⟩ hi ∧
      lo.r.toNat < hi.r.toNat ∧ lo.g.toNat < hi.g.toNat ∧ lo.b.toNat < hi.b.toNat) := by
  refine ⟨⟨⟨fun h => absurd h (by decide), fun _ => ⟨_, bw_pins.1, rfl⟩⟩,
    ⟨fun _ => rfl, fun h => absurd h (by decide)⟩, by decide⟩, ?_⟩
  rintro ⟨lo, hi, ⟨_, h⟩, _⟩
  obtain ⟨e, ⟨p, hp, _⟩, _⟩ := h rfl
  cases hp

theorem witness_NormRgbPinsBlackAndWhite :
    (screen bw 1 1).mono = false ∧ ∃ t, exec (.normRgb true true) (screen bw 1 1) = .next t ∧ t.err = .ok :=
  ⟨rfl, _, rfl, rfl⟩

theorem witness_NormLabRescalesEveryEntry :
    (Endpoint true bw 0x00 (fun e => e.lab.L.toInt) 0 0 ∧ Endpoint true bw 0x01 (fun e => e.lab.L.toInt) 6553600 6553600 ∧
      (0 : Int) < 6553600) ∧
    (¬ ∃ lo hi, Endpoint true [] 0x00 (fun e => e.lab.L.toInt) 0 lo ∧
      Endpoint true [] 0x01 (fun e => e.lab.L.toInt) 6553600 hi ∧ lo < hi) := by
  refine ⟨⟨⟨fun h => absurd h (by decide), fun _ => ⟨_, bw_pins.1, by decide⟩⟩,
    ⟨fun h => absurd h (by decide), fun _ => ⟨_, bw_pins.2, by decide⟩⟩, by decide⟩, ?_⟩
  rintro ⟨lo, hi, ⟨_, h⟩, _⟩
  obtain ⟨e, ⟨p, hp, _⟩, _⟩ := h rfl
  cases hp

/-- In BW the name of white is found at index 1, and no name is found at all for Yellow. -/
theorem witness_DeriveBuildsOrRefuses :
    bw.length ≤ 254 ∧ DeriveFinds bw 0x01 1 ∧ (∀ i, ¬ DeriveFinds bw 0x05 i) := by
  refine ⟨by decide, ⟨⟨_, bw_pins.2, rfl⟩, by decide, by decide⟩, ?_⟩
  rintro i ⟨⟨e, ⟨p, hp, hn, -⟩, -⟩, -⟩
  rcases bw_cases hp with ⟨rfl, rfl⟩ | ⟨rfl, rfl⟩
  · exact absurd hn (by decide)
  · exact absurd hn (by decide)

/-! ### Surface -/

theorem witness_SurfCfgConfiguresAndClears :
    ((0x0400 : Half).toNat ≤ State.reset.params.rowMax ∧ surfaceSize .dense8 (0x0400 : Half).toNat (0x0100 : Half).toNat ≤
      State.reset.params.fbBytes) ∧
    State.reset.params.rowMax < (0x0401 : Half).toNat ∧
    State.reset.params.fbBytes < surfaceSize .dense8 (0x0400 : Half).toNat (0x0101 : Half).toNat := by decide

/-- Surfaces of 9 by 2 pixels in each format; in `PLANE2` index 0 has two places in `PLUT`. -/
def surf (fmt : Fmt) : State := { State.reset with fmt := fmt, surfW := 9, surfH := 2, plut := 0x02000100 }

theorem witness_SetidxWritesOnlyItsPixel :
    (¬ ((9 : Half).toNat < (surf .dense8).surfW.toNat ∧ (1 : Half).toNat < (surf .dense8).surfH.toNat)) ∧
    ((8 : Half).toNat < (surf .dense8).surfW.toNat ∧ (1 : Half).toNat < (surf .dense8).surfH.toNat) ∧
    ((surf .dense8).fb.wf = true ∧ ((surf .dense8).pixelBytes 8 1)[0]? = some 17 ∧ (surf .dense8).fmt = .dense8) ∧
    (((surf .pack4).pixelBytes 8 1)[0]? = some 9 ∧ (surf .pack4).fmt = .pack4) ∧
    (((surf .plane2).pixelBytes 8 1)[1]? = some 7 ∧ (surf .plane2).fmt = .plane2) ∧
    (∀ j < 4, plutByte (surf .plane2).plut j ≠ 9) ∧
    (3 < 4 ∧ plutByte (surf .plane2).plut 3 = 2 ∧ ∀ i < 3, plutByte (surf .plane2).plut i ≠ 2) ∧
    16 ∉ (surf .dense8).pixelBytes 8 1 ∧ (surf .plane2).fbc.wf = true ∧ 7 ∈ (surf .plane2).pixelBytes 8 1 := by decide

theorem witness_GetidxReadsThePixel :
    (¬ ((8 : Half).toNat < (surf .dense8).surfW.toNat ∧ (2 : Half).toNat < (surf .dense8).surfH.toNat)) ∧
    ((8 : Half).toNat < (surf .dense8).surfW.toNat ∧ (1 : Half).toNat < (surf .dense8).surfH.toNat) ∧
    ((surf .dense8).pixelBytes 8 1)[0]? = some 17 ∧ ((surf .pack4).pixelBytes 8 1)[0]? = some 9 ∧
    ((surf .plane2).pixelBytes 8 1)[0]? = some 3 ∧ ((surf .plane2).pixelBytes 8 1)[1]? = some 7 := by decide

theorem witness_PixelRoundTrip :
    (surf .plane2).fb.wf = true ∧ (8 : Half).toNat < (surf .plane2).surfW.toNat ∧ (1 : Half).toNat < (surf .plane2).surfH.toNat ∧
    (∃ t u, exec (.setidx 8 1 2) (surf .plane2) = .next t ∧ exec (.getidx 8 1) t = .next u) ∧
    (surf .plane2).fmt = .plane2 ∧ (∃ j, j < 4 ∧ plutByte (surf .plane2).plut j = 2) ∧
    (surf .dense8).fmt = .dense8 ∧ (surf .pack4).fmt = .pack4 :=
  ⟨by decide, by decide, by decide, ⟨_, _, rfl, rfl⟩, rfl, ⟨3, by decide, by decide⟩, rfl, rfl⟩

theorem witness_PixelsAreIndependent :
    (surf .pack4).fb.wf = true ∧ ¬ ((1 : Half) = 0 ∧ (0 : Half) = 0) ∧
    ∃ t u w, exec (.setidx 0 0 5) (surf .pack4) = .next t ∧ exec (.getidx 1 0) t = .next u ∧
      exec (.getidx 1 0) (surf .pack4) = .next w :=
  ⟨by decide, by decide, _, _, _, rfl, rfl, rfl⟩

theorem witness_DisplayReadsAfterFlush :
    (surf .dense8).fb.wf = true ∧ (surf .dense8).fbc.wf = true ∧ 17 < (surf .dense8).surfBytes ∧
    17 < (surf .dense8).params.fbBytes ∧
    ∃ t b u, exec .flush (surf .dense8) = .next t ∧ t.dsRead 17 = .ok (b, u) :=
  ⟨by decide, by decide, by decide, by decide, _, _, _, rfl, rfl⟩

theorem witness_DisplayReadIsHarmless :
    (surf .dense8).fbc.wf = true ∧ (surf .dense8).params.fbBytes ≤ 262144 ∧ 262143 < (surf .dense8).params.fbBytes ∧
    17 < (surf .dense8).surfBytes ∧ (16 : Nat) ≠ 17 := by decide

/-! ### Quantizing view -/

theorem witness_DiffResetAndRdrow :
    (({ surf .dense8 with curValid := true } : State).curValid = true ∧ (8 : Half).toNat < (surf .dense8).surfW.toNat) ∧
    (surf .dense8).curValid = false ∧ (surf .dense8).surfW.toNat ≤ (9 : Half).toNat := by decide

theorem witness_SetpixOutsideDoesNothing :
    ¬ ((9 : Half).toNat < (surf .dense8).surfW.toNat ∧ (1 : Half).toNat < (surf .dense8).surfH.toNat) := by decide

theorem witness_SetpixDirectStoresTheNearest :
    (8 : Half).toNat < (surf .dense8).surfW.toNat ∧ (1 : Half).toNat < (surf .dense8).surfH.toNat ∧
    (surf .dense8).ctrl.toNat % 4 = 0 := by decide

/-- A palette, a surface of 3 by 2 pixels and a diffusion mode. -/
def diffusing (mode : Word) : State := { screen bw 3 2 with ctrl := mode }

theorem witness_SetpixLabStep :
    ((2 : Half).toNat < (diffusing 1).surfW.toNat ∧ (1 : Half).toNat < (diffusing 1).surfH.toNat ∧
      (diffusing 1).ctrl.toNat % 4 = 1 ∧ (diffusing 1).thisRow.wf = true ∧ (diffusing 1).nextRow.wf = true) ∧
    (surf .dense8).pal = [] ∧
    FirstNearest (diffusing 1).mono (diffusing 1).pal (t0.toLab ⟨255, 255, 255⟩) 1
      ⟨1, 1, ⟨255, 255, 255⟩, ⟨6553600, 0xFFFFFFFF, 0⟩⟩ := ⟨by decide, rfl, bw_nearest_white⟩

theorem witness_SetpixRgbStep :
    ((2 : Half).toNat < (diffusing 2).surfW.toNat ∧ (1 : Half).toNat < (diffusing 2).surfH.toNat ∧
      (diffusing 2).ctrl.toNat % 4 = 2 ∧ (diffusing 2).thisRow.wf = true ∧ (diffusing 2).nextRow.wf = true) ∧
    (surf .dense8).pal = [] ∧
    FirstNearest (diffusing 2).mono (diffusing 2).pal ((diffusing 2).params.toLab ⟨255, 255, 255⟩) 1
      ⟨1, 1, ⟨255, 255, 255⟩, ⟨6553600, 0xFFFFFFFF, 0⟩⟩ ∧
    DiffusionClamps 3 2 0 0 ⟨0x7FFFFFFF, 0, 0⟩ [(1, ⟨0x7FFFFFFF, 0, 0⟩)] [] ∧
    ({ diffusing 2 with sat := true } : State).sat = true :=
  ⟨by decide, rfl, bw_nearest_white, .inl ⟨by decide, .inl (by decide)⟩, rfl⟩

theorem witness_DiffusionConservesWeight : 0 ≤ (0x0 : LabNum).toInt ∧ (0xFFFFFFFF : LabNum).toInt < 0 := by decide

/-! ### Byte-stream decoders -/

/-- An engine with answers to come and lines of at most two pixels. -/
def fed (total : Word) (reads : List ReadAnswer) : State :=
  { screen bw 3 3 with params := { t0 with lineMax := 2 }, bsTotals := [total], bsReads := reads }

theorem witness_StreamPreconditionsInOrder :
    (fed 7 []).bsTotals = [7] ∧ (7 : Word).toNat ≠ (2 : Half).toNat * (2 : Half).toNat * 2 ∧
    ((4 : Word).toNat = (2 : Half).toNat * (1 : Half).toNat * 2 ∧ (1 : Half).toNat % 2 = 1) ∧
    ((4 : Word).toNat = (1 : Half).toNat * (2 : Half).toNat * 2 ∧ (1 : Half).toNat % 2 = 1) ∧
    ((4 : Word).toNat = (2 : Half).toNat * (1 : Half).toNat * 2 ∧ (1 : Half).toNat < 2) ∧
    ((12 : Word).toNat = (3 : Half).toNat * (2 : Half).toNat * 2 ∧ 2 ≤ (2 : Half).toNat ∧
      (fed 12 []).params.lineMax < (3 : Half).toNat) := by decide

theorem witness_DecRgb565DecodesAServedFrame :
    (fed 8 [⟨1, [1]⟩, ⟨3, [2, 3, 4]⟩, ⟨4, [5, 6, 7, 8]⟩]).bsTotals = [8] ∧
    (8 : Word).toNat = (2 : Half).toNat * (2 : Half).toNat * 2 ∧ (2 : Half).toNat ≤ (fed 8 []).params.lineMax ∧
    answersServe 254 (2 * (2 : Half).toNat) 0 [⟨1, [1]⟩, ⟨3, [2, 3, 4]⟩, ⟨4, [5, 6, 7, 8]⟩] = true ∧
    (streamOf [⟨1, [1]⟩, ⟨3, [2, 3, 4]⟩, ⟨4, [5, 6, 7, 8]⟩]).length = (2 : Half).toNat * (2 * (2 : Half).toNat) := by decide

theorem witness_DecYuyvDecodesAServedFrame :
    (fed 4 [⟨4, [1, 2, 3, 4]⟩]).bsTotals = [4] ∧ (4 : Word).toNat = (2 : Half).toNat * (1 : Half).toNat * 2 ∧
    (2 : Half).toNat % 2 = 0 ∧ (2 : Half).toNat ≤ (fed 4 []).params.lineMax ∧
    answersServe 255 (2 * (2 : Half).toNat) 0 [⟨4, [1, 2, 3, 4]⟩] = true ∧
    (streamOf [⟨4, [1, 2, 3, 4]⟩]).length = (1 : Half).toNat * (2 * (2 : Half).toNat) := by decide

theorem witness_DecYuyvhDecodesAServedFrame :
    (fed 8 [⟨8, [1, 2, 3, 4, 5, 6, 7, 8]⟩]).bsTotals = [8] ∧ (8 : Word).toNat = (2 : Half).toNat * (2 : Half).toNat * 2 ∧
    (2 : Half).toNat % 2 = 0 ∧ (2 : Half).toNat ≤ (fed 8 []).params.lineMax ∧
    answersServe 255 (4 * (2 : Half).toNat) 0 [⟨8, [1, 2, 3, 4, 5, 6, 7, 8]⟩] = true ∧
    (streamOf [⟨8, [1, 2, 3, 4, 5, 6, 7, 8]⟩]).length = (2 : Half).toNat / 2 * (4 * (2 : Half).toNat) := by decide

theorem witness_DecYuv3lDecodesAServedFrame :
    (fed 4 [⟨2, [100, 50]⟩, ⟨2, [120, 200]⟩]).bsTotals = [4] ∧ (4 : Word).toNat = (1 : Half).toNat * (2 : Half).toNat * 2 ∧
    2 ≤ (2 : Half).toNat ∧ (1 : Half).toNat ≤ (fed 4 []).params.lineMax ∧
    answersServe 255 (2 * (1 : Half).toNat) 0 [⟨2, [100, 50]⟩, ⟨2, [120, 200]⟩] = true ∧
    (streamOf [⟨2, [100, 50]⟩, ⟨2, [120, 200]⟩]).length = (2 : Half).toNat * (2 * (1 : Half).toNat) := by decide

theorem witness_DecRgb565StopsOnADeadSource :
    (fed 8 [⟨4, [1, 2, 3, 4]⟩, ⟨3, [5, 6, 7]⟩, ⟨0, []⟩]).bsReads = [⟨4, [1, 2, 3, 4]⟩, ⟨3, [5, 6, 7]⟩] ++ ⟨0, []⟩ :: [] ∧
    (8 : Word).toNat = (2 : Half).toNat * (2 : Half).toNat * 2 ∧ (2 : Half).toNat ≤ (fed 8 []).params.lineMax ∧
    answersServe 254 (2 * (2 : Half).toNat) 0 [⟨4, [1, 2, 3, 4]⟩, ⟨3, [5, 6, 7]⟩] = true ∧
    (streamOf [⟨4, [1, 2, 3, 4]⟩, ⟨3, [5, 6, 7]⟩]).length < (2 : Half).toNat * (2 * (2 : Half).toNat) := by decide

theorem witness_DeadSourceFailsEveryDecoder :
    (fed 8 [⟨0, []⟩]).bsTotals = [8] ∧ streamPrecondition (fed 8 []).params .yuyvh 2 2 8 = none ∧
    streamPrecondition (fed 8 []).params .yuv3l 2 2 8 = none ∧
    (fed 8 [⟨0, []⟩]).bsReads = [] ++ ⟨0, []⟩ :: [] ∧
    answersServe StreamKind.yuyvh.ceiling (StreamKind.yuyvh.lineBytes (2 : Half).toNat) 0 [] = true ∧
    (streamOf []).length < StreamKind.yuyvh.rows (2 : Half).toNat * StreamKind.yuyvh.lineBytes (2 : Half).toNat := by decide

theorem witness_BrokenAnswerIsRefused :
    (fed 8 [⟨1, [9]⟩, ⟨4, [1, 2, 3, 4]⟩]).bsTotals = [8] ∧ streamPrecondition (fed 8 []).params .rgb565 2 2 8 = none ∧
    answersServe StreamKind.rgb565.ceiling (StreamKind.rgb565.lineBytes (2 : Half).toNat) 0 [⟨1, [9]⟩] = true ∧
    (streamOf [⟨1, [9]⟩]).length < StreamKind.rgb565.rows (2 : Half).toNat * StreamKind.rgb565.lineBytes (2 : Half).toNat ∧
    breaksProtocol StreamKind.rgb565.ceiling (StreamKind.rgb565.lineBytes (2 : Half).toNat) (streamOf [⟨1, [9]⟩]).length
      ⟨4, [1, 2, 3, 4]⟩ ∧
    breaksProtocol StreamKind.rgb565.ceiling (StreamKind.rgb565.lineBytes (2 : Half).toNat) (streamOf [⟨1, [9]⟩]).length
      ⟨1, []⟩ :=
  ⟨by decide, by decide, by decide, by decide, .inr (by decide), .inl (by decide)⟩

theorem witness_DecodersWaitForTheirAnswers :
    State.reset.bsTotals = [] ∧ State.reset.bdInits = [] ∧ State.reset.bsReads = [] ∧ State.reset.bdMcus = [] ∧
    State.Inv { State.reset with seq := .awaitTotal .yuyv 2 1 } ∧
    State.Inv { State.reset with seq := .awaitRead ⟨.rgb565, 1, 1, 0, [5], [], []⟩ } ∧
    State.Inv { State.reset with seq := .awaitInit 8 8 } ∧
    State.Inv { State.reset with seq := .awaitMcu ⟨8, 8, .gray, 0, 0, emptyMrow .gray⟩ } :=
  ⟨rfl, rfl, rfl, rfl, waiting_inv _ rfl, waiting_inv _ (by decide), waiting_inv _ rfl, waiting_inv _ (by decide)⟩

theorem witness_LateAnswersChangeNothing :
    ((fed 4 [⟨1, [9]⟩]).halted = false ∧ (fed 4 [⟨1, [9]⟩]).seq = .idle ∧
      (∃ t, exec (.decYuyv 2 1) (fed 4 [⟨1, [9]⟩]) = .next t) ∧ (Instr.decYuyv 2 1).isDecode = true) ∧
    (∃ t, exec (.decJpeg 8 8) State.reset = .next t ∧ t.decoding = true) ∧
    (State.Inv { State.reset with seq := .awaitTotal .yuyv 2 1 } ∧
      ({ State.reset with seq := .awaitTotal .yuyv 2 1 } : State).decoding = true ∧
      ∃ t, step { State.reset with seq := .awaitTotal .yuyv 2 1 } = .next t ∧ t.seq = .awaitTotal .yuyv 2 1) ∧
    (State.Inv { State.reset with seq := .awaitMcu ⟨8, 8, .gray, 0, 0, emptyMrow .gray⟩ } ∧
      ∃ t, step { State.reset with seq := .awaitMcu ⟨8, 8, .gray, 0, 0, emptyMrow .gray⟩ } = .next t) := by
  refine ⟨⟨by decide, by decide, ?_, rfl⟩, ⟨_, rfl, rfl⟩, ⟨waiting_inv _ rfl, rfl, _, rfl, rfl⟩,
    ⟨waiting_inv _ (by decide), _, rfl⟩⟩
  have h : shows (exec (.decYuyv 2 1) (fed 4 [⟨1, [9]⟩])) (·.seq) = some (.awaitRead ⟨.yuyv, 2, 1, 0, [9], [], []⟩) := by
    decide
  generalize exec _ _ = r at h
  cases r with
  | next t => exact ⟨t, rfl⟩
  | fault _ => cases h
  | refused _ => cases h

theorem witness_StreamRequestsAreBounded : ∃ t, exec (StreamKind.yuyvh.instr 2 2) (fed 8 [⟨0, []⟩]) = .next t := by
  have h : shows (exec (StreamKind.yuyvh.instr 2 2) (fed 8 [⟨0, []⟩])) (·.reqs) = some [.totalAvailable, .tryRead 8] := by
    decide
  generalize exec _ _ = r at h
  cases r with
  | next t => exact ⟨t, rfl⟩
  | fault _ => cases h
  | refused _ => cases h

theorem witness_ProgressWordsIncrease :
    65535 ≤ 65535 ∧ 65534 < 65535 ∧ 65533 < 65534 ∧ 0 < 1 ∧ ({ State.reset with ctrl := 4 } : State).progen = true ∧
    State.reset.progen = false := by decide

theorem witness_PixelsOutsideTheClipAreKept :
    (fed 4 [⟨4, [0, 0, 0, 0]⟩]).fb.wf = true ∧ (∃ t, exec (.decRgb565 2 1) (fed 4 [⟨4, [0, 0, 0, 0]⟩]) = .next t) ∧
    (∃ t, exec (.decYuyvh 2 2) (fed 8 [⟨0, []⟩]) = .next t) ∧ (2 : Half).toNat ≤ 2 ∧ (2 : Half).toNat / 2 ≤ 1 := by
  refine ⟨by decide, ?_, witness_StreamRequestsAreBounded, by decide, by decide⟩
  have h : shows (exec (.decRgb565 2 1) (fed 4 [⟨4, [0, 0, 0, 0]⟩])) (·.r0) = some 1 := by decide
  generalize exec _ _ = r at h
  cases r with
  | next t => exact ⟨t, rfl⟩
  | fault _ => cases h
  | refused _ => cases h

/-! ### JPEG -/

/-- An engine with the least MCU-row buffer. -/
def jpegFed (inits : List InitAnswer) (mcus : List McuAnswer) : State :=
  { screen bw 16 16 with params := { t0 with mrowBytes := 768 }, bdInits := inits, bdMcus := mcus }

/-- An MCU without an error, and one with. -/
def mcu (err : Byte) : McuAnswer := ⟨err, Vector.replicate 256 7, Vector.replicate 256 8, Vector.replicate 256 9⟩

theorem witness_JpegPreconditionsInOrder :
    ((jpegFed [⟨6, 0⟩] []).bdInits = [⟨6, 0⟩] ∧ (6 : Byte) ≠ 0) ∧ 4 < (5 : Byte).toNat ∧
    (((4 : Byte).toNat, false, 16, 16) ∈ scanTable ∧
      (jpegFed [] []).params.mrowBytes < 16 * (((17 : Half).toNat + 16 - 1) / 16) * 16 * 3) := by decide

theorem witness_DecJpegDecodesAServedImage :
    (jpegFed [⟨0, 4⟩] [mcu 0]).bdInits = [⟨0, 4⟩] ∧ ((4 : Byte).toNat, false, 16, 16) ∈ scanTable ∧
    16 * (((16 : Half).toNat + 16 - 1) / 16) * 16 * 3 ≤ (jpegFed [] []).params.mrowBytes ∧
    (jpegFed [⟨0, 4⟩] [mcu 0]).bdMcus = [mcu 0] ++ [] ∧ (mcu 0).err = 0 ∧
    [mcu 0].length = ((16 : Half).toNat + 16 - 1) / 16 * (((16 : Half).toNat + 16 - 1) / 16) :=
  ⟨rfl, by decide, by decide, rfl, rfl, by decide⟩

theorem witness_DecJpegStopsOnABlockError :
    (jpegFed [⟨0, 0⟩] [mcu 0, mcu 3]).bdInits = [⟨0, 0⟩] ∧ ((0 : Byte).toNat, true, 8, 8) ∈ scanTable ∧
    8 * (((9 : Half).toNat + 8 - 1) / 8) * 8 * 3 ≤ (jpegFed [] []).params.mrowBytes ∧
    (jpegFed [⟨0, 0⟩] [mcu 0, mcu 3]).bdMcus = [mcu 0] ++ mcu 3 :: [] ∧ (mcu 0).err = 0 ∧ (mcu 3).err ≠ 0 ∧
    [mcu 0].length < ((8 : Half).toNat + 8 - 1) / 8 * (((9 : Half).toNat + 8 - 1) / 8) :=
  ⟨rfl, by decide, by decide, rfl, rfl, by decide, by decide⟩

end Sys2Proof.Tests
end

section
/-!
SUPPORT. The decoder reads back what the encoder writes (spec/30_encoding.md R110 to R112).
-/

namespace Sys2Proof

/-! ### Fields of an encoded header -/

/-- The payload bits of every pattern are 0 (R110). -/
theorem pattern_payload (op : Op) : ∀ j < 24, op.pattern.getLsbD j = false := by cases op <;> decide

/-- A single payload bit of a header is the bit of the field put there. -/
theorem getLsbD_header {k j : Nat} (op : Op) (x : BitVec k) (hj : j < 24) :
    (op.pattern ||| x.setWidth 32).getLsbD j = x.getLsbD j := by
  simp only [BitVec.getLsbD_or, pattern_payload op j hj, BitVec.getLsbD_setWidth, show j < 32 by omega, decide_true,
    Bool.true_and, Bool.false_or]

/-- The low bits of the payload are the low bits of the field put there. -/
theorem extractLsb'_header {k n : Nat} (op : Op) (x : BitVec k) (hn : n ≤ 24) :
    (op.pattern ||| x.setWidth 32).extractLsb' 0 n = x.extractLsb' 0 n := by
  apply BitVec.eq_of_getLsbD_eq
  intro j hj
  simp only [BitVec.getLsbD_extractLsb', Nat.zero_add, getLsbD_header op x (show j < 24 by omega)]

theorem lowByte_byteHeader (op : Op) (b : Byte) : lowByte (byteHeader op b) = b :=
  (extractLsb'_header op b (by decide)).trans BitVec.extractLsb'_eq_self

/-- The three channels of a colour word read back. -/
theorem rgbOf_channels (c : RGB) : rgbOf (0#8 ++ c.r ++ c.g ++ c.b) = c := by
  have h1 : (0#8 ++ c.r ++ c.g ++ c.b).extractLsb' 0 8 = c.b := BitVec.extractLsb'_append_eq_right
  have h2 : (0#8 ++ c.r ++ c.g ++ c.b).extractLsb' 8 8 = (0#8 ++ c.r ++ c.g).extractLsb' 0 8 := by
    rw [BitVec.extractLsb'_append_eq_of_le (by omega)]
  have h3 : (0#8 ++ c.r ++ c.g ++ c.b).extractLsb' 16 8 = (0#8 ++ c.r).extractLsb' 0 8 := by
    rw [BitVec.extractLsb'_append_eq_of_le (by omega), BitVec.extractLsb'_append_eq_of_le (by omega)]
  rw [rgbOf, h1, h2, h3, BitVec.extractLsb'_append_eq_right, BitVec.extractLsb'_append_eq_right]

theorem rgbOf_rgbHeader (op : Op) (c : RGB) : rgbOf (rgbHeader op c) = c := by
  have hp : rgbOf op.pattern = ⟨0, 0, 0⟩ := by cases op <;> rfl
  have hc := rgbOf_channels c
  simp only [rgbOf, RGB.mk.injEq] at hp
  obtain ⟨hr, hg, hb⟩ := hp
  rw [rgbOf, rgbHeader, BitVec.extractLsb'_or, BitVec.extractLsb'_or, BitVec.extractLsb'_or, hr, hg, hb]
  exact (by simp [rgbOf] : _ = rgbOf (0#8 ++ c.r ++ c.g ++ c.b)).trans hc

theorem fmtOf_surfHeader (f : Fmt) : fmtOf (Op.surfCfg.pattern ||| f.code.setWidth 32) = f := by
  cases f <;> rfl

/-! ### Decoding an encoded command -/

/-- Every command's encoding begins with a header of its row (R111, R120). -/
theorem header_of_encode (i : Instr) : Laws.Header.Statement i := by
  cases i with
  | nop => exact Laws.Header.nop
  | wrcsr b v => exact Laws.Header.wrcsr b v
  | rdcsr b => exact Laws.Header.rdcsr b
  | clrstat m => exact Laws.Header.clrstat m
  | palLoad m es => exact Laws.Header.palLoad m es
  | nearLab c => exact Laws.Header.nearLab c
  | nearRgb c => exact Laws.Header.nearRgb c
  | torgb b => exact Laws.Header.torgb b
  | tolab b => exact Laws.Header.tolab b
  | indexof b => exact Laws.Header.indexof b
  | normRgb p q => exact Laws.Header.normRgb p q
  | normLab p q => exact Laws.Header.normLab p q
  | surfCfg f w h p => exact Laws.Header.surfCfg f w h p
  | setidx x y v => exact Laws.Header.setidx x y v
  | getidx x y => exact Laws.Header.getidx x y
  | flush => exact Laws.Header.flush
  | rdfb a => exact Laws.Header.rdfb a
  | setpix x y c => exact Laws.Header.setpix x y c
  | diffReset => exact Laws.Header.diffReset
  | rdrow sel x => exact Laws.Header.rdrow sel x
  | decRgb565 w h => exact Laws.Header.decRgb565 w h
  | decYuyv w h => exact Laws.Header.decYuyv w h
  | decYuyvh w h => exact Laws.Header.decYuyvh w h
  | decYuv3l w h => exact Laws.Header.decYuv3l w h
  | decJpeg w h => exact Laws.Header.decJpeg w h

/-- The header of an encoded command is accepted as one of its row (R113 step 1, R120). -/
theorem headerOp_encode {i : Instr} {h : Word} {ws : List Word} (hw : i.wellFormed = true) (he : encode i = h :: ws) :
    headerOp h = .ok i.row := by
  obtain ⟨h', ws', he', hm, -⟩ := header_of_encode i hw
  obtain ⟨rfl, rfl⟩ : h' = h ∧ ws' = ws := by simpa [he'] using he
  refine headerOp_ok_iff.mpr ⟨hm, fun ⟨hr, h3⟩ => ?_⟩
  cases i with
  | surfCfg f w e p =>
    obtain ⟨rfl, -⟩ := List.cons.inj he
    rw [extractLsb'_header .surfCfg f.code (by decide), BitVec.extractLsb'_eq_self] at h3
    cases f <;> exact absurd h3 (by decide)
  | _ => exact absurd hr nofun

/-- An encoded command decodes as the operands of its row say. -/
theorem decode_encode_eq {i : Instr} {h : Word} {ws : List Word} (hw : i.wellFormed = true) (he : encode i = h :: ws)
    (rest : List Word) : decode (encode i ++ rest) = decodeOperands i.row h (ws ++ rest) := by
  rw [he, List.cons_append, decode, headerOp_encode hw he]

/-- A flag above a half-word field in the payload: the two read back (R112: `PAL_LOAD`, `RDROW`). -/
theorem flagged_half (op : Op) (b : Bool) (x : Half) :
    (op.pattern ||| (BitVec.ofBool b ++ x).setWidth 32).extractLsb' 0 16 = x ∧
      (op.pattern ||| (BitVec.ofBool b ++ x).setWidth 32).getLsbD 16 = b := by
  refine ⟨(extractLsb'_header op _ (by decide)).trans BitVec.extractLsb'_append_eq_right, ?_⟩
  rw [getLsbD_header op _ (by decide), BitVec.getLsbD_append]
  simp

/-- Decoding the words of a well-formed command gives it back and leaves the words after it (R110 to R112). -/
theorem decode_encode (i : Instr) (rest : List Word) (hw : i.wellFormed = true) :
    decode (encode i ++ rest) = .ok (i, rest) := by
  cases i with
  | nop | flush | diffReset => rfl
  | nearLab c => rfl
  | getidx x y | decRgb565 x y | decYuyv x y | decYuyvh x y | decYuv3l x y | decJpeg x y =>
    refine (decode_encode_eq hw rfl rest).trans ?_
    simp only [Instr.row, decodeOperands, List.cons_append, List.nil_append, loHalf_pairWord, hiHalf_pairWord]
  | wrcsr b v | setidx x y b =>
    refine (decode_encode_eq hw rfl rest).trans ?_
    simp only [Instr.row, decodeOperands, List.cons_append, List.nil_append, lowByte_byteHeader, loHalf_pairWord,
      hiHalf_pairWord]
  | rdcsr b | torgb b | tolab b | indexof b =>
    refine (decode_encode_eq hw rfl rest).trans ?_
    simp only [Instr.row, decodeOperands, List.nil_append, lowByte_byteHeader]
  | clrstat m =>
    refine (decode_encode_eq hw rfl rest).trans ?_
    simp only [Instr.row, decodeOperands, List.nil_append, extractLsb'_header (n := 3) .clrstat m (by decide),
      BitVec.extractLsb'_eq_self]
  | rdfb a =>
    refine (decode_encode_eq hw rfl rest).trans ?_
    simp only [Instr.row, decodeOperands, List.nil_append, extractLsb'_header (n := 24) .rdfb a (by decide),
      BitVec.extractLsb'_eq_self]
  | nearRgb c =>
    refine (decode_encode_eq hw rfl rest).trans ?_
    simp only [Instr.row, decodeOperands, List.nil_append, rgbOf_rgbHeader]
  | setpix x y c =>
    refine (decode_encode_eq hw rfl rest).trans ?_
    simp only [Instr.row, decodeOperands, List.cons_append, List.nil_append, rgbOf_rgbHeader, loHalf_pairWord,
      hiHalf_pairWord]
  | normRgb p q | normLab p q =>
    refine (decode_encode_eq hw rfl rest).trans ?_
    cases p <;> cases q <;> rfl
  | surfCfg f w h p =>
    refine (decode_encode_eq hw rfl rest).trans ?_
    simp only [Instr.row, decodeOperands, List.cons_append, List.nil_append, fmtOf_surfHeader, loHalf_pairWord,
      hiHalf_pairWord]
  | rdrow sel x =>
    refine (decode_encode_eq hw rfl rest).trans ?_
    obtain ⟨hx, hs⟩ := flagged_half .rdrow sel x
    simp only [Instr.row, decodeOperands, loHalf, List.nil_append, hx, hs]
  | palLoad mono es =>
    refine (decode_encode_eq hw rfl rest).trans ?_
    obtain ⟨hn, hm⟩ := flagged_half .palLoad mono (BitVec.ofNat 16 es.length)
    have hlt : es.length < 2 ^ 16 := Nat.lt_succ_of_le (of_decide_eq_true hw)
    simp only [Instr.row, decodeOperands, hn, hm, BitVec.toNat_ofNat, Nat.mod_eq_of_lt hlt, decodeEntries_encode]

end Sys2Proof
end

section
/-!
SUPPORT. What a step of an engine that fetches can be (spec/30_encoding.md R113): nothing, a wait for operand words, a halt on
words that are no command, or the command that the words spell.
-/

namespace Sys2Proof.Machine

/-! ### The words taken -/

theorem headerOp_ne_truncated (h : Word) : headerOp h ≠ .error .truncated := by
  unfold headerOp
  split
  · nofun
  · split
    · nofun
    · split <;> nofun

/-- Operand words that are awaited are missing (R113 step 2). -/
theorem fetchOperands_wait {h : Word} {taken q words : List Word} (hf : fetchOperands h taken q = .wait words) :
    words = h :: (taken ++ q) ∧ operandsPending words = true := by
  unfold fetchOperands at hf
  dsimp only at hf
  split at hf
  next hlt =>
    obtain rfl : h :: (taken ++ q) = words := by simpa using hf
    refine ⟨rfl, operandsPending_cons.mpr ?_⟩
    unfold commandLength at hlt
    split at hlt
    next op ho => exact ⟨op, ho, by rw [List.length_append]; omega⟩
    next => omega
  next => split at hf <;> cases hf

/-- Words that are refused are no command, and none is missing (R113 step 3, R122). -/
theorem fetchOperands_illegal {h : Word} {taken q rest : List Word} (hf : fetchOperands h taken q = .illegal rest) :
    ∃ e, decode (h :: (taken ++ q)) = .error e ∧ e ≠ .truncated := by
  unfold fetchOperands at hf
  dsimp only at hf
  split at hf
  · cases hf
  next hge =>
    cases ho : headerOp h with
    | error e =>
      refine ⟨e, by simp only [decode, ho], ?_⟩
      rintro rfl
      exact headerOp_ne_truncated h ho
    | ok op =>
      simp only [commandLength, ho, Nat.add_sub_cancel_left] at hf hge
      generalize hn : operandCount op h - taken.length = n at hf hge
      have hlen : operandCount op h ≤ (taken ++ q.take n).length := by
        rw [List.length_append, List.length_take]; omega
      have hall := decode_append (q.drop n) ho hlen
      rw [List.append_assoc, List.take_append_drop] at hall
      cases hd : decode (h :: (taken ++ q.take n)) with
      | ok r => simp only [hd] at hf; cases hf
      | error e =>
        refine ⟨e, by rw [hall, hd], ?_⟩
        rintro rfl
        simp only [decode, ho, decodeOperands_truncated_iff] at hd
        omega

/-- The header alone decides first (R113 step 1). -/
theorem fetchHeader_illegal {h : Word} {q rest : List Word} (hf : fetchHeader h q = .illegal rest) :
    ∃ e, decode (h :: q) = .error e ∧ e ≠ .truncated := by
  cases ho : headerOp h with
  | error e =>
    refine ⟨e, by simp only [decode, ho], ?_⟩
    rintro rfl
    exact headerOp_ne_truncated h ho
  | ok op => exact fetchOperands_illegal (taken := []) (by rwa [fetchHeader_of_ok q ho] at hf)

theorem fetchHeader_wait {h : Word} {q words : List Word} (hf : fetchHeader h q = .wait words) :
    operandsPending words = true := by
  cases ho : headerOp h with
  | error e => rw [fetchHeader_of_error q ho] at hf; cases hf
  | ok op => rw [fetchHeader_of_ok q ho] at hf; exact (fetchOperands_wait hf).2

/-! ### The step -/

/-- The words that a step of a fetching engine looks at: those in the queue, behind those taken before. -/
def State.FetchWords (s : State) (ws : List Word) : Prop :=
  ws = s.cmdq ∨ ∃ taken, s.seq = .operands taken ∧ ws = taken ++ s.cmdq

/-- Everything a step can do that takes words: nothing, wait for more of them, halt on words that are no command, or run a
command (R113, R335, R342). -/
def FetchSteps (s : State) (r : Result) : Prop :=
  r = .next { s with seq := .idle } ∨
  (∃ words, operandsPending words = true ∧ r = .next { s with cmdq := [], seq := .operands words }) ∨
  (∃ ws rest e, s.FetchWords ws ∧ decode ws = .error e ∧ e ≠ .truncated ∧ r = .next ({ s with cmdq := rest } : State).halt) ∨
  ∃ i rest, r = exec i { s with cmdq := rest, seq := .idle }

theorem runFetched_steps {s : State} {f : Fetched} {ws : List Word} (hw : s.FetchWords ws)
    (hwait : ∀ words, f = .wait words → operandsPending words = true)
    (hill : ∀ rest, f = .illegal rest → ∃ e, decode ws = .error e ∧ e ≠ .truncated) : FetchSteps s (runFetched f s) := by
  cases f with
  | wait words => exact .inr (.inl ⟨words, hwait words rfl, rfl⟩)
  | illegal rest =>
    obtain ⟨e, hd, he⟩ := hill rest rfl
    exact .inr (.inr (.inl ⟨ws, rest, e, hw, hd, he, rfl⟩))
  | command i rest => exact .inr (.inr (.inr ⟨i, rest, rfl⟩))

theorem fetchNext_steps {s t : State} (ht : t = { s with seq := .idle }) : FetchSteps s (fetchNext t) := by
  subst ht
  unfold fetchNext
  split
  · exact .inl rfl
  next h q hq =>
    exact runFetched_steps (s := s) (.inl hq.symm) (fun _ => fetchHeader_wait) (fun _ => fetchHeader_illegal)

/-- A step of an engine that neither is halted nor decodes takes words (R113). -/
theorem step_fetches {s : State} (hh : s.halted = false) (hd : s.decoding = false) : FetchSteps s (step s) := by
  cases hs : s.seq with
  | idle =>
    rw [step_of_idle hh hs]
    exact fetchNext_steps (by rw [← hs])
  | operands taken =>
    rw [step_of_operands hh hs]
    cases taken with
    | nil => exact fetchNext_steps rfl
    | cons h ws =>
      exact runFetched_steps (.inr ⟨_, hs, rfl⟩) (fun _ hf => (fetchOperands_wait hf).2) (fun _ => fetchOperands_illegal)
  | awaitTotal | awaitRead | awaitInit | awaitMcu => simp [State.decoding, hs] at hd

/-- A whole command behind words taken before (R113). -/
theorem fetchOperands_of_decode {h : Word} {taken q rest : List Word} {i : Instr} (hp : operandsPending (h :: taken) = true)
    (hd : decode (h :: (taken ++ q)) = .ok (i, rest)) : fetchOperands h taken q = .command i rest := by
  obtain ⟨op, ho, hlt⟩ := operandsPending_cons.mp hp
  have hl : operandCount op h ≤ (taken ++ q).length := by
    by_contra hc
    have htr := (decodeOperands_truncated_iff op h (taken ++ q)).mpr (by omega)
    simp [decode, ho, htr] at hd
  rw [fetchOperands_of_enough ho (by omega) hl, hd]

end Sys2Proof.Machine
end

section
/-!
SUPPORT. How any decode command ends, started or resumed: one disjunction for all five, for any property that what a decode
does on the way keeps; and the frames of a decode as instances of it (spec/44_stream_decode.md, spec/45_jpeg_mcu.md).
-/

namespace Sys2Proof.Machine

/-! ### What a decode keeps on the way -/

/-- A property that everything a byte-stream decode does to the state before it ends or waits keeps (R271 to R275). -/
structure StreamKeeps (P : State → Prop) : Prop where
  request : ∀ q s, P s → P (State.request q s)
  progress : ∀ r n s, P s → P (State.progress r n s)
  viewSet : ∀ x y c s, P s → P (State.viewSet x y c s)
  beginRows : ∀ s, P s → P s.beginRows
  totals : ∀ l s, P s → P { s with bsTotals := l }
  afterRead : ∀ l q s, P s → P (State.afterRead l q s)

/-- A property that everything a `DEC_JPEG` does to the state before it ends or waits keeps (R310, R311). -/
structure JpegKeeps (P : State → Prop) : Prop where
  request : ∀ q s, P s → P (State.request q s)
  progress : ∀ r n s, P s → P (State.progress r n s)
  viewSet : ∀ x y c s, P s → P (State.viewSet x y c s)
  beginRows : ∀ s, P s → P s.beginRows
  setBderr : ∀ v s, P s → P (State.setBderr v s)
  inits : ∀ l s, P s → P { s with bdInits := l }
  afterMcus : ∀ l q s, P s → P (State.afterMcus l q s)

/-- A property that everything a decode of either kind does keeps. -/
structure DecodeKeeps (P : State → Prop) : Prop extends StreamKeeps P, JpegKeeps P

theorem StreamKeeps.and {P Q : State → Prop} (hp : StreamKeeps P) (hq : StreamKeeps Q) :
    StreamKeeps (fun s => P s ∧ Q s) where
  request q s h := ⟨hp.request q s h.1, hq.request q s h.2⟩
  progress r n s h := ⟨hp.progress r n s h.1, hq.progress r n s h.2⟩
  viewSet x y c s h := ⟨hp.viewSet x y c s h.1, hq.viewSet x y c s h.2⟩
  beginRows s h := ⟨hp.beginRows s h.1, hq.beginRows s h.2⟩
  totals l s h := ⟨hp.totals l s h.1, hq.totals l s h.2⟩
  afterRead l q s h := ⟨hp.afterRead l q s h.1, hq.afterRead l q s h.2⟩

theorem JpegKeeps.and {P Q : State → Prop} (hp : JpegKeeps P) (hq : JpegKeeps Q) : JpegKeeps (fun s => P s ∧ Q s) where
  request q s h := ⟨hp.request q s h.1, hq.request q s h.2⟩
  progress r n s h := ⟨hp.progress r n s h.1, hq.progress r n s h.2⟩
  viewSet x y c s h := ⟨hp.viewSet x y c s h.1, hq.viewSet x y c s h.2⟩
  beginRows s h := ⟨hp.beginRows s h.1, hq.beginRows s h.2⟩
  setBderr v s h := ⟨hp.setBderr v s h.1, hq.setBderr v s h.2⟩
  inits l s h := ⟨hp.inits l s h.1, hq.inits l s h.2⟩
  afterMcus l q s h := ⟨hp.afterMcus l q s h.1, hq.afterMcus l q s h.2⟩

theorem DecodeKeeps.and {P Q : State → Prop} (hp : DecodeKeeps P) (hq : DecodeKeeps Q) :
    DecodeKeeps (fun s => P s ∧ Q s) :=
  { hp.toStreamKeeps.and hq.toStreamKeeps, hp.toJpegKeeps.and hq.toJpegKeeps with }

/-! ### Where a decode waits -/

/-- What waits is within its bounds, for these parameters. -/
def Sequencer.fits (p : Params) : Sequencer → Bool
  | .operands taken => operandsPending taken
  | .awaitRead j => j.fits p
  | .awaitMcu j => j.fits p
  | .idle | .awaitTotal _ _ _ | .awaitInit _ _ => true

theorem sequencerFits_eq (s : State) : s.sequencerFits = s.seq.fits s.params := by
  unfold State.sequencerFits Sequencer.fits
  cases s.seq <;> rfl

/-- A decode that stood at `q₀` comes to wait at `q`: within its bounds, if it was before. -/
def Sequencer.Leads (p : Params) (q₀ q : Sequencer) : Prop := q ≠ .idle ∧ (q₀.fits p = true → q.fits p = true)

/-- Everything a decode can come to, `P` holding of the state it leaves: success, failure, a wait `q` with `Q q`, or the
refusal of a broken protocol (R272, R275, R330, R351). -/
def DecodeEnds (P : State → Prop) (Q : Sequencer → Prop) (r : Result) : Prop :=
  (∃ u, P u ∧ r = succeedDecode u) ∨
  (∃ u rc, P u ∧ rc ≠ .ok ∧ r = failDecode rc u) ∨
  (∃ u q, P u ∧ Q q ∧ r = .next { u with seq := q }) ∨
  r = .refused .byteSourceProtocol

/-- A decode that goes on has retired with a result in `R0`, or waits. -/
theorem DecodeEnds.next {P : State → Prop} {Q : Sequencer → Prop} {r : Result} {t : State} (h : DecodeEnds P Q r)
    (hr : r = .next t) :
    (∃ u v rc, P u ∧ t = (u.setR0 v).retire rc) ∨ ∃ u q, P u ∧ Q q ∧ t = { u with seq := q } := by
  rcases h with ⟨u, hu, he⟩ | ⟨u, rc, hu, -, he⟩ | ⟨u, q, hu, hq, he⟩ | he <;> rw [hr] at he
  · exact .inl ⟨u, 1, .ok, hu, Host.Outcome.next.inj he⟩
  · exact .inl ⟨u, 0, rc, hu, Host.Outcome.next.inj he⟩
  · exact .inr ⟨u, q, hu, hq, Host.Outcome.next.inj he⟩
  · cases he

/-! ### Byte-stream decoders -/

theorem StreamKeeps.runLines {P : State → Prop} (K : StreamKeeps P) (k : StreamKind) (w h : Half) (left y : Nat)
    (pend : Option (List Byte)) (l1 l2 : List Byte) {s : State} (hs : P s) {p : Params} {q₀ : Sequencer}
    (hq : q₀.fits p = true → w.toNat ≤ p.lineMax ∧ y + left ≤ k.rows h.toNat ∧
      (pend.getD []).length ≤ k.lineBytes w.toNat ∧ l1.length ≤ k.lineBytes w.toNat ∧ l2.length ≤ k.lineBytes w.toNat) :
    DecodeEnds P (q₀.Leads p) (runLines k w h left y pend l1 l2 s) := by
  rcases runLines_ends (P := P) (k := k) (w := w) (h := h) (fun y s => beforeLine_keeps K.progress)
    (fun l q s _ _ => K.afterRead l q s)
    (fun y a b c s => afterLine_keeps K.progress (fun i j d t _ _ => K.viewSet i j d t))
    (fun a b s => afterFrame_keeps K.progress (fun i j d t _ _ => K.viewSet i j d t)) left y pend l1 l2 s hs with
    ⟨u, hu, he⟩ | ⟨u, hu, he⟩ | ⟨u, j, g, a, b, hu, -, -, hj, hg, hab, he⟩ | he
  · exact .inl ⟨u, hu, he⟩
  · exact .inr (.inl ⟨u, _, hu, by decide, he⟩)
  · refine .inr (.inr (.inl ⟨u, _, hu, ⟨by nofun, fun hf => ?_⟩, he⟩))
    obtain ⟨hw, hy, h0, h1, h2⟩ := hq hf
    obtain ⟨ha, hb⟩ := hab h0 h1 h2
    simp only [Sequencer.fits, StreamJob.fits, Bool.and_eq_true, decide_eq_true_eq]
    exact ⟨⟨⟨⟨hw, by omega⟩, hg⟩, ha⟩, hb⟩
  · exact .inr (.inr (.inr he))

theorem streamPrecondition_ne_ok {p : Params} {k : StreamKind} {w h : Half} {v : Word} {rc : Code}
    (hp : streamPrecondition p k w h v = some rc) : rc ≠ .ok := by
  unfold streamPrecondition at hp
  rintro rfl
  repeat' split at hp
  all_goals cases hp

theorem lineMax_of_streamPrecondition {p : Params} {k : StreamKind} {w h : Half} {v : Word}
    (hp : streamPrecondition p k w h v = none) : w.toNat ≤ p.lineMax := by
  by_contra hc
  have hlt : p.lineMax < w.toNat := Nat.lt_of_not_le hc
  unfold streamPrecondition at hp
  simp only [hlt, if_true] at hp
  repeat' split at hp
  all_goals cases hp

theorem StreamKeeps.resumeTotal {P : State → Prop} (K : StreamKeeps P) (k : StreamKind) (w h : Half) {s : State}
    (hs : P s) (q₀ : Sequencer) : DecodeEnds P (q₀.Leads s.params) (resumeTotal k w h s) := by
  unfold Machine.resumeTotal
  split
  · exact .inr (.inr (.inl ⟨s, _, hs, ⟨by nofun, fun _ => rfl⟩, rfl⟩))
  next v rest _ =>
    unfold runStream
    split
    next rc hp => exact .inr (.inl ⟨_, rc, K.totals rest s hs, streamPrecondition_ne_ok hp, rfl⟩)
    next hp =>
      exact K.runLines k w h _ 0 none [] [] (K.beginRows _ (K.totals rest s hs))
        (fun _ => ⟨lineMax_of_streamPrecondition hp, Nat.le_of_eq (Nat.zero_add _), Nat.zero_le _, Nat.zero_le _,
          Nat.zero_le _⟩)

theorem StreamKeeps.resumeRead {P : State → Prop} (K : StreamKeeps P) (j : StreamJob) {s : State} (hs : P s) :
    DecodeEnds P ((Sequencer.awaitRead j).Leads s.params) (resumeRead j s) := by
  refine K.runLines _ _ _ _ _ _ _ _ hs (fun hf => ?_)
  simp only [Sequencer.fits, StreamJob.fits, Bool.and_eq_true, decide_eq_true_eq] at hf
  obtain ⟨⟨⟨⟨hw, hrow⟩, h0⟩, h1⟩, h2⟩ := hf
  exact ⟨hw, by omega, Nat.le_of_lt h0, h1, h2⟩

/-! ### DEC_JPEG -/

theorem JpegKeeps.runMcuRows {P : State → Prop} (K : JpegKeeps P) (scan : ScanType) (w h : Half) (left my : Nat)
    (pend : Option (Nat × List (List RGB))) {s : State} (hs : P s) {p : Params} {q₀ : Sequencer}
    (hq : q₀.fits p = true → mrowNeed scan w.toNat ≤ p.mrowBytes ∧ my + left ≤ mcuRowCount scan h.toNat ∧
      ∀ m, pend = some m → MrowHolds scan m.1 m.2) :
    DecodeEnds P (q₀.Leads p) (runMcuRows scan w h left my pend s) := by
  rcases runMcuRows_ends (P := P) (scan := scan) (w := w) (h := h) (fun y => K.progress y _)
    (fun l q s _ _ => K.afterMcus l q s) (fun y m s => blit_keeps m y s (fun i j c t _ _ => K.viewSet i j c t))
    left my pend s hs with
    ⟨u, hu, he⟩ | ⟨u, code, hu, -, he⟩ | ⟨u, j, x, m, hu, -, -, hj, hx, hm, he⟩
  · exact .inl ⟨u, hu, he⟩
  · exact .inr (.inl ⟨_, _, K.setBderr code u hu, by decide, he⟩)
  · refine .inr (.inr (.inl ⟨u, _, hu, ⟨by nofun, fun hf => ?_⟩, he⟩))
    obtain ⟨hneed, hy, hpend⟩ := hq hf
    obtain ⟨hlen, hcols⟩ := hm hpend
    simp only [Sequencer.fits, JpegJob.fits, Bool.and_eq_true, decide_eq_true_eq, beq_iff_eq, List.all_eq_true]
    exact ⟨⟨⟨⟨hneed, by omega⟩, hx⟩, hlen⟩, hcols⟩

theorem JpegKeeps.resumeInit {P : State → Prop} (K : JpegKeeps P) (w h : Half) {s : State} (hs : P s) (q₀ : Sequencer) :
    DecodeEnds P (q₀.Leads s.params) (resumeInit w h s) := by
  unfold Machine.resumeInit
  split
  · exact .inr (.inr (.inl ⟨s, _, hs, ⟨by nofun, fun _ => rfl⟩, rfl⟩))
  next a rest _ =>
    have hi := K.inits rest s hs
    unfold runJpeg
    split
    · exact .inr (.inl ⟨_, _, K.setBderr a.err _ hi, by decide, rfl⟩)
    · split
      · exact .inr (.inl ⟨_, _, hi, by decide, rfl⟩)
      next scan _ =>
        split
        · exact .inr (.inl ⟨_, _, hi, by decide, rfl⟩)
        next hneed =>
          exact K.runMcuRows scan w h _ 0 none (K.beginRows _ hi)
            (fun _ => ⟨Nat.le_of_not_lt hneed, Nat.le_of_eq (Nat.zero_add _), by nofun⟩)

theorem JpegKeeps.resumeMcu {P : State → Prop} (K : JpegKeeps P) (j : JpegJob) {s : State} (hs : P s) :
    DecodeEnds P ((Sequencer.awaitMcu j).Leads s.params) (resumeMcu j s) := by
  refine K.runMcuRows _ _ _ _ _ _ hs (fun hf => ?_)
  simp only [Sequencer.fits, JpegJob.fits, Bool.and_eq_true, decide_eq_true_eq, beq_iff_eq, List.all_eq_true] at hf
  obtain ⟨⟨⟨⟨hneed, hmy⟩, -⟩, hlen⟩, hcols⟩ := hf
  refine ⟨hneed, by omega, ?_⟩
  rintro _ ⟨⟩
  exact ⟨hlen, hcols⟩

/-! ### The commands and the steps -/

/-- How a byte-stream decode command ends. -/
theorem exec_stream_ends {P : State → Prop} (K : StreamKeeps P) {i : Instr} (hi : i.isStream = true) {s : State} (hs : P s) :
    DecodeEnds P (Sequencer.idle.Leads s.params) (exec i s) := by
  have hstart : ∀ k w h, DecodeEnds P (Sequencer.idle.Leads s.params) (startStream k w h s) :=
    fun k w h => K.resumeTotal k w h (K.request _ s hs) .idle
  cases i <;> first | exact hstart _ _ _ | cases hi

/-- How `DEC_JPEG` ends. -/
theorem exec_jpeg_ends {P : State → Prop} (K : JpegKeeps P) (w h : Half) {s : State} (hs : P s) :
    DecodeEnds P (Sequencer.idle.Leads s.params) (exec (.decJpeg w h) s) :=
  K.resumeInit w h (K.request _ _ (K.setBderr 0 s hs)) .idle

theorem isDecode_iff {i : Instr} : i.isDecode = true ↔ i.isStream = true ∨ ∃ w h, i = .decJpeg w h := by
  cases i <;> simp [Instr.isDecode, Instr.isStream]

theorem usesView_of_isDecode {i : Instr} (h : i.isDecode = true) : i.usesView = true := by
  cases i <;> first | rfl | cases h

theorem isQuiet_of_isDecode {i : Instr} (h : i.isDecode = true) : i.isQuiet = false := by
  cases i <;> first | rfl | cases h

/-- How a decode command ends. -/
theorem exec_decode_ends {P : State → Prop} (K : DecodeKeeps P) {i : Instr} (hi : i.isDecode = true) {s : State}
    (hs : P s) : DecodeEnds P (Sequencer.idle.Leads s.params) (exec i s) := by
  rcases isDecode_iff.mp hi with h | ⟨w, h, rfl⟩
  · exact exec_stream_ends K.toStreamKeeps h hs
  · exact exec_jpeg_ends K.toJpegKeeps w h hs

/-- How a step of a waiting decode ends. -/
theorem step_decode_ends {P : State → Prop} (K : DecodeKeeps P) {s : State} (hh : s.halted = false)
    (hd : s.decoding = true) (hs : P { s with seq := .idle }) : DecodeEnds P (s.seq.Leads s.params) (step s) := by
  cases hq : s.seq with
  | idle | operands => simp [State.decoding, hq] at hd
  | awaitTotal k w h =>
    rw [step_of_awaitTotal hh hq]
    exact K.toStreamKeeps.resumeTotal k w h hs _
  | awaitRead j =>
    rw [step_of_awaitRead hh hq]
    exact K.toStreamKeeps.resumeRead j hs
  | awaitInit w h =>
    rw [step_of_awaitInit hh hq]
    exact K.toJpegKeeps.resumeInit w h hs _
  | awaitMcu j =>
    rw [step_of_awaitMcu hh hq]
    exact K.toJpegKeeps.resumeMcu j hs

/-! ### The frame of a decode -/

/-- What a decode may change before it ends or waits; every other field of `t` is that of `s`. -/
def DecodeFrame (s t : State) : Prop :=
  t = { s with
    fb := t.fb, fbc := t.fbc, choices := t.choices, notfound := t.notfound, sat := t.sat, thisRow := t.thisRow
    nextRow := t.nextRow, curRow := t.curRow, curValid := t.curValid, rowsOfDecode := t.rowsOfDecode, progq := t.progq
    reqs := t.reqs, bderr := t.bderr, bsTotals := t.bsTotals, bsReads := t.bsReads, bdInits := t.bdInits
    bdMcus := t.bdMcus }

/-- The frame as an equation of states. -/
theorem DecodeFrame.eq {s t : State} (h : DecodeFrame s t) : t = { s with
    fb := t.fb, fbc := t.fbc, choices := t.choices, notfound := t.notfound, sat := t.sat, thisRow := t.thisRow
    nextRow := t.nextRow, curRow := t.curRow, curValid := t.curValid, rowsOfDecode := t.rowsOfDecode, progq := t.progq
    reqs := t.reqs, bderr := t.bderr, bsTotals := t.bsTotals, bsReads := t.bsReads, bdInits := t.bdInits
    bdMcus := t.bdMcus } := h

section

variable {s t : State} (h : DecodeFrame s t)

include h

theorem DecodeFrame.r0 : t.r0 = s.r0 := by rw [h.eq]
theorem DecodeFrame.r1 : t.r1 = s.r1 := by rw [h.eq]
theorem DecodeFrame.r2 : t.r2 = s.r2 := by rw [h.eq]
theorem DecodeFrame.r3 : t.r3 = s.r3 := by rw [h.eq]
theorem DecodeFrame.err : t.err = s.err := by rw [h.eq]
theorem DecodeFrame.fails : t.fails = s.fails := by rw [h.eq]
theorem DecodeFrame.cmdcnt : t.cmdcnt = s.cmdcnt := by rw [h.eq]
theorem DecodeFrame.ctrl : t.ctrl = s.ctrl := by rw [h.eq]
theorem DecodeFrame.acc : t.acc = s.acc := by rw [h.eq]
theorem DecodeFrame.fmt : t.fmt = s.fmt := by rw [h.eq]
theorem DecodeFrame.surfW : t.surfW = s.surfW := by rw [h.eq]
theorem DecodeFrame.surfH : t.surfH = s.surfH := by rw [h.eq]
theorem DecodeFrame.plut : t.plut = s.plut := by rw [h.eq]
theorem DecodeFrame.pal : t.pal = s.pal := by rw [h.eq]
theorem DecodeFrame.mono : t.mono = s.mono := by rw [h.eq]
theorem DecodeFrame.cmdq : t.cmdq = s.cmdq := by rw [h.eq]
theorem DecodeFrame.rspq : t.rspq = s.rspq := by rw [h.eq]
theorem DecodeFrame.halted : t.halted = s.halted := by rw [h.eq]
theorem DecodeFrame.seq : t.seq = s.seq := by rw [h.eq]
theorem DecodeFrame.params : t.params = s.params := by rw [h.eq]
theorem DecodeFrame.dropped : t.dropped = s.dropped := by rw [h.eq]

end

theorem decodeFrame_refl (s : State) : DecodeFrame s s := rfl

theorem decodeFrame_keeps (s : State) : DecodeKeeps (DecodeFrame s) where
  request q t h := by unfold DecodeFrame at *; rw [h]; rfl
  progress r n t h := by
    unfold DecodeFrame State.progress at *
    split
    · rw [h]; rfl
    · exact h
  viewSet x y c t h := by
    obtain ⟨_, _, _, _, _, _, _, _, _, hv⟩ := viewSet_shape x y c t
    unfold DecodeFrame at *
    rw [hv, h]
  beginRows t h := by unfold DecodeFrame at *; rw [h]; rfl
  setBderr v t h := by unfold DecodeFrame at *; rw [h]; rfl
  totals l t h := by unfold DecodeFrame at *; rw [h]
  inits l t h := by unfold DecodeFrame at *; rw [h]
  afterRead l q t h := by unfold DecodeFrame at *; rw [h]; rfl
  afterMcus l q t h := by unfold DecodeFrame at *; rw [h]; rfl

/-- A byte-stream decode leaves the block decoder's side alone. -/
theorem blockSide_keeps (s : State) :
    StreamKeeps (fun t => t.bderr = s.bderr ∧ t.bdInits = s.bdInits ∧ t.bdMcus = s.bdMcus) where
  request _ _ h := h
  progress _ _ t h := by simpa using h
  viewSet _ _ _ t h := by simpa using h
  beginRows _ h := h
  totals _ _ h := h
  afterRead _ _ _ h := h

/-- `DEC_JPEG` leaves the ByteSource's answers alone. -/
theorem byteSide_keeps (s : State) : JpegKeeps (fun t => t.bsTotals = s.bsTotals ∧ t.bsReads = s.bsReads) where
  request _ _ h := h
  progress _ _ t h := by simpa using h
  viewSet _ _ _ t h := by simpa using h
  beginRows _ h := h
  setBderr _ _ h := h
  inits _ _ h := h
  afterMcus _ _ _ h := h

/-- A decode does not clear a sticky flag. -/
theorem flagsGrow_keeps (s : State) : DecodeKeeps (FlagsGrow s) where
  request _ _ h := h
  progress r n _ h := flagsGrow_progress r n h
  viewSet x y c _ h := flagsGrow_viewSet x y c h
  beginRows _ h := h
  setBderr _ _ h := h
  totals _ _ h := h
  inits _ _ h := h
  afterRead _ _ _ h := h
  afterMcus _ _ _ h := h

/-- A decode changes no byte beyond the surface. -/
theorem sameBeyond_keeps (s : State) : DecodeKeeps (SameBeyond s) where
  request _ _ h := h
  progress _ _ _ h := sameBeyond_of_eq h (by simp) (by simp) (by simp)
  viewSet x y c _ h := sameBeyond_viewSet x y c h
  beginRows _ h := h
  setBderr _ _ h := h
  totals _ _ h := h
  inits _ _ h := h
  afterRead _ _ _ h := h
  afterMcus _ _ _ h := h

/-- A decode keeps the invariant on the way. -/
theorem inv_keeps : DecodeKeeps State.Inv where
  request q _ h := inv_request h q
  progress r n _ h := inv_progress h r n
  viewSet x y c _ h := inv_viewSet h x y c
  beginRows _ h := inv_beginRows h
  setBderr v _ h := inv_setBderr h v
  totals l _ h := inv_bsTotals h l
  inits l _ h := inv_bdInits h l
  afterRead l q _ h := inv_afterRead h l q
  afterMcus l q _ h := inv_afterMcus h l q

end Sys2Proof.Machine
end

section
/-!
SUPPORT. What a command that is no decode leads to, case by case: the one place where the meanings of these twenty commands are
taken apart. A result word is left open, since what it is matters to no statement of this file; the tables, the registers and
the surface that a command sets are given with their guards.
-/

namespace Sys2Proof.Machine

/-- `Runs s i t`: the command `i`, no decode, leads from `s` to `t`. -/
inductive Runs (s : State) : Instr → State → Prop where
  | nop : Runs s .nop s.retireQuiet
  | rdcsr (csr : Byte) : Runs s (.rdcsr csr) (s.pushRsp (s.readCsr csr)).retireQuiet
  | ctrlKept (v : Word) (hv : ctrlLegal v = true) (hq : qmodeField v = qmodeField s.ctrl) :
      Runs s (.wrcsr 0x03 v) (({ s with ctrl := v } : State).retire .ok)
  | ctrlNew (v : Word) (hv : ctrlLegal v = true) :
      Runs s (.wrcsr 0x03 v) (({ s.invalidate with ctrl := v } : State).retire .ok)
  | acc (v : Word) : Runs s (.wrcsr 0x04 v) (({ s with acc := accStored v } : State).retire .ok)
  | badCsr (csr : Byte) (v : Word) : Runs s (.wrcsr csr v) (s.retire .csr)
  | clrstat (m : BitVec 3) : Runs s (.clrstat m)
      (({ s with fails := s.fails && !m.getLsbD 0, notfound := s.notfound && !m.getLsbD 1, sat := s.sat && !m.getLsbD 2 } :
        State).retire .ok)
  | palEmpty (mono : Bool) (es : List PalSpec) (rc : Code) : Runs s (.palLoad mono es) ((s.setPalette [] false).retire rc)
  | palLoad (mono : Bool) (es : List PalSpec) (hl : es.length ≤ Config.palMax) (hd : hasDupIndex es = false) :
      Runs s (.palLoad mono es)
        ((s.setPalette (es.map (fun e => mkEntry s.params mono e.name e.index e.rgb)) mono).retire .ok)
  | nearLab (c : Lab) (v : Word) (e : Err3) :
      Runs s (.nearLab c) ((((s.nearestFlags c).setR0 v).setR123 e).retire .ok)
  | nearRgb (c : RGB) (l : Lab) (v : Word) : Runs s (.nearRgb c) (((s.nearestFlags l).setR0 v).retire .ok)
  | torgbMiss (i : Byte) : Runs s (.torgb i) ((s.noteNotFound.setR0 0).retire .ok)
  | torgbHit (i : Byte) (v : Word) : Runs s (.torgb i) ((s.setR0 v).retire .ok)
  | tolabMiss (i : Byte) : Runs s (.tolab i) ((s.noteNotFound.setR123 Lab.zero).retire .ok)
  | tolabHit (i : Byte) (l : Lab) : Runs s (.tolab i) ((s.setR123 l).retire .ok)
  | indexofMiss (n : Byte) (v : Word) : Runs s (.indexof n) ((s.noteNotFound.setR0 v).retire .ok)
  | indexofHit (n : Byte) (v : Word) : Runs s (.indexof n) ((s.setR0 v).retire .ok)
  | normRgb (pb pw : Bool) (lo hi : RGB) : Runs s (.normRgb pb pw)
      ((s.setPalette (s.pal.map (fun e => mkEntry s.params s.mono e.name e.index (rescaleRgb lo hi e.rgb))) s.mono).retire
        .ok)
  | normRgbPin (pb pw : Bool) : Runs s (.normRgb pb pw) (s.retire .pin)
  | normLab (pb pw : Bool) (lo hi : Int) : Runs s (.normLab pb pw)
      ((s.setPalette (s.pal.map (normLabEntry s.params s.mono lo hi)) s.mono).retire .ok)
  | normLabPin (pb pw : Bool) : Runs s (.normLab pb pw) (s.retire .pin)
  | surfTooBig (f : Fmt) (w h : Half) (p : Word) : Runs s (.surfCfg f w h p) (s.retire .size)
  | surfCfg (f : Fmt) (w h : Half) (p : Word) (hw : w.toNat ≤ s.params.rowMax)
      (hb : surfBytesOf f w.toNat h.toNat ≤ s.params.fbBytes) :
      Runs s (.surfCfg f w h p)
        ((({ s with fmt := f, surfW := w, surfH := h, plut := p } : State).zeroFill
          (surfBytesOf f w.toNat h.toNat)).invalidate.retire .ok)
  | setidx (x y : Half) (v : Byte) : Runs s (.setidx x y v) ((s.surfSet x.toNat y.toNat v).retire .ok)
  | getidx (x y : Half) (v : Word) : Runs s (.getidx x y) ((s.setR0 v).retire .ok)
  | flush : Runs s .flush (({ s with fbc := sparseCopy s.surfBytes s.fb s.fbc } : State).retire .ok)
  | rdfb (a : BitVec 24) (v : Word) : Runs s (.rdfb a) ((s.setR0 v).retire .ok)
  | setpix (x y : Half) (c : RGB) : Runs s (.setpix x y c)
      (((s.openRows x.toNat y.toNat).viewSet x.toNat y.toNat c).retire .ok)
  | diffReset : Runs s .diffReset (s.invalidate.retire .ok)
  | rdrow (sel : Bool) (x : Half) (e : Err3) : Runs s (.rdrow sel x) ((s.setR123 e).retire .ok)

theorem runs_wrcsr {csr : Byte} {v : Word} {s t : State} (h : execWrcsr csr v s = .next t) : Runs s (.wrcsr csr v) t := by
  unfold execWrcsr at h
  split at h
  next hc =>
    subst hc
    split at h
    next hv =>
      split at h <;> cases h
      next hq => exact .ctrlKept v hv hq
      next => exact .ctrlNew v hv
    next => cases h; exact .badCsr _ v
  next =>
    split at h <;> cases h
    next hc => subst hc; exact .acc v
    next => exact .badCsr csr v

theorem runs_palLoad {mono : Bool} {es : List PalSpec} {s t : State} (h : execPalLoad mono es s = .next t) :
    Runs s (.palLoad mono es) t := by
  unfold execPalLoad at h
  split at h
  · cases h; exact .palEmpty mono es _
  next hl =>
    split at h <;> cases h
    · exact .palEmpty mono es _
    next hd => exact .palLoad mono es (Nat.le_of_not_lt hl) (by simpa using hd)

theorem runs_torgb {i : Byte} {s t : State} (h : execTorgb i s = .next t) : Runs s (.torgb i) t := by
  unfold execTorgb at h
  split at h <;> cases h
  · exact .torgbMiss i
  · exact .torgbHit i _

theorem runs_tolab {i : Byte} {s t : State} (h : execTolab i s = .next t) : Runs s (.tolab i) t := by
  unfold execTolab at h
  split at h <;> cases h
  · exact .tolabMiss i
  · exact .tolabHit i _

theorem runs_indexof {n : Byte} {s t : State} (h : execIndexof n s = .next t) : Runs s (.indexof n) t := by
  unfold execIndexof at h
  split at h
  · cases h; exact .indexofHit n _
  · split at h <;> cases h
    · exact .indexofHit n _
    · exact .indexofMiss n _

theorem runs_normRgb {pb pw : Bool} {s t : State} (h : execNormRgb pb pw s = .next t) : Runs s (.normRgb pb pw) t := by
  unfold execNormRgb at h
  split at h
  · split at h <;> cases h
    · exact .normRgb pb pw _ _
    · exact .normRgbPin pb pw
  · cases h; exact .normRgbPin pb pw

theorem runs_normLab {pb pw : Bool} {s t : State} (h : execNormLab pb pw s = .next t) : Runs s (.normLab pb pw) t := by
  unfold execNormLab at h
  split at h
  · split at h <;> cases h
    · exact .normLab pb pw _ _
    · exact .normLabPin pb pw
  · cases h; exact .normLabPin pb pw

theorem runs_surfCfg {f : Fmt} {w e : Half} {p : Word} {s t : State} (h : execSurfCfg f w e p s = .next t) :
    Runs s (.surfCfg f w e p) t := by
  unfold execSurfCfg at h
  dsimp only at h
  split at h <;> cases h
  · exact .surfTooBig f w e p
  next hn =>
    rw [not_or] at hn
    exact .surfCfg f w e p (Nat.le_of_not_lt hn.1) (Nat.le_of_not_lt hn.2)

theorem runs_rdfb {a : BitVec 24} {s t : State} (h : execRdfb a s = .next t) : Runs s (.rdfb a) t := by
  unfold execRdfb at h
  split at h <;> cases h <;> exact .rdfb a _

theorem runs_rdrow {sel : Bool} {x : Half} {s t : State} (h : execRdrow sel x s = .next t) : Runs s (.rdrow sel x) t := by
  unfold execRdrow at h
  split at h <;> cases h <;> exact .rdrow sel x _

/-- Everything a command that is no decode can do. -/
theorem exec_runs {i : Instr} {s t : State} (hi : i.isDecode = false) (h : exec i s = .next t) : Runs s i t := by
  cases i with
  | nop => cases h; exact .nop
  | wrcsr csr v => exact runs_wrcsr h
  | rdcsr csr => cases h; exact .rdcsr csr
  | clrstat m => cases h; exact .clrstat m
  | palLoad mono es => exact runs_palLoad h
  | nearLab c => cases h; exact .nearLab c _ _
  | nearRgb c => cases h; exact .nearRgb c _ _
  | torgb i => exact runs_torgb h
  | tolab i => exact runs_tolab h
  | indexof n => exact runs_indexof h
  | normRgb pb pw => exact runs_normRgb h
  | normLab pb pw => exact runs_normLab h
  | surfCfg f w e p => exact runs_surfCfg h
  | setidx x y v => cases h; exact .setidx x y v
  | getidx x y => cases h; exact .getidx x y _
  | flush => cases h; exact .flush
  | rdfb a => exact runs_rdfb h
  | setpix x y c => cases h; exact .setpix x y c
  | diffReset => cases h; exact .diffReset
  | rdrow sel x => exact runs_rdrow h
  | decRgb565 | decYuyv | decYuyvh | decYuv3l | decJpeg => cases hi

end Sys2Proof.Machine
end

section
/-!
The invariant: every step keeps it, and the reset state has it.
-/

namespace Sys2Proof.Machine

/-! ### The invariant -/

theorem inv_flush {s : State} (h : s.Inv) : ({ s with fbc := sparseCopy s.surfBytes s.fb s.fbc } : State).Inv := by
  have hwf : ({ s with fbc := sparseCopy s.surfBytes s.fb s.fbc } : State).memoriesWf = true := by
    simp only [State.memoriesWf, Bool.and_eq_true]
    exact ⟨⟨⟨inv_fbWf h, sparseWf_copy (inv_fbWf h) (inv_fbcWf h)⟩, inv_thisWf h⟩, inv_nextWf h⟩
  have hfit : ({ s with fbc := sparseCopy s.surfBytes s.fb s.fbc } : State).memoriesFit = true := by
    have hm := h.memoriesFit
    simp only [State.memoriesFit, Bool.and_eq_true] at hm ⊢
    obtain ⟨⟨⟨hfb, hfbc⟩, hthis⟩, hnext⟩ := hm
    exact ⟨⟨⟨hfb, sparseBelow_copy hfb hfbc⟩, hthis⟩, hnext⟩
  have hpad : ({ s with fbc := sparseCopy s.surfBytes s.fb s.fbc } : State).paddingZero := by
    intro a ha
    have hcopy : ({ s with fbc := sparseCopy s.surfBytes s.fb s.fbc } : State).sinkByte a = s.memRead a :=
      (sparseRead_sparseCopy _ _ a s.fb s.fbc).trans (if_pos ha)
    rw [hcopy]
    exact ⟨(h.padding a ha).1, (h.padding a ha).1⟩
  exact ⟨h.params, hwf, hfit, h.control, h.surface, h.palette, h.diffusion, h.status, h.halt, hpad, h.sequencer⟩

/-- A new surface is all zero, and no diffusion state is valid on it (R210). -/
theorem inv_surfCfg {s : State} (h : s.Inv) (f : Fmt) (w e : Half) (p : Word) (hw : w.toNat ≤ s.params.rowMax)
    (hb : surfBytesOf f w.toNat e.toNat ≤ s.params.fbBytes) :
    (({ s with fmt := f, surfW := w, surfH := e, plut := p } : State).zeroFill
      (surfBytesOf f w.toNat e.toNat)).invalidate.Inv where
  params := h.params
  memoriesWf := by
    have hm := h.memoriesWf
    simp only [State.memoriesWf, Bool.and_eq_true] at hm ⊢
    obtain ⟨⟨⟨hfb, hfbc⟩, hthis⟩, hnext⟩ := hm
    exact ⟨⟨⟨sparseWf_clear hfb, sparseWf_clear hfbc⟩, hthis⟩, hnext⟩
  memoriesFit := by
    have hm := h.memoriesFit
    simp only [State.memoriesFit, Bool.and_eq_true] at hm ⊢
    obtain ⟨⟨⟨hfb, hfbc⟩, hthis⟩, hnext⟩ := hm
    exact ⟨⟨⟨sparseBelow_clear hfb, sparseBelow_clear hfbc⟩, hthis⟩, hnext⟩
  control := h.control
  surface := by
    simp only [State.surfaceFits, Bool.and_eq_true]
    exact ⟨decide_eq_true hw, decide_eq_true hb⟩
  palette := h.palette
  diffusion := rfl
  status := h.status
  halt := h.halt
  padding := by
    intro a (ha : a < surfBytesOf f w.toNat e.toNat)
    rw [invalidate_memRead, invalidate_sinkByte, memRead_zeroFill, sinkByte_zeroFill, if_pos ha, if_pos ha]
    exact ⟨BitVec.zero_and, BitVec.zero_and⟩
  sequencer := h.sequencer

theorem inv_palLoad {s : State} (h : s.Inv) (mono : Bool) (es : List PalSpec) (hl : es.length ≤ Config.palMax)
    (hd : hasDupIndex es = false) :
    (s.setPalette (es.map (fun e => mkEntry s.params mono e.name e.index e.rgb)) mono).Inv := by
  refine inv_setPalette h (by rwa [List.length_map]) (indicesUnique_mkEntry _ _ es hd) ?_
  rintro rfl
  simp only [List.all_eq_true, List.mem_map]
  rintro _ ⟨e, -, rfl⟩
  exact isGray_mkEntry _ _ _ _

theorem inv_normRgb {s : State} (h : s.Inv) (lo hi : RGB) :
    (s.setPalette (s.pal.map (fun e => mkEntry s.params s.mono e.name e.index (rescaleRgb lo hi e.rgb))) s.mono).Inv := by
  refine inv_mapPalette h _ (fun e => (builtFrom_mkEntry _ _ _ _ _).2.1) (fun hm e _ => ?_)
  rw [hm]
  exact isGray_mkEntry _ _ _ _

theorem inv_normLab {s : State} (h : s.Inv) (lo hi : Int) :
    (s.setPalette (s.pal.map (normLabEntry s.params s.mono lo hi)) s.mono).Inv := by
  refine inv_mapPalette h _ (fun e => rfl) (fun hm e he => ?_)
  simp only [PalEntry.isGray, Bool.and_eq_true, beq_iff_eq] at he ⊢
  obtain ⟨⟨ha, hb⟩, -⟩ := he
  exact ⟨⟨ha, hb⟩, by simp [normLabEntry, hm]⟩

theorem inv_clrstat {s : State} (h : s.Inv) (f n a : Bool) :
    (({ s with fails := f, notfound := n, sat := a } : State).retire .ok).Inv :=
  ⟨h.params, h.memoriesWf, h.memoriesFit, h.control, h.surface, h.palette, h.diffusion, rfl, h.halt, h.padding, h.sequencer⟩

/-- Every command that is no decode keeps the invariant. -/
theorem Runs.inv {i : Instr} {s t : State} (hr : Runs s i t) (h : s.Inv) : t.Inv := by
  cases hr with
  | nop => exact inv_retireQuiet h
  | rdcsr => exact inv_retireQuiet (inv_pushRsp h _)
  | ctrlKept v hv hq => exact inv_retire (inv_ctrl h hv (.inl hq)) _
  | ctrlNew v hv => exact inv_retire (inv_ctrl (inv_invalidate h) hv (.inr rfl)) _
  | acc v => exact inv_retire (inv_acc h v) _
  | clrstat => exact inv_clrstat h _ _ _
  | palEmpty => exact inv_retire (inv_setPalette h (Nat.zero_le _) rfl (fun _ => rfl)) _
  | palLoad mono es hl hd => exact inv_retire (inv_palLoad h mono es hl hd) _
  | nearLab => exact inv_retire (inv_setR123 (inv_setR0 (inv_nearestFlags h _) _) _) _
  | nearRgb => exact inv_retire (inv_setR0 (inv_nearestFlags h _) _) _
  | torgbMiss | indexofMiss => exact inv_retire (inv_setR0 (inv_noteNotFound h) _) _
  | tolabMiss => exact inv_retire (inv_setR123 (inv_noteNotFound h) _) _
  | torgbHit | indexofHit | getidx | rdfb => exact inv_retire (inv_setR0 h _) _
  | tolabHit | rdrow => exact inv_retire (inv_setR123 h _) _
  | normRgb pb pw lo hi => exact inv_retire (inv_normRgb h lo hi) _
  | normLab pb pw lo hi => exact inv_retire (inv_normLab h lo hi) _
  | badCsr | normRgbPin | normLabPin | surfTooBig => exact inv_retire h _
  | surfCfg f w e p hw hb => exact inv_retire (inv_surfCfg h f w e p hw hb) _
  | setidx => exact inv_retire (inv_surfSet h _ _ _) _
  | flush => exact inv_retire (inv_flush h) _
  | setpix => exact inv_retire (inv_viewSet (inv_openRows h _ _) _ _ _) _
  | diffReset => exact inv_retire (inv_invalidate h) _

/-- A decode that goes on, to its end or to a wait within its bounds, keeps the invariant. -/
theorem inv_of_decodeEnds {s t : State} {q₀ : Sequencer} {r : Result} (hh : s.halted = false) (hf : q₀.fits s.params = true)
    (he : DecodeEnds (fun u => u.Inv ∧ DecodeFrame s u) (q₀.Leads s.params) r) (hr : r = .next t) : t.Inv := by
  rcases he.next hr with ⟨u, v, rc, ⟨hu, -⟩, rfl⟩ | ⟨u, q, ⟨hu, hfr⟩, ⟨-, hq⟩, rfl⟩
  · exact inv_retire (inv_setR0 hu v) rc
  · refine inv_seq hu (hfr.halted.trans hh) ?_
    rw [sequencerFits_eq]
    show q.fits u.params = true
    rw [hfr.params]
    exact hq hf

theorem exec_inv {i : Instr} {s t : State} (h : s.Inv) (hh : s.halted = false) (he : exec i s = .next t) : t.Inv := by
  cases hd : i.isDecode with
  | false => exact (exec_runs hd he).inv h
  | true =>
    exact inv_of_decodeEnds hh rfl
      (exec_decode_ends (inv_keeps.and (decodeFrame_keeps s)) hd ⟨h, decodeFrame_refl s⟩) he

/-- Settles O9: a step is a wait for words, a halt, a command, or a decode that goes on, and each keeps the invariant. -/
theorem everyStepKeepsTheInvariant : Obligations.EveryStepKeepsTheInvariant := by
  intro s t h hs
  cases hh : s.halted with
  | true =>
    rw [step_of_halted hh] at hs
    cases hs; exact h
  | false =>
    cases hd : s.decoding with
    | true =>
      have hf : s.seq.fits s.params = true := sequencerFits_eq s ▸ h.sequencer
      exact inv_of_decodeEnds (s := { s with seq := .idle }) hh hf
        (step_decode_ends (inv_keeps.and (decodeFrame_keeps _)) hh hd ⟨inv_seq_idle h, decodeFrame_refl _⟩) hs
    | false =>
      rcases step_fetches hh hd with hr | ⟨words, hw, hr⟩ | ⟨_, rest, _, _, _, _, hr⟩ | ⟨i, rest, hr⟩ <;> rw [hr] at hs
      · cases hs; exact inv_seq_idle h
      · cases hs; exact inv_seq (inv_cmdq h []) hh hw
      · cases hs; exact inv_halt (inv_cmdq h rest)
      · exact exec_inv (inv_seq_idle (inv_cmdq h rest)) hh hs

/-- Settles O10, part by part. -/
theorem resetStateIsSound : Obligations.ResetStateIsSound where
  params := by decide
  memoriesWf := rfl
  memoriesFit := rfl
  control := by decide
  surface := by decide
  palette := rfl
  diffusion := rfl
  status := rfl
  halt := rfl
  padding := fun _ h => absurd h (Nat.not_lt_zero _)
  sequencer := rfl

end Sys2Proof.Machine
end

section
/-!
The statements about one command or one step: the command that the queued words spell, the frames of the commands, `HALTED`,
`CMDCNT`, `STATUS`, the bytes that a command may change, and what reads right after reset.
-/

namespace Sys2Proof.Machine

/-! ### The command that the words spell -/

/-- Settles O7: the words of a command decode to it, and the sequencer takes exactly them. -/
theorem stepRunsDecodedCommand : Obligations.StepRunsDecodedCommand := by
  intro s i rest hw hh
  refine ⟨fun hs hq => ?_, fun taken hs hp hq => ?_⟩
  · obtain ⟨h, ws, he, -, -⟩ := header_of_encode i hw
    have hd := decode_encode i rest hw
    rw [he, List.cons_append] at hd hq
    rw [step_of_idle hh hs, fetchNext, hq]
    show runFetched (fetchHeader h (ws ++ rest)) s = _
    rw [fetchHeader_of_decode hd, runFetched, ← hs]
  · cases taken with
    | nil => cases hp
    | cons h ws =>
      have hd := decode_encode i rest hw
      rw [← hq, List.cons_append] at hd
      rw [step_of_operands hh hs, fetchMore, fetchOperands_of_decode hp hd, runFetched]

/-! ### Which registers a command writes -/

/-- A decode ends or waits in a state of its frame but for `R0`, the parts of `STATUS` and `CMDCNT` that retirement writes, and
the sequencer. -/
theorem exec_decode_frame {i : Instr} {s t : State} (hd : i.isDecode = true) (h : exec i s = .next t) :
    ∃ u r e f n q, DecodeFrame s u ∧ t = { u with r0 := r, err := e, fails := f, cmdcnt := n, seq := q } := by
  rcases (exec_decode_ends (decodeFrame_keeps s) hd (decodeFrame_refl s)).next h with
    ⟨u, v, rc, hu, rfl⟩ | ⟨u, q, hu, -, rfl⟩
  · exact ⟨u, _, _, _, _, _, hu, rfl⟩
  · exact ⟨u, _, _, _, _, _, hu, rfl⟩

theorem exec_stream_blockSide {i : Instr} {s t : State} (hi : i.isStream = true) (h : exec i s = .next t) :
    t.bderr = s.bderr ∧ t.bdInits = s.bdInits ∧ t.bdMcus = s.bdMcus := by
  rcases (exec_stream_ends (blockSide_keeps s) hi ⟨rfl, rfl, rfl⟩).next h with ⟨u, v, rc, hu, rfl⟩ | ⟨u, q, hu, -, rfl⟩
  · exact hu
  · exact hu

theorem exec_jpeg_byteSide {w e : Half} {s t : State} (h : exec (.decJpeg w e) s = .next t) :
    t.bsTotals = s.bsTotals ∧ t.bsReads = s.bsReads := by
  rcases (exec_jpeg_ends (byteSide_keeps s) w e ⟨rfl, rfl⟩).next h with ⟨u, v, rc, hu, rfl⟩ | ⟨u, q, hu, -, rfl⟩
  · exact hu
  · exact hu

/-- Settles O14: a decode stays in its frame, every other command writes what its meaning names. -/
theorem onlyItsCommandsWriteIt : Obligations.OnlyItsCommandsWriteIt := by
  intro i s t h
  cases hd : i.isDecode with
  | false =>
    cases exec_runs hd h <;>
      simp [Instr.writesR0, Instr.writesR123, Instr.isQuiet, Instr.writesNotfound, Instr.writesSat, Instr.writesPalette,
        Instr.isDecode, Instr.isStream, Instr.writesCurValid, Instr.usesView]
  | true =>
    have hbd : (∀ w e, i ≠ .decJpeg w e) → t.bderr = s.bderr ∧ t.bdInits = s.bdInits ∧ t.bdMcus = s.bdMcus := by
      intro hj
      rcases isDecode_iff.mp hd with hi | ⟨w, e, rfl⟩
      · exact exec_stream_blockSide hi h
      · exact absurd rfl (hj w e)
    have hbs : i.isStream = false → t.bsTotals = s.bsTotals ∧ t.bsReads = s.bsReads := by
      intro hi
      rcases isDecode_iff.mp hd with hi' | ⟨w, e, rfl⟩
      · rw [hi] at hi'; cases hi'
      · exact exec_jpeg_byteSide h
    obtain ⟨u, r, e, f, n, q, hu, rfl⟩ := exec_decode_frame hd h
    have hview := usesView_of_isDecode hd
    have hquiet := isQuiet_of_isDecode hd
    refine ⟨by simp [Instr.writesR0, hd], fun _ => ⟨hu.r1, hu.r2, hu.r3⟩, by simp [hquiet],
      by simp [Instr.writesNotfound, hview], by simp [Instr.writesSat, hview], fun _ => ⟨hu.pal, hu.mono⟩,
      fun _ => ⟨hu.fmt, hu.surfW, hu.surfH, hu.plut⟩, fun _ => ⟨hu.ctrl, hu.acc⟩, hbd, fun _ => hu.rspq, by simp, hbs,
      by simp [Instr.writesCurValid, hview], by simp [hview], by simp [hview], by simp [hview], hu.params, hu.cmdq,
      hu.halted, hu.dropped⟩

theorem Runs.halted {i : Instr} {s t : State} (h : Runs s i t) : t.halted = s.halted := by
  cases h <;> simp

/-- No command halts the engine or lets it go on (R65). -/
theorem exec_halted {i : Instr} {s t : State} (h : exec i s = .next t) : t.halted = s.halted := by
  cases hd : i.isDecode with
  | false => exact (exec_runs hd h).halted
  | true =>
    obtain ⟨u, _, _, _, _, _, hu, rfl⟩ := exec_decode_frame hd h
    exact hu.halted

/-! ### When a step halts -/

/-- A step halts the engine only on words that are no command, and changes nothing but `CMDQ` and the sequencer then
(R335). -/
theorem step_halts {s t : State} (h : step s = .next t) (hh : s.halted = false) (ht : t.halted = true) :
    ∃ ws rest e, s.FetchWords ws ∧ decode ws = .error e ∧ e ≠ .truncated ∧ t = ({ s with cmdq := rest } : State).halt := by
  have hne : t.halted ≠ s.halted := by rw [hh, ht]; nofun
  cases hd : s.decoding with
  | true =>
    have hk := step_decode_ends (s := s) (decodeFrame_keeps { s with seq := .idle }) hh hd (decodeFrame_refl _)
    rcases hk.next h with ⟨u, v, rc, hu, rfl⟩ | ⟨u, q, hu, -, rfl⟩
    · exact absurd hu.halted hne
    · exact absurd hu.halted hne
  | false =>
    rcases step_fetches hh hd with hr | ⟨words, -, hr⟩ | ⟨ws, rest, e, hw, hd, he, hr⟩ | ⟨i, rest, hr⟩ <;> rw [hr] at h
    · cases h; exact absurd rfl hne
    · cases h; exact absurd rfl hne
    · cases h; exact ⟨ws, rest, e, hw, hd, he, rfl⟩
    · exact absurd (exec_halted h) hne

/-! ### `HALTED` -/

theorem foldl_hostPush (ws : List Word) :
    ∀ s : State, ws.foldl (fun t w => t.hostPush w) s = { s with cmdq := s.cmdq ++ ws } := by
  induction ws with
  | nil => intro s; rw [List.foldl_nil, List.append_nil]
  | cons w ws ih =>
    intro s
    rw [List.foldl_cons, ih]
    simp only [State.hostPush, List.append_assoc, List.cons_append, List.nil_append]

/-- A machine whose step leaves a state as it is stays there. -/
theorem run_of_step_self (M : Host.Core) {x : M.State} (h : M.step x = .next x) (k : Nat) : M.run k x = .next x := by
  induction k with
  | zero => rfl
  | succ k ih => rw [Host.Core.run, h]; exact ih

theorem halted_answers (s : State) (who : Addressee) (v : Word) (a : ReadAnswer) (i : InitAnswer) (m : McuAnswer) :
    (s.answerTotal who v).halted = s.halted ∧ (s.answerRead who a).halted = s.halted ∧
      (s.answerInit who i).halted = s.halted ∧ (s.answerMcu who m).halted = s.halted := by
  refine ⟨?_, ?_, ?_, ?_⟩
  · unfold State.answerTotal; split <;> rfl
  · unfold State.answerRead; split <;> rfl
  · unfold State.answerInit; split <;> rfl
  · unfold State.answerMcu; split <;> rfl

theorem halted_pop {s t : State} {w : Word} (h : s.popRsp = some (w, t) ∨ s.popProg = some (w, t)) : t.halted = s.halted := by
  rcases h with h | h
  · unfold State.popRsp at h
    split at h <;> cases h
    rfl
  · unfold State.popProg at h
    split at h <;> cases h
    rfl

theorem halted_dsRead {s t : State} {a : Nat} {b : Byte} (h : s.dsRead a = .ok (b, t)) : t.halted = s.halted := by
  unfold State.dsRead at h
  split at h
  · cases h
  · split at h <;> cases h <;> rfl

/-- Settles O6: a halt comes from words that are no command, and a halted engine steps to itself. -/
theorem haltedBit : Obligations.HaltedBit := by
  refine ⟨rfl, fun s h q hr hq hop => ?_, fun s t h hh ht => ?_, fun k ws s hs => ?_, halted_answers,
    fun s t w => halted_pop, fun s t a b => halted_dsRead, fun s b => ⟨rfl, rfl, rfl⟩⟩
  · simp only [State.ready, Bool.and_eq_true, Bool.not_eq_true', decide_eq_true_eq] at hr
    cases ho : headerOp h with
    | ok op => exact absurd ho (hop op)
    | error e =>
      refine ⟨({ s with cmdq := q } : State).halt, ?_, rfl⟩
      rw [step_of_idle hr.1 hr.2, fetchNext, hq]
      show runFetched (fetchHeader h q) s = _
      rw [fetchHeader_of_error q ho, runFetched]
  · obtain ⟨ws, rest, e, hw, hd, he, -⟩ := step_halts h hh ht
    refine ⟨ws, ?_, ?_, hw⟩
    · rw [hd]; simpa using he
    · rw [hd]; nofun
  · have hstay : step { s with cmdq := s.cmdq ++ ws } = .next { s with cmdq := s.cmdq ++ ws } := step_of_halted hs
    exact (congrArg (Host.Core.run Sys2Proof.core k) (foldl_hostPush ws s)).trans (run_of_step_self Sys2Proof.core hstay k)

/-! ### `CMDCNT` -/

/-- A decode that went on has counted exactly when it has ended (R43). -/
theorem cmdcnt_of_decodeEnds {s t : State} {q₀ : Sequencer} {r : Result} (hs : s.seq = .idle)
    (he : DecodeEnds (DecodeFrame s) (q₀.Leads s.params) r) (hr : r = .next t) :
    t.cmdcnt = if t.seq = .idle then s.cmdcnt + 1 else s.cmdcnt := by
  rcases he.next hr with ⟨u, v, rc, hu, rfl⟩ | ⟨u, q, hu, ⟨hq, -⟩, rfl⟩
  · have hidle : u.seq = .idle := hu.seq.trans hs
    simp [hidle, hu.cmdcnt]
  · simp only [if_neg hq, hu.cmdcnt]

/-- A command that does not decode counts and leaves the sequencer alone (R43, R151). -/
theorem Runs.cmdcnt {i : Instr} {s t : State} (h : Runs s i t) : t.cmdcnt = s.cmdcnt + 1 ∧ t.seq = s.seq := by
  cases h <;> simp

/-- Settles O12: retirement is the one act that counts, and a wait or a halt is none. -/
theorem cmdcntCountsRetiredCommands : Obligations.CmdcntCountsRetiredCommands := by
  refine ⟨fun i s t hs h => ?_, fun s t hh hd h => ?_, fun s t h hh ht => ?_, fun s => ⟨_, rfl, rfl, rfl⟩, rfl⟩
  · cases hd : i.isDecode with
    | false =>
      obtain ⟨hcnt, hseq⟩ := (exec_runs hd h).cmdcnt
      rw [hseq, if_pos hs, hcnt]
    | true => exact cmdcnt_of_decodeEnds hs (exec_decode_ends (decodeFrame_keeps s) hd (decodeFrame_refl s)) h
  · exact cmdcnt_of_decodeEnds (s := { s with seq := .idle }) rfl
      (step_decode_ends (s := s) (decodeFrame_keeps _) hh hd (decodeFrame_refl _)) h
  · obtain ⟨ws, rest, e, -, -, -, rfl⟩ := step_halts h hh ht
    rfl

/-! ### `STATUS` -/

theorem retire_fails_or_ok (s : State) (rc : Code) : (s.retire rc).fails = true ∨ (s.retire rc).err = .ok := by
  by_cases hrc : rc = .ok <;> simp [hrc]

/-- Retirement sets `FAILS` with a failure code alone (R151). -/
theorem fails_of_retire_ok {s : State} {rc : Code} (he : (s.retire rc).err = .ok) (hf : (s.retire rc).fails = true) :
    s.fails = true := by
  obtain rfl : rc = .ok := he
  simpa using hf

theorem Runs.statusWord {i : Instr} {s t : State} (h : Runs s i t) (hq : i.isQuiet = true) :
    t.statusWord = s.statusWord := by
  cases h with
  | nop | rdcsr => rfl
  | _ => cases hq

theorem Runs.fails_or_ok {i : Instr} {s t : State} (h : Runs s i t) (hq : i.isQuiet = false) :
    t.fails = true ∨ t.err = .ok := by
  cases h with
  | nop | rdcsr => cases hq
  | _ => exact retire_fails_or_ok _ _

theorem Runs.sticky {i : Instr} {s t : State} (h : Runs s i t) (hc : ∀ m, i ≠ .clrstat m) :
    FlagsGrow s t ∧ (s.fails = true → t.fails = true) := by
  cases h with
  | clrstat m => exact absurd rfl (hc m)
  | nearLab c => exact ⟨flagsGrow_nearestFlags c (flagsGrow_refl s), by simp⟩
  | nearRgb c l => exact ⟨flagsGrow_nearestFlags l (flagsGrow_refl s), by simp⟩
  | setpix x y c =>
    have hopen : FlagsGrow s (s.openRows x.toNat y.toNat) := flagsGrow_of_eq (flagsGrow_refl s) (by simp) (by simp)
    exact ⟨flagsGrow_viewSet _ _ c hopen, by simp⟩
  | _ => exact ⟨⟨by simp, by simp⟩, by simp +contextual⟩

theorem Runs.fails_of_ok {i : Instr} {s t : State} (h : Runs s i t) (he : t.err = .ok) (hf : t.fails = true) :
    s.fails = true := by
  cases h with
  | nop | rdcsr => exact hf
  | clrstat m =>
    have hm := fails_of_retire_ok he hf
    simp only [Bool.and_eq_true] at hm
    exact hm.1
  | _ => simpa using fails_of_retire_ok he hf

/-- Settles O13: retirement alone sets `FAILS`, and all that comes before it lets the sticky flags grow, `CLRSTAT` apart. -/
theorem statusFlagsAreSticky : Obligations.StatusFlagsAreSticky := by
  intro i s t h
  cases hd : i.isDecode with
  | false =>
    have hr := exec_runs hd h
    refine ⟨hr.statusWord, fun hq _ _ => hr.fails_or_ok hq, fun hc => ?_, hr.fails_of_ok⟩
    obtain ⟨⟨hn, hs⟩, hf⟩ := hr.sticky hc
    exact ⟨hf, hn, hs⟩
  | true =>
    have hquiet := isQuiet_of_isDecode hd
    have hends := exec_decode_ends ((flagsGrow_keeps s).and (decodeFrame_keeps s)) hd
      ⟨flagsGrow_refl s, decodeFrame_refl s⟩
    rcases hends.next h with ⟨u, v, rc, ⟨⟨hn, hs⟩, hu⟩, rfl⟩ | ⟨u, q, ⟨⟨hn, hs⟩, hu⟩, ⟨hq, -⟩, rfl⟩
    · refine ⟨by simp [hquiet], fun _ _ _ => retire_fails_or_ok _ rc, fun _ => ⟨fun hf => ?_, hn, hs⟩, fun he hf => ?_⟩
      · simp [hu.fails, hf]
      · exact hu.fails.symm.trans (fails_of_retire_ok he hf)
    · exact ⟨by simp [hquiet], fun _ _ hidle => absurd hidle hq, fun _ => ⟨fun hf => hu.fails.trans hf, hn, hs⟩,
        fun _ hf => hu.fails.symm.trans hf⟩

/-! ### The bytes a command may change -/

theorem sameBeyond_flush (s : State) : SameBeyond s ({ s with fbc := sparseCopy s.surfBytes s.fb s.fbc } : State) := by
  refine ⟨rfl, fun a ha => ⟨rfl, ?_⟩⟩
  exact (sparseRead_sparseCopy _ _ a s.fb s.fbc).trans (if_neg (Nat.not_lt.mpr ha))

/-- No command that keeps the surface changes a byte beyond it (R81, R91, R216). -/
theorem Runs.sameBeyond {i : Instr} {s t : State} (h : Runs s i t) (hs : ∀ f w e p, i ≠ .surfCfg f w e p) :
    SameBeyond s t := by
  cases h with
  | surfTooBig f w e p | surfCfg f w e p => exact absurd rfl (hs f w e p)
  | setidx x y v => exact sameBeyond_surfSet x.toNat y.toNat v (sameBeyond_refl s)
  | flush => exact sameBeyond_flush s
  | setpix x y c =>
    have hopen : SameBeyond s (s.openRows x.toNat y.toNat) :=
      sameBeyond_of_eq (sameBeyond_refl s) (by simp) (by simp) (by simp)
    exact sameBeyond_viewSet _ _ c hopen
  | ctrlKept | ctrlNew | acc | clrstat => exact ⟨rfl, fun _ _ => ⟨rfl, rfl⟩⟩
  | _ => exact sameBeyond_of_eq (sameBeyond_refl s) (by simp) (by simp) (by simp)

/-- `SURF_CFG` clears the bytes of the new surface alone (R210). -/
theorem surfCfg_beyond {f : Fmt} {w e : Half} {p : Word} {s t : State} (h : Runs s (.surfCfg f w e p) t) {a : Nat}
    (ha : t.surfBytes ≤ a) : t.memRead a = s.memRead a ∧ t.sinkByte a = s.sinkByte a := by
  cases h with
  | surfTooBig => exact ⟨rfl, rfl⟩
  | surfCfg =>
    have hna : ¬ a < surfBytesOf f w.toNat e.toNat := Nat.not_lt.mpr ha
    rw [retire_memRead, retire_sinkByte, invalidate_memRead, invalidate_sinkByte, memRead_zeroFill, sinkByte_zeroFill,
      if_neg hna, if_neg hna]
    exact ⟨rfl, rfl⟩

/-- A command that neither writes a pixel nor configures a surface leaves the memories as they are, `FLUSH` the frame
buffer. -/
theorem Runs.memories {i : Instr} {s t : State} (h : Runs s i t) (hv : i.usesView = false)
    (hx : ∀ x y v, i ≠ .setidx x y v) (hs : ∀ f w e p, i ≠ .surfCfg f w e p) :
    t.fb = s.fb ∧ (i ≠ .flush → t.fbc = s.fbc) := by
  cases h with
  | setpix => cases hv
  | setidx x y v => exact absurd rfl (hx x y v)
  | surfTooBig f w e p | surfCfg f w e p => exact absurd rfl (hs f w e p)
  | flush => exact ⟨rfl, fun hf => absurd rfl hf⟩
  | _ => simp

/-- Settles O15: pixel writes and `FLUSH` stay below `SURFBYTES`, `SURF_CFG` below that of the new surface. -/
theorem onlyPixelWritersChangeMemory : Obligations.OnlyPixelWritersChangeMemory := by
  intro i s t h
  cases hd : i.isDecode with
  | true =>
    have hb : SameBeyond s t := by
      rcases (exec_decode_ends (sameBeyond_keeps s) hd (sameBeyond_refl s)).next h with
        ⟨u, v, rc, hu, rfl⟩ | ⟨u, q, hu, -, rfl⟩ <;> exact hu
    exact ⟨fun a ha _ => hb.2 a ha, fun hv => absurd hv (by simp [usesView_of_isDecode hd])⟩
  | false =>
    have hr := exec_runs hd h
    refine ⟨fun a ha hta => ?_, fun hv hx hs a => ?_⟩
    · by_cases hs : ∃ f w e p, i = .surfCfg f w e p
      · obtain ⟨f, w, e, p, rfl⟩ := hs
        exact surfCfg_beyond hr hta
      · exact (hr.sameBeyond (fun f w e p hi => hs ⟨f, w, e, p, hi⟩)).2 a ha
    · obtain ⟨hfb, hfbc⟩ := hr.memories hv hx hs
      exact ⟨congrArg (fun m => Memory.read m a) hfb, fun hf => congrArg (fun m => Memory.read m a) (hfbc hf)⟩

/-! ### Right after reset -/

/-- The table of R70. -/
theorem readCsr_reset : ∀ r ∈ [((0x00 : Byte), (0x50514401 : Word)), (0x01, 0), (0x02, 0), (0x03, 0), (0x04, 0x0000E000),
    (0x05, 0), (0x06, 0), (0x07, 0), (0x08, 0), (0x09, 0), (0x0A, 262144), (0x0B, 0x04000400), (0x0C, 49152), (0x10, 0),
    (0x11, 0), (0x12, 0), (0x13, 0)], State.reset.readCsr r.1 = r.2 := by
  simp only [List.forall_mem_cons]
  exact ⟨rfl, rfl, rfl, rfl, rfl, rfl, rfl, rfl, rfl, rfl, rfl, rfl, rfl, rfl, rfl, rfl, rfl, nofun⟩

/-- Settles O16, by the table above. -/
theorem resetValues : Obligations.ResetValues := by
  refine ⟨fun n v hm => ⟨_, rfl, ?_⟩, rfl, rfl, rfl, rfl, rfl, rfl⟩
  exact congrArg (fun w => [w]) (readCsr_reset _ hm)

end Sys2Proof.Machine
end

section
/-!
What one pixel write, a `FLUSH` and a DisplaySink read leave to be seen of the memories (spec/20_memory.md R81 to R97).
-/

namespace Sys2Proof.Machine

/-! ### Reading pixels -/

/-- Out of bounds a pixel read gives 0 (R100). -/
theorem surfGet_outside {x y : Nat} {s : State} (h : s.inside x y = false) : s.surfGet x y = 0 := by
  simp [State.surfGet, h]

/-- A pixel write leaves what every other pixel reads, outside the surface too (R100, R218). -/
theorem surfGet_surfSet_of_ne {x y x' y' : Nat} (v : Byte) {s : State} (hne : ¬ (x' = x ∧ y' = y)) (hw : s.fb.wf = true) :
    (s.surfSet x y v).surfGet x' y' = s.surfGet x' y' := by
  cases hi : s.inside x' y' with
  | true => exact surfGet_surfSet_other v hi hne hw
  | false => rw [surfGet_outside hi, surfGet_outside ((surfSet_inside ..).trans hi)]

theorem exec_setidx (x y : Half) (v : Byte) (s : State) :
    exec (.setidx x y v) s = .next ((s.surfSet x.toNat y.toNat v).retire .ok) := rfl

theorem exec_getidx (x y : Half) (s : State) :
    exec (.getidx x y) s = .next ((s.setR0 ((s.surfGet x.toNat y.toNat).setWidth 32)).retire .ok) := rfl

/-- Settles O34: the pixel that `GETIDX` reads is none of the bits that `SETIDX` writes. -/
theorem pixelsAreIndependent : Obligations.PixelsAreIndependent := by
  intro x y x' y' v s t u w hw hne ht hu hv
  rw [exec_setidx] at ht
  rw [exec_getidx] at hu hv
  cases ht; cases hu; cases hv
  have hne' : ¬ (x'.toNat = x.toNat ∧ y'.toNat = y.toNat) := fun ⟨hx, hy⟩ =>
    hne ⟨BitVec.eq_of_toNat_eq hx, BitVec.eq_of_toNat_eq hy⟩
  simp only [retire_r0, setR0_r0, retire_surfGet, surfGet_surfSet_of_ne v hne' hw]

/-! ### `FLUSH` -/

/-- The surface bytes of the frame buffer are committed to the DisplaySink's copy (R95). -/
def State.committed (s : State) : State := { s with fbc := sparseCopy s.surfBytes s.fb s.fbc }

theorem exec_flush (s : State) : exec .flush s = .next (s.committed.retire .ok) := rfl

/-- What the DisplaySink's copy holds after a commit (R95, R216). -/
theorem sinkByte_committed (a : Nat) (s : State) :
    s.committed.sinkByte a = if a < s.surfBytes then s.memRead a else s.sinkByte a :=
  sparseRead_sparseCopy _ _ a _ _

theorem sinkWf_committed {s : State} (hm : s.fb.wf = true) (hs : s.fbc.wf = true) : s.committed.fbc.wf = true :=
  sparseWf_copy hm hs

/-- Settles O35: the commit is a copy of the bytes below `SURFBYTES`, and retirement with `OK` leaves `FAILS`. -/
theorem flushCommitsTheSurface : Obligations.FlushCommitsTheSurface := by
  intro s
  refine ⟨_, exec_flush s, ?_, fun a => ?_⟩
  · simp [State.retire, State.committed]
  · rw [retire_sinkByte, sinkByte_committed]

/-! ### DisplaySink reads -/

/-- The frame buffer has no byte at or above `FB_BYTES` (R356; log entry 22). -/
theorem dsRead_beyond {a : Nat} {s : State} (h : s.params.fbBytes ≤ a) : s.dsRead a = .error .displayAddress := by
  rw [State.dsRead, if_pos h]

/-- Between the surface and the end of the frame buffer a read answers an unspecified byte (R356; log entry 3). -/
theorem dsRead_above {a : Nat} {s : State} (h : a < s.params.fbBytes) (hs : s.surfBytes ≤ a) :
    s.dsRead a = .ok (Config.unspecifiedByte s.choices a, s.drawChoice) := by
  rw [State.dsRead, if_neg (Nat.not_le.mpr h), if_pos hs]

/-- At a surface address a read answers the copy's byte, perhaps just brought up to date (R95, R356; log entry 2). -/
theorem dsRead_surface {a : Nat} {s : State} (h : a < s.params.fbBytes) (hs : a < s.surfBytes) :
    s.dsRead a = .ok ((s.maybeCommit a).sinkByte a, s.maybeCommit a) := by
  rw [State.dsRead, if_neg (Nat.not_le.mpr h), if_neg (Nat.not_le.mpr hs)]

/-- Whatever has been committed early, the copy's byte is the old one or the engine's (R95). -/
theorem sinkByte_maybeCommit_self_cases (a : Nat) {s : State} (hw : s.fbc.wf = true) :
    (s.maybeCommit a).sinkByte a = s.sinkByte a ∨ (s.maybeCommit a).sinkByte a = s.memRead a := by
  rw [sinkByte_maybeCommit_self hw]
  split
  · exact .inr rfl
  · exact .inl rfl

/-- A read at a surface address answers the copy's byte or the engine's. -/
theorem dsRead_answer_cases {a : Nat} {b : Byte} {s u : State} (hw : s.fbc.wf = true) (hs : a < s.surfBytes)
    (hr : s.dsRead a = .ok (b, u)) : b = s.sinkByte a ∨ b = s.memRead a := by
  by_cases h : a < s.params.fbBytes
  · rw [dsRead_surface h hs] at hr
    cases hr
    exact sinkByte_maybeCommit_self_cases a hw
  · rw [dsRead_beyond (Nat.le_of_not_lt h)] at hr
    cases hr

/-- Settles O37: after the commit the copy's byte and the engine's are the same, so that an early commit shows nothing. -/
theorem displayReadsAfterFlush : Obligations.DisplayReadsAfterFlush := by
  intro s t u a b hfb hfbc ht ha _ hr
  rw [exec_flush] at ht
  cases ht
  have hwf : (s.committed.retire .ok).fbc.wf = true := sinkWf_committed hfb hfbc
  rcases dsRead_answer_cases hwf ha hr with hb | hb
  · rw [hb, retire_sinkByte, sinkByte_committed, if_pos ha]
  · exact hb

/-- Settles O38: in each of the three ranges of addresses the read touches no more than the copy's byte and the counter. -/
theorem displayReadIsHarmless : Obligations.DisplayReadIsHarmless := by
  intro s a hw
  refine ⟨dsRead_beyond, fun hlt => ?_⟩
  by_cases hs : a < s.surfBytes
  · exact ⟨_, _, dsRead_surface hlt hs, fun _ => sinkByte_maybeCommit_self_cases a hw, rfl,
      fun c hc => sinkByte_maybeCommit_of_ne hc s⟩
  · exact ⟨_, _, dsRead_above hlt (Nat.le_of_not_lt hs), fun h => absurd h hs, rfl, fun c _ => rfl⟩

end Sys2Proof.Machine
end

section
/-!
A frame that the ByteSource serves: any byte-stream decode of it runs to its end (spec/44_stream_decode.md R271 to R275), and the
rows of `DEC_RGB565` in terms of the stream (R280, R281).
-/

namespace Sys2Proof.Machine

/-! ### What is common to the four decoders -/

/-- An operation that commutes with every change of the port fields leaves them as they are. -/
theorem Portless.io_eq {f : State → State} (hf : Portless f) (s : State) : (f s).io = s.io :=
  (congrArg State.io (hf s.io s) : (f (s.setIo s.io)).io = ((f s).setIo s.io).io)

/-- All the lines of a frame, their reading apart. -/
def State.frameWork (k : StreamKind) (w h : Nat) (stream : List Byte) (s : State) : State :=
  (s.forRows (k.rows h) (State.lineWork k w h stream)).afterFrame k w h
    (prevLine (k.lineBytes w) stream (k.rows h))
    (if k.rows h = 0 then [] else prevLine (k.lineBytes w) stream (k.rows h - 1))

theorem portless_frameWork (k : StreamKind) (w h : Nat) (stream : List Byte) : Portless (State.frameWork k w h stream) := by
  intro io s
  unfold State.frameWork
  rw [portless_forRows (portless_lineWork k w h stream), portless_afterFrame]

theorem frameWork_cmdcnt (k : StreamKind) (w h : Nat) (stream : List Byte) (s : State) :
    (s.frameWork k w h stream).cmdcnt = s.cmdcnt := by
  unfold State.frameWork
  rw [afterFrame_cmdcnt]
  refine forRows_keeps (P := fun t => t.cmdcnt = s.cmdcnt) (fun y t ht => ?_) _ rfl
  rw [State.lineWork, afterLine_cmdcnt, beforeLine_cmdcnt, ht]

/-- The preconditions of R271 all hold. -/
theorem streamPrecondition_none_iff {p : Params} {k : StreamKind} {w h : Half} {total : Word} :
    streamPrecondition p k w h total = none ↔
      total.toNat = w.toNat * h.toNat * 2 ∧ k.parityOk w.toNat h.toNat = true ∧ k.heightOk h.toNat = true ∧
        w.toNat ≤ p.lineMax := by
  unfold streamPrecondition
  constructor
  · intro hn
    split at hn
    · cases hn
    next hc =>
      split at hn
      · cases hn
      next ho =>
        split at hn
        · cases hn
        next hd =>
          split at hn
          · cases hn
          next hs => exact ⟨not_not.mp hc, by simpa using ho, by simpa using hd, Nat.le_of_not_lt hs⟩
  · rintro ⟨hc, ho, hd, hs⟩
    rw [if_neg (not_not.mpr hc), if_neg (by simp [ho]), if_neg (by simp [hd]), if_neg (Nat.not_lt.mpr hs)]

/-- The state in which the lines of a decode start: the total was asked for, `totals` are the answers left (R271). -/
def State.decodeBegun (totals : List Word) (s : State) : State :=
  ({ s.request .totalAvailable with bsTotals := totals } : State).beginRows

/-- Once `totalAvailable` has answered and the preconditions hold, the lines follow (R271). -/
theorem startStream_of_precondition {k : StreamKind} {w h : Half} {s : State} {total : Word} {totals : List Word}
    (ht : s.bsTotals = total :: totals) (hp : streamPrecondition s.params k w h total = none) :
    startStream k w h s = runLines k w h (k.rows h.toNat) 0 none [] [] (s.decodeBegun totals) := by
  simp only [startStream, resumeTotal, request_bsTotals, ht, runStream, request_params, hp, State.decodeBegun]

/-- The port fields, and the mark, after a decode of a frame that the answers `as` served, `rest` being left (R271, R272). -/
def State.ioServed (k : StreamKind) (w : Nat) (totals : List Word) (as rest : List ReadAnswer) (s : State) : Io :=
  { s.io with
    totals := totals, reads := rest, mark := true
    reqs := s.reqs ++ .totalAvailable :: requestsFor k.ceiling (k.lineBytes w) 0 as }

theorem decodeBegun_afterRead (k : StreamKind) (w : Nat) (totals : List Word) (as rest : List ReadAnswer) (s : State) :
    (s.decodeBegun totals).afterRead rest (requestsFor k.ceiling (k.lineBytes w) 0 as) =
      s.beginRows.setIo (s.ioServed k w totals as rest) := by
  have hq : s.reqs ++ [.totalAvailable] ++ requestsFor k.ceiling (k.lineBytes w) 0 as =
      s.reqs ++ .totalAvailable :: requestsFor k.ceiling (k.lineBytes w) 0 as := by
    rw [List.append_assoc, List.singleton_append]
  rw [State.ioServed, ← hq]
  rfl

/-- A decode whose preconditions hold, of a frame that the ByteSource serves, does all its lines and succeeds (R271 to R275,
R101). -/
theorem startStream_of_served {k : StreamKind} {w h : Half} {s : State} {total : Word} {totals : List Word}
    {as rest : List ReadAnswer} (ht : s.bsTotals = total :: totals) (hp : streamPrecondition s.params k w h total = none)
    (hr : s.bsReads = as ++ rest) (hs : answersServe k.ceiling (k.lineBytes w.toNat) 0 as = true)
    (hl : (streamOf as).length = k.rows h.toNat * k.lineBytes w.toNat) :
    startStream k w h s = .next
      { s.beginRows.frameWork k w.toNat h.toNat (streamOf as) with
        bsTotals := totals, bsReads := rest
        reqs := s.reqs ++ .totalAvailable :: requestsFor k.ceiling (k.lineBytes w.toNat) 0 as
        r0 := 1, err := .ok, cmdcnt := s.cmdcnt + 1 } := by
  have hlines : startStream k w h s = succeedDecode
      ((s.beginRows.frameWork k w.toNat h.toNat (streamOf as)).setIo (s.ioServed k w.toNat totals as rest)) := by
    rw [startStream_of_precondition ht hp, runLines_of_served k w h rest _ as (s.decodeBegun totals) hl hs hr,
      decodeBegun_afterRead]
    exact congrArg succeedDecode (portless_frameWork k w.toNat h.toNat (streamOf as) _ s.beginRows)
  have hcnt := frameWork_cmdcnt k w.toNat h.toNat (streamOf as) s.beginRows
  have hio := (portless_frameWork k w.toNat h.toNat (streamOf as)).io_eq s.beginRows
  simp only [State.io, Io.mk.injEq] at hio
  obtain ⟨-, -, hinits, hmcus, -, hmark⟩ := hio
  rw [hlines]
  simp [succeedDecode, succeed, State.retire, State.setR0, State.setIo, State.ioServed, State.io, hcnt, hinits, hmcus, hmark]

/-! ### `DEC_RGB565` -/

theorem exec_decRgb565 (w h : Half) (s : State) : exec (.decRgb565 w h) s = startStream .rgb565 w h s := rfl

/-- A line of `DEC_RGB565`: the progress word, then the row in the colours of the stream (R280, R281). -/
theorem lineWork_rgb565 (w h y : Nat) (stream : List Byte) (s : State) :
    s.lineWork .rgb565 w h stream y = (s.progress y h).emitRow w h y (frame565 s.swap565 w stream y) := by
  show (s.progress y h).emitRow w h y (pixel565 (s.progress y h).swap565 (lineOf (2 * w) stream y)) = _
  rw [progress_swap565]
  exact emitRow_congr (fun x hx => pixel565_lineOf hx s.swap565 stream y) _

/-- The lines of `DEC_RGB565` are the rows of the frame; `CTRL.SWAP565` stays as it is on the way. -/
theorem frameWork_rgb565 (w h : Nat) (stream : List Byte) (s : State) :
    s.frameWork .rgb565 w h stream = s.decodeRows h w h (frame565 s.swap565 w stream) := by
  refine forRows_congr (P := fun t => t.swap565 = s.swap565) rfl (fun y t ht => ?_) (fun y t _ ht => ?_)
  · rw [lineWork_rgb565, emitRow_swap565, progress_swap565, ht]
  · rw [lineWork_rgb565, ht]

/-- Settles O46: a served decode does all its lines, and those of `DEC_RGB565` are the rows of the frame. -/
theorem decRgb565DecodesAServedFrame : Obligations.DecRgb565DecodesAServedFrame := by
  intro w h s total totals as rest ht hc hm hr hs hl
  have hp : streamPrecondition s.params .rgb565 w h total = none := streamPrecondition_none_iff.mpr ⟨hc, rfl, rfl, hm⟩
  have he := startStream_of_served ht hp hr hs hl
  rw [frameWork_rgb565] at he
  exact ⟨_, (exec_decRgb565 w h s).trans he, rfl⟩

end Sys2Proof.Machine
end

section
/-!
SUPPORT. What the decoder accepts is what the encoder writes (spec/30_encoding.md R112, R114), and the rows of R120's table are
those of `Op`.
-/

namespace Sys2Proof

/-! ### An accepted header is rebuilt from its fields -/

/-- The low byte is the one field of a header whose mask leaves the bits 7:0 free. -/
theorem byteHeader_lowByte {h : Word} {op : Op} (hm : h &&& op.mask = op.pattern) (hk : op.mask = 0xFFFFFF00#32) :
    byteHeader op (lowByte h) = h :=
  header_low hm 8 (by rw [hk]; decide)

/-- The three channels are the bits 23:0 of a colour word (R112). -/
theorem channels_rgbOf (h : Word) : 0#8 ++ (rgbOf h).r ++ (rgbOf h).g ++ (rgbOf h).b = (h.extractLsb' 0 24).setWidth 32 := by
  have hlow : (rgbOf h).r ++ (rgbOf h).g ++ (rgbOf h).b = h.extractLsb' 0 24 := by
    simp only [rgbOf]
    rw [BitVec.extractLsb'_append_extractLsb'_eq_extractLsb' (show 16 = 8 + 8 from rfl),
      BitVec.extractLsb'_append_extractLsb'_eq_extractLsb' (show 8 = 0 + 8 from rfl)]
  rw [← hlow, BitVec.setWidth_eq_append (by decide), BitVec.append_assoc, BitVec.append_assoc, BitVec.append_assoc]
  rfl

theorem rgbHeader_rgbOf {h : Word} {op : Op} (hm : h &&& op.mask = op.pattern) (hk : op.mask = 0xFF000000#32) :
    rgbHeader op (rgbOf h) = h := by
  rw [rgbHeader, channels_rgbOf]
  exact header_low hm 24 (by rw [hk]; decide)

theorem ofBool_getLsbD (h : Word) (n : Nat) : BitVec.ofBool (h.getLsbD n) = h.extractLsb' n 1 := by
  apply BitVec.eq_of_getLsbD_eq
  intro j hj
  obtain rfl : j = 0 := by omega
  simp

/-- A bit above a field of the low bits continues it. -/
theorem ofBool_append_low (h : Word) (n : Nat) :
    BitVec.ofBool (h.getLsbD n) ++ h.extractLsb' 0 n = h.extractLsb' 0 (1 + n) := by
  rw [ofBool_getLsbD, BitVec.extractLsb'_append_extractLsb'_eq_extractLsb' (Nat.zero_add n).symm]

theorem pinHeader_pins {h : Word} {op : Op} (hm : h &&& op.mask = op.pattern) (hk : op.mask = 0xFFFFFFFC#32) :
    pinHeader op (h.getLsbD 0) (h.getLsbD 1) = h := by
  rw [pinHeader, ofBool_getLsbD h 0, ofBool_append_low]
  exact header_low hm 2 (by rw [hk]; decide)

/-- The header of `PAL_LOAD` and of `RDROW`: a half-word below a flag. -/
theorem flagHeader_half {h : Word} {op : Op} (hm : h &&& op.mask = op.pattern) (hk : op.mask = 0xFFFE0000#32) :
    op.pattern ||| (BitVec.ofBool (h.getLsbD 16) ++ h.extractLsb' 0 16).setWidth 32 = h := by
  rw [ofBool_append_low]
  exact header_low hm 17 (by rw [hk]; decide)

/-- The code of the format read is the code in the header, code 3 apart (R131). -/
theorem code_fmtOf {h : Word} (h3 : h.extractLsb' 0 2 ≠ 3) : (fmtOf h).code = h.extractLsb' 0 2 := by
  unfold fmtOf
  generalize h.extractLsb' 0 2 = c at h3
  revert c
  decide

theorem surfHeader_fmtOf {h : Word} (hm : h &&& Op.surfCfg.mask = Op.surfCfg.pattern) (h3 : h.extractLsb' 0 2 ≠ 3) :
    Op.surfCfg.pattern ||| (fmtOf h).code.setWidth 32 = h := by
  rw [code_fmtOf h3]
  exact header_low hm 2 (by decide)

/-! ### The words of a decoded command -/

/-- The words that the decoder reads as a command are the command's own, and the command is well formed (R112, R114). -/
theorem decodeOperands_ok {op : Op} {h : Word} {ws rest : List Word} {i : Instr} (ho : headerOp h = .ok op)
    (hd : decodeOperands op h ws = .ok (i, rest)) : h :: ws = encode i ++ rest ∧ i.wellFormed = true := by
  obtain ⟨hm, hf⟩ := headerOp_ok_iff.mp ho
  cases op with
  | nop | flush | diffReset =>
    cases hd
    exact ⟨congrArg (· :: ws) (header_none hm rfl).symm, rfl⟩
  | rdcsr | torgb | tolab | indexof =>
    cases hd
    exact ⟨congrArg (· :: ws) (byteHeader_lowByte hm rfl).symm, rfl⟩
  | clrstat =>
    cases hd
    exact ⟨congrArg (· :: ws) (header_low hm 3 (by decide)).symm, rfl⟩
  | rdfb =>
    cases hd
    exact ⟨congrArg (· :: ws) (header_low hm 24 (by decide)).symm, rfl⟩
  | nearRgb =>
    cases hd
    exact ⟨congrArg (· :: ws) (rgbHeader_rgbOf hm rfl).symm, rfl⟩
  | normRgb | normLab =>
    cases hd
    exact ⟨congrArg (· :: ws) (pinHeader_pins hm rfl).symm, rfl⟩
  | rdrow =>
    cases hd
    exact ⟨congrArg (· :: ws) (flagHeader_half hm rfl).symm, rfl⟩
  | wrcsr =>
    cases ws with
    | nil => cases hd
    | cons v ws =>
      cases hd
      exact ⟨congrArg (· :: v :: rest) (byteHeader_lowByte hm rfl).symm, rfl⟩
  | setidx =>
    cases ws with
    | nil => cases hd
    | cons c ws =>
      cases hd
      refine ⟨?_, rfl⟩
      rw [encode, byteHeader_lowByte hm rfl, pairWord_halves, List.cons_append, List.singleton_append]
  | setpix =>
    cases ws with
    | nil => cases hd
    | cons c ws =>
      cases hd
      refine ⟨?_, rfl⟩
      rw [encode, rgbHeader_rgbOf hm rfl, pairWord_halves, List.cons_append, List.singleton_append]
  | getidx | decRgb565 | decYuyv | decYuyvh | decYuv3l | decJpeg =>
    cases ws with
    | nil => cases hd
    | cons c ws =>
      cases hd
      refine ⟨?_, rfl⟩
      rw [encode, header_none hm rfl, pairWord_halves, List.cons_append, List.singleton_append]
  | surfCfg =>
    rcases ws with _ | ⟨d, _ | ⟨p, ws⟩⟩
    · cases hd
    · cases hd
    · cases hd
      refine ⟨?_, rfl⟩
      rw [encode, surfHeader_fmtOf hm fun h3 => hf ⟨rfl, h3⟩, pairWord_halves]
      rfl
  | nearLab =>
    rcases ws with _ | ⟨l, _ | ⟨a, _ | ⟨b, ws⟩⟩⟩
    · cases hd
    · cases hd
    · cases hd
    · cases hd
      exact ⟨congrArg (· :: l :: a :: b :: rest) (header_none hm rfl).symm, rfl⟩
  | palLoad =>
    simp only [decodeOperands] at hd
    split at hd
    next es r he =>
      cases hd
      obtain ⟨hws, hlen⟩ := decodeEntries_ok he
      have hn : BitVec.ofNat 16 es.length = h.extractLsb' 0 16 := by rw [hlen, BitVec.ofNat_toNat, BitVec.setWidth_eq]
      refine ⟨?_, decide_eq_true (hlen ▸ Nat.le_of_lt_succ (h.extractLsb' 0 16).isLt)⟩
      rw [encode, hn, flagHeader_half hm rfl, List.cons_append, ← hws]
    next => cases hd

/-! ### The opcode map -/

/-- The rows of R120, in its order. -/
def Op.all : List Op :=
  [.nop, .wrcsr, .rdcsr, .clrstat, .palLoad, .nearLab, .nearRgb, .torgb, .tolab, .indexof, .normRgb, .normLab, .surfCfg,
   .setidx, .getidx, .flush, .rdfb, .setpix, .diffReset, .rdrow, .decRgb565, .decYuyv, .decYuyvh, .decYuv3l, .decJpeg]

theorem Op.mem_all (op : Op) : op ∈ Op.all := by cases op <;> decide

/-- The columns `match` and `mask` of a row. -/
def Op.columns (op : Op) : Word × Word := (op.pattern, op.mask)

theorem opcodeMap_eq : Machine.opcodeMap = Op.all.map Op.columns := rfl

theorem mem_opcodeMap_iff {row : Word × Word} : row ∈ Machine.opcodeMap ↔ ∃ op : Op, op.columns = row := by
  simp [opcodeMap_eq, List.mem_map, Op.mem_all]

/-- At most one row of R120 selects a header: the opcode byte is in every mask. -/
theorem selects_unique {h : Word} {op op' : Op} (hs : Machine.selects op.columns h) (hs' : Machine.selects op'.columns h) :
    op = op' := by
  have hop := opOfOpcode_pattern op
  rw [← opcodeOf_pattern hs, opcodeOf_pattern hs', opOfOpcode_pattern op'] at hop
  exact (Option.some.inj hop).symm

/-- A pattern is a header of its own row, so no two rows share it (R120). -/
theorem pattern_injective {op op' : Op} (h : op.pattern = op'.pattern) : op = op' :=
  selects_unique (Laws.pattern_masked op) (h ▸ Laws.pattern_masked op')

/-- A header is accepted as one of the row that selects it, `SURF_CFG` with `fmt = 3` apart (R120, R122). -/
theorem headerOp_ok_iff_selects {h : Word} {op : Op} :
    headerOp h = .ok op ↔
      Machine.selects op.columns h ∧ ¬ (op.columns.1 = 0x20000000 ∧ h.extractLsb' 0 2 = 3) := by
  have hsurf : op.columns.1 = 0x20000000 ↔ op = .surfCfg :=
    ⟨fun hp => pattern_injective (op' := .surfCfg) hp, fun hop => by rw [hop]; rfl⟩
  rw [hsurf]
  exact headerOp_ok_iff

end Sys2Proof
end

section
/-!
The statements about the encoding: `decode` and `encode` are each other's inverse on the words of commands, which headers are
commands, and what the sequencer does with words that are none or that are missing (spec/30_encoding.md R110 to R122).
-/

namespace Sys2Proof.Machine

/-! ### Words and commands -/

/-- Settles O1, row by row of R120. -/
theorem decodeReadsBackEncode : Obligations.DecodeReadsBackEncode :=
  fun i rest hw => decode_encode i rest hw

/-- Settles O2: every field that the decoder reads is where the encoder writes it, and the mask covers the other bits. -/
theorem encodeReadsBackDecode : Obligations.EncodeReadsBackDecode := by
  intro ws rest i hd
  cases ws with
  | nil => cases hd
  | cons h ws =>
    cases ho : headerOp h with
    | error e => simp only [decode, ho] at hd; cases hd
    | ok op => simp only [decode, ho] at hd; exact decodeOperands_ok ho hd

/-- Settles O3: the map's rows are those of `Op`, and the opcode byte tells them apart. -/
theorem headerAcceptedByOpcodeMap : Obligations.HeaderAcceptedByOpcodeMap := by
  intro h
  refine ⟨⟨?_, ?_⟩, ?_, ?_⟩
  · rintro ⟨op, ho⟩
    exact ⟨op.columns, mem_opcodeMap_iff.mpr ⟨op, rfl⟩, headerOp_ok_iff_selects.mp ho⟩
  · rintro ⟨row, hrow, hs⟩
    obtain ⟨op, rfl⟩ := mem_opcodeMap_iff.mp hrow
    exact ⟨op, headerOp_ok_iff_selects.mpr hs⟩
  · intro r1 hr1 r2 hr2 hs1 hs2
    obtain ⟨op1, rfl⟩ := mem_opcodeMap_iff.mp hr1
    obtain ⟨op2, rfl⟩ := mem_opcodeMap_iff.mp hr2
    rw [selects_unique hs1 hs2]
  · intro op ho
    exact ⟨mem_opcodeMap_iff.mpr ⟨op, rfl⟩, (headerOp_ok_iff_selects.mp ho).1⟩

/-- Settles O4: the words written out are the encodings of the five commands. -/
theorem exampleWordsDecode : Obligations.ExampleWordsDecode :=
  ⟨decode_encode (.wrcsr 0x03 5) [] rfl,
    decode_encode (.palLoad false [⟨0x00, 0, ⟨0, 0, 0⟩⟩, ⟨0x01, 1, ⟨255, 255, 255⟩⟩]) [] rfl,
    decode_encode (.surfCfg .pack4 5 2 0) [] rfl, decode_encode (.setpix 2 1 ⟨128, 128, 128⟩) [] rfl,
    decode_encode (.decYuyvh 4 2) [] rfl⟩

/-! ### Words that are no command, and words that are missing -/

theorem ready_iff {s : State} : s.ready = true ↔ s.halted = false ∧ s.seq = .idle := by
  simp [State.ready]

/-- An idle engine looks at the header at the head of the queue first (R113 step 1). -/
theorem step_of_header {s : State} {h : Word} {q : List Word} (hh : s.halted = false) (hs : s.seq = .idle)
    (hq : s.cmdq = h :: q) : step s = runFetched (fetchHeader h q) s := by
  rw [step_of_idle hh hs, fetchNext, hq]

/-- An engine with a header and operand words taken goes on with the queue (R113 step 2). -/
theorem step_of_taken {s : State} {h : Word} {taken : List Word} (hh : s.halted = false)
    (hs : s.seq = .operands (h :: taken)) : step s = runFetched (fetchOperands h taken s.cmdq) s := by
  rw [step_of_operands hh hs, fetchMore]

/-- A halt from an idle engine leaves the sequencer as it is. -/
theorem runFetched_illegal_of_idle {s : State} (hs : s.seq = .idle) (q : List Word) :
    runFetched (.illegal q) s = .next { s with cmdq := q, halted := true } := by
  rw [runFetched, State.halt, ← hs]

/-- Some of the first `n` entry pairs has a reserved bit set (R113 step 3). -/
def ReservedEntryBit (n : Nat) (words : List Word) : Prop :=
  ∃ k, k < n ∧ ((words.getD (2 * k) 0).extractLsb' 16 16 ≠ 0 ∨ (words.getD (2 * k + 1) 0).extractLsb' 24 8 ≠ 0)

/-- A `PAL_LOAD` with a reserved bit in an entry is no command (R122). -/
theorem decode_of_reservedEntryBit {h : Word} {words : List Word} (ho : headerOp h = .ok .palLoad)
    (hl : 2 * (h.extractLsb' 0 16).toNat ≤ words.length) (hb : ReservedEntryBit (h.extractLsb' 0 16).toNat words) :
    ∃ e, decode (h :: words) = .error e := by
  cases hd : decodeEntries (h.extractLsb' 0 16).toNat words with
  | error e => exact ⟨e, by simp only [decode, ho, decodeOperands, hd]⟩
  | ok r =>
    obtain ⟨k, hk, hbit⟩ := hb
    obtain ⟨ha, hb⟩ := (decodeEntries_reserved_iff hl).mp ⟨r, hd⟩ k hk
    exact hbit.elim (absurd ha) (absurd hb)

/-- Such a `PAL_LOAD` is refused when its operand words are there, all of them taken (R113 step 3, log entry 20). -/
theorem fetchOperands_of_reservedEntryBit {h : Word} {taken q : List Word} (ho : headerOp h = .ok .palLoad)
    (ht : taken.length ≤ 2 * (h.extractLsb' 0 16).toNat) (hl : 2 * (h.extractLsb' 0 16).toNat ≤ (taken ++ q).length)
    (hb : ReservedEntryBit (h.extractLsb' 0 16).toNat (taken ++ q)) :
    fetchOperands h taken q = .illegal ((taken ++ q).drop (2 * (h.extractLsb' 0 16).toNat)) := by
  obtain ⟨e, he⟩ := decode_of_reservedEntryBit ho hl hb
  simp only [fetchOperands_of_enough ho ht hl, he, operandCount]

/-- Settles O5: the header test refuses at once, the entry test when the operand words are there. -/
theorem illegalCommandHalts : Obligations.IllegalCommandHalts := by
  refine fun s h => ⟨fun q hr hq hop => ?_, fun ho n words hn hl hb => ⟨fun hr hq => ?_, fun taken hh hs ht hw => ?_⟩⟩
  · obtain ⟨hh, hs⟩ := ready_iff.mp hr
    cases he : headerOp h with
    | ok op => exact absurd he (hop op)
    | error e => rw [step_of_header hh hs hq, fetchHeader_of_error q he, runFetched_illegal_of_idle hs]
  · subst hn
    obtain ⟨hh, hs⟩ := ready_iff.mp hr
    rw [step_of_header hh hs hq, fetchHeader_of_ok words ho,
      fetchOperands_of_reservedEntryBit (taken := []) ho (Nat.zero_le _) hl hb, runFetched_illegal_of_idle hs,
      List.nil_append]
  · subst hn hw
    rw [step_of_taken hh hs, fetchOperands_of_reservedEntryBit ho ht hl hb, runFetched, State.halt]

/-- Settles O8: a header that announces more operand words than there are is legal, so all there are are taken. -/
theorem operandWordsAwaited : Obligations.OperandWordsAwaited := by
  intro s words hh hp
  refine ⟨fun hs hq => ?_, fun taken hs hne hq => ?_⟩
  · cases words with
    | nil => cases hp
    | cons h ws =>
      obtain ⟨op, ho, hlt⟩ := operandsPending_cons.mp hp
      rw [step_of_header hh hs hq, fetchHeader_of_ok ws ho, fetchOperands_of_missing (taken := []) ho hlt, runFetched,
        List.nil_append]
  · obtain ⟨h, ws, rfl⟩ := List.exists_cons_of_ne_nil hne
    subst hq
    obtain ⟨op, ho, hlt⟩ := operandsPending_cons.mp hp
    rw [step_of_taken hh hs, fetchOperands_of_missing ho hlt, runFetched, List.cons_append]

end Sys2Proof.Machine
end

section
/-!
The system commands: what `NOP`, `WRCSR`, `RDCSR` and `CLRSTAT` leave, and the words of the registers as numbers
(spec/40_system.md R150 to R154, spec/10_state.md R41 to R53).
-/

namespace Sys2Proof.Machine

/-! ### Words put together from fields -/

/-- Fields put side by side read as the number with those digits. -/
theorem toNat_append_eq_add {n m : Nat} (x : BitVec n) (y : BitVec m) :
    (x ++ y).toNat = x.toNat * 2 ^ m + y.toNat := by
  rw [BitVec.toNat_append, ← Nat.shiftLeft_add_eq_or_of_lt y.isLt, Nat.shiftLeft_eq]

theorem flagBit_toNat (b : Bool) : (flagBit b).toNat = b.toNat := BitVec.toNat_ofBool b

/-- A flag is kept or cleared by a mask bit. -/
theorem flagBit_and (a b : Bool) : flagBit a &&& flagBit b = flagBit (a && b) := BitVec.ofBool_and_ofBool

/-! ### Retirement -/

theorem retire_ok (s : State) : s.retire .ok = { s with err := .ok, cmdcnt := s.cmdcnt + 1 } := by
  simp only [State.retire, ne_eq, not_true_eq_false, decide_false, Bool.or_false]

theorem retire_failed {rc : Code} (hrc : rc ≠ .ok) (s : State) :
    s.retire rc = { s with err := rc, fails := true, cmdcnt := s.cmdcnt + 1 } := by
  simp only [State.retire, ne_eq, hrc, not_false_eq_true, decide_true, Bool.or_true]

/-! ### `NOP` and `CLRSTAT` -/

theorem exec_nop (s : State) : exec .nop s = .next { s with cmdcnt := s.cmdcnt + 1 } := rfl

theorem exec_clrstat (m : BitVec 3) (s : State) :
    exec (.clrstat m) s = .next
      { s with
        fails := s.fails && !m.getLsbD 0, notfound := s.notfound && !m.getLsbD 1, sat := s.sat && !m.getLsbD 2
        err := .ok, cmdcnt := s.cmdcnt + 1 } :=
  congrArg Host.Outcome.next (retire_ok _)

/-- What `CLRSTAT m` keeps of `STATUS`, field by field of R42: the flags not in the mask, and `BDERR`. -/
theorem clrstat_mask (m : BitVec 3) :
    (~~~(m.setWidth 32 <<< 16) &&& 0xFFFFFF00 : Word) =
      BitVec.allOnes 13 ++ flagBit (!m.getLsbD 2) ++ flagBit (!m.getLsbD 1) ++ flagBit (!m.getLsbD 0) ++
        BitVec.allOnes 8 ++ 0#8 := by
  revert m; decide

/-- `&&&` of two words in the fields of `STATUS` is taken field by field. -/
theorem statusFields_and (z z' : BitVec 13) (a a' b b' c c' : BitVec 1) (d d' e e' : Byte) :
    (z ++ a ++ b ++ c ++ d ++ e : Word) &&& (z' ++ a' ++ b' ++ c' ++ d' ++ e') =
      (z &&& z') ++ (a &&& a') ++ (b &&& b') ++ (c &&& c') ++ (d &&& d') ++ (e &&& e') := by
  simp only [BitVec.and_append]

theorem statusWord_clrstat (m : BitVec 3) (s : State) (c : Word) :
    ({ s with
        fails := s.fails && !m.getLsbD 0, notfound := s.notfound && !m.getLsbD 1, sat := s.sat && !m.getLsbD 2
        err := .ok, cmdcnt := c } : State).statusWord =
      s.statusWord &&& ~~~(m.setWidth 32 <<< 16) &&& 0xFFFFFF00 := by
  rw [BitVec.and_assoc, clrstat_mask]
  simp only [State.statusWord, statusFields_and, flagBit_and, BitVec.and_allOnes, BitVec.and_zero]
  rfl

/-- Settles O20, by the words that the two commands leave in each field. -/
theorem nopAndClrstat : Obligations.NopAndClrstat :=
  fun s => ⟨exec_nop s, fun m => ⟨_, exec_clrstat m s, statusWord_clrstat m s _, rfl, rfl⟩⟩

/-! ### `WRCSR` -/

theorem qmodeField_toNat (v : Word) : (qmodeField v).toNat = v.toNat % 4 := by
  rw [qmodeField, BitVec.extractLsb'_toNat, Nat.shiftRight_zero]

theorem qmodeField_eq_iff {v w : Word} : qmodeField v = qmodeField w ↔ v.toNat % 4 = w.toNat % 4 := by
  rw [← BitVec.toNat_inj, qmodeField_toNat, qmodeField_toNat]

/-- The reserved bits of `CTRL` are 0 exactly below 32 (R44). -/
theorem ctrlReserved_eq_zero_iff {v : Word} : v.extractLsb' 5 27 = 0 ↔ v.toNat < 32 := by
  have hv := v.isLt
  rw [← BitVec.toNat_inj, BitVec.extractLsb'_toNat, Nat.shiftRight_eq_div_pow]
  show v.toNat / 2 ^ 5 % 2 ^ 27 = 0 ↔ v.toNat < 32
  omega

/-- The legal values of `CTRL` (R44), as numbers. -/
theorem ctrlLegal_iff {v : Word} : ctrlLegal v = true ↔ v.toNat < 32 ∧ v.toNat % 4 ≠ 3 := by
  have hmode : qmodeField v ≠ 3 ↔ v.toNat % 4 ≠ 3 := by
    rw [ne_eq, ← BitVec.toNat_inj, qmodeField_toNat]; rfl
  rw [ctrlLegal, Bool.and_eq_true, beq_iff_eq, bne_iff_ne, ctrlReserved_eq_zero_iff, hmode]

theorem accStored_eq_min (v : Word) : accStored v = BitVec.ofNat 32 (min v.toNat 65536) := by
  unfold accStored
  split
  next h => rw [Nat.min_eq_left h, BitVec.ofNat_toNat, BitVec.setWidth_eq]
  next h => rw [Nat.min_eq_right (Nat.le_of_not_le h)]; rfl

/-- The diffusion state is invalidated when `QMODE` changes, else left as it is (R44). -/
theorem invalidate_unless (p : Prop) [Decidable p] (s : State) :
    (if p then s else s.invalidate) = { s with curValid := decide p && s.curValid } := by
  by_cases hp : p
  · simp only [hp, if_true, decide_true, Bool.true_and]
  · simp only [hp, if_false, decide_false, Bool.false_and]; rfl

theorem exec_wrcsr_ctrl {v : Word} (hv : ctrlLegal v = true) (s : State) :
    exec (.wrcsr 0x03 v) s = .next
      { s with
        ctrl := v, curValid := decide (v.toNat % 4 = s.ctrl.toNat % 4) && s.curValid, err := .ok
        cmdcnt := s.cmdcnt + 1 } := by
  show execWrcsr 0x03 v s = _
  rw [execWrcsr, if_pos rfl, if_pos hv, succeed, retire_ok]
  simp only [invalidate_unless, qmodeField_eq_iff]

theorem exec_wrcsr_ctrl_illegal {v : Word} (hv : ¬ ctrlLegal v = true) (s : State) :
    exec (.wrcsr 0x03 v) s = failWith .csr s := by
  show execWrcsr 0x03 v s = _
  rw [execWrcsr, if_pos rfl, if_neg hv]

theorem exec_wrcsr_acc (v : Word) (s : State) :
    exec (.wrcsr 0x04 v) s = .next
      { s with acc := BitVec.ofNat 32 (min v.toNat 65536), err := .ok, cmdcnt := s.cmdcnt + 1 } := by
  show succeed { s with acc := accStored v } = _
  rw [succeed, retire_ok, accStored_eq_min]

theorem exec_wrcsr_readOnly {csr : Byte} (hc : csr ≠ 0x03) (ha : csr ≠ 0x04) (v : Word) (s : State) :
    exec (.wrcsr csr v) s = failWith .csr s := by
  show execWrcsr csr v s = _
  rw [execWrcsr, if_neg hc, if_neg ha]

theorem failWith_csr (s : State) :
    failWith .csr s = .next { s with err := .csr, fails := true, cmdcnt := s.cmdcnt + 1 } :=
  congrArg Host.Outcome.next (retire_failed (by decide) s)

/-- Settles O18: `CTRL`, legal or not, `ACC`, and every other number. -/
theorem wrcsrWritesCtrlAndAcc : Obligations.WrcsrWritesCtrlAndAcc := by
  intro csr v s
  by_cases hc : csr = 0x03
  · subst hc
    by_cases hv : ctrlLegal v = true
    · rw [exec_wrcsr_ctrl hv, if_pos ⟨rfl, ctrlLegal_iff.mp hv⟩]
    · rw [exec_wrcsr_ctrl_illegal hv, failWith_csr, if_neg (fun h => hv (ctrlLegal_iff.mpr h.2)), if_neg (by decide)]
  · rw [if_neg (fun h => hc h.1)]
    by_cases ha : csr = 0x04
    · subst ha
      rw [exec_wrcsr_acc, if_pos rfl]
    · rw [exec_wrcsr_readOnly hc ha, failWith_csr, if_neg ha]

/-! ### `RDCSR` -/

theorem exec_rdcsr (n : Byte) (s : State) :
    exec (.rdcsr n) s = .next { s with rspq := s.rspq ++ [s.readCsr n], cmdcnt := s.cmdcnt + 1 } := rfl

theorem statusWord_toNat (s : State) :
    s.statusWord.toNat = s.err.value.toNat + 256 * s.bderr.toNat + 65536 * s.fails.toNat + 131072 * s.notfound.toNat +
      262144 * s.sat.toNat := by
  simp only [State.statusWord, toNat_append_eq_add, flagBit_toNat, BitVec.toNat_ofNat]
  omega

theorem surfDim_toNat (w h : Half) : (h ++ w : Word).toNat = w.toNat + 65536 * h.toNat := by
  rw [toNat_append_eq_add]; omega

theorem surfFmtWord_toNat (s : State) :
    s.surfFmtWord.toNat = match s.fmt with | .dense8 => 0 | .pack4 => 1 | .plane2 => 2 := by
  unfold State.surfFmtWord
  cases s.fmt <;> rfl

theorem palInfo_toNat {s : State} (hn : s.pal.length ≤ 254) :
    s.palInfo.toNat = s.pal.length + 256 * s.mono.toNat := by
  simp only [State.palInfo, toNat_append_eq_add, flagBit_toNat, BitVec.toNat_ofNat]
  omega

theorem diffRow_toNat (s : State) : s.diffRow.toNat = if s.curValid then s.curRow.toNat + 65536 else 0 := by
  unfold State.diffRow
  split
  · simp only [toNat_append_eq_add, BitVec.toNat_ofNat]; omega
  · rfl

/-- The bounds of R10 that make `CAP0` and `CAP1` fit their fields. -/
theorem Params.bounds_of_legal {p : Params} (hp : p.legal = true) :
    p.fbBytes ≤ 2 ^ 24 ∧ p.rowMax ≤ 65535 ∧ p.lineMax ≤ 65535 := by
  simp only [Params.legal, Bool.and_eq_true, decide_eq_true_eq] at hp
  omega

theorem cap0_toNat {p : Params} (hp : p.legal = true) : (BitVec.ofNat 32 p.fbBytes).toNat = p.fbBytes := by
  have hb := (Params.bounds_of_legal hp).1
  rw [BitVec.toNat_ofNat]; omega

theorem cap1_toNat {p : Params} (hp : p.legal = true) :
    (BitVec.ofNat 16 p.lineMax ++ BitVec.ofNat 16 p.rowMax : Word).toNat = p.rowMax + 65536 * p.lineMax := by
  obtain ⟨-, hrow, hline⟩ := Params.bounds_of_legal hp
  simp only [toNat_append_eq_add, BitVec.toNat_ofNat]
  omega

theorem cap2Word_toNat {p : Params} (hm : p.mrowBytes < 2 ^ 32) : p.cap2Word.toNat = p.mrowBytes := by
  rw [Params.cap2Word, if_pos hm, BitVec.toNat_ofNat, Nat.mod_eq_of_lt hm]

/-- An unassigned number reads 0 (R53). -/
theorem readCsr_unassigned {n : Byte} (hlo : 0x0D ≤ n.toNat) (hgap : n.toNat ≤ 0x0F ∨ 0x14 ≤ n.toNat) (s : State) :
    s.readCsr n = 0 := by
  unfold State.readCsr
  split
  any_goals omega
  rfl

/-- Settles O19: each number selects its register, whose fields are read as numbers. -/
theorem rdcsrReadsEachRegister : Obligations.RdcsrReadsEachRegister := by
  intro n s
  refine ⟨s.readCsr n, exec_rdcsr n s, ?id, ?status, ?cmdcnt, ?ctrl, ?acc, ?surfdim, ?surffmt, ?plut, ?palinfo, ?diffrow,
    fun hp => ⟨?cap0, ?cap1⟩, ?cap2, ?r0, ?r1, ?r2, ?r3, fun hlo hgap => readCsr_unassigned hlo hgap s⟩ <;> rintro rfl
  case status => exact statusWord_toNat s
  case surfdim => exact surfDim_toNat s.surfW s.surfH
  case surffmt => exact surfFmtWord_toNat s
  case palinfo => exact palInfo_toNat
  case diffrow => exact diffRow_toNat s
  case cap0 => exact cap0_toNat hp
  case cap1 => exact cap1_toNat hp
  case cap2 => exact cap2Word_toNat
  case id | cmdcnt | ctrl | acc | plut | r0 | r1 | r2 | r3 => rfl

end Sys2Proof.Machine
end

section
/-!
The palette: what each of the eight palette commands leaves, as a whole next state (spec/41_palette.md R170 to R182).
-/

namespace Sys2Proof.Machine

/-! ### Success and failure as whole states -/

theorem succeed_eq (s : State) : succeed s = .next { s with err := .ok, cmdcnt := s.cmdcnt + 1 } :=
  congrArg Host.Outcome.next (retire_ok s)

theorem failWith_eq {rc : Code} (hrc : rc ≠ .ok) (s : State) :
    failWith rc s = .next { s with err := rc, fails := true, cmdcnt := s.cmdcnt + 1 } :=
  congrArg Host.Outcome.next (retire_failed hrc s)

/-- A byte shown in a result register keeps its number. -/
theorem ofNat_byte (b : Byte) : BitVec.ofNat 32 b.toNat = b.setWidth 32 := BitVec.ofNat_toNat 32 b

/-! ### `PAL_LOAD` -/

theorem exec_palLoad_tooMany {es : List PalSpec} (hl : Config.palMax < es.length) (mono : Bool) (s : State) :
    exec (.palLoad mono es) s =
      .next { s with pal := [], mono := false, err := .palSize, fails := true, cmdcnt := s.cmdcnt + 1 } := by
  show execPalLoad mono es s = _
  rw [execPalLoad, if_pos hl, failWith_eq (by decide)]
  rfl

theorem exec_palLoad_repeated {es : List PalSpec} (hl : es.length ≤ Config.palMax) (hd : ¬ (es.map (·.index)).Nodup)
    (mono : Bool) (s : State) :
    exec (.palLoad mono es) s =
      .next { s with pal := [], mono := false, err := .palDup, fails := true, cmdcnt := s.cmdcnt + 1 } := by
  show execPalLoad mono es s = _
  rw [execPalLoad, if_neg (Nat.not_lt.mpr hl), if_pos ((hasDupIndex_iff es).mpr hd), failWith_eq (by decide)]
  rfl

theorem exec_palLoad_built {es : List PalSpec} (hl : es.length ≤ Config.palMax) (hd : (es.map (·.index)).Nodup) (mono : Bool)
    (s : State) :
    exec (.palLoad mono es) s = .next
      { s with
        pal := es.map (fun e => mkEntry s.params mono e.name e.index e.rgb), mono := mono, err := .ok
        cmdcnt := s.cmdcnt + 1 } := by
  show execPalLoad mono es s = _
  rw [execPalLoad, if_neg (Nat.not_lt.mpr hl), if_neg (fun h => (hasDupIndex_iff es).mp h hd), succeed_eq]
  rfl

/-- Settles O21: the three outcomes, the entries of a good table being what `MKENTRY` builds. -/
theorem palLoadBuildsTheTable : Obligations.PalLoadBuildsTheTable := by
  intro mono es s
  refine ⟨fun hl => exec_palLoad_tooMany hl mono s, fun hl hd => exec_palLoad_repeated hl hd mono s,
    fun hl hd => ⟨_, exec_palLoad_built hl hd mono s, List.length_map _,
      fun k x hx => ⟨_, ?_, builtFrom_mkEntry _ _ _ _ _⟩⟩⟩
  rw [List.getElem?_map, hx]
  rfl

/-! ### `NEAR_LAB` and `NEAR_RGB` -/

theorem nearest_empty {s : State} (hp : s.pal = []) (c : Lab) :
    s.nearest c = ⟨none, 255, Lab.zero⟩ ∧ s.nearestFlags c = s.noteNotFound := by
  have hn : s.nearestEntry c = none := nearestEntry_none_iff.mpr hp
  exact ⟨by rw [State.nearest, hn]; rfl, by rw [State.nearestFlags, hn]⟩

/-- The first of the nearest entries is the one `NEAREST` returns, with the residual as it saturates (R173). -/
theorem nearest_first {s : State} {c : Lab} {p : Nat} {e : PalEntry} (hf : FirstNearest s.mono s.pal c p e) :
    s.nearest c =
      ⟨some (p, e), e.index, sat32Triple (labDiff c.L e.lab.L) (labDiff c.a e.lab.a) (labDiff c.b e.lab.b)⟩ ∧
    s.nearestFlags c =
      s.noteSat (saturatesTriple (labDiff c.L e.lab.L) (labDiff c.a e.lab.a) (labDiff c.b e.lab.b)) := by
  have hn : s.nearestEntry c = some (p, e) := nearestEntry_of_first hf
  simp only [State.nearest, State.nearestFlags, hn, and_self]

theorem firstNearest_exists {s : State} (hp : s.pal ≠ []) (c : Lab) : ∃ p e, FirstNearest s.mono s.pal c p e := by
  cases hn : s.nearestEntry c with
  | none => exact absurd (nearestEntry_none_iff.mp hn) hp
  | some r => exact ⟨r.1, r.2, nearestEntry_some hn⟩

theorem exec_nearLab_empty {s : State} (hp : s.pal = []) (c : Lab) :
    exec (.nearLab c) s = .next
      { s with r0 := 255, r1 := 0, r2 := 0, r3 := 0, notfound := true, err := .ok, cmdcnt := s.cmdcnt + 1 } := by
  obtain ⟨hn, hf⟩ := nearest_empty hp c
  show execNearLab c s = _
  rw [execNearLab, hn, hf, succeed_eq]
  rfl

theorem exec_nearLab_first {s : State} {c : Lab} {p : Nat} {e : PalEntry} (hf : FirstNearest s.mono s.pal c p e) :
    exec (.nearLab c) s = .next
      { s with
        r0 := BitVec.ofNat 32 e.index.toNat, r1 := sat32 (labDiff c.L e.lab.L), r2 := sat32 (labDiff c.a e.lab.a)
        r3 := sat32 (labDiff c.b e.lab.b)
        sat := s.sat || saturatesTriple (labDiff c.L e.lab.L) (labDiff c.a e.lab.a) (labDiff c.b e.lab.b), err := .ok
        cmdcnt := s.cmdcnt + 1 } := by
  obtain ⟨hn, hs⟩ := nearest_first hf
  show execNearLab c s = _
  rw [execNearLab, hn, hs, succeed_eq, ofNat_byte]
  rfl

/-- Settles O22: the search on an empty palette, and at the first of the nearest entries. -/
theorem nearLabFindsTheFirstNearest : Obligations.NearLabFindsTheFirstNearest := by
  intro c s
  refine ⟨fun hp => exec_nearLab_empty hp c, fun hp => firstNearest_exists hp c,
    fun p e hf => ⟨sat32Triple _ _ _, _, exec_nearLab_first hf, holdsTriple_sat32Triple _ _ _, ?_⟩⟩
  rw [Bool.or_eq_true, saturatesTriple_iff]
  rfl

/-- `NEAR_RGB` is `NEAR_LAB` of the converted colour with the residual discarded (R175). -/
theorem exec_nearRgb (c : RGB) (s : State) :
    ∃ u, exec (.nearLab (s.params.toLab c)) s = .next u ∧
      exec (.nearRgb c) s = .next { u with r1 := s.r1, r2 := s.r2, r3 := s.r3 } := by
  refine ⟨_, rfl, congrArg Host.Outcome.next ?_⟩
  obtain ⟨nf, st, hshape⟩ := nearestFlags_shape (s.params.toLab c) s
  rw [hshape]
  rfl

/-- Settles O23, from what `NEAR_LAB` does on an empty palette and at the first of the nearest entries. -/
theorem nearRgbConvertsAndSearches : Obligations.NearRgbConvertsAndSearches := by
  intro c s
  obtain ⟨u, hu, ht⟩ := exec_nearRgb c s
  refine ⟨_, u, ht, hu, rfl, fun hp => ?empty, fun p e hf => ?first⟩
  case empty =>
    obtain rfl := Host.Outcome.next.inj (hu.symm.trans (exec_nearLab_empty hp _))
    exact ⟨rfl, rfl⟩
  case first =>
    obtain rfl := Host.Outcome.next.inj (hu.symm.trans (exec_nearLab_first hf))
    exact ⟨by rw [ofNat_byte]; exact BitVec.toNat_setWidth_of_le (by decide), rfl⟩

/-! ### The palette round trip -/

theorem distance_self (mono : Bool) (c : Lab) : distance mono c c = 0 := by
  cases mono <;> simp [distance]

theorem distance_nonneg (mono : Bool) (c e : Lab) : 0 ≤ distance mono c e := by
  rw [← labDist_eq]
  exact Int.natCast_nonneg _

theorem word_eq_of_sq_sub_eq_zero {x y : LabNum} (h : (x.toInt - y.toInt) ^ 2 = 0) : x = y :=
  BitVec.toInt_inj.mp (Int.sub_eq_zero.mp (sq_eq_zero_iff.mp h))

/-- Only equal colours are at distance 0: equal in `L`, in monochrome mode (R173). -/
theorem distance_eq_zero {mono : Bool} {c e : Lab} (h : distance mono c e = 0) : if mono then e.L = c.L else e = c := by
  cases mono with
  | true =>
    have hL : c.L.toInt = e.L.toInt := by simp only [distance, if_true] at h; omega
    exact (BitVec.toInt_inj.mp hL).symm
  | false =>
    simp only [distance, Bool.false_eq_true, if_false] at h
    rw [add_eq_zero_iff_of_nonneg (add_nonneg (sq_nonneg _) (sq_nonneg _)) (sq_nonneg _),
      add_eq_zero_iff_of_nonneg (sq_nonneg _) (sq_nonneg _)] at h
    obtain ⟨⟨hL, ha⟩, hb⟩ := h
    show Lab.mk e.L e.a e.b = Lab.mk c.L c.a c.b
    rw [word_eq_of_sq_sub_eq_zero hL, word_eq_of_sq_sub_eq_zero ha, word_eq_of_sq_sub_eq_zero hb]

theorem firstNearest_self {mono : Bool} {pal : List PalEntry} {p : Nat} {e : PalEntry} (he : pal[p]? = some e)
    (hq : ∀ (q : Nat) (f : PalEntry), q < p → pal[q]? = some f → if mono then f.lab.L ≠ e.lab.L else f.lab ≠ e.lab) :
    FirstNearest mono pal e.lab p e := by
  refine ⟨he, fun q f hf => ?_⟩
  rw [distance_self]
  refine ⟨distance_nonneg _ _ _, fun hlt => lt_of_le_of_ne (distance_nonneg _ _ _) (fun h0 => ?_)⟩
  have hne := hq q f hlt hf
  have heq := distance_eq_zero h0.symm
  cases mono <;> exact hne heq

/-- Settles O24: an entry unlike every earlier one is the first of the nearest to its own colour, at distance 0. -/
theorem paletteRoundTrip : Obligations.PaletteRoundTrip := by
  intro s p e he hq _
  have hz : ∀ x : LabNum, labDiff x x = 0 := fun x => Int.sub_self _
  rw [exec_nearLab_first (firstNearest_self he hq), hz, hz, hz, sat32_zero, show saturatesTriple 0 0 0 = false from rfl,
    Bool.or_false]

/-! ### `TORGB`, `TOLAB` and `INDEXOF` -/

theorem packRgb_eq (c : RGB) : packRgb c = BitVec.ofNat 32 (c.r.toNat * 65536 + c.g.toNat * 256 + c.b.toNat) := by
  have hn : (packRgb c).toNat = c.r.toNat * 65536 + c.g.toNat * 256 + c.b.toNat := by
    simp only [packRgb, toNat_append_eq_add, BitVec.toNat_ofNat]
    omega
  rw [← hn, BitVec.ofNat_toNat, BitVec.setWidth_eq]

theorem exec_torgb_found {k : Byte} {s : State} {e : PalEntry} (h : findIndex s.pal k = some e) :
    exec (.torgb k) s = .next
      { s with
        r0 := BitVec.ofNat 32 (e.rgb.r.toNat * 65536 + e.rgb.g.toNat * 256 + e.rgb.b.toNat), err := .ok
        cmdcnt := s.cmdcnt + 1 } := by
  show execTorgb k s = _
  simp only [execTorgb, h, succeed_eq, packRgb_eq]
  rfl

theorem exec_torgb_missing {k : Byte} {s : State} (h : findIndex s.pal k = none) :
    exec (.torgb k) s = .next { s with r0 := 0, notfound := true, err := .ok, cmdcnt := s.cmdcnt + 1 } := by
  show execTorgb k s = _
  simp only [execTorgb, h, succeed_eq]
  rfl

theorem exec_tolab_found {k : Byte} {s : State} {e : PalEntry} (h : findIndex s.pal k = some e) :
    exec (.tolab k) s = .next { s with r1 := e.lab.L, r2 := e.lab.a, r3 := e.lab.b, err := .ok, cmdcnt := s.cmdcnt + 1 } := by
  show execTolab k s = _
  simp only [execTolab, h, succeed_eq]
  rfl

theorem exec_tolab_missing {k : Byte} {s : State} (h : findIndex s.pal k = none) :
    exec (.tolab k) s = .next
      { s with r1 := 0, r2 := 0, r3 := 0, notfound := true, err := .ok, cmdcnt := s.cmdcnt + 1 } := by
  show execTolab k s = _
  simp only [execTolab, h, succeed_eq]
  rfl

theorem exec_indexof_found {n : Byte} {s : State} {e : PalEntry} (h : findName s.pal n = some e) :
    exec (.indexof n) s = .next { s with r0 := BitVec.ofNat 32 e.index.toNat, err := .ok, cmdcnt := s.cmdcnt + 1 } := by
  show execIndexof n s = _
  simp only [execIndexof, h, succeed_eq, ofNat_byte]
  rfl

theorem exec_indexof_missing {n : Byte} {s : State} (h : findName s.pal n = none) :
    exec (.indexof n) s = .next
      (if n = 0xFE then { s with r0 := BitVec.ofNat 32 s.pal.length, err := .ok, cmdcnt := s.cmdcnt + 1 }
      else { s with r0 := 255, notfound := true, err := .ok, cmdcnt := s.cmdcnt + 1 }) := by
  show execIndexof n s = _
  simp only [execIndexof, h, succeed_eq, Config.nameClean]
  by_cases hc : n = 0xFE
  · rw [if_pos hc, if_pos hc]
    rfl
  · rw [if_neg hc, if_neg hc]
    rfl

/-- Settles O25: each lookup where it finds an entry and where it misses. -/
theorem lookupsFindTheFirstEntry : Obligations.LookupsFindTheFirstEntry := by
  intro k s
  refine ⟨fun e he => ?indexFound, fun hno => ?indexMissing, fun e he => ?nameFound, fun hno => ?nameMissing⟩
  case indexFound =>
    have h := findIndex_some_iff.mpr he
    exact ⟨exec_torgb_found h, exec_tolab_found h⟩
  case indexMissing =>
    have h := findIndex_none_iff.mpr hno
    exact ⟨exec_torgb_missing h, exec_tolab_missing h⟩
  case nameFound => exact exec_indexof_found (findName_some_iff.mpr he)
  case nameMissing => exact exec_indexof_missing (findName_none_iff.mpr hno)

/-! ### `NORM_RGB` -/

theorem mkEntry_name (p : Params) (mono : Bool) (name index : Byte) (c : RGB) :
    (mkEntry p mono name index c).name = name := (builtFrom_mkEntry p mono name index c).1

theorem mkEntry_rgb_of_colour (p : Params) (name index : Byte) (c : RGB) : (mkEntry p false name index c).rgb = c := rfl

/-- The endpoints of `NORM_RGB`, in order in every channel (R180). -/
def RgbEndpoints (pb pw : Bool) (pal : List PalEntry) (lo hi : RGB) : Prop :=
  Endpoint pb pal 0x00 (·.rgb) ⟨0, 0, 0⟩ lo ∧ Endpoint pw pal 0x01 (·.rgb) ⟨255, 255, 255⟩ hi ∧
    lo.r.toNat < hi.r.toNat ∧ lo.g.toNat < hi.g.toNat ∧ lo.b.toNat < hi.b.toNat

section
variable {pb pw : Bool} {s : State}

theorem exec_normRgb_rescales {lo hi : RGB} (h : RgbEndpoints pb pw s.pal lo hi) :
    exec (.normRgb pb pw) s = .next
      { s with
        pal := s.pal.map (fun e => mkEntry s.params s.mono e.name e.index (rescaleRgb lo hi e.rgb)), err := .ok
        cmdcnt := s.cmdcnt + 1 } := by
  obtain ⟨hlo, hhi, hr⟩ := h
  show execNormRgb pb pw s = _
  simp only [execNormRgb, Config.nameBlack, Config.nameWhite, pinned_some_iff.mpr hlo, pinned_some_iff.mpr hhi,
    (rgbRangeOk_iff lo hi).mpr hr, if_true, succeed_eq]
  rfl

theorem exec_normRgb_refused (h : ¬ ∃ lo hi, RgbEndpoints pb pw s.pal lo hi) :
    exec (.normRgb pb pw) s = .next { s with err := .pin, fails := true, cmdcnt := s.cmdcnt + 1 } := by
  show execNormRgb pb pw s = _
  unfold execNormRgb
  split
  next lo hi hlo hhi =>
    rw [if_neg fun hr => h ⟨lo, hi, pinned_some_iff.mp hlo, pinned_some_iff.mp hhi, (rgbRangeOk_iff lo hi).mp hr⟩]
    exact failWith_eq (by decide) s
  next => exact failWith_eq (by decide) s

/-- Where `NORM_RGB` succeeds, there are endpoints in order, and every entry is rebuilt from its rescaled colour (R180). -/
theorem normRgb_succeeded {t : State} (h : exec (.normRgb pb pw) s = .next t) (he : t.err = .ok) :
    ∃ lo hi, RgbEndpoints pb pw s.pal lo hi ∧
      t.pal = s.pal.map (fun e => mkEntry s.params s.mono e.name e.index (rescaleRgb lo hi e.rgb)) := by
  by_cases hex : ∃ lo hi, RgbEndpoints pb pw s.pal lo hi
  · obtain ⟨lo, hi, hends⟩ := hex
    obtain rfl := Host.Outcome.next.inj (h.symm.trans (exec_normRgb_rescales hends))
    exact ⟨lo, hi, hends, rfl⟩
  · obtain rfl := Host.Outcome.next.inj (h.symm.trans (exec_normRgb_refused hex))
    cases he

end

/-- Settles O26: the endpoints in order, and otherwise. -/
theorem normRgbRescalesEveryEntry : Obligations.NormRgbRescalesEveryEntry := by
  intro pb pw s
  refine ⟨fun lo hi hlo hhi hr hg hb => ⟨_, exec_normRgb_rescales ⟨hlo, hhi, hr, hg, hb⟩, List.length_map _,
    fun k e he => ⟨_, rescaleRgb lo hi e.rgb, ?_, rgbRescaled_rescaleRgb _ _ _, builtFrom_mkEntry _ _ _ _ _⟩⟩,
    exec_normRgb_refused⟩
  rw [List.getElem?_map, he]
  rfl

/-- The low endpoint goes to 0 (R180). -/
theorem rescaleChannel_lo (lo hi : Byte) : rescaleChannel lo hi lo = 0 := by
  rw [rescaleChannel, Int.sub_self, Int.zero_mul, tdiv, Int.zero_tdiv]
  rfl

/-- The high endpoint goes to 255 (R180). -/
theorem rescaleChannel_hi {lo hi : Byte} (h : lo.toNat < hi.toNat) : rescaleChannel lo hi hi = 255 := by
  rw [rescaleChannel, tdiv, Int.mul_tdiv_cancel_left _ (by omega)]
  rfl

/-- What a map of the entries makes of the first entry with a property that it keeps. -/
theorem firstWith_map {pal : List PalEntry} {has : PalEntry → Prop} {f : PalEntry → PalEntry} {e : PalEntry}
    (hf : ∀ x, has (f x) ↔ has x) (h : FirstWith pal has e) : FirstWith (pal.map f) has (f e) := by
  obtain ⟨p, hp, he, hq⟩ := h
  refine ⟨p, by rw [List.getElem?_map, hp]; rfl, (hf e).mpr he, fun q g hlt hg => ?_⟩
  rw [List.getElem?_map, Option.map_eq_some_iff] at hg
  obtain ⟨x, hx, rfl⟩ := hg
  exact fun hn => hq q x hlt hx ((hf x).mp hn)

/-- Settles O27: the pinned entries are the endpoints, which go to 0 and to 255 in every channel. -/
theorem normRgbPinsBlackAndWhite : Obligations.NormRgbPinsBlackAndWhite := by
  intro s t hm h he
  obtain ⟨lo, hi, ⟨⟨-, hlo⟩, ⟨-, hhi⟩, hr, hg, hb⟩, hpal⟩ := normRgb_succeeded h he
  obtain ⟨black, hblack, rfl⟩ := hlo rfl
  obtain ⟨white, hwhite, rfl⟩ := hhi rfl
  rw [hm] at hpal
  rw [hpal]
  have hname : ∀ (n : Byte) (x : PalEntry),
      (mkEntry s.params false x.name x.index (rescaleRgb black.rgb white.rgb x.rgb)).name = n ↔ x.name = n :=
    fun n x => by rw [mkEntry_name]
  refine ⟨⟨_, firstWith_map (hname _) hblack, ?black⟩, ⟨_, firstWith_map (hname _) hwhite, ?white⟩⟩
  case black => rw [mkEntry_rgb_of_colour, rescaleRgb, rescaleChannel_lo, rescaleChannel_lo, rescaleChannel_lo]
  case white => rw [mkEntry_rgb_of_colour, rescaleRgb, rescaleChannel_hi hr, rescaleChannel_hi hg, rescaleChannel_hi hb]

/-! ### `NORM_LAB` -/

section
variable {pb pw : Bool} {s : State}

theorem exec_normLab_rescales {lo hi : Int} (hlo : Endpoint pb s.pal 0x00 (fun e => e.lab.L.toInt) 0 lo)
    (hhi : Endpoint pw s.pal 0x01 (fun e => e.lab.L.toInt) 6553600 hi) (hr : lo < hi) :
    exec (.normLab pb pw) s = .next
      { s with pal := s.pal.map (normLabEntry s.params s.mono lo hi), err := .ok, cmdcnt := s.cmdcnt + 1 } := by
  show execNormLab pb pw s = _
  simp only [execNormLab, Config.nameBlack, Config.nameWhite, labHundred, pinned_some_iff.mpr hlo, pinned_some_iff.mpr hhi,
    hr, if_true, succeed_eq]
  rfl

theorem exec_normLab_refused
    (h : ¬ ∃ lo hi, Endpoint pb s.pal 0x00 (fun e => e.lab.L.toInt) 0 lo ∧
      Endpoint pw s.pal 0x01 (fun e => e.lab.L.toInt) 6553600 hi ∧ lo < hi) :
    exec (.normLab pb pw) s = .next { s with err := .pin, fails := true, cmdcnt := s.cmdcnt + 1 } := by
  show execNormLab pb pw s = _
  unfold execNormLab
  split
  next lo hi hlo hhi =>
    rw [if_neg fun hr => h ⟨lo, hi, pinned_some_iff.mp hlo, pinned_some_iff.mp hhi, hr⟩]
    exact failWith_eq (by decide) s
  next => exact failWith_eq (by decide) s

end

/-- Settles O28: the endpoints in order, and otherwise. -/
theorem normLabRescalesEveryEntry : Obligations.NormLabRescalesEveryEntry := by
  intro pb pw s
  refine ⟨fun lo hi hlo hhi hr => ⟨_, exec_normLab_rescales hlo hhi hr, List.length_map _, fun k e he =>
    ⟨normLabEntry s.params s.mono lo hi e, ?_, rfl, rfl, rfl, rfl, rescaleL_toInt lo hi e.lab.L, rfl⟩⟩,
    exec_normLab_refused⟩
  rw [List.getElem?_map, he]
  rfl

end Sys2Proof.Machine
end

section
/-!
The host procedure `DERIVE`: what a lookup answers and keeps, the loop over the desired names, and the load of the entries it
makes (spec/41_palette.md R185).
-/

namespace Sys2Proof.Machine

/-! ### One lookup -/

/-- What the host procedure leaves alone while it looks names up: the base palette, the parameters, and port `RSP` (R185). -/
structure KeepsBase (s t : State) : Prop where
  pal : t.pal = s.pal
  mono : t.mono = s.mono
  params : t.params = s.params
  rspq : t.rspq = s.rspq

theorem KeepsBase.refl (s : State) : KeepsBase s s := ⟨rfl, rfl, rfl, rfl⟩

theorem KeepsBase.trans {s t u : State} (h : KeepsBase s t) (h' : KeepsBase t u) : KeepsBase s u :=
  ⟨h'.pal.trans h.pal, h'.mono.trans h.mono, h'.params.trans h.params, h'.rspq.trans h.rspq⟩

/-- The host takes `R0` and leaves port `RSP` as it was (R381). -/
theorem hostReadR0_eq (s : State) : s.hostReadR0 = (s.r0, { s with cmdcnt := s.cmdcnt + 1 }) := by
  show ((s.rspq ++ [s.r0]).getLastD 0, { s with rspq := (s.rspq ++ [s.r0]).dropLast, cmdcnt := s.cmdcnt + 1 }) = _
  rw [List.getLastD_concat, List.dropLast_concat]

/-- One lookup of `DERIVE`: `INDEXOF`, and the host takes `R0` (R185). -/
def State.lookUp (name : Byte) (s : State) : Word × State := (stateAfter s (execIndexof name s)).hostReadR0

/-- `DERIVE` takes an answer of `INDEXOF` for that of a missing name (R185). -/
def saysMissing (pal : List PalEntry) (name : Byte) (i : Word) : Bool :=
  i == 255#32 || (name == Config.nameClean && i == BitVec.ofNat 32 pal.length)

theorem lookUp_found {name : Byte} {s : State} {e : PalEntry} (h : findName s.pal name = some e) :
    (s.lookUp name).1 = BitVec.ofNat 32 e.index.toNat ∧ KeepsBase s (s.lookUp name).2 := by
  rw [State.lookUp, show execIndexof name s = _ from exec_indexof_found h, hostReadR0_eq]
  exact ⟨rfl, rfl, rfl, rfl, rfl⟩

theorem lookUp_missing {name : Byte} {s : State} (h : findName s.pal name = none) :
    (s.lookUp name).1 = (if name = 0xFE then BitVec.ofNat 32 s.pal.length else 255) ∧ KeepsBase s (s.lookUp name).2 := by
  rw [State.lookUp, show execIndexof name s = _ from exec_indexof_missing h, hostReadR0_eq]
  split <;> exact ⟨rfl, rfl, rfl, rfl, rfl⟩

theorem keepsBase_lookUp (name : Byte) (s : State) : KeepsBase s (s.lookUp name).2 := by
  cases h : findName s.pal name with
  | none => exact (lookUp_missing h).2
  | some e => exact (lookUp_found h).2

theorem saysMissing_index_iff {pal : List PalEntry} (hl : pal.length ≤ 254) (name i : Byte) :
    saysMissing pal name (BitVec.ofNat 32 i.toNat) = true ↔ i.toNat = 255 ∨ (name = 0xFE ∧ i.toNat = pal.length) := by
  have hi := i.isLt
  simp only [saysMissing, Bool.or_eq_true, Bool.and_eq_true, beq_iff_eq, ← BitVec.toNat_inj (n := 32), BitVec.toNat_ofNat,
    Config.nameClean]
  rw [Nat.mod_eq_of_lt (by omega), Nat.mod_eq_of_lt (by omega), Nat.mod_eq_of_lt (by omega)]

theorem lowByte_setWidth (b : Byte) : lowByte (b.setWidth 32) = b := by
  rw [← BitVec.toNat_inj, lowByte, BitVec.extractLsb'_toNat, BitVec.toNat_setWidth]
  omega

/-- A name that `DERIVE` finds: the answer is taken for an index, and is the one found. -/
theorem lookUp_of_finds {name i : Byte} {s : State} (hl : s.pal.length ≤ 254) (h : DeriveFinds s.pal name i) :
    saysMissing s.pal name (s.lookUp name).1 = false ∧ lowByte (s.lookUp name).1 = i := by
  obtain ⟨⟨e, he, rfl⟩, h255, hclean⟩ := h
  rw [(lookUp_found (findName_some_iff.mpr he)).1]
  constructor
  · rw [Bool.eq_false_iff, ne_eq, saysMissing_index_iff hl, not_or]
    exact ⟨h255, hclean⟩
  · rw [ofNat_byte, lowByte_setWidth]

/-- A name that `DERIVE` does not find: the answer is that of a missing name. -/
theorem lookUp_of_not_finds {name : Byte} {s : State} (hl : s.pal.length ≤ 254) (h : ∀ i, ¬ DeriveFinds s.pal name i) :
    saysMissing s.pal name (s.lookUp name).1 = true := by
  cases hn : findName s.pal name with
  | none =>
    rw [(lookUp_missing hn).1]
    by_cases hc : name = 0xFE
    · rw [if_pos hc, hc]
      simp [saysMissing, Config.nameClean]
    · rw [if_neg hc]
      rfl
  | some e =>
    rw [(lookUp_found hn).1, saysMissing_index_iff hl]
    by_contra hno
    rw [not_or] at hno
    exact h e.index ⟨⟨e, findName_some_iff.mp hn, rfl⟩, hno⟩

/-! ### The loop -/

/-- The loop of `DERIVE` in terms of the lookup of its first name (R185). -/
theorem deriveEntries_cons (allowMissing : Bool) (name : Byte) (target : RGB) (more : List (Byte × RGB)) (s : State) :
    deriveEntries allowMissing ((name, target) :: more) s =
      if saysMissing s.pal name (s.lookUp name).1 && !allowMissing then (none, (s.lookUp name).2)
      else
        (if saysMissing s.pal name (s.lookUp name).1 then (deriveEntries allowMissing more (s.lookUp name).2).1
          else (deriveEntries allowMissing more (s.lookUp name).2).1.map
            (fun es => ⟨name, lowByte (s.lookUp name).1, target⟩ :: es),
        (deriveEntries allowMissing more (s.lookUp name).2).2) := rfl

section
variable {name : Byte} {s : State}

theorem deriveEntries_cons_found {i : Byte} (hl : s.pal.length ≤ 254) (h : DeriveFinds s.pal name i) (allowMissing : Bool)
    (target : RGB) (more : List (Byte × RGB)) :
    deriveEntries allowMissing ((name, target) :: more) s =
      ((deriveEntries allowMissing more (s.lookUp name).2).1.map (fun es => ⟨name, i, target⟩ :: es),
        (deriveEntries allowMissing more (s.lookUp name).2).2) := by
  obtain ⟨hm, hi⟩ := lookUp_of_finds hl h
  rw [deriveEntries_cons, hm, hi]
  rfl

theorem deriveEntries_cons_refused (hl : s.pal.length ≤ 254) (h : ∀ i, ¬ DeriveFinds s.pal name i) (target : RGB)
    (more : List (Byte × RGB)) :
    deriveEntries false ((name, target) :: more) s = (none, (s.lookUp name).2) := by
  rw [deriveEntries_cons, lookUp_of_not_finds hl h]
  rfl

theorem deriveEntries_cons_leftOut (hl : s.pal.length ≤ 254) (h : ∀ i, ¬ DeriveFinds s.pal name i) (target : RGB)
    (more : List (Byte × RGB)) :
    deriveEntries true ((name, target) :: more) s = deriveEntries true more (s.lookUp name).2 := by
  rw [deriveEntries_cons, lookUp_of_not_finds hl h]
  rfl

end

/-- A name that is missing and may not be: the loop ends with nothing, and the engine holds the base. -/
theorem deriveEntries_refuses {desired : List (Byte × RGB)} {s : State} (hl : s.pal.length ≤ 254)
    (h : ∃ d ∈ desired, ∀ i, ¬ DeriveFinds s.pal d.1 i) :
    ∃ t, deriveEntries false desired s = (none, t) ∧ KeepsBase s t := by
  induction desired generalizing s with
  | nil =>
    obtain ⟨d, hd, -⟩ := h
    cases hd
  | cons d more ih =>
    obtain ⟨name, target⟩ := d
    have hk := keepsBase_lookUp name s
    by_cases hf : ∃ i, DeriveFinds s.pal name i
    · obtain ⟨i, hi⟩ := hf
      have hmore : ∃ d ∈ more, ∀ i, ¬ DeriveFinds (s.lookUp name).2.pal d.1 i := by
        obtain ⟨d, hd, hno⟩ := h
        rcases List.mem_cons.mp hd with rfl | hd
        · exact absurd hi (hno i)
        · exact ⟨d, hd, hk.pal ▸ hno⟩
      obtain ⟨t, ht, hkt⟩ := ih (hk.pal ▸ hl) hmore
      exact ⟨t, by rw [deriveEntries_cons_found hl hi, ht]; rfl, hk.trans hkt⟩
    · exact ⟨_, deriveEntries_cons_refused hl (not_exists.mp hf) target more, hk⟩

/-- Every name is found or may be missing: the loop ends with the entries of the names found, and the engine holds the base. -/
theorem deriveEntries_builds {desired : List (Byte × RGB)} {allowMissing : Bool} {s : State} (hl : s.pal.length ≤ 254)
    (h : (∀ d ∈ desired, ∃ i, DeriveFinds s.pal d.1 i) ∨ allowMissing = true) :
    ∃ es t, deriveEntries allowMissing desired s = (some es, t) ∧ DeriveEntries s.pal desired es ∧ KeepsBase s t := by
  induction desired generalizing s with
  | nil => exact ⟨[], s, rfl, rfl, KeepsBase.refl s⟩
  | cons d more ih =>
    obtain ⟨name, target⟩ := d
    have hk := keepsBase_lookUp name s
    have hmore : (∀ d ∈ more, ∃ i, DeriveFinds (s.lookUp name).2.pal d.1 i) ∨ allowMissing = true :=
      h.imp_left fun ha d hd => hk.pal ▸ ha d (List.mem_cons_of_mem _ hd)
    obtain ⟨es, t, ht, hes, hkt⟩ := ih (hk.pal ▸ hl) hmore
    rw [hk.pal] at hes
    by_cases hf : ∃ i, DeriveFinds s.pal name i
    · obtain ⟨i, hi⟩ := hf
      exact ⟨⟨name, i, target⟩ :: es, t, by rw [deriveEntries_cons_found hl hi, ht]; rfl, .inl ⟨i, es, hi, hes, rfl⟩,
        hk.trans hkt⟩
    · obtain rfl : allowMissing = true := h.resolve_left fun ha => hf (ha _ List.mem_cons_self)
      exact ⟨es, t, by rw [deriveEntries_cons_leftOut hl (not_exists.mp hf), ht], .inr ⟨not_exists.mp hf, hes⟩,
        hk.trans hkt⟩

/-! ### The load -/

/-- `PAL_LOAD` leaves the same palette and result code wherever the parameters are the same. -/
theorem palLoad_same {s t : State} (hk : KeepsBase s t) (mono : Bool) (es : List PalSpec) :
    ∃ u v, exec (.palLoad mono es) s = .next u ∧ exec (.palLoad mono es) t = .next v ∧
      v.pal = u.pal ∧ v.mono = u.mono ∧ v.err = u.err ∧ v.rspq = s.rspq := by
  by_cases hl : es.length ≤ Config.palMax
  · by_cases hd : (es.map (·.index)).Nodup
    · exact ⟨_, _, exec_palLoad_built hl hd mono s, exec_palLoad_built hl hd mono t, by rw [hk.params], rfl, rfl, hk.rspq⟩
    · exact ⟨_, _, exec_palLoad_repeated hl hd mono s, exec_palLoad_repeated hl hd mono t, rfl, rfl, rfl, hk.rspq⟩
  · have hl := Nat.lt_of_not_le hl
    exact ⟨_, _, exec_palLoad_tooMany hl mono s, exec_palLoad_tooMany hl mono t, rfl, rfl, rfl, hk.rspq⟩

/-- Settles O29: the loop by induction on the desired names, then the load. -/
theorem deriveBuildsOrRefuses : Obligations.DeriveBuildsOrRefuses := by
  intro s desired allowMissing forceMono hl
  refine ⟨fun hno hm => ?refused, fun hf => ?built⟩
  case refused =>
    subst hm
    obtain ⟨t, ht, hk⟩ := deriveEntries_refuses hl hno
    exact ⟨t, by rw [derive, ht], hk.pal, hk.mono, hk.rspq⟩
  case built =>
    obtain ⟨es, t, ht, hes, hk⟩ := deriveEntries_builds hl hf
    obtain ⟨u, v, hu, hv, hpal, hmono, herr, hrsp⟩ := palLoad_same hk forceMono es
    have hload : execPalLoad forceMono es t = .next v := hv
    exact ⟨es, v, u, by rw [derive, ht]; simp only [hload, stateAfter], hes, hu, hpal, hmono, herr, hrsp⟩

end Sys2Proof.Machine
end

section
/-!
The surface commands: the surface size and the bytes of a pixel in closed form, what a pixel write leaves in the bits of those
bytes, and what each command leaves as a whole next state (spec/42_surface.md R210 to R218).
-/

namespace Sys2Proof.Machine

/-! ### Layout in closed form -/

theorem surfBytesOf_eq (fmt : Fmt) (w h : Nat) : surfBytesOf fmt w h = surfaceSize fmt w h := by
  cases fmt with
  | dense8 | pack4 => rfl
  | plane2 => exact (Nat.mul_assoc 2 ((w + 7) / 8) h).symm

theorem surfBytes_eq (s : State) : s.surfBytes = surfaceSize s.fmt s.surfW.toNat s.surfH.toNat := surfBytesOf_eq ..

/-- In `DENSE8` and `PACK4` a pixel has one byte (R84, R85). -/
theorem pixelBytes_of_not_plane2 {s : State} (hf : s.fmt ≠ .plane2) (x y : Nat) : s.pixelBytes x y = [s.pixelAddr x y] := by
  cases h : s.fmt with
  | dense8 | pack4 => simp [State.pixelBytes, State.pixelAddr, State.stride, strideOf, ceilDiv, h]
  | plane2 => exact absurd h hf

/-- In `PLANE2` a pixel has a byte in each plane, `PLANEBYTES` apart (R86). -/
theorem pixelBytes_of_plane2 {s : State} (hf : s.fmt = .plane2) (x y : Nat) :
    s.pixelBytes x y = [s.pixelAddr x y, s.pixelAddr x y + s.planeBytes] := by
  have hc : (s.surfW.toNat + 7) / 8 * s.surfH.toNat + y * ((s.surfW.toNat + 7) / 8) + x / 8 =
      y * ((s.surfW.toNat + 7) / 8) + x / 8 + (s.surfW.toNat + 7) / 8 * s.surfH.toNat := by
    rw [Nat.add_assoc, Nat.add_comm]
  simp only [State.pixelBytes, State.pixelAddr, State.stride, strideOf, State.planeBytes, planeBytesOf, ceilDiv, hf, hc,
    Nat.add_succ_sub_one]

theorem mem_pixelBytes_iff {s : State} {x y a : Nat} :
    a ∈ s.pixelBytes x y ↔ a = s.pixelAddr x y ∨ (s.fmt = .plane2 ∧ a = s.pixelAddr x y + s.planeBytes) := by
  by_cases hf : s.fmt = .plane2
  · simp [pixelBytes_of_plane2 hf, hf]
  · simp [pixelBytes_of_not_plane2 hf, hf]

/-- Byte number 0 of a pixel is the one at its address, that of plane B in `PLANE2` (R84 to R86). -/
theorem pixelBytes_zero (x y : Nat) (s : State) : (s.pixelBytes x y)[0]? = some (s.pixelAddr x y) := by
  by_cases hf : s.fmt = .plane2
  · rw [pixelBytes_of_plane2 hf, List.getElem?_cons_zero]
  · rw [pixelBytes_of_not_plane2 hf, List.getElem?_cons_zero]

theorem eq_pixelAddr_of_not_plane2 {s : State} {x y k a : Nat} (hf : s.fmt ≠ .plane2) (h : (s.pixelBytes x y)[k]? = some a) :
    a = s.pixelAddr x y := by
  rw [pixelBytes_of_not_plane2 hf] at h
  exact List.mem_singleton.mp (List.mem_of_getElem? h)

/-- Plane B is byte number 0 of a pixel, plane C byte number 1 (R86). -/
theorem planeBytes_cases {s : State} {x y k a : Nat} (hf : s.fmt = .plane2) (h : (s.pixelBytes x y)[k]? = some a) :
    (k = 0 ∧ a = s.pixelAddr x y) ∨ (k = 1 ∧ a = s.pixelAddr x y + s.planeBytes) := by
  rw [pixelBytes_of_plane2 hf] at h
  match k with
  | 0 => exact .inl ⟨rfl, (Option.some.inj h).symm⟩
  | 1 => exact .inr ⟨rfl, (Option.some.inj h).symm⟩

/-! ### Nibbles and plane bits as numbers -/

theorem lowNibble_toNat (b : Byte) : (b &&& 0x0F).toNat = b.toNat % 16 := by
  rw [BitVec.toNat_and]
  exact Nat.and_two_pow_sub_one_eq_mod b.toNat 4

/-- A byte after a pixel write: the nibble of the pixel column, the high one in an even column, and the other as it was (R85). -/
theorem setNibble_eq_append (x : Nat) (o v : Byte) :
    setNibble x o v =
      if x % 2 = 0 then v.extractLsb' 0 4 ++ o.extractLsb' 0 4 else o.extractLsb' 4 4 ++ v.extractLsb' 0 4 := by
  unfold setNibble
  split
  all_goals
    apply BitVec.eq_of_getLsbD_eq
    intro i hi
    rw [BitVec.getLsbD_append, BitVec.getLsbD_extractLsb', BitVec.getLsbD_extractLsb']
    interval_cases i <;> simp

theorem setNibble_toNat (x : Nat) (o v : Byte) :
    (setNibble x o v).toNat =
      if x % 2 = 0 then v.toNat % 16 * 16 + o.toNat % 16 else o.toNat / 16 * 16 + v.toNat % 16 := by
  have ho := o.isLt
  rw [setNibble_eq_append]
  split
  all_goals
    rw [toNat_append_eq_add, BitVec.extractLsb'_toNat, BitVec.extractLsb'_toNat, Nat.shiftRight_eq_div_pow,
      Nat.shiftRight_eq_div_pow]
    omega

theorem getNibble_toNat (x : Nat) (o : Byte) :
    (getNibble x o).toNat = if x % 2 = 0 then o.toNat / 16 else o.toNat % 16 := by
  unfold getNibble
  split
  · exact (BitVec.toNat_ushiftRight ..).trans (Nat.shiftRight_eq_div_pow ..)
  · exact lowNibble_toNat o

/-- A plane byte after a pixel write: the bit of the pixel column, most significant first, and no other (R86). -/
theorem getLsbD_setPlaneBit (x : Nat) (o : Byte) (c : Bool) {b : Nat} (hb : b < 8) :
    (setPlaneBit x o c).getLsbD b = if b = 7 - x % 8 then c else o.getLsbD b := by
  have h := getPlaneBit_setPlaneBit x (7 - b) o c
  have hbit : 7 - (7 - b) % 8 = b := by omega
  have hcol : (7 - b) % 8 = x % 8 ↔ b = 7 - x % 8 := by omega
  simpa only [getPlaneBit, hbit, hcol] using h

/-! ### The `PLUT` search -/

theorem plutFind_none {plut : Word} {v : Byte} (h : ∀ j < 4, plutByte plut j ≠ v) : plutFind plut v = none := by
  cases hk : plutFind plut v with
  | none => rfl
  | some k =>
    obtain ⟨hk4, hkv⟩ := plutFind_some hk
    exact absurd hkv (h k hk4)

/-- The least `PLUT` byte that matches is the one found (R212). -/
theorem plutFind_least {plut : Word} {v : Byte} {j : Nat} (hj : j < 4) (hjv : plutByte plut j = v)
    (hmin : ∀ i < j, plutByte plut i ≠ v) : plutFind plut v = some j := by
  have hrange : plutFind plut v = (List.range 4).find? (fun k => plutByte plut k == v) := rfl
  rw [hrange, List.find?_range_eq_some]
  exact ⟨by simpa using hjv, List.mem_range.mpr hj, fun i hi => by simpa using hmin i hi⟩

/-! ### Pixel reads by format -/

section
variable {x y : Nat} {s : State} (hi : s.inside x y = true)
include hi

theorem surfGet_dense8 (hf : s.fmt = .dense8) : s.surfGet x y = s.memRead (s.pixelAddr x y) := by
  simp only [State.surfGet, hi, if_true, hf]

theorem surfGet_pack4 (hf : s.fmt = .pack4) : s.surfGet x y = getNibble x (s.memRead (s.pixelAddr x y)) := by
  simp only [State.surfGet, hi, if_true, hf]

theorem surfGet_plane2 (hf : s.fmt = .plane2) :
    s.surfGet x y = plutByte s.plut ((getPlaneBit x (s.memRead (s.pixelAddr x y))).toNat +
      2 * (getPlaneBit x (s.memRead (s.pixelAddr x y + s.planeBytes))).toNat) := by
  simp only [State.surfGet, hi, if_true, hf]

/-! ### Pixel writes by format -/

variable (hw : s.fb.wf = true) {k a : Nat} (ha : (s.pixelBytes x y)[k]? = some a) (v : Byte)
include hw ha

theorem memRead_surfSet_dense8 (hf : s.fmt = .dense8) : (s.surfSet x y v).memRead a = v := by
  have hr := memRead_surfSet v hi hw a
  rw [hf] at hr
  exact hr.trans (if_pos (eq_pixelAddr_of_not_plane2 (by rw [hf]; decide) ha))

theorem memRead_surfSet_pack4 (hf : s.fmt = .pack4) : (s.surfSet x y v).memRead a = setNibble x (s.memRead a) v := by
  have hr := memRead_surfSet v hi hw a
  rw [hf] at hr
  exact hr.trans (if_pos (eq_pixelAddr_of_not_plane2 (by rw [hf]; decide) ha))

omit ha in
theorem memRead_surfSet_plane2_absent (hf : s.fmt = .plane2) (hn : plutFind s.plut v = none) :
    (s.surfSet x y v).memRead a = s.memRead a := by
  have hr := memRead_surfSet v hi hw a
  simp only [hf, hn] at hr
  exact hr

/-- In `PLANE2` byte number `k` of the pixel takes bit `k` of the position found in `PLUT` (R86, R212). -/
theorem memRead_surfSet_plane2_found (hf : s.fmt = .plane2) {j : Nat} (hj : plutFind s.plut v = some j) :
    (s.surfSet x y v).memRead a = setPlaneBit x (s.memRead a) (decide (j / 2 ^ k % 2 = 1)) := by
  have hr := memRead_surfSet v hi hw a
  simp only [hf, hj] at hr
  have hj4 := (plutFind_some hj).1
  have hp := pixelAddr_lt hi
  rcases planeBytes_cases hf ha with ⟨rfl, rfl⟩ | ⟨rfl, rfl⟩
  · rw [hr, if_neg (by omega), if_pos rfl, Nat.pow_zero, Nat.div_one]
    rfl
  · rw [hr, if_pos rfl, Nat.pow_one, Nat.mod_eq_of_lt (show j / 2 < 2 by omega)]
    rfl

end

/-! ### `SURF_CFG` -/

/-- The state of a surface just configured, before retirement (R210). -/
def State.configured (fmt : Fmt) (w h : Half) (plut : Word) (s : State) : State :=
  (({ s with fmt := fmt, surfW := w, surfH := h, plut := plut } : State).zeroFill
    (surfaceSize fmt w.toNat h.toNat)).invalidate

section
variable {fmt : Fmt} {w h : Half} {s : State}

theorem exec_surfCfg_fits (hw : w.toNat ≤ s.params.rowMax) (hs : surfaceSize fmt w.toNat h.toNat ≤ s.params.fbBytes)
    (plut : Word) : exec (.surfCfg fmt w h plut) s = .next ((s.configured fmt w h plut).retire .ok) := by
  show execSurfCfg fmt w h plut s = _
  rw [execSurfCfg, surfBytesOf_eq, if_neg (not_or.mpr ⟨Nat.not_lt.mpr hw, Nat.not_lt.mpr hs⟩)]
  rfl

theorem exec_surfCfg_tooBig (hs : s.params.rowMax < w.toNat ∨ s.params.fbBytes < surfaceSize fmt w.toNat h.toNat)
    (plut : Word) :
    exec (.surfCfg fmt w h plut) s = .next { s with err := .size, fails := true, cmdcnt := s.cmdcnt + 1 } := by
  show execSurfCfg fmt w h plut s = _
  rw [execSurfCfg, surfBytesOf_eq, if_pos hs, failWith_eq (by decide)]

end

theorem memRead_configured (fmt : Fmt) (w h : Half) (plut : Word) (s : State) (a : Nat) :
    (s.configured fmt w h plut).memRead a = if a < surfaceSize fmt w.toNat h.toNat then 0 else s.memRead a :=
  memRead_zeroFill _ a _

theorem sinkByte_configured (fmt : Fmt) (w h : Half) (plut : Word) (s : State) (a : Nat) :
    (s.configured fmt w h plut).sinkByte a = if a < surfaceSize fmt w.toNat h.toNat then 0 else s.sinkByte a :=
  sinkByte_zeroFill _ a _

/-- Settles O30: the surface that fits, with its two memories cleared, and the one that does not. -/
theorem surfCfgConfiguresAndClears : Obligations.SurfCfgConfiguresAndClears := by
  intro fmt w h plut s
  refine ⟨fun hw hs => ⟨_, exec_surfCfg_fits hw hs plut, ?_, fun a => ?_⟩, fun hs => exec_surfCfg_tooBig hs plut⟩
  · rw [retire_ok]
    rfl
  · rw [retire_memRead, retire_sinkByte, memRead_configured, sinkByte_configured]
    exact ⟨rfl, rfl⟩

/-! ### `SETIDX` -/

theorem exec_setidx_outside {x y : Half} {s : State} (h : s.inside x.toNat y.toNat = false) (v : Byte) :
    exec (.setidx x y v) s = .next { s with err := .ok, cmdcnt := s.cmdcnt + 1 } := by
  rw [exec_setidx, surfSet_outside v h, retire_ok]

/-- A pixel write that retires changes the memories and the count of free choices, and nothing else (R212). -/
theorem retire_surfSet (x y : Nat) (v : Byte) (s : State) :
    (s.surfSet x y v).retire .ok =
      { s with
        err := .ok, cmdcnt := s.cmdcnt + 1, fb := (s.surfSet x y v).fb, fbc := (s.surfSet x y v).fbc
        choices := (s.surfSet x y v).choices } := by
  obtain ⟨fb, fbc, n, h⟩ := surfSet_shape x y v s
  rw [h, retire_ok]

/-- A pixel write leaves every byte but those of its pixel, in both memories (R84 to R86, log entry 2). -/
theorem surfSet_frame {x y a : Nat} (v : Byte) {s : State} (ha : a ∉ s.pixelBytes x y) :
    (s.surfSet x y v).memRead a = s.memRead a ∧ (s.surfSet x y v).sinkByte a = s.sinkByte a := by
  rw [mem_pixelBytes_iff, not_or, not_and] at ha
  obtain ⟨hb, hc⟩ := ha
  exact ⟨memRead_surfSet_of_ne v hb hc, sinkByte_surfSet_of_ne v hb hc⟩

/-- Settles O31: outside the surface, the frame, the DisplaySink's copy, and the bits of the pixel format by format. -/
theorem setidxWritesOnlyItsPixel : Obligations.SetidxWritesOnlyItsPixel := by
  intro x y v s
  constructor
  case left =>
    intro hout
    exact exec_setidx_outside (Bool.eq_false_iff.mpr (mt (inside_iff ..).mp hout)) v
  case right =>
    intro hx hy
    have hi : s.inside x.toNat y.toNat = true := (inside_iff ..).mpr ⟨hx, hy⟩
    refine ⟨_, exec_setidx x y v s, retire_surfSet .., fun a ha => surfSet_frame v ha,
      fun hc a _ => sinkByte_surfSet_cases v hi hc a, fun hw k a ha => ?_⟩
    simp only [retire_memRead]
    refine ⟨memRead_surfSet_dense8 hi hw ha v, fun hf => ?pack4,
      fun hf hn => memRead_surfSet_plane2_absent hi hw v hf (plutFind_none hn), fun hf j hj hjv hmin b hb => ?plane2⟩
    case pack4 => rw [memRead_surfSet_pack4 hi hw ha v hf, setNibble_toNat]
    case plane2 =>
      rw [memRead_surfSet_plane2_found hi hw ha v hf (plutFind_least hj hjv hmin), getLsbD_setPlaneBit _ _ _ hb]

/-! ### `GETIDX` -/

/-- Settles O32: the pixel read, format by format. -/
theorem getidxReadsThePixel : Obligations.GetidxReadsThePixel := by
  intro x y s
  refine ⟨s.surfGet x.toNat y.toNat, ?state, fun hout => ?outside, fun hx hy a ha => ?inside⟩
  case state =>
    rw [exec_getidx, retire_ok, ofNat_byte]
    rfl
  case outside => exact surfGet_outside (Bool.eq_false_iff.mpr (mt (inside_iff ..).mp hout))
  case inside =>
    have hi : s.inside x.toNat y.toNat = true := (inside_iff ..).mpr ⟨hx, hy⟩
    obtain rfl : s.pixelAddr x.toNat y.toNat = a := Option.some.inj ((pixelBytes_zero ..).symm.trans ha)
    refine ⟨surfGet_dense8 hi, fun hf => ?pack4, fun hf c hc => ?plane2⟩
    case pack4 => rw [surfGet_pack4 hi hf, getNibble_toNat]
    case plane2 =>
      obtain rfl : s.pixelAddr x.toNat y.toNat + s.planeBytes = c := by simpa [pixelBytes_of_plane2 hf] using hc
      exact surfGet_plane2 hi hf

/-- What `GETIDX` reads after `SETIDX` is what the pixel read gives after the pixel write. -/
theorem r0_getidx_setidx {x y x' y' : Half} {v : Byte} {s t u : State} (ht : exec (.setidx x y v) s = .next t)
    (hu : exec (.getidx x' y') t = .next u) :
    u.r0.toNat = ((s.surfSet x.toNat y.toNat v).surfGet x'.toNat y'.toNat).toNat := by
  rw [exec_setidx] at ht
  rw [exec_getidx] at hu
  cases ht; cases hu
  rw [retire_r0, setR0_r0, retire_surfGet, BitVec.toNat_setWidth_of_le (by decide)]

/-- Settles O33: the pixel read undoes the pixel write, as far as the format keeps the index. -/
theorem pixelRoundTrip : Obligations.PixelRoundTrip := by
  intro x y v s t u hw hx hy ht hu
  have hself := surfGet_surfSet_self v ((inside_iff ..).mpr ⟨hx, hy⟩) hw
  rw [r0_getidx_setidx ht hu, hself]
  refine ⟨fun hf => ?dense8, fun hf => ?pack4, fun hf ⟨j, hj, hjv⟩ => ?plane2⟩
  case dense8 => rw [hf]
  case pack4 => rw [hf]; exact lowNibble_toNat v
  case plane2 =>
    obtain ⟨k, hk⟩ := plutFind_isSome hj hjv
    simp only [hf, hk, Option.isSome_some, if_true]

/-! ### `RDFB` -/

/-- Settles O36: below and at or above `SURFBYTES`. -/
theorem rdfbReadsAByte : Obligations.RdfbReadsAByte := by
  intro addr s
  show execRdfb addr s = _
  rw [execRdfb, surfBytes_eq]
  split
  · rw [succeed_eq, ofNat_byte]
    rfl
  · rw [succeed_eq]
    rfl

end Sys2Proof.Machine
end

section
/-!
The quantizing view: `SETPIX` in its three modes, `DIFF_RESET` and `RDROW` as whole next states, and the weights of a
diffused error (spec/43_quantize.md R240 to R251).
-/

namespace Sys2Proof.Machine

/-! ### `DIFF_RESET` and `RDROW` -/

/-- The row-buffer cell that `RDROW` reads, or zeros (R251). -/
def State.rowCell (sel : Bool) (x : Nat) (s : State) : Err3 :=
  if s.curValid ∧ x < s.surfW.toNat then (if sel then s.nextRow.entry x else s.thisRow.entry x) else Lab.zero

theorem exec_rdrow (sel : Bool) (x : Half) (s : State) :
    exec (.rdrow sel x) s = .next ((s.setR123 (s.rowCell sel x.toNat)).retire .ok) := by
  show execRdrow sel x s = _
  unfold execRdrow State.rowCell
  split <;> rfl

/-- Settles O39, from the cell that `RDROW` reads. -/
theorem diffResetAndRdrow : Obligations.DiffResetAndRdrow := by
  intro s
  refine ⟨succeed_eq s.invalidate, fun sel x => ⟨s.rowCell sel x.toNat, ?_, fun hv hx => if_pos ⟨hv, hx⟩,
    fun h => if_neg ?_⟩⟩
  · rw [exec_rdrow, retire_ok]
    rfl
  · rintro ⟨hv, hx⟩
    rcases h with hinv | hout
    · exact Bool.false_ne_true (hinv.symm.trans hv)
    · exact absurd hx (Nat.not_lt.mpr hout)

/-! ### The weights of a diffused error -/

/-- Truncation toward zero rounds the magnitude of a part down, on either side of zero (R244). -/
theorem errPart_of_nonneg {e : LabNum} (he : 0 ≤ e.toInt) {k : Int} (hk : 0 ≤ k) : errPart e k = e.toInt * k / 16 :=
  Int.tdiv_eq_ediv_of_nonneg (Int.mul_nonneg he hk)

theorem errPart_of_neg {e : LabNum} (he : e.toInt < 0) {k : Int} (hk : 0 ≤ k) : errPart e k = -(-e.toInt * k / 16) := by
  have hmag : 0 ≤ -e.toInt * k := Int.mul_nonneg (by omega) hk
  rw [← Int.tdiv_eq_ediv_of_nonneg hmag, ← Int.neg_tdiv, Int.neg_mul, Int.neg_neg]
  rfl

/-- Settles O44: the four weights sum to 16, and each part loses less than one unit. -/
theorem diffusionConservesWeight : Obligations.DiffusionConservesWeight := by
  intro e
  refine ⟨fun he => ?nonneg, fun he => ?neg⟩
  case nonneg =>
    simp only [List.forall_mem_cons, List.not_mem_nil, false_imp_iff, implies_true, and_true, errPart_of_nonneg he,
      Int.reduceLE]
    omega
  case neg =>
    simp only [List.forall_mem_cons, List.not_mem_nil, false_imp_iff, implies_true, and_true, errPart_of_neg he,
      Int.reduceLE]
    omega

/-! ### `SETPIX` by mode -/

theorem qmode_of_ctrl {s : State} {n : Nat} (h : s.ctrl.toNat % 4 = n) : s.qmode = qmodeOf (BitVec.ofNat 2 n) := by
  have hfield : qmodeField s.ctrl = BitVec.ofNat 2 n := by
    rw [← BitVec.toNat_inj, qmodeField_toNat, BitVec.toNat_ofNat, ← h]
    exact (Nat.mod_mod ..).symm
  rw [State.qmode, hfield]

theorem viewSet_outside {x y : Nat} {s : State} (h : s.inside x y = false) (c : RGB) : s.viewSet x y c = s := by
  rw [State.viewSet, h, if_neg Bool.false_ne_true]

section
variable {x y : Nat} {s : State} (hi : s.inside x y = true)
include hi

theorem viewSet_direct (hm : s.qmode = .direct) (c : RGB) :
    s.viewSet x y c =
      (s.nearestFlags (s.params.toLab c)).surfSet x y (s.nearest (s.params.toLab c)).index := by
  rw [State.viewSet, if_pos hi, hm]

theorem viewSet_lab (hm : s.qmode = .lab) (c : RGB) : s.viewSet x y c = (s.rowMgmt y).labStep x y c := by
  rw [State.viewSet, if_pos hi, hm]

theorem viewSet_rgb (hm : s.qmode = .rgb) (c : RGB) : s.viewSet x y c = (s.rowMgmt y).rgbStep x y c := by
  rw [State.viewSet, if_pos hi, hm]

end

theorem exec_setpix (x y : Half) (c : RGB) (s : State) :
    exec (.setpix x y c) s = .next (((s.openRows x.toNat y.toNat).viewSet x.toNat y.toNat c).retire .ok) := rfl

/-- Settles O40. -/
theorem setpixOutsideDoesNothing : Obligations.SetpixOutsideDoesNothing := by
  intro x y c s hout
  have h : s.inside x.toNat y.toNat = false := Bool.eq_false_iff.mpr (mt (inside_iff ..).mp hout)
  rw [exec_setpix, openRows_eq_self (.inl h), viewSet_outside h, retire_ok]

/-! ### `DIRECT` mode -/

theorem exec_nearRgb_next (c : RGB) (s : State) :
    exec (.nearRgb c) s = .next (((s.nearestFlags (s.params.toLab c)).setR0
      ((s.nearest (s.params.toLab c)).index.setWidth 32)).retire .ok) := rfl

/-- The pixel write after a search leaves what it leaves without one. -/
theorem surfSet_nearestFlags (x y : Nat) (v : Byte) (c : Lab) (s : State) :
    (s.nearestFlags c).surfSet x y v =
      { s with
        fb := (s.surfSet x y v).fb, fbc := (s.surfSet x y v).fbc, choices := (s.surfSet x y v).choices
        notfound := (s.nearestFlags c).notfound, sat := (s.nearestFlags c).sat } := by
  obtain ⟨hfb, hfbc, hch⟩ := surfSet_congr (nearestFlags_fb c s) (nearestFlags_fbc c s) (nearestFlags_choices c s)
    (nearestFlags_fmt c s) (nearestFlags_surfW c s) (nearestFlags_surfH c s) (nearestFlags_plut c s) x y v
  obtain ⟨fb, fbc, n, hset⟩ := surfSet_shape x y v (s.nearestFlags c)
  obtain ⟨nf, st, hflags⟩ := nearestFlags_shape c s
  rw [← hfb, ← hfbc, ← hch, hset, hflags]

theorem exec_setpix_direct {x y : Half} {s : State} (hi : s.inside x.toNat y.toNat = true) (hm : s.qmode = .direct)
    (c : RGB) :
    exec (.setpix x y c) s = .next
      (((s.nearestFlags (s.params.toLab c)).surfSet x.toNat y.toNat (s.nearest (s.params.toLab c)).index).retire
        .ok) := by
  rw [exec_setpix, openRows_eq_self (.inr hm), viewSet_direct hi hm]

/-- Settles O41: the index that `NEAR_RGB` leaves in `R0` is the one stored. -/
theorem setpixDirectStoresTheNearest : Obligations.SetpixDirectStoresTheNearest := by
  intro x y c s hx hy hctrl
  have hi : s.inside x.toNat y.toNat = true := (inside_iff ..).mpr ⟨hx, hy⟩
  have hr0 : ((s.nearest (s.params.toLab c)).index.setWidth 32).setWidth 8 = (s.nearest (s.params.toLab c)).index := by
    rw [BitVec.setWidth_setWidth_of_le _ (by decide), BitVec.setWidth_eq]
  refine ⟨_, _, _, exec_setpix_direct hi (qmode_of_ctrl hctrl) c, exec_nearRgb_next c s, exec_setidx .., ?_⟩
  rw [surfSet_nearestFlags, retire_ok, retire_r0, setR0_r0, hr0]
  rfl

/-! ### The search of a diffusion step -/

/-- A search sets `SAT` exactly when the residual of the first nearest entry saturates (R173; log entry 9). -/
theorem nearestFlags_sat_iff (c : Lab) (s : State) :
    (s.nearestFlags c).sat = true ↔ s.sat = true ∨ ∃ p f, FirstNearest s.mono s.pal c p f ∧
      Clamps (c.L.toInt - f.lab.L.toInt) (c.a.toInt - f.lab.a.toInt) (c.b.toInt - f.lab.b.toInt) := by
  constructor
  case mp =>
    intro h
    by_cases hp : s.pal = []
    · rw [(nearest_empty hp c).2] at h
      exact .inl h
    · obtain ⟨p, f, hf⟩ := firstNearest_exists hp c
      rw [(nearest_first hf).2, noteSat_sat, Bool.or_eq_true, saturatesTriple_iff] at h
      exact h.imp_right fun hc => ⟨p, f, hf, hc⟩
  case mpr =>
    rintro (h | ⟨p, f, hf, hc⟩)
    · exact (flagsGrow_nearestFlags c (flagsGrow_refl s)).2 h
    · rw [(nearest_first hf).2, noteSat_sat, Bool.or_eq_true, saturatesTriple_iff]
      exact .inr hc

theorem noteSat_false (s : State) : s.noteSat false = s := by
  rw [State.noteSat, Bool.or_false]

/-- What both diffusion steps do once they know the colour to search and the error to diffuse (R243, R245). -/
def State.storeNearest (x y : Nat) (c : Lab) (err : Err3) (s : State) : State :=
  ((s.nearestFlags c).surfSet x y (s.nearest c).index).diffuse x y err

theorem storeNearest_notfound (x y : Nat) (c : Lab) (err : Err3) (s : State) :
    (s.storeNearest x y c err).notfound = (s.nearestFlags c).notfound := by
  rw [State.storeNearest, diffuse_notfound, surfSet_notfound]

theorem storeNearest_frame (x y : Nat) (c : Lab) (err : Err3) (s : State) :
    s.storeNearest x y c err =
      { s with
        fb := (s.surfSet x y (s.nearest c).index).fb, fbc := (s.surfSet x y (s.nearest c).index).fbc
        choices := (s.surfSet x y (s.nearest c).index).choices
        thisRow := (s.storeNearest x y c err).thisRow, nextRow := (s.storeNearest x y c err).nextRow
        notfound := (s.storeNearest x y c err).notfound, sat := (s.storeNearest x y c err).sat } := by
  unfold State.storeNearest
  obtain ⟨tr, nr, st, hd⟩ := diffuse_shape x y err ((s.nearestFlags c).surfSet x y (s.nearest c).index)
  rw [hd, surfSet_nearestFlags]

/-- The diffusion of a diffusion step, and the causes of `SAT`: the search and the diffusion (R173, R244). -/
theorem storeNearest_diffuses {s : State} (ht : s.thisRow.wf = true) (hn : s.nextRow.wf = true) (x y : Nat) (c : Lab)
    (err : Err3) :
    Diffused s.surfW.toNat s.surfH.toNat x y err s.thisRow s.nextRow (s.storeNearest x y c err).thisRow
      (s.storeNearest x y c err).nextRow ∧
    ((s.storeNearest x y c err).sat = true ↔ (s.nearestFlags c).sat = true ∨
      DiffusionClamps s.surfW.toNat s.surfH.toNat x y err s.thisRow s.nextRow) := by
  unfold State.storeNearest
  have h := diffuse_spec x y err (s := (s.nearestFlags c).surfSet x y (s.nearest c).index) (by simpa using ht)
    (by simpa using hn)
  simpa only [surfSet_surfW, surfSet_surfH, surfSet_thisRow, surfSet_nextRow, surfSet_sat, nearestFlags_surfW,
    nearestFlags_surfH, nearestFlags_thisRow, nearestFlags_nextRow] using h

/-! ### The rows of a diffusion step -/

/-- The state in which `SETPIX` works on its pixel in a diffusion mode: the row buffers opened and managed
(R241, R246). -/
def State.managed (x y : Nat) (s : State) : State := (s.openRows x y).rowMgmt y

section
variable (x y : Nat) (s : State)

@[simp] theorem managed_surfW : (s.managed x y).surfW = s.surfW := by simp [State.managed]
@[simp] theorem managed_surfH : (s.managed x y).surfH = s.surfH := by simp [State.managed]
@[simp] theorem managed_pal : (s.managed x y).pal = s.pal := by simp [State.managed]
@[simp] theorem managed_mono : (s.managed x y).mono = s.mono := by simp [State.managed]
@[simp] theorem managed_params : (s.managed x y).params = s.params := by simp [State.managed]
@[simp] theorem managed_acc : (s.managed x y).acc = s.acc := by simp [State.managed]
@[simp] theorem managed_sat : (s.managed x y).sat = s.sat := by simp [State.managed]
@[simp] theorem managed_notfound : (s.managed x y).notfound = s.notfound := by simp [State.managed]
@[simp] theorem managed_nearest (c : Lab) : (s.managed x y).nearest c = s.nearest c := by simp [State.managed]

/-- Opening and managing the rows does not reach the frame buffer: the pixel write is that of `SETIDX`. -/
theorem surfSet_managed (hit : Bool) (v : Byte) :
    (((s.managed x y).noteSat hit).surfSet x y v).fb = (s.surfSet x y v).fb ∧
    (((s.managed x y).noteSat hit).surfSet x y v).fbc = (s.surfSet x y v).fbc ∧
    (((s.managed x y).noteSat hit).surfSet x y v).choices = (s.surfSet x y v).choices := by
  apply surfSet_congr <;> simp [State.managed]

end

section
variable {x y : Nat} {s : State} (hi : s.inside x y = true) (hm : s.qmode ≠ .direct) (ht : s.thisRow.wf = true)
  (hn : s.nextRow.wf = true)
include hi hm ht hn

theorem managed_rows : RowsForSetpix s y (s.managed x y).thisRow (s.managed x y).nextRow ∧
    (s.managed x y).thisRow.wf = true ∧ (s.managed x y).nextRow.wf = true := by
  obtain ⟨hrows, ht', hn', -⟩ := rowMgmt_spec (y := y) (s := s.openRows x y) (by simpa using ht) (by simpa using hn)
  exact ⟨rowsForSetpix_of_openRows hi hm hrows, ht', hn'⟩

theorem managed_frame : s.managed x y =
    { s with
      curValid := true, curRow := BitVec.ofNat 16 y, thisRow := (s.managed x y).thisRow
      nextRow := (s.managed x y).nextRow, rowsOfDecode := false } := by
  obtain ⟨-, -, -, hframe⟩ := rowMgmt_spec (y := y) (s := s.openRows x y) (by simpa using ht) (by simpa using hn)
  obtain ⟨cv, mark, hopen⟩ := openRows_shape x y s
  have hmark : mark = false := by simpa only [hopen] using openRows_mark hi hm
  refine hframe.trans ?_
  rw [State.managed, hopen, hmark]

end

/-! ### A diffusion step -/

/-- What `SETPIX` leaves in a diffusion mode that searches the colour `c` and diffuses `err` (R240, R244); `hit` says
whether making `c` saturated. -/
structure DiffusionStep (x y : Half) (hit : Bool) (c : Lab) (err : Err3) (s t : State) : Prop where
  diffused : Diffused s.surfW.toNat s.surfH.toNat x.toNat y.toNat err (s.managed x.toNat y.toNat).thisRow
    (s.managed x.toNat y.toNat).nextRow t.thisRow t.nextRow
  sat_iff : t.sat = true ↔ s.sat = true ∨ hit = true ∨
    (∃ p f, FirstNearest s.mono s.pal c p f ∧
      Clamps (c.L.toInt - f.lab.L.toInt) (c.a.toInt - f.lab.a.toInt) (c.b.toInt - f.lab.b.toInt)) ∨
    DiffusionClamps s.surfW.toNat s.surfH.toNat x.toNat y.toNat err (s.managed x.toNat y.toNat).thisRow
      (s.managed x.toNat y.toNat).nextRow
  notfound_empty : s.pal = [] → t.notfound = true
  notfound_first : ∀ p f, FirstNearest s.mono s.pal c p f → t.notfound = s.notfound
  frame : t = { s with
    fb := (s.surfSet x.toNat y.toNat (s.nearest c).index).fb, fbc := (s.surfSet x.toNat y.toNat (s.nearest c).index).fbc
    choices := (s.surfSet x.toNat y.toNat (s.nearest c).index).choices, curValid := true, curRow := y
    thisRow := t.thisRow, nextRow := t.nextRow, notfound := t.notfound, sat := t.sat, rowsOfDecode := false, err := .ok
    cmdcnt := s.cmdcnt + 1 }

section
variable {x y : Half} {s : State} (hi : s.inside x.toNat y.toNat = true) (ht : s.thisRow.wf = true)
  (hn : s.nextRow.wf = true)
include hi ht hn

theorem diffusionStep_storeNearest (hm : s.qmode ≠ .direct) (hit : Bool) (c : Lab) (err : Err3) :
    DiffusionStep x y hit c err s
      ((((s.managed x.toNat y.toNat).noteSat hit).storeNearest x.toNat y.toNat c err).retire .ok) := by
  obtain ⟨-, ht', hn'⟩ := managed_rows hi hm ht hn
  obtain ⟨hdiff, hsat⟩ :=
    storeNearest_diffuses (s := (s.managed x.toNat y.toNat).noteSat hit) ht' hn' x.toNat y.toNat c err
  constructor
  case diffused => simpa using hdiff
  case sat_iff =>
    rw [nearestFlags_sat_iff] at hsat
    simpa [or_assoc] using hsat
  case notfound_empty =>
    intro hp
    rw [retire_notfound, storeNearest_notfound, (nearest_empty (by simpa using hp) c).2]
    rfl
  case notfound_first =>
    intro p f hf
    rw [retire_notfound, storeNearest_notfound, (nearest_first (by simpa using hf)).2]
    exact managed_notfound ..
  case frame =>
    have hv := storeNearest_frame x.toNat y.toNat c err ((s.managed x.toNat y.toNat).noteSat hit)
    obtain ⟨hfb, hfbc, hch⟩ := surfSet_managed x.toNat y.toNat s hit (s.nearest c).index
    rw [noteSat_nearest, managed_nearest, hfb, hfbc, hch] at hv
    generalize ((s.managed x.toNat y.toNat).noteSat hit).storeNearest x.toNat y.toNat c err = t at hv ⊢
    rw [managed_frame hi hm ht hn, BitVec.ofNat_toNat, BitVec.setWidth_eq] at hv
    rw [retire_ok]
    exact congrArg (fun u : State => { u with err := .ok, cmdcnt := u.cmdcnt + 1 }) hv

/-- `SETPIX` in `LAB` mode (R243). -/
theorem exec_setpix_lab (hm : s.qmode = .lab) {c : RGB} {l a b : Int}
    (hadj : (s.managed x.toNat y.toNat).adjusted x.toNat (s.params.toLab c) = (l, a, b)) :
    ∃ t, exec (.setpix x y c) s = .next t ∧
      DiffusionStep x y (saturatesTriple l a b) (sat32Triple l a b) (s.nearest (sat32Triple l a b)).resid s t := by
  refine ⟨_, ?_, diffusionStep_storeNearest hi ht hn (by rw [hm]; decide) ..⟩
  rw [exec_setpix, viewSet_lab ((openRows_inside ..).trans hi) ((openRows_qmode ..).trans hm), ← State.managed]
  simp only [State.labStep, State.storeNearest, managed_params, managed_nearest, noteSat_nearest, hadj]

/-- `SETPIX` in `RGB` mode (R245). -/
theorem exec_setpix_rgb (hm : s.qmode = .rgb) {c des : RGB}
    (hdes : (s.managed x.toNat y.toNat).desired x.toNat c = des) :
    ∃ t, exec (.setpix x y c) s = .next t ∧
      DiffusionStep x y false (s.params.toLab des) (rgbError des (s.nearest (s.params.toLab des)).found) s t := by
  refine ⟨_, ?_, diffusionStep_storeNearest hi ht hn (by rw [hm]; decide) ..⟩
  rw [exec_setpix, viewSet_rgb ((openRows_inside ..).trans hi) ((openRows_qmode ..).trans hm), ← State.managed]
  simp only [State.rgbStep, State.storeNearest, noteSat_false, managed_params, managed_nearest, hdes]

end

/-! ### `LAB` mode -/

/-- The adjusted colour of `LABSTEP`, with the attenuation of the state before (R243). -/
theorem managed_adjusted (x y : Nat) (c : Lab) (s : State) :
    (s.managed x y).adjusted x c =
      (c.L.toInt + Int.tdiv (((s.managed x y).thisRow.entry x).L.toInt * s.acc.toNat) 65536,
       c.a.toInt + Int.tdiv (((s.managed x y).thisRow.entry x).a.toInt * s.acc.toNat) 65536,
       c.b.toInt + Int.tdiv (((s.managed x y).thisRow.entry x).b.toInt * s.acc.toNat) 65536) := by
  simp only [State.adjusted, managed_acc]
  rfl

/-- Settles O42: a diffusion step that searches the adjusted colour and diffuses the residual of the search. -/
theorem setpixLabStep : Obligations.SetpixLabStep := by
  intro x y c s hx hy hctrl ht hn
  have hi : s.inside x.toNat y.toNat = true := (inside_iff ..).mpr ⟨hx, hy⟩
  have hm : s.qmode = .lab := qmode_of_ctrl hctrl
  obtain ⟨hrows, -, -⟩ := managed_rows hi (by rw [hm]; decide) ht hn
  obtain ⟨t, hexec, hstep⟩ := exec_setpix_lab hi ht hn hm (managed_adjusted ..)
  refine ⟨t, _, _, _, _, _, _, hexec, exec_setidx .., hrows,
    ⟨holdsTriple_sat32Triple .., fun hp => ?empty, fun p f hf => ?first, hstep.diffused, ?sat⟩, hstep.frame⟩
  case empty =>
    rw [(nearest_empty hp _).1]
    exact ⟨rfl, rfl, hstep.notfound_empty hp⟩
  case first =>
    rw [(nearest_first hf).1]
    exact ⟨rfl, hstep.notfound_first p f hf, holdsTriple_sat32Triple ..⟩
  case sat => rw [hstep.sat_iff, saturatesTriple_iff]

/-! ### `RGB` mode -/

/-- The difference of two bytes fits an `s32`. -/
theorem channelError_toInt (d c : Byte) : (channelError d c).toInt = d.toNat - c.toNat := by
  have hd := d.isLt
  have hc := c.isLt
  rw [channelError, BitVec.toInt_ofInt]
  exact Int.bmod_eq_of_le (by omega) (by omega)

/-- Settles O43: a diffusion step that searches the converted desired colour and diffuses its difference to the
colour found. -/
theorem setpixRgbStep : Obligations.SetpixRgbStep := by
  intro x y c s hx hy hctrl ht hn
  have hi : s.inside x.toNat y.toNat = true := (inside_iff ..).mpr ⟨hx, hy⟩
  have hm : s.qmode = .rgb := qmode_of_ctrl hctrl
  obtain ⟨hrows, -, -⟩ := managed_rows hi (by rw [hm]; decide) ht hn
  obtain ⟨t, hexec, hstep⟩ := exec_setpix_rgb hi ht hn hm (c := c) rfl
  have hsat := hstep.sat_iff
  refine ⟨t, _, _, _, (s.managed x.toNat y.toNat).desired x.toNat c, _, _, hexec, exec_setidx .., hrows,
    clamp8_toNat _, clamp8_toNat _, clamp8_toNat _, fun hp => ?empty, fun p f hf => ?first, hstep.diffused,
    fun h => hsat.mpr (.inl h), fun h => hsat.mpr (.inr (.inr (.inr h))), fun h => ?sat, hstep.frame⟩
  case empty =>
    rw [(nearest_empty hp _).1]
    exact ⟨rfl, rfl, hstep.notfound_empty hp⟩
  case first =>
    rw [(nearest_first hf).1]
    exact ⟨rfl, hstep.notfound_first p f hf, channelError_toInt .., channelError_toInt .., channelError_toInt ..⟩
  case sat =>
    rcases hsat.mp h with h | h | h | h
    · exact .inl h
    · exact absurd h Bool.false_ne_true
    · exact .inr (.inr h)
    · exact .inr (.inl h)

end Sys2Proof.Machine
end

section
/-!
How a byte-stream decode starts (spec/44_stream_decode.md R271), and a served frame of each of the three YUV decoders in the
colours of the stream (R285, R286, R290, R295, R296).
-/

namespace Sys2Proof.Machine

/-! ### The start of a decode -/

theorem exec_stream_instr (k : StreamKind) (w h : Half) (s : State) : exec (k.instr w h) s = startStream k w h s := by
  cases k <;> rfl

/-- A precondition that fails ends a decode with its code (R271, R330). -/
theorem startStream_of_violation {k : StreamKind} {w h : Half} {s : State} {total : Word} {totals : List Word} {rc : Code}
    (ht : s.bsTotals = total :: totals) (hp : streamPrecondition s.params k w h total = some rc) :
    startStream k w h s = .next
      { s with
        bsTotals := totals, reqs := s.reqs ++ [.totalAvailable], r0 := 0, err := rc, fails := true
        cmdcnt := s.cmdcnt + 1 } := by
  simp only [startStream, resumeTotal, request_bsTotals, ht, runStream, request_params, hp, failDecode, failWith,
    retire_failed (streamPrecondition_ne_ok hp)]
  rfl

/-! ### Which precondition fails first -/

section

variable {p : Params} {k : StreamKind} {w h : Half} {total : Word}

/-- The parity precondition, spelled out (R271 (2)). -/
theorem parityOk_iff {a b : Nat} :
    k.parityOk a b = true ↔ (k = .yuyvh → a % 2 = 0 ∧ b % 2 = 0) ∧ (k = .yuyv → a % 2 = 0) := by
  cases k <;> simp [StreamKind.parityOk]

/-- The height precondition, spelled out (R271 (3)). -/
theorem heightOk_iff {b : Nat} : k.heightOk b = true ↔ (k = .yuv3l → 2 ≤ b) := by
  cases k <;> simp [StreamKind.heightOk]

theorem streamPrecondition_count (hc : total.toNat ≠ w.toNat * h.toNat * 2) :
    streamPrecondition p k w h total = some .count := if_pos hc

variable (hc : total.toNat = w.toNat * h.toNat * 2)

include hc

theorem streamPrecondition_odd (ho : k.parityOk w.toNat h.toNat = false) :
    streamPrecondition p k w h total = some .odd := by
  rw [streamPrecondition, if_neg (not_not.mpr hc), if_pos (by rw [ho]; rfl)]

variable (ho : k.parityOk w.toNat h.toNat = true)

include ho

theorem streamPrecondition_dim (hd : k.heightOk h.toNat = false) : streamPrecondition p k w h total = some .dim := by
  rw [streamPrecondition, if_neg (not_not.mpr hc), if_neg (by rw [ho]; nofun), if_pos (by rw [hd]; rfl)]

theorem streamPrecondition_size (hd : k.heightOk h.toNat = true) (hs : p.lineMax < w.toNat) :
    streamPrecondition p k w h total = some .size := by
  rw [streamPrecondition, if_neg (not_not.mpr hc), if_neg (by rw [ho]; nofun), if_neg (by rw [hd]; nofun), if_pos hs]

end

/-- Settles O45: each code is that of the first precondition that fails. -/
theorem streamPreconditionsInOrder : Obligations.StreamPreconditionsInOrder := by
  intro k w h s total totals rc ht hrc
  rw [exec_stream_instr]
  refine startStream_of_violation ht ?_
  rcases hrc with ⟨rfl, hc⟩ | ⟨hc, ⟨rfl, ho⟩ | ⟨hyuyvh, hyuyv, hrest⟩⟩
  · exact streamPrecondition_count hc
  · refine streamPrecondition_odd hc (Bool.eq_false_iff.mpr (fun hok => ?_))
    obtain ⟨hyuyvh, hyuyv⟩ := parityOk_iff.mp hok
    rcases ho with ⟨hk, hwh⟩ | ⟨hk, hw⟩
    · have := hyuyvh hk; omega
    · have := hyuyv hk; omega
  · have hok : k.parityOk w.toNat h.toNat = true := parityOk_iff.mpr ⟨hyuyvh, hyuyv⟩
    rcases hrest with ⟨rfl, hk, hh⟩ | ⟨hd, rfl, hs⟩
    · exact streamPrecondition_dim hc hok (Bool.eq_false_iff.mpr (fun hok => by have := heightOk_iff.mp hok hk; omega))
    · exact streamPrecondition_size hc hok (heightOk_iff.mpr hd) hs

/-! ### `DEC_YUYV` and `DEC_YUYVH` -/

/-- A line of `DEC_YUYV`: the progress word, then the row in the colours of the stream (R285, R286). -/
theorem lineWork_yuyv {w : Nat} (hw : w % 2 = 0) (h y : Nat) (stream : List Byte) (s : State) :
    s.lineWork .yuyv w h stream y = (s.progress y h).emitRow w h y (frameYuyv s.params w stream y) := by
  refine (emitRow_congr (fun x hx => pixelYuyv_lineOf hx hw _ stream y) _).trans ?_
  exact congrArg (fun p => (s.progress y h).emitRow w h y (frameYuyv p w stream y)) (progress_params y h s)

/-- A pair of lines of `DEC_YUYVH`: the progress word, then the row of half width (R290). -/
theorem lineWork_yuyvh (w h y : Nat) (stream : List Byte) (s : State) :
    s.lineWork .yuyvh w h stream y =
      (s.progress y (h / 2)).emitRow (w / 2) (h / 2) y (frameYuyvh s.params w stream y) := by
  refine (emitRow_congr (fun x hx => pixelYuyvh_lineOf hx _ stream y) _).trans ?_
  exact congrArg (fun p => (s.progress y (h / 2)).emitRow (w / 2) (h / 2) y (frameYuyvh p w stream y))
    (progress_params y (h / 2) s)

/-- Rows whose colours come from the implementation's parameters, which no row changes, are the rows of a frame. -/
theorem forRows_eq_decodeRows {n ow oh : Nat} {f : Nat → State → State} {colour : Params → Nat → Nat → RGB}
    (hf : ∀ y t, f y t = (t.progress y n).emitRow ow oh y (colour t.params y)) (s : State) :
    s.forRows n f = s.decodeRows n ow oh (colour s.params) := by
  refine forRows_congr (P := fun t => t.params = s.params) rfl (fun y t ht => ?_) (fun y t _ ht => ?_)
  · rw [hf, emitRow_params, progress_params, ht]
  · rw [hf, ht]

theorem frameWork_yuyv {w : Nat} (hw : w % 2 = 0) (h : Nat) (stream : List Byte) (s : State) :
    s.frameWork .yuyv w h stream = s.decodeRows h w h (frameYuyv s.params w stream) :=
  forRows_eq_decodeRows (colour := fun p => frameYuyv p w stream) (fun y t => lineWork_yuyv hw h y stream t) s

theorem frameWork_yuyvh (w h : Nat) (stream : List Byte) (s : State) :
    s.frameWork .yuyvh w h stream = s.decodeRows (h / 2) (w / 2) (h / 2) (frameYuyvh s.params w stream) :=
  forRows_eq_decodeRows (colour := fun p => frameYuyvh p w stream) (fun y t => lineWork_yuyvh w h y stream t) s

/-- Settles O47: a served decode does all its lines, and those of `DEC_YUYV` are the rows of the frame. -/
theorem decYuyvDecodesAServedFrame : Obligations.DecYuyvDecodesAServedFrame := by
  intro w h s total totals as rest ht hc hw hm hr hs hl
  have hp : streamPrecondition s.params .yuyv w h total = none :=
    streamPrecondition_none_iff.mpr ⟨hc, parityOk_iff.mpr ⟨nofun, fun _ => hw⟩, rfl, hm⟩
  have he := startStream_of_served ht hp hr hs hl
  rw [frameWork_yuyv hw] at he
  exact ⟨_, (exec_stream_instr .yuyv w h s).trans he, rfl⟩

/-- Settles O48: a served decode does all its pairs of lines, and those of `DEC_YUYVH` are the rows of the frame. -/
theorem decYuyvhDecodesAServedFrame : Obligations.DecYuyvhDecodesAServedFrame := by
  intro w h s total totals as rest ht hc hw hh hm hr hs hl
  have hp : streamPrecondition s.params .yuyvh w h total = none :=
    streamPrecondition_none_iff.mpr ⟨hc, parityOk_iff.mpr ⟨fun _ => ⟨hw, hh⟩, nofun⟩, rfl, hm⟩
  have he := startStream_of_served ht hp hr hs hl
  rw [frameWork_yuyvh] at he
  exact ⟨_, (exec_stream_instr .yuyvh w h s).trans he, rfl⟩

/-! ### `DEC_YUV3L` -/

/-- Row `y` of a three-line image, from its line and those above and below it, where they exist (R295). -/
def State.row3l (w h : Nat) (stream : List Byte) (y : Nat) (s : State) : State :=
  s.emit3l w h y (lineOf (2 * w) stream y) (if y = 0 then none else some (lineOf (2 * w) stream (y - 1)))
    (if y + 1 = h then none else some (lineOf (2 * w) stream (y + 1)))

/-- A row of `DEC_YUV3L`: the progress word, then the row in the colours of the stream (R295, R296). -/
theorem row3l_eq {h : Nat} (h2 : 2 ≤ h) {y : Nat} (hy : y < h) (w : Nat) (stream : List Byte) (s : State) :
    s.row3l w h stream y = (s.progress y h).emitRow w h y (frameYuv3l s.params s.vfirst w h stream y) :=
  emitRow_congr (fun _ hx => pixelYuv3l_lineOf hx hy h2 s.vfirst s.params stream) _

theorem lineWork_yuv3l_zero (w h : Nat) (stream : List Byte) (s : State) : s.lineWork .yuv3l w h stream 0 = s := rfl

/-- The line after row `y` emits that row (R295). -/
theorem lineWork_yuv3l_succ {w h y : Nat} (hy : y + 1 < h) (stream : List Byte) (s : State) :
    s.lineWork .yuv3l w h stream (y + 1) = s.row3l w h stream y := by
  rw [State.row3l, if_neg (show ¬ y + 1 = h by omega)]
  cases y with
  | zero => rfl
  | succ y => rfl

/-- After the last line the last row is emitted (R295). -/
theorem afterFrame_yuv3l {w h : Nat} (h2 : 2 ≤ h) (stream : List Byte) (s : State) :
    s.afterFrame .yuv3l w h (prevLine (2 * w) stream h) (prevLine (2 * w) stream (h - 1)) =
      s.row3l w h stream (h - 1) := by
  rw [State.row3l, if_neg (show ¬ h - 1 = 0 by omega), if_pos (show h - 1 + 1 = h by omega), prevLine, prevLine,
    if_neg (show ¬ h = 0 by omega), if_neg (show ¬ h - 1 = 0 by omega)]
  rfl

/-- The lines of `DEC_YUV3L` before the last emit the rows before the last. -/
theorem forRows_lineWork_yuv3l {w h : Nat} (stream : List Byte) (s : State) : ∀ n, n < h →
    s.forRows (n + 1) (State.lineWork .yuv3l w h stream) = s.forRows n (State.row3l w h stream) := by
  intro n
  induction n with
  | zero => intro _; rw [forRows_succ, forRows_zero, lineWork_yuv3l_zero, forRows_zero]
  | succ n ih =>
    intro hn
    rw [forRows_succ, ih (by omega), lineWork_yuv3l_succ hn, forRows_succ]

/-- The lines of `DEC_YUV3L` are the rows of the frame, each emitted one line late. -/
theorem frameWork_yuv3l {h : Nat} (h2 : 2 ≤ h) (w : Nat) (stream : List Byte) (s : State) :
    s.frameWork .yuv3l w h stream = s.decodeRows h w h (frameYuv3l s.params s.vfirst w h stream) := by
  have hrows : s.frameWork .yuv3l w h stream = s.forRows h (State.row3l w h stream) := by
    obtain ⟨n, rfl⟩ : ∃ n, h = n + 1 := ⟨h - 1, by omega⟩
    have hlast := afterFrame_yuv3l (w := w) h2 stream (s.forRows n (State.row3l w (n + 1) stream))
    rw [← forRows_lineWork_yuv3l stream s n (Nat.lt_succ_self n)] at hlast
    rw [forRows_succ, ← forRows_lineWork_yuv3l stream s n (Nat.lt_succ_self n)]
    exact hlast
  rw [hrows]
  have hkeep : ∀ y (t : State), (t.row3l w h stream y).params = t.params ∧ (t.row3l w h stream y).vfirst = t.vfirst :=
    fun y t => ⟨emit3l_params .., emit3l_vfirst ..⟩
  refine forRows_congr (P := fun t => t.params = s.params ∧ t.vfirst = s.vfirst) ⟨rfl, rfl⟩ (fun y t ht => ?_)
    (fun y t hy ⟨hp, hv⟩ => ?_)
  · rwa [(hkeep y t).1, (hkeep y t).2]
  · rw [row3l_eq h2 hy, hp, hv]

/-- Settles O49: a served decode does all its lines, and those of `DEC_YUV3L` make the rows of the frame. -/
theorem decYuv3lDecodesAServedFrame : Obligations.DecYuv3lDecodesAServedFrame := by
  intro w h s total totals as rest ht hc hh hm hr hs hl
  have hp : streamPrecondition s.params .yuv3l w h total = none :=
    streamPrecondition_none_iff.mpr ⟨hc, rfl, heightOk_iff.mpr (fun _ => hh), hm⟩
  have he := startStream_of_served ht hp hr hs hl
  rw [frameWork_yuv3l hh] at he
  exact ⟨_, (exec_stream_instr .yuv3l w h s).trans he, rfl⟩

end Sys2Proof.Machine
end

section
/-!
A ByteSource that gives out (spec/44_stream_decode.md R272, R389): how far any byte-stream decode gets, and what it leaves.
-/

namespace Sys2Proof.Machine

/-! ### READLINE and the line loop -/

/-- An answer of 0 bytes where a line needs more ends the `READLINE` (R272, R351). -/
theorem readLine_empty {c n : Nat} (rest : List ReadAnswer) {got : List Byte} (hg : got.length < n) :
    readLine c n (⟨0, []⟩ :: rest) false got = (.dead, rest, [.tryRead (requestSize c n got.length)]) := by
  rw [readLine, if_neg (Nat.not_le.mpr hg)]
  simp [answerOk]

/-- A line that the answers leave unfinished, an empty one coming after them, is never done (R272). -/
theorem runLines_of_dead_line {k : StreamKind} {w h : Half} {as rest : List ReadAnswer} {s : State} {y : Nat}
    (hr : s.bsReads = as ++ ⟨0, []⟩ :: rest)
    (hs : answersServe k.ceiling (k.lineBytes w.toNat) (k.lineBytes w.toNat * y) as = true)
    (hl : (streamOf as).length < k.lineBytes w.toNat) (left : Nat) (l1 l2 : List Byte) :
    ∃ reqs, runLines k w h (left + 1) y none l1 l2 s =
      failDecode .io ((s.beforeLine k h.toNat y).afterRead rest reqs) := by
  obtain ⟨reqs, hread⟩ : ∃ reqs, readLine k.ceiling (k.lineBytes w.toNat) (as ++ ⟨0, []⟩ :: rest) false [] =
      (.dead, rest, reqs) := by
    have happ := readLine_append_served (⟨0, []⟩ :: rest) (got := []) (by simp) hs (by simpa using hl)
    rw [List.nil_append, readLine_empty rest hl] at happ
    exact ⟨_, happ⟩
  refine ⟨reqs, ?_⟩
  rw [runLines]
  simp only [Option.isSome_none, Bool.false_eq_true, if_false, Option.getD_none, beforeLine_bsReads, hr, hread]

theorem afterRead_afterRead (l l' : List ReadAnswer) (q q' : List PortReq) (s : State) :
    (s.afterRead l q).afterRead l' q' = s.afterRead l' (q ++ q') := by
  simp only [State.afterRead, List.append_assoc]

/-- An operation that neither looks at nor touches the port fields comes before a `READLINE` as well as after it. -/
theorem Portless.afterRead {f : State → State} (hf : Portless f) (l : List ReadAnswer) (q : List PortReq) (s : State) :
    f (s.afterRead l q) = (f s).afterRead l q := by
  have hreqs : (f s).reqs = s.reqs := congrArg Io.reqs (hf.io_eq s)
  rw [afterRead_eq_setIo, hf, afterRead_eq_setIo, hf.io_eq, hreqs]

/-- What a decode has done when its source gives out after `stream`: the lines that `stream` fills, and what comes before the
next line is read (R272, R389). -/
def State.frameStopped (k : StreamKind) (w h : Nat) (stream : List Byte) (s : State) : State :=
  (s.forRows (stream.length / k.lineBytes w) (State.lineWork k w h stream)).beforeLine k h
    (stream.length / k.lineBytes w)

theorem portless_frameStopped (k : StreamKind) (w h : Nat) (stream : List Byte) :
    Portless (State.frameStopped k w h stream) := by
  intro io s
  unfold State.frameStopped
  rw [portless_forRows (portless_lineWork k w h stream), portless_beforeLine]

/-- The line loop does the lines that the answers fill, and fails at the one they leave unfinished (R272). -/
theorem runLines_of_dead {k : StreamKind} {w h : Half} {as rest : List ReadAnswer} {s : State} {left : Nat}
    (hr : s.bsReads = as ++ ⟨0, []⟩ :: rest) (hs : answersServe k.ceiling (k.lineBytes w.toNat) 0 as = true)
    (hl : (streamOf as).length < left * k.lineBytes w.toNat) :
    ∃ reqs, runLines k w h left 0 none [] [] s =
      failDecode .io ((s.frameStopped k w.toNat h.toNat (streamOf as)).afterRead rest reqs) := by
  have hn : 0 < k.lineBytes w.toNat := by
    by_contra h0
    rw [Nat.eq_zero_of_not_pos h0, Nat.mul_zero] at hl
    exact Nat.not_lt_zero _ hl
  have hm : (streamOf as).length / k.lineBytes w.toNat < left := (Nat.div_lt_iff_lt_mul hn).mpr hl
  have hdiv := Nat.div_mul_le_self (streamOf as).length (k.lineBytes w.toNat)
  have hmod := Nat.mod_lt (streamOf as).length hn
  have hsplit := Nat.div_add_mod' (streamOf as).length (k.lineBytes w.toNat)
  unfold State.frameStopped
  generalize (streamOf as).length / k.lineBytes w.toNat = m at *
  obtain ⟨last, rfl⟩ : ∃ last, left = m + (last + 1) := ⟨left - m - 1, by omega⟩
  obtain ⟨as1, as2, happ, hlen, hserve1, hserve2, -⟩ := serve_lines hn m (y := 0) (by simpa using hs) hdiv
  have hlen2 : (streamOf as2).length < k.lineBytes w.toNat := by
    rw [happ, streamOf_append, List.length_append, hlen] at hsplit hmod
    omega
  have hfilled : (streamOf as).take (m * k.lineBytes w.toNat) = streamOf as1 := by
    rw [happ, streamOf_append, List.take_left' hlen]
  have hlines := runLines_of_served_prefix k w h (streamOf as) (as2 ++ ⟨0, []⟩ :: rest) (last + 1) m 0 as1 [] s
    (by rw [Nat.mul_zero, List.drop_zero, hfilled]) hlen hserve1 (by rw [hr, happ, List.append_assoc]) rfl
  rw [Nat.zero_add, ← List.range_eq_range'] at hlines
  rw [Nat.zero_add] at hserve2
  obtain ⟨reqs, hdead⟩ := runLines_of_dead_line (k := k) (w := w) (h := h) (as := as2) (rest := rest) (y := m)
    (s := (s.forRows m (State.lineWork k w.toNat h.toNat (streamOf as))).afterRead (as2 ++ ⟨0, []⟩ :: rest)
      (requestsFor k.ceiling (k.lineBytes w.toNat) (k.lineBytes w.toNat * 0) as1))
    rfl hserve2 hlen2 last (prevLine (k.lineBytes w.toNat) (streamOf as) m)
    (if m = 0 then [] else prevLine (k.lineBytes w.toNat) (streamOf as) (m - 1))
  rw [(portless_beforeLine k h.toNat m).afterRead, afterRead_afterRead] at hdead
  exact ⟨_, hlines.trans hdead⟩

/-! ### The decode -/

theorem decodeFrame_lineWork {k : StreamKind} {w h y : Nat} {stream : List Byte} {s t : State} (ht : DecodeFrame s t) :
    DecodeFrame s (t.lineWork k w h stream y) :=
  have K := decodeFrame_keeps s
  afterLine_keeps K.toStreamKeeps.progress (fun i j d t _ _ => K.toStreamKeeps.viewSet i j d t)
    (beforeLine_keeps K.toStreamKeeps.progress ht)

theorem decodeFrame_frameStopped (k : StreamKind) (w h : Nat) (stream : List Byte) (s : State) :
    DecodeFrame s (s.frameStopped k w h stream) :=
  beforeLine_keeps (decodeFrame_keeps s).toStreamKeeps.progress
    (forRows_keeps (f := State.lineWork k w h stream) (fun _ _ => decodeFrame_lineWork) _ (decodeFrame_refl s))

/-- A decode whose preconditions hold, from a ByteSource that gives out in mid-frame, keeps the lines that were complete and fails
with `E_IO` (R272, R275, R389). -/
theorem startStream_of_dead {k : StreamKind} {w h : Half} {s : State} {total : Word} {totals : List Word}
    {as rest : List ReadAnswer} (ht : s.bsTotals = total :: totals) (hp : streamPrecondition s.params k w h total = none)
    (hr : s.bsReads = as ++ ⟨0, []⟩ :: rest) (hs : answersServe k.ceiling (k.lineBytes w.toNat) 0 as = true)
    (hl : (streamOf as).length < k.rows h.toNat * k.lineBytes w.toNat) :
    ∃ reqs, startStream k w h s = .next
      { s.beginRows.frameStopped k w.toNat h.toNat (streamOf as) with
        bsTotals := totals, bsReads := rest, reqs := reqs
        r0 := 0, err := .io, fails := true, cmdcnt := s.cmdcnt + 1 } := by
  obtain ⟨reqs, hdead⟩ := runLines_of_dead (k := k) (w := w) (h := h) (s := s.decodeBegun totals) hr hs hl
  have hbegun : s.decodeBegun totals =
      s.beginRows.setIo { s.io with totals := totals, reqs := s.reqs ++ [.totalAvailable], mark := true } := rfl
  have hcnt : (s.beginRows.frameStopped k w.toNat h.toNat (streamOf as)).cmdcnt = s.cmdcnt :=
    (decodeFrame_frameStopped k w.toNat h.toNat (streamOf as) s.beginRows).cmdcnt
  have hio := (portless_frameStopped k w.toNat h.toNat (streamOf as)).io_eq s.beginRows
  simp only [State.io, Io.mk.injEq] at hio
  obtain ⟨-, -, hinits, hmcus, -, hmark⟩ := hio
  refine ⟨s.reqs ++ [.totalAvailable] ++ reqs, ?_⟩
  rw [startStream_of_precondition ht hp, hdead, hbegun, portless_frameStopped]
  simp [failDecode, failWith, State.retire, State.setR0, State.setIo, State.afterRead, State.io, hcnt, hinits, hmcus, hmark]

/-- Settles O51: the failure of a decode whose source gives out, field by field. -/
theorem deadSourceFailsEveryDecoder : Obligations.DeadSourceFailsEveryDecoder := by
  intro k w h s total totals as rest ht hp hr hs hl
  obtain ⟨reqs, he⟩ := startStream_of_dead ht hp hr hs hl
  exact ⟨_, (exec_stream_instr k w h s).trans he, rfl, rfl, rfl, rfl, rfl, rfl,
    (decodeFrame_frameStopped k w.toNat h.toNat (streamOf as) s.beginRows).seq⟩

/-- The lines of `DEC_RGB565` that were complete are rows of the frame; of the next there is the progress word. -/
theorem frameStopped_rgb565 (w h : Nat) (stream : List Byte) (s : State) :
    s.frameStopped .rgb565 w h stream =
      (s.forRows (stream.length / (2 * w)) (fun y u =>
        (u.progress y h).emitRow w h y (frame565 s.swap565 w stream y))).progress (stream.length / (2 * w)) h := by
  refine congrArg (State.progress (stream.length / (2 * w)) h) ?_
  refine forRows_congr (P := fun t => t.swap565 = s.swap565) rfl (fun y t ht => ?_) (fun y t _ ht => ?_)
  · rw [lineWork_rgb565, emitRow_swap565, progress_swap565, ht]
  · rw [lineWork_rgb565, ht]

/-- Settles O50: the failure of a decode whose source gives out, with the rows of `DEC_RGB565`. -/
theorem decRgb565StopsOnADeadSource : Obligations.DecRgb565StopsOnADeadSource := by
  intro w h s total totals as rest ht hc hm hr hs hl
  have hp : streamPrecondition s.params .rgb565 w h total = none := streamPrecondition_none_iff.mpr ⟨hc, rfl, rfl, hm⟩
  obtain ⟨reqs, he⟩ := startStream_of_dead ht hp hr hs hl
  rw [frameStopped_rgb565] at he
  exact ⟨_, reqs, (exec_stream_instr .rgb565 w h s).trans he, rfl⟩

end Sys2Proof.Machine
end

section
/-!
Waits and late answers (spec/44_stream_decode.md R271, R272; spec/45_jpeg_mcu.md R310; spec/70_reset_and_hazards.md R385, R390): a
decode without an answer stays where it is, and when the answer comes makes no difference.
-/

namespace Sys2Proof.Machine

/-! ### Waiting in vain -/

theorem afterRead_nothing {s : State} (hr : s.bsReads = []) : s.afterRead [] [] = s := by
  simp only [State.afterRead, ← hr, List.append_nil]

theorem afterMcus_nothing {s : State} (hm : s.bdMcus = []) : s.afterMcus [] [] = s := by
  simp only [State.afterMcus, ← hm, List.append_nil]

/-- A wait for the total goes on while no answer is there (R271, R385). -/
theorem resumeTotal_of_no_answer {s : State} (ht : s.bsTotals = []) (k : StreamKind) (w h : Half) :
    resumeTotal k w h s = .next { s with seq := .awaitTotal k w h } := by
  unfold resumeTotal
  rw [ht]

/-- A wait for `init` goes on while no answer is there (R310, R385). -/
theorem resumeInit_of_no_answer {s : State} (hn : s.bdInits = []) (w h : Half) :
    resumeInit w h s = .next { s with seq := .awaitInit w h } := by
  unfold resumeInit
  rw [hn]

/-- A wait for the rest of a line goes on while no answer is there (R272, R385). -/
theorem resumeRead_of_no_answer {j : StreamJob} {s : State} (hr : s.bsReads = []) (hrow : j.row < j.kind.rows j.h.toNat)
    (hl : j.line0.length < j.kind.lineBytes j.w.toNat) : resumeRead j s = .next { s with seq := .awaitRead j } := by
  obtain ⟨left, hleft⟩ : ∃ left, j.kind.rows j.h.toNat - j.row = left + 1 := ⟨_, (Nat.sub_add_cancel (by omega)).symm⟩
  have hread : readLine j.kind.ceiling (j.kind.lineBytes j.w.toNat) [] true j.line0 = (.waiting j.line0, [], []) := by
    rw [readLine, if_neg (Nat.not_le.mpr hl)]
    rfl
  simp only [resumeRead, hleft, runLines, Option.isSome_some, if_true, Option.getD_some, hr, hread, afterRead_nothing hr]

/-- A wait for an MCU goes on while no answer is there (R310, R385). -/
theorem resumeMcu_of_no_answer {j : JpegJob} {s : State} (hm : s.bdMcus = [])
    (hmy : j.my < mcuRowCount j.scan j.h.toNat) (hmx : j.mx < mcusPerRow j.scan j.w.toNat) :
    resumeMcu j s = .next { s with seq := .awaitMcu j } := by
  obtain ⟨rows, hrows⟩ : ∃ rows, mcuRowCount j.scan j.h.toNat - j.my = rows + 1 :=
    ⟨_, (Nat.sub_add_cancel (by omega)).symm⟩
  obtain ⟨left, hleft⟩ : ∃ left, mcusPerRow j.scan j.w.toNat - j.mx = left + 1 :=
    ⟨_, (Nat.sub_add_cancel (by omega)).symm⟩
  simp only [resumeMcu, hrows, runMcuRows, Option.isSome_some, if_true, Option.getD_some, hm, hleft, readMcus,
    afterMcus_nothing hm]

/-- A sound engine that waits inside a line needs that line, and more of it (R62, R271, R272). -/
theorem awaitRead_bounds {j : StreamJob} {s : State} (h : s.Inv) (hq : s.seq = .awaitRead j) :
    j.row < j.kind.rows j.h.toNat ∧ j.line0.length < j.kind.lineBytes j.w.toNat := by
  have hfits := h.sequencer
  simp only [State.sequencerFits, hq, StreamJob.fits, Bool.and_eq_true, decide_eq_true_eq] at hfits
  obtain ⟨⟨⟨⟨-, hrow⟩, hl⟩, -⟩, -⟩ := hfits
  exact ⟨hrow, hl⟩

/-- A sound engine that waits for an MCU needs it (R63, R310, R316). -/
theorem awaitMcu_bounds {j : JpegJob} {s : State} (h : s.Inv) (hq : s.seq = .awaitMcu j) :
    j.my < mcuRowCount j.scan j.h.toNat ∧ j.mx < mcusPerRow j.scan j.w.toNat := by
  have hfits := h.sequencer
  simp only [State.sequencerFits, hq, JpegJob.fits, Bool.and_eq_true, decide_eq_true_eq] at hfits
  obtain ⟨⟨⟨⟨-, hmy⟩, hmx⟩, -⟩, -⟩ := hfits
  exact ⟨hmy, hmx⟩

/-- A decode that waits, its answer not there. -/
def State.WaitsInVain (s : State) : Prop :=
  (∃ k w h, s.seq = .awaitTotal k w h ∧ s.bsTotals = []) ∨ (∃ j, s.seq = .awaitRead j ∧ s.bsReads = []) ∨
    (∃ w h, s.seq = .awaitInit w h ∧ s.bdInits = []) ∨ (∃ j, s.seq = .awaitMcu j ∧ s.bdMcus = [])

/-- A step of a sound engine that waits in vain changes nothing (R385; log entries 8 and 10). -/
theorem step_of_waitsInVain {s : State} (h : s.Inv) (hh : s.halted = false) (hw : s.WaitsInVain) : step s = .next s := by
  have hstay : ∀ q, s.seq = q → ({ ({ s with seq := .idle } : State) with seq := q } : State) = s := by rintro _ rfl; rfl
  rcases hw with ⟨k, w, e, hq, hn⟩ | ⟨j, hq, hn⟩ | ⟨w, e, hq, hn⟩ | ⟨j, hq, hn⟩
  · rw [step_of_awaitTotal hh hq]
    rw [resumeTotal_of_no_answer (by exact hn), hstay _ hq]
  · obtain ⟨hrow, hl⟩ := awaitRead_bounds h hq
    rw [step_of_awaitRead hh hq, resumeRead_of_no_answer (by exact hn) hrow hl, hstay _ hq]
  · rw [step_of_awaitInit hh hq]
    rw [resumeInit_of_no_answer (by exact hn), hstay _ hq]
  · obtain ⟨hmy, hmx⟩ := awaitMcu_bounds h hq
    rw [step_of_awaitMcu hh hq, resumeMcu_of_no_answer (by exact hn) hmy hmx, hstay _ hq]

/-- Without an answer to `totalAvailable` a decode waits for one (R271; log entries 8 and 10). -/
theorem exec_stream_of_no_total {s : State} (ht : s.bsTotals = []) (k : StreamKind) (w h : Half) :
    exec (k.instr w h) s = .next { s with reqs := s.reqs ++ [.totalAvailable], seq := .awaitTotal k w h } :=
  (exec_stream_instr k w h s).trans (resumeTotal_of_no_answer (s := s.request .totalAvailable) ht k w h)

/-- Without an answer to `init` a `DEC_JPEG` waits for one (R310; log entries 8 and 10). -/
theorem exec_decJpeg_of_no_init {s : State} (hn : s.bdInits = []) (w h : Half) :
    exec (.decJpeg w h) s = .next { s with bderr := 0, reqs := s.reqs ++ [.bdInit], seq := .awaitInit w h } :=
  resumeInit_of_no_answer (s := (s.setBderr 0).request .bdInit) hn w h

/-- Settles O53: the two kinds of command without an answer, and the step that a wait in vain takes. -/
theorem decodersWaitForTheirAnswers : Obligations.DecodersWaitForTheirAnswers :=
  ⟨fun k w h _ ht => exec_stream_of_no_total ht k w h,
    fun w h _ hn => exec_decJpeg_of_no_init hn w h,
    fun n _ hs hh hw => run_of_step_self Sys2Proof.core (step_of_waitsInVain hs hh hw) n⟩

/-! ### Late answers -/

theorem isStream_iff {i : Instr} : i.isStream = true ↔ ∃ k w h, i = StreamKind.instr k w h := by
  constructor
  · intro hi
    cases i with
    | decRgb565 w h => exact ⟨.rgb565, w, h, rfl⟩
    | decYuyv w h => exact ⟨.yuyv, w, h, rfl⟩
    | decYuyvh w h => exact ⟨.yuyvh, w, h, rfl⟩
    | decYuv3l w h => exact ⟨.yuv3l, w, h, rfl⟩
    | _ => cases hi
  · rintro ⟨k, w, h, rfl⟩
    cases k <;> rfl

/-- A decode command with answers that come later (R272, R310, R390). -/
theorem exec_decode_late {i : Instr} (hi : i.isDecode = true) (a : LateAnswers) {s t : State} (hs : s.seq = .idle)
    (he : exec i s = .next t) : LateRun a s t (exec i (s.withMore a)) := by
  rcases isDecode_iff.mp hi with hstream | ⟨w, h, rfl⟩
  · obtain ⟨k, w, h, rfl⟩ := isStream_iff.mp hstream
    rw [exec_stream_instr] at he ⊢
    exact resumeTotal_late a (s := s.request .totalAvailable) hs he
  · exact resumeInit_late a (s := (s.setBderr 0).request .bdInit) hs he

/-- A step that goes on with a decode, with answers that come later (R272, R310, R390). -/
theorem step_decode_late {s t : State} (a : LateAnswers) (h : s.Inv) (hh : s.halted = false) (hd : s.decoding = true)
    (he : step s = .next t) : LateRun a s t (step (s.withMore a)) := by
  cases hq : s.seq with
  | idle | operands => simp [State.decoding, hq] at hd
  | awaitTotal k w e =>
    rw [step_of_awaitTotal hh hq] at he
    rw [step_of_awaitTotal (s := s.withMore a) hh hq]
    exact resumeTotal_late a (s := { s with seq := .idle }) rfl he
  | awaitRead j =>
    rw [step_of_awaitRead hh hq] at he
    rw [step_of_awaitRead (s := s.withMore a) hh hq]
    exact resumeRead_late a (s := { s with seq := .idle }) (Nat.le_of_lt (awaitRead_bounds h hq).1) rfl he
  | awaitInit w e =>
    rw [step_of_awaitInit hh hq] at he
    rw [step_of_awaitInit (s := s.withMore a) hh hq]
    exact resumeInit_late a (s := { s with seq := .idle }) rfl he
  | awaitMcu j =>
    obtain ⟨hmy, hmx⟩ := awaitMcu_bounds h hq
    rw [step_of_awaitMcu hh hq] at he
    rw [step_of_awaitMcu (s := s.withMore a) hh hq]
    exact resumeMcu_late a (s := { s with seq := .idle }) (Nat.le_of_lt hmy) (Nat.le_of_lt hmx) rfl he

/-- What a late run does, of an engine that is not halted. -/
theorem LateRun.cases {a : LateAnswers} {s t : State} {late : Result} (h : LateRun a s t late) (hh : s.halted = false) :
    t.decoding = true ∧ step (t.withMore a) = late ∨ t.seq = .idle ∧ late = .next (t.withMore a) := by
  obtain ⟨hhalt, ⟨hidle, he⟩ | ⟨hd, he⟩⟩ := h
  · exact .inr ⟨hidle, he⟩
  · exact .inl ⟨hd, (he (hhalt.trans hh)).symm⟩

section

variable {s : State}

/-- The answer that a wait awaits is one more answer (R351, R352, R354, R355, R371). -/
theorem answerTotal_of_await {k : StreamKind} {w h : Half} (hq : s.seq = .awaitTotal k w h) (v : Word) :
    s.answerTotal .pending v = s.withMore ⟨[v], [], [], []⟩ := by
  simp only [State.answerTotal, hq, State.withMore, List.append_nil]

theorem answerRead_of_await {j : StreamJob} (hq : s.seq = .awaitRead j) (a : ReadAnswer) :
    s.answerRead .pending a = s.withMore ⟨[], [a], [], []⟩ := by
  simp only [State.answerRead, hq, State.withMore, List.append_nil]

theorem answerInit_of_await {w h : Half} (hq : s.seq = .awaitInit w h) (a : InitAnswer) :
    s.answerInit .pending a = s.withMore ⟨[], [], [a], []⟩ := by
  simp only [State.answerInit, hq, State.withMore, List.append_nil]

theorem answerMcu_of_await {j : JpegJob} (hq : s.seq = .awaitMcu j) (a : McuAnswer) :
    s.answerMcu .pending a = s.withMore ⟨[], [], [], [a]⟩ := by
  simp only [State.answerMcu, hq, State.withMore, List.append_nil]

end

/-- Settles O54: the command, the step and the four answers. -/
theorem lateAnswersChangeNothing : Obligations.LateAnswersChangeNothing :=
  ⟨fun _ _ _ a hi hh hs he => (exec_decode_late hi a hs he).cases hh,
    fun _ _ a h hh hd he => (step_decode_late a h hh hd he).cases hh,
    fun _ => ⟨fun _ _ _ v hq => answerTotal_of_await hq v, fun _ a hq => answerRead_of_await hq a,
      fun _ _ a hq => answerInit_of_await hq a, fun _ a hq => answerMcu_of_await hq a⟩⟩

end Sys2Proof.Machine
end

section
/-!
The requests of the byte-stream decoders (spec/44_stream_decode.md R271, R272, R351), their progress words (R273), and the clip of
a decode (R274): what holds of everything that one decode, within its own bounds, does.
-/

namespace Sys2Proof.Machine

/-! ### What one decode keeps -/

/-- A read that a decoder of kind `k` may ask for in a frame of width `w`: at least 1 byte, at most its ceiling, at most a line
(R272, R351). -/
def ReadBounded (k : StreamKind) (w : Nat) (q : PortReq) : Prop :=
  ∃ m, q = .tryRead m ∧ 1 ≤ m ∧ m ≤ k.ceiling ∧ m ≤ k.lineBytes w

/-- A property that everything keeps which the decode of one frame does before it ends or waits: its pixels are those of the
frame, its reads are bounded (R271 to R275). -/
structure FrameKeeps (k : StreamKind) (w h : Nat) (P : State → Prop) : Prop where
  progress : ∀ r n s, P s → P (State.progress r n s)
  viewSet : ∀ x y c s, x < k.outWidth w → y < k.outHeight h → P s → P (State.viewSet x y c s)
  beginRows : ∀ s, P s → P s.beginRows
  totals : ∀ l s, P s → P { s with bsTotals := l }
  afterRead : ∀ l qs s, (∀ q ∈ qs, ReadBounded k w q) → P s → P (State.afterRead l qs s)

/-- How a byte-stream decode command ends, `P` holding of the state it leaves. -/
theorem FrameKeeps.exec_ends {k : StreamKind} {w h : Half} {P : State → Prop} (K : FrameKeeps k w.toNat h.toNat P)
    {s : State} (hs : P (s.request .totalAvailable)) : DecodeEnds P (fun _ => True) (exec (k.instr w h) s) := by
  rw [exec_stream_instr]
  unfold startStream Machine.resumeTotal
  split
  · exact .inr (.inr (.inl ⟨_, _, hs, trivial, rfl⟩))
  next total rest _ =>
    unfold runStream
    split
    next rc hp => exact .inr (.inl ⟨_, rc, K.totals rest _ hs, streamPrecondition_ne_ok hp, rfl⟩)
    next hp =>
      rcases runLines_ends (P := P) (k := k) (w := w) (h := h) (fun y s => beforeLine_keeps K.progress)
        (fun l q s _ hq => K.afterRead l q s hq)
        (fun y a b c s => afterLine_keeps K.progress (fun i j d t hi hj => K.viewSet i j d t hi hj))
        (fun a b s => afterFrame_keeps K.progress (fun i j d t hi hj => K.viewSet i j d t hi hj))
        (k.rows h.toNat) 0 none [] [] _ (K.beginRows _ (K.totals rest _ hs)) with
        ⟨u, hu, he⟩ | ⟨u, hu, he⟩ | ⟨u, j, g, a, b, hu, -, -, -, -, -, he⟩ | he
      · exact .inl ⟨u, hu, he⟩
      · exact .inr (.inl ⟨u, _, hu, by decide, he⟩)
      · exact .inr (.inr (.inl ⟨u, _, hu, trivial, he⟩))
      · exact .inr (.inr (.inr he))

/-! ### Requests -/

/-- The requests since `s` are one for the total, then bounded reads (R271, R272). -/
def RequestsBounded (k : StreamKind) (w : Nat) (s t : State) : Prop :=
  ∃ reads, t.reqs = s.reqs ++ .totalAvailable :: reads ∧ ∀ q ∈ reads, ReadBounded k w q

theorem requestsBounded_keeps (k : StreamKind) (w h : Nat) (s : State) : FrameKeeps k w h (RequestsBounded k w s) where
  progress _ _ t ht := by simpa only [RequestsBounded, progress_reqs] using ht
  viewSet _ _ _ t _ _ ht := by simpa only [RequestsBounded, viewSet_reqs] using ht
  beginRows _ ht := ht
  totals _ _ ht := ht
  afterRead l qs t hqs ht := by
    obtain ⟨reads, hreqs, hreads⟩ := ht
    refine ⟨reads ++ qs, ?_, fun q hq => (List.mem_append.mp hq).elim (hreads q) (hqs q)⟩
    rw [afterRead_reqs, hreqs, List.append_assoc, List.cons_append]

/-- The ceiling of each decoder (R11). -/
theorem ceiling_eq (k : StreamKind) : k.ceiling = if k = .rgb565 then 254 else 255 := by cases k <;> rfl

/-- What one `READLINE` of each decoder asks for (R272). -/
theorem lineBytes_eq (k : StreamKind) (w : Nat) : k.lineBytes w = if k = .yuyvh then 4 * w else 2 * w := by cases k <;> rfl

/-- Settles O55: the request of the total starts the list, and a `READLINE` adds bounded reads. -/
theorem streamRequestsAreBounded : Obligations.StreamRequestsAreBounded := by
  intro k w h s t he
  have hb : RequestsBounded k w.toNat s t := by
    have hstart : RequestsBounded k w.toNat s (s.request .totalAvailable) := ⟨[], rfl, nofun⟩
    rcases ((requestsBounded_keeps k w.toNat h.toNat s).exec_ends hstart).next he with
      ⟨u, v, rc, hu, rfl⟩ | ⟨u, q, hu, -, rfl⟩ <;> exact hu
  simpa only [RequestsBounded, ReadBounded, ceiling_eq, lineBytes_eq] using hb

/-! ### Progress words -/

theorem progress_of_progen {s : State} (hp : s.progen = true) (r n : Nat) :
    s.progress r n = { s with progq := s.progq ++ [progressWord r n] } := if_pos hp

theorem progress_of_not_progen {s : State} (hp : s.progen = false) (r n : Nat) : s.progress r n = s := by
  rw [State.progress, if_neg (by rw [hp]; nofun)]

/-- The fraction of a row of the frame is less than 1 (R273). -/
theorem rowFraction_lt {r n : Nat} (hr : r < n) : r * 65536 / n < 65536 := by
  rw [Nat.div_lt_iff_lt_mul (Nat.zero_lt_of_lt hr), Nat.mul_comm]
  exact Nat.mul_lt_mul_of_pos_left hr (by decide)

/-- Of at most 65535 rows each adds more than one unit to the fraction (R273). -/
theorem rowFraction_lt_rowFraction {r r' n : Nat} (hn : n ≤ 65535) (h0 : 0 < n) (hr : r < r') :
    r * 65536 / n < r' * 65536 / n :=
  calc r * 65536 / n < r * 65536 / n + 1 := Nat.lt_succ_self _
    _ = (r * 65536 + n) / n := (Nat.add_div_right _ h0).symm
    _ ≤ r' * 65536 / n := Nat.div_le_div_right (by omega)

/-- The two halves of a progress word as one number (R273). -/
theorem progressWord_toNat {r n : Nat} (hn : n ≤ 65535) (hr : r < n) :
    (progressWord r n).toNat = r * 65536 + r * 65536 / n := by
  unfold progressWord
  have hf : r * 65536 / n < 2 ^ 16 := rowFraction_lt hr
  have hr' : r < 2 ^ 16 := by omega
  generalize r * 65536 / n = f at hf
  rw [toNat_append_eq_add, BitVec.toNat_ofNat, BitVec.toNat_ofNat, Nat.mod_eq_of_lt hr', Nat.mod_eq_of_lt hf]
  omega

theorem halves_of_lt {a f : Nat} (hf : f < 65536) :
    (a * 65536 + f) / 65536 = a ∧ (a * 65536 + f) % 65536 = f := by omega

/-- Settles O56: the word of a row as a number, and the fractions of two rows. -/
theorem progressWordsIncrease : Obligations.ProgressWordsIncrease := by
  intro s n r hn hr
  have hword : ∀ r', r' < n → (progressWord r' n).toNat / 65536 = r' ∧
      (progressWord r' n).toNat % 65536 = r' * 65536 / n := by
    intro r' hr'
    rw [progressWord_toNat hn hr']
    exact halves_of_lt (rowFraction_lt hr')
  refine ⟨fun hp => ⟨_, progress_of_progen hp r n, (hword r hr).1, (hword r hr).2, ?_, fun r' hlt hr' =>
    ⟨_, progress_of_progen hp r' n, ?_⟩⟩, fun hp => progress_of_not_progen hp r n⟩
  · rintro rfl
    exact BitVec.eq_of_toNat_eq (by rw [progressWord_toNat hn hr, Nat.zero_mul, Nat.zero_div]; rfl)
  · rw [(hword r hr).2, (hword r' hr').2]
    exact rowFraction_lt_rowFraction hn (by omega) hlt

/-! ### The clip, from inside -/

theorem viewRow_map_range' (y : Nat) (colour : Nat → RGB) : ∀ (n x : Nat) (s : State),
    s.viewRow y x ((List.range' x n).map colour) = (List.range' x n).foldl (fun t j => t.viewSet j y (colour j)) s := by
  intro n
  induction n with
  | zero => intro x s; rfl
  | succ n ih =>
    intro x s
    rw [List.range'_succ, List.map_cons, State.viewRow, ih, List.foldl_cons]

/-- A row sets its pixels in the clip, left to right (R274). -/
theorem emitRow_eq_foldl (ow oh y : Nat) (colour : Nat → RGB) (s : State) : s.emitRow ow oh y colour =
    if y < min oh s.surfH.toNat then (List.range (min ow s.surfW.toNat)).foldl (fun t x => t.viewSet x y (colour x)) s
    else s := by
  rw [State.emitRow, List.range_eq_range', viewRow_map_range', ← List.range_eq_range']
  rfl

theorem openRows_of_no_mark {x y : Nat} {s : State} (h : s.rowsOfDecode = false) : s.openRows x y = s := by
  rw [State.openRows, h, Bool.false_and, Bool.false_and, if_neg Bool.false_ne_true]

/-- A pixel of a decode is set as `SETPIX` sets it, but for the retirement and the mark (R240, R246; log entry 25). -/
theorem viewSet_eq_setpix (x y : Half) (c : RGB) (s : State) :
    ∃ t, exec (.setpix x y c) { s with rowsOfDecode := false } = .next t ∧
      s.viewSet x.toNat y.toNat c = { t with rowsOfDecode := s.rowsOfDecode, err := s.err, cmdcnt := s.cmdcnt } := by
  refine ⟨_, exec_setpix x y c _, ?_⟩
  obtain ⟨fb, fbc, n, nf, st, tr, nr, cr, cv, hv⟩ := viewSet_shape x.toNat y.toNat c s
  rw [openRows_of_no_mark rfl, viewSet_mark _ _ c false s, retire_ok, hv]

/-! ### The clip, from outside -/

/-- The pixel `(x, y)` of `t` holds what that of `s` holds, the frame buffer of `t` being in canonical form. -/
def PixelKept (x y : Nat) (s t : State) : Prop := t.fb.wf = true ∧ t.surfGet x y = s.surfGet x y

theorem surfSet_fbWf {x y : Nat} (v : Byte) {s : State} (h : s.fb.wf = true) : (s.surfSet x y v).fb.wf = true := by
  unfold State.surfSet
  split
  · split
    · exact memWf_memWrite _ _ h
    · exact memWf_memWrite _ _ h
    · split
      · exact h
      · exact memWf_memWrite _ _ (memWf_memWrite _ _ h)
  · exact h

section

variable {x y : Nat} {s t : State} (h : PixelKept x y s t)

include h

theorem pixelKept_of_eq {u : State} (hfb : u.fb = t.fb) (hget : u.surfGet x y = t.surfGet x y) : PixelKept x y s u :=
  ⟨hfb ▸ h.1, hget.trans h.2⟩

theorem pixelKept_progress (r n : Nat) : PixelKept x y s (t.progress r n) := pixelKept_of_eq h (by simp) (by simp)

/-- A `VIEW_SET` keeps every other pixel (R218, R240). -/
theorem pixelKept_viewSet {i j : Nat} (hne : ¬ (x = i ∧ y = j)) (c : RGB) : PixelKept x y s (t.viewSet i j c) :=
  viewSet_keeps (P := PixelKept x y s) (fun c u hu => pixelKept_of_eq hu (by simp) (by simp))
    (fun b u hu => hu) (fun v u hu => ⟨surfSet_fbWf v hu.1, (surfGet_surfSet_of_ne v hne hu.1).trans hu.2⟩)
    (fun u hu => pixelKept_of_eq hu (by simp) (by simp)) (fun e u hu => pixelKept_of_eq hu (by simp) (by simp)) c t h

/-- A `VIEW_SET` in the clip keeps every pixel outside it (R274). -/
theorem pixelKept_viewSet_outside {ow oh i j : Nat} (hout : ow ≤ x ∨ oh ≤ y) (hi : i < ow) (hj : j < oh) (c : RGB) :
    PixelKept x y s (t.viewSet i j c) := pixelKept_viewSet h (by omega) c

end

/-- Everything a byte-stream decode does keeps the pixels outside its clip (R274). -/
theorem pixelKept_keeps {k : StreamKind} {w h x y : Nat} (hout : k.outWidth w ≤ x ∨ k.outHeight h ≤ y) (s : State) :
    FrameKeeps k w h (PixelKept x y s) where
  progress r n _ ht := pixelKept_progress ht r n
  viewSet _ _ c _ hi hj ht := pixelKept_viewSet_outside ht hout hi hj c
  beginRows _ ht := ht
  totals _ _ ht := ht
  afterRead _ _ _ _ ht := ht

theorem exec_stream_pixelKept {k : StreamKind} {w h : Half} {x y : Nat} {s t : State} (hwf : s.fb.wf = true)
    (he : exec (k.instr w h) s = .next t) (hout : k.outWidth w.toNat ≤ x ∨ k.outHeight h.toNat ≤ y) :
    t.surfGet x y = s.surfGet x y := by
  have hstart : PixelKept x y s (s.request .totalAvailable) := ⟨hwf, rfl⟩
  rcases ((pixelKept_keeps hout s).exec_ends hstart).next he with
    ⟨u, v, rc, ⟨-, hu⟩, rfl⟩ | ⟨u, q, ⟨-, hu⟩, -, rfl⟩ <;> exact hu

/-- The MCU rows of a `DEC_JPEG` keep the pixels outside its clip (R274, R310). -/
theorem runMcuRows_pixelKept {scan : ScanType} {w h : Half} {x y : Nat} (hout : w.toNat ≤ x ∨ h.toNat ≤ y)
    {s t u : State} (ht : PixelKept x y s t) {left my : Nat} {pend : Option (Nat × List (List RGB))}
    (he : runMcuRows scan w h left my pend t = .next u) : u.surfGet x y = s.surfGet x y := by
  have hblit : ∀ (i : Nat) (m : List (List RGB)) (v : State), PixelKept x y s v →
      PixelKept x y s (v.blit (v.clipW w.toNat) (v.clipH h.toNat) i m) := by
    intro i m v hv
    refine blit_keeps m i v (fun a b c q ha hb hq => pixelKept_viewSet_outside hq hout ?_ ?_ c) hv
    · exact lt_of_lt_of_le ha (Nat.min_le_left ..)
    · exact lt_of_lt_of_le hb (Nat.min_le_left ..)
  rcases runMcuRows_ends (P := PixelKept x y s) (scan := scan) (w := w) (h := h)
    (fun i v hv => pixelKept_progress hv i _) (fun _ _ v _ _ hv => hv) hblit left my pend t ht with
    ⟨v, ⟨-, hv⟩, hr⟩ | ⟨v, code, ⟨-, hv⟩, -, hr⟩ | ⟨v, i, j, m, ⟨-, hv⟩, -, -, -, -, -, hr⟩ <;>
    · rw [hr] at he
      cases he
      exact hv

/-- A `DEC_JPEG` from `init` on keeps the pixels outside its clip, also where a precondition fails (R274, R311, R316). -/
theorem resumeInit_pixelKept {w h : Half} {x y : Nat} (hout : w.toNat ≤ x ∨ h.toNat ≤ y) {s t u : State}
    (ht : PixelKept x y s t) (he : resumeInit w h t = .next u) : u.surfGet x y = s.surfGet x y := by
  unfold Machine.resumeInit at he
  split at he
  · cases he; exact ht.2
  next a rest _ =>
    unfold runJpeg at he
    split at he
    · cases he; exact ht.2
    · split at he
      · cases he; exact ht.2
      · split at he
        · cases he; exact ht.2
        · exact runMcuRows_pixelKept (t := ({ t with bdInits := rest } : State).beginRows) hout ht he

/-- Settles O57: a row of the frame pixel by pixel, and every pixel that a decode does not come to. -/
theorem pixelsOutsideTheClipAreKept : Obligations.PixelsOutsideTheClipAreKept := by
  refine ⟨emitRow_eq_foldl, viewSet_eq_setpix, ?_⟩
  rintro i w h ow oh x y s t hwf he ⟨a, b, ⟨rfl, rfl, hi, rfl, rfl⟩ | ⟨rfl, rfl, rfl, rfl, rfl⟩⟩ hout
  · rcases hi with rfl | rfl | rfl | rfl
    · exact exec_stream_pixelKept (k := .rgb565) hwf he hout
    · exact exec_stream_pixelKept (k := .yuyv) hwf he hout
    · exact exec_stream_pixelKept (k := .yuv3l) hwf he hout
    · exact resumeInit_pixelKept hout (t := (s.setBderr 0).request .bdInit) ⟨hwf, rfl⟩ he
  · exact exec_stream_pixelKept (k := .yuyvh) hwf he hout

end Sys2Proof.Machine
end

section
/-!
`DEC_JPEG` (spec/45_jpeg_mcu.md R310 to R316): the precondition that ends it, an image whose MCUs all come, and one that an error of
the block decoder breaks off.
-/

namespace Sys2Proof.Machine

/-! ### How a decode ends, as a whole state -/

theorem succeedDecode_eq (s : State) :
    succeedDecode s = .next { s with r0 := 1, err := .ok, cmdcnt := s.cmdcnt + 1 } := succeed_eq _

theorem failDecode_eq {rc : Code} (hrc : rc ≠ .ok) (s : State) :
    failDecode rc s = .next { s with r0 := 0, err := rc, fails := true, cmdcnt := s.cmdcnt + 1 } := failWith_eq hrc _

/-! ### The start, and the preconditions -/

/-- The state in which `DEC_JPEG` looks at the answer to `init`: `inits` are the answers left (R310, R311). -/
def State.jpegInited (inits : List InitAnswer) (s : State) : State :=
  { s with bderr := 0, reqs := s.reqs ++ [.bdInit], bdInits := inits }

theorem exec_decJpeg_of_init {s : State} {a : InitAnswer} {inits : List InitAnswer} (hn : s.bdInits = a :: inits)
    (w h : Half) : exec (.decJpeg w h) s = runJpeg w h a (s.jpegInited inits) := by
  show resumeInit w h ((s.setBderr 0).request .bdInit) = _
  have hn' : ((s.setBderr 0).request .bdInit).bdInits = a :: inits := hn
  rw [resumeInit, hn']
  rfl

theorem scanOf_eq_none {c : Byte} (hc : 4 < c.toNat) : scanOf c = none := by
  unfold scanOf
  split
  any_goals omega
  rfl

section

variable {a : InitAnswer} (w h : Half) (s : State)

/-- An error of `init` ends the decode, its code in `BDERR` (R311, R316). -/
theorem runJpeg_of_init_error (he : a.err ≠ 0) : runJpeg w h a s = failDecode .bd (s.setBderr a.err) := if_pos he

variable (he : a.err = 0)

include he

theorem runJpeg_of_bad_scan (hc : 4 < a.scan.toNat) : runJpeg w h a s = failDecode .scan s := by
  rw [runJpeg, if_neg (not_not.mpr he), scanOf_eq_none hc]

variable {scan : ScanType} (hscan : scanOf a.scan = some scan)

include hscan

theorem runJpeg_of_small_buffer (hb : s.params.mrowBytes < mrowNeed scan w.toNat) :
    runJpeg w h a s = failDecode .size s := by
  simp only [runJpeg, if_neg (not_not.mpr he), hscan, if_pos hb]

/-- With no precondition failing the MCU rows follow (R310, R316). -/
theorem runJpeg_of_preconditions (hb : mrowNeed scan w.toNat ≤ s.params.mrowBytes) :
    runJpeg w h a s = runMcuRows scan w h (mcuRowCount scan h.toNat) 0 none s.beginRows := by
  simp only [runJpeg, if_neg (not_not.mpr he), hscan, if_neg (Nat.not_lt.mpr hb)]

end

theorem exec_decJpeg_of_preconditions {w h : Half} {s : State} {a : InitAnswer} {inits : List InitAnswer}
    {scan : ScanType} (hn : s.bdInits = a :: inits) (he : a.err = 0) (hscan : scanOf a.scan = some scan)
    (hb : mrowNeed scan w.toNat ≤ s.params.mrowBytes) :
    exec (.decJpeg w h) s =
      runMcuRows scan w h (mcuRowCount scan h.toNat) 0 none (s.jpegInited inits).beginRows :=
  (exec_decJpeg_of_init hn w h).trans (runJpeg_of_preconditions w h _ he hscan hb)

/-- Settles O58: each code is that of the first precondition that fails. -/
theorem jpegPreconditionsInOrder : Obligations.JpegPreconditionsInOrder := by
  intro w h s a inits rc code hn hrc
  rw [exec_decJpeg_of_init hn]
  rcases hrc with ⟨he, rfl, rfl⟩ | ⟨he, rfl, ⟨hc, rfl⟩ | ⟨gray, mw, mh, hmem, hb, rfl⟩⟩
  · exact (runJpeg_of_init_error w h _ he).trans (failDecode_eq (by decide) _)
  · exact (runJpeg_of_bad_scan w h _ he hc).trans (failDecode_eq (by decide) _)
  · obtain ⟨scan, hscan, -, rfl, rfl⟩ := scanTable_of_mem hmem
    exact (runJpeg_of_small_buffer w h (s.jpegInited inits) he hscan hb).trans (failDecode_eq (by decide) _)

/-! ### MCU rows that are complete -/

/-- The first `m` MCU rows of an image, their reading apart (R310). -/
def State.mcuRowsWork (scan : ScanType) (w h : Nat) (ms : List McuAnswer) (m : Nat) (s : State) : State :=
  s.forRows m (State.mcuRowWork scan w h ms)

/-- All the MCU rows are those of the image (R312, R313, R316). -/
theorem mcuRowsWork_eq_decodeMcuRows (scan : ScanType) (w h : Nat) (ms : List McuAnswer) (s : State) :
    s.mcuRowsWork scan w h ms (mcuRowCount scan h) =
      s.decodeMcuRows (mcuRowCount scan h) scan.mcuH w h (frameMcu scan (mcusPerRow scan w) ms) := rfl

section

variable (scan : ScanType) (w h : Nat) (ms : List McuAnswer)

theorem portless_mcuRowsWork (m : Nat) : Portless (State.mcuRowsWork scan w h ms m) :=
  portless_forRows (portless_mcuRowWork scan w h ms) m

/-- What progress words and rows of pixels keep, the MCU rows keep. -/
theorem mcuRowsWork_keeps {P : State → Prop} (hp : ∀ r n t, P t → P (State.progress r n t))
    (he : ∀ y f t, P t → P (State.emitRow w h y f t)) (m : Nat) {s : State} (hs : P s) :
    P (s.mcuRowsWork scan w h ms m) :=
  forRows_keeps (f := State.mcuRowWork scan w h ms)
    (fun my t ht => forRows_keeps (fun _ u => he _ _ u) scan.mcuH (hp my _ t ht)) m hs

@[simp] theorem mcuRowsWork_cmdcnt (m : Nat) (s : State) : (s.mcuRowsWork scan w h ms m).cmdcnt = s.cmdcnt :=
  mcuRowsWork_keeps scan w h ms (P := fun t => t.cmdcnt = s.cmdcnt) (fun _ _ t ht => by rw [progress_cmdcnt, ht])
    (fun _ _ t ht => by rw [emitRow_cmdcnt, ht]) m rfl

@[simp] theorem mcuRowsWork_bderr (m : Nat) (s : State) : (s.mcuRowsWork scan w h ms m).bderr = s.bderr :=
  mcuRowsWork_keeps scan w h ms (P := fun t => t.bderr = s.bderr) (fun _ _ t ht => by rw [progress_bderr, ht])
    (fun _ _ t ht => by rw [emitRow_bderr, ht]) m rfl

end

/-- The first `m` MCU rows, all of whose MCUs come, are decoded, and the loop goes on after them (R310, R316). -/
theorem runMcuRows_of_served_rows {scan : ScanType} {w h : Half} {m : Nat} {ms next : List McuAnswer} {s : State}
    (hs : s.bdMcus = ms.take (m * mcusPerRow scan w.toNat) ++ next) (hm : m * mcusPerRow scan w.toNat ≤ ms.length)
    (herr : ∀ a ∈ ms, a.err = 0) (left : Nat) :
    runMcuRows scan w h (m + left) 0 none s =
      runMcuRows scan w h left m none
        ((s.mcuRowsWork scan w.toNat h.toNat ms m).afterMcus next
          (List.replicate (m * mcusPerRow scan w.toNat) .bdMcu)) := by
  have hlen : (ms.take (m * mcusPerRow scan w.toNat)).length = m * mcusPerRow scan w.toNat :=
    List.length_take_of_le hm
  have hrows := runMcuRows_of_served_prefix scan w h ms next left m 0 _ s (by rw [Nat.zero_mul, List.drop_zero]) hlen
    (fun a ha => herr a (List.mem_of_mem_take ha)) hs
  rwa [hlen, Nat.zero_add, ← List.range_eq_range'] at hrows

/-! ### The port fields around the MCU rows -/

/-- An operation that neither looks at nor touches the port fields comes before the MCUs as well as after them. -/
theorem Portless.afterMcus {f : State → State} (hf : Portless f) (l : List McuAnswer) (q : List PortReq) (s : State) :
    f (s.afterMcus l q) = (f s).afterMcus l q := by
  have hreqs : (f s).reqs = s.reqs := congrArg Io.reqs (hf.io_eq s)
  rw [afterMcus_eq_setIo, hf, afterMcus_eq_setIo, hf.io_eq, hreqs]

theorem afterMcus_afterMcus (l l' : List McuAnswer) (q q' : List PortReq) (s : State) :
    (s.afterMcus l q).afterMcus l' q' = s.afterMcus l' (q ++ q') := by
  simp only [State.afterMcus, List.append_assoc]

/-- A `DEC_JPEG` whose preconditions hold, before its first MCU row and without its port fields (R310, R311, R246). -/
def State.jpegBegun (s : State) : State := { s with curValid := false, rowsOfDecode := true, bderr := 0 }

/-- The port fields may change after the MCU rows as well as on the way: a `Portless` operation does not see when. -/
theorem Portless.afterMcus_jpegInited {f : State → State} (hf : Portless f) (inits : List InitAnswer)
    (rest : List McuAnswer) (reqs : List PortReq) (s : State) :
    (f (s.jpegInited inits).beginRows).afterMcus rest reqs =
      { f s.jpegBegun with bdInits := inits, bdMcus := rest, reqs := s.reqs ++ .bdInit :: reqs } := by
  have hstart : (s.jpegInited inits).beginRows =
      s.jpegBegun.setIo { s.jpegBegun.io with inits := inits, reqs := s.reqs ++ [.bdInit] } := rfl
  have hio := hf.io_eq s.jpegBegun
  simp only [State.io, Io.mk.injEq] at hio
  obtain ⟨htotals, hreads, -, -, -, hmark⟩ := hio
  rw [hstart, hf]
  simp [State.afterMcus, State.setIo, State.io, htotals, hreads, hmark]

/-! ### An image whose MCUs all come -/

/-- A `DEC_JPEG` whose preconditions hold, of an image whose MCUs all come, does all its MCU rows and succeeds (R310, R316). -/
theorem exec_decJpeg_of_served {w h : Half} {s : State} {a : InitAnswer} {inits : List InitAnswer} {scan : ScanType}
    {ms rest : List McuAnswer} (hn : s.bdInits = a :: inits) (he : a.err = 0) (hscan : scanOf a.scan = some scan)
    (hb : mrowNeed scan w.toNat ≤ s.params.mrowBytes) (hms : s.bdMcus = ms ++ rest) (herr : ∀ m ∈ ms, m.err = 0)
    (hlen : ms.length = mcuRowCount scan h.toNat * mcusPerRow scan w.toNat) :
    exec (.decJpeg w h) s = .next
      { s.jpegBegun.mcuRowsWork scan w.toNat h.toNat ms (mcuRowCount scan h.toNat) with
        bdInits := inits, bdMcus := rest, reqs := s.reqs ++ .bdInit :: List.replicate ms.length .bdMcu
        bderr := 0, r0 := 1, err := .ok, cmdcnt := s.cmdcnt + 1 } := by
  have hrows := runMcuRows_of_served_rows (h := h) (s := (s.jpegInited inits).beginRows) (next := rest)
    (by rw [← hlen, List.take_length]; exact hms) (Nat.le_of_eq hlen.symm) herr 0
  rw [Nat.add_zero, ← hlen, (portless_mcuRowsWork _ _ _ _ _).afterMcus_jpegInited] at hrows
  rw [exec_decJpeg_of_preconditions hn he hscan hb, hrows, runMcuRows, succeedDecode_eq]
  simp only [mcuRowsWork_bderr, mcuRowsWork_cmdcnt]
  rfl

/-- Settles O59: the MCU rows of a served image are those of `decodeMcuRows`, for each line of R312's table. -/
theorem decJpegDecodesAServedImage : Obligations.DecJpegDecodesAServedImage := by
  intro w h s a inits gray mw mh ms rest hn he hmem hb hms herr hlen
  obtain ⟨scan, hscan, rfl, rfl, rfl⟩ := scanTable_of_mem hmem
  have hx := exec_decJpeg_of_served (h := h) hn he hscan hb hms herr hlen
  rw [mcuRowsWork_eq_decodeMcuRows] at hx
  exact ⟨_, hx, rfl⟩

/-! ### An error of the block decoder in mid-image -/

/-- An error answer ends the MCU row that it comes in: its progress word is pushed, none of its rows is written (R310, R311). -/
theorem runMcuRows_of_row_error {scan : ScanType} {w h : Half} {ms rest : List McuAnswer} {bad : McuAnswer} {s : State}
    (hs : s.bdMcus = ms ++ bad :: rest) (hlen : ms.length < mcusPerRow scan w.toNat) (herr : ∀ m ∈ ms, m.err = 0)
    (hbad : bad.err ≠ 0) (left my : Nat) :
    runMcuRows scan w h (left + 1) my none s = failDecode .bd
      (((s.progress my (mcuRowCount scan h.toNat)).afterMcus rest (List.replicate (ms.length + 1) .bdMcu)).setBderr
        bad.err) := by
  have hread := readMcus_of_error scan rest hbad ms (mcusPerRow scan w.toNat) 0 (emptyMrow scan) hlen herr
  rw [runMcuRows]
  simp only [Option.isSome_none, Bool.false_eq_true, if_false, Option.getD_none, Nat.sub_zero, progress_bdMcus, hs, hread]

/-- What a `DEC_JPEG` has done when an error follows the MCUs `ms`: the MCU rows that `ms` fills, and the progress word of the next
(R310, R311). -/
def State.imageStopped (scan : ScanType) (w h : Nat) (ms : List McuAnswer) (s : State) : State :=
  (s.mcuRowsWork scan w h ms (ms.length / mcusPerRow scan w)).progress (ms.length / mcusPerRow scan w)
    (mcuRowCount scan h)

theorem portless_imageStopped (scan : ScanType) (w h : Nat) (ms : List McuAnswer) :
    Portless (State.imageStopped scan w h ms) := by
  intro io s
  unfold State.imageStopped
  rw [portless_mcuRowsWork, portless_progress]

theorem imageStopped_cmdcnt (scan : ScanType) (w h : Nat) (ms : List McuAnswer) (s : State) :
    (s.imageStopped scan w h ms).cmdcnt = s.cmdcnt :=
  (progress_cmdcnt _ _ _).trans (mcuRowsWork_cmdcnt scan w h ms _ s)

/-- The loop does the MCU rows that the MCUs fill, and fails in the one that the error leaves unfinished (R310, R311). -/
theorem runMcuRows_of_error {scan : ScanType} {w h : Half} {ms rest : List McuAnswer} {bad : McuAnswer} {s : State}
    {left : Nat} (hs : s.bdMcus = ms ++ bad :: rest) (herr : ∀ m ∈ ms, m.err = 0) (hbad : bad.err ≠ 0)
    (hlen : ms.length < left * mcusPerRow scan w.toNat) :
    runMcuRows scan w h left 0 none s = failDecode .bd
      (((s.imageStopped scan w.toNat h.toNat ms).afterMcus rest (List.replicate (ms.length + 1) .bdMcu)).setBderr
        bad.err) := by
  have hn : 0 < mcusPerRow scan w.toNat := Nat.pos_of_lt_mul_left hlen
  have hm : ms.length / mcusPerRow scan w.toNat < left := (Nat.div_lt_iff_lt_mul hn).mpr hlen
  have hdiv := Nat.div_mul_le_self ms.length (mcusPerRow scan w.toNat)
  have hmod := Nat.mod_lt ms.length hn
  have hsplit := Nat.div_add_mod' ms.length (mcusPerRow scan w.toNat)
  unfold State.imageStopped
  generalize ms.length / mcusPerRow scan w.toNat = m at *
  obtain ⟨last, rfl⟩ : ∃ last, left = m + (last + 1) := ⟨left - m - 1, by omega⟩
  have hfirst := runMcuRows_of_served_rows (h := h) (next := ms.drop (m * mcusPerRow scan w.toNat) ++ bad :: rest)
    (by rw [hs, ← List.append_assoc, List.take_append_drop]) hdiv herr (last + 1)
  have hlast := runMcuRows_of_row_error (scan := scan) (w := w) (h := h) (bad := bad) (rest := rest)
    (ms := ms.drop (m * mcusPerRow scan w.toNat))
    (s := (s.mcuRowsWork scan w.toNat h.toNat ms m).afterMcus _ (List.replicate (m * mcusPerRow scan w.toNat) .bdMcu))
    rfl (by rw [List.length_drop]; omega) (fun a ha => herr a (List.mem_of_mem_drop ha)) hbad last m
  have hreqs : m * mcusPerRow scan w.toNat + (ms.length - m * mcusPerRow scan w.toNat + 1) = ms.length + 1 := by omega
  rw [(portless_progress m _).afterMcus, afterMcus_afterMcus, List.replicate_append_replicate, List.length_drop, hreqs]
    at hlast
  exact hfirst.trans hlast

/-- A `DEC_JPEG` whose preconditions hold, broken off by the block decoder in mid-image, keeps the MCU rows that were complete and
fails with `E_BD` (R310, R311). -/
theorem exec_decJpeg_of_error {w h : Half} {s : State} {a : InitAnswer} {inits : List InitAnswer} {scan : ScanType}
    {ms rest : List McuAnswer} {bad : McuAnswer} (hn : s.bdInits = a :: inits) (he : a.err = 0)
    (hscan : scanOf a.scan = some scan) (hb : mrowNeed scan w.toNat ≤ s.params.mrowBytes)
    (hms : s.bdMcus = ms ++ bad :: rest) (herr : ∀ m ∈ ms, m.err = 0) (hbad : bad.err ≠ 0)
    (hlen : ms.length < mcuRowCount scan h.toNat * mcusPerRow scan w.toNat) :
    exec (.decJpeg w h) s = .next
      { s.jpegBegun.imageStopped scan w.toNat h.toNat ms with
        bdInits := inits, bdMcus := rest, reqs := s.reqs ++ .bdInit :: List.replicate (ms.length + 1) .bdMcu
        bderr := bad.err, r0 := 0, err := .bd, fails := true, cmdcnt := s.cmdcnt + 1 } := by
  rw [exec_decJpeg_of_preconditions hn he hscan hb,
    runMcuRows_of_error (s := (s.jpegInited inits).beginRows) hms herr hbad hlen,
    (portless_imageStopped _ _ _ _).afterMcus_jpegInited, failDecode_eq (by decide)]
  simp only [State.setBderr, imageStopped_cmdcnt]
  rfl

/-- Settles O60: the failure of a decode that an error breaks off, for each line of R312's table. -/
theorem decJpegStopsOnABlockError : Obligations.DecJpegStopsOnABlockError := by
  intro w h s a inits gray mw mh ms rest bad hn he hmem hb hms herr hbad hlen
  obtain ⟨scan, hscan, rfl, rfl, rfl⟩ := scanTable_of_mem hmem
  exact ⟨_, exec_decJpeg_of_error hn he hscan hb hms herr hbad hlen, rfl⟩

end Sys2Proof.Machine
end

section
/-!
Answers that break the protocol of port BS (spec/60_exceptions.md R330, R351; spec/93_implementation_defined.md U3): a decode that
comes to one is refused, and nothing else stops a step.
-/

namespace Sys2Proof.Machine

/-! ### A decode that comes to a broken answer -/

/-- Only the place in the line matters to what breaks the protocol (R272). -/
theorem breaksProtocol_shift {c n p q : Nat} {a : ReadAnswer} (h : p % n = q % n) :
    breaksProtocol c n p a ↔ breaksProtocol c n q a := by
  rw [breaksProtocol, breaksProtocol, h]

/-- Where a line needs more bytes, the answers that break the protocol are those that `READLINE` does not take (R272, R351). -/
theorem answerOk_requestSize_iff {c n got : Nat} {a : ReadAnswer} (hg : got < n) :
    answerOk (requestSize c n got) a = true ↔ ¬ breaksProtocol c n got a := by
  rw [answerOk_iff, requestSize, breaksProtocol, Nat.mod_eq_of_lt hg]
  omega

/-- A `READLINE` that needs more bytes is refused at an answer that breaks the protocol (R351; log entry 12). -/
theorem readLine_breaks {c n : Nat} {bad : ReadAnswer} (rest : List ReadAnswer) (asked : Bool) {got : List Byte}
    (hg : got.length < n) (hb : breaksProtocol c n got.length bad) :
    (readLine c n (bad :: rest) asked got).1 = .broken := by
  have hok : ¬ answerOk (requestSize c n got.length) bad = true := fun ha => (answerOk_requestSize_iff hg).mp ha hb
  simp only [readLine, if_neg (Nat.not_le.mpr hg), hok, Bool.not_false, if_true]

/-- The line loop goes line by line up to an answer that breaks the protocol, and is refused at it (R272, R351). -/
theorem runLines_breaks {k : StreamKind} {w h : Half} {bad : ReadAnswer} {rest : List ReadAnswer} :
    ∀ (left y : Nat) (l1 l2 : List Byte) (as : List ReadAnswer) (s : State), s.bsReads = as ++ bad :: rest →
      answersServe k.ceiling (k.lineBytes w.toNat) (k.lineBytes w.toNat * y) as = true →
      (streamOf as).length < left * k.lineBytes w.toNat →
      breaksProtocol k.ceiling (k.lineBytes w.toNat) (streamOf as).length bad →
      runLines k w h left y none l1 l2 s = .refused .byteSourceProtocol := by
  intro left
  induction left with
  | zero => intro y l1 l2 as s _ _ hl; rw [Nat.zero_mul] at hl; exact absurd hl (Nat.not_lt_zero _)
  | succ left ih =>
    intro y l1 l2 as s hr hs hl hb
    rw [runLines]
    simp only [Option.isSome_none, Bool.false_eq_true, if_false, Option.getD_none, beforeLine_bsReads, hr]
    generalize k.lineBytes w.toNat = n at *
    have hstart : n * y % n = ([] : List Byte).length % n := by simp
    by_cases hlast : (streamOf as).length < n
    · have hread := readLine_append_served (bad :: rest) hstart hs (by simpa using hlast)
      rw [List.nil_append] at hread
      simp only [hread, readLine_breaks rest false hlast hb]
    · have hn : 0 < n := Nat.pos_of_ne_zero (by rintro rfl; exact Nat.not_lt_zero _ hl)
      obtain ⟨as1, as2, rfl, hlen, hs1, hs2, -⟩ := serve_split hn hs (by rw [Nat.mul_mod_right]; omega)
      rw [Nat.mul_mod_right, Nat.sub_zero] at hlen hs2
      rw [streamOf_append, List.length_append, hlen] at hl hb
      rw [Nat.succ_mul] at hl
      have hread := readLine_of_served (as2 ++ bad :: rest) hstart (Nat.zero_le n) hs1 (by simpa using hlen)
      rw [List.nil_append] at hread
      simp only [List.append_assoc, hread]
      exact ih (y + 1) _ _ as2 _ (by simp [State.afterRead]) hs2 (by omega)
        ((breaksProtocol_shift (Nat.add_mod_left n _)).mp hb)

/-- Settles O52: the lines that the answers before it fill are read, and the answer itself stops the decode. -/
theorem brokenAnswerIsRefused : Obligations.BrokenAnswerIsRefused := by
  intro k w h s total totals as rest bad ht hp hr hs hl hb
  rw [exec_stream_instr, startStream_of_precondition ht hp]
  exact runLines_breaks _ 0 [] [] as (s.decodeBegun totals) hr hs hl hb

/-! ### What goes on -/

/-- A command that is no decode goes on (R330). -/
theorem exec_goes_on {i : Instr} (hi : i.isDecode = false) (s : State) : ∃ t, exec i s = .next t := by
  cases i with
  | nop | rdcsr | clrstat | nearLab | nearRgb | setidx | getidx | flush | setpix | diffReset => exact ⟨_, rfl⟩
  | wrcsr csr v =>
    rw [exec, execWrcsr]
    split
    · split <;> exact ⟨_, rfl⟩
    · split <;> exact ⟨_, rfl⟩
  | palLoad mono es =>
    rw [exec, execPalLoad]
    split
    · exact ⟨_, rfl⟩
    · split <;> exact ⟨_, rfl⟩
  | torgb i => rw [exec, execTorgb]; split <;> exact ⟨_, rfl⟩
  | tolab i => rw [exec, execTolab]; split <;> exact ⟨_, rfl⟩
  | indexof n =>
    rw [exec, execIndexof]
    split
    · exact ⟨_, rfl⟩
    · split <;> exact ⟨_, rfl⟩
  | normRgb pb pw =>
    rw [exec, execNormRgb]
    split
    · split <;> exact ⟨_, rfl⟩
    · exact ⟨_, rfl⟩
  | normLab pb pw =>
    rw [exec, execNormLab]
    split
    · split <;> exact ⟨_, rfl⟩
    · exact ⟨_, rfl⟩
  | surfCfg f w e p => rw [exec, execSurfCfg]; split <;> exact ⟨_, rfl⟩
  | rdfb a => rw [exec, execRdfb]; split <;> exact ⟨_, rfl⟩
  | rdrow sel x => rw [exec, execRdrow]; split <;> exact ⟨_, rfl⟩
  | decRgb565 | decYuyv | decYuyvh | decYuv3l | decJpeg => cases hi

/-- The MCU-row loop goes on: no answer of the block decoder stops it (R310, R311). -/
theorem runMcuRows_goes_on (scan : ScanType) (w h : Half) (left my : Nat) (pend : Option (Nat × List (List RGB))) (s : State) :
    ∃ t, runMcuRows scan w h left my pend s = .next t := by
  rcases runMcuRows_ends (P := fun _ => True) (scan := scan) (w := w) (h := h) (fun _ _ => id) (fun _ _ _ _ _ => id)
    (fun _ _ _ => id) left my pend s trivial with ⟨u, -, he⟩ | ⟨u, code, -, -, he⟩ | ⟨u, j, x, m, -, -, -, -, -, -, he⟩
  · exact ⟨_, he⟩
  · exact ⟨_, he⟩
  · exact ⟨_, he⟩

theorem resumeMcu_goes_on (j : JpegJob) (s : State) : ∃ t, resumeMcu j s = .next t := runMcuRows_goes_on _ _ _ _ _ _ s

theorem resumeInit_goes_on (w h : Half) (s : State) : ∃ t, resumeInit w h s = .next t := by
  unfold resumeInit
  split
  · exact ⟨_, rfl⟩
  next a rest _ =>
    unfold runJpeg
    split
    · exact ⟨_, rfl⟩
    · split
      · exact ⟨_, rfl⟩
      · split
        · exact ⟨_, rfl⟩
        · exact runMcuRows_goes_on _ _ _ _ _ _ _

/-- However a decode ends, it has not faulted (R330). -/
theorem DecodeEnds.next_or_refused {P : State → Prop} {Q : Sequencer → Prop} {r : Result} (h : DecodeEnds P Q r) :
    (∃ t, r = .next t) ∨ r = .refused .byteSourceProtocol := by
  rcases h with ⟨u, -, he⟩ | ⟨u, rc, -, -, he⟩ | ⟨u, q, -, -, he⟩ | he
  · exact .inl ⟨_, he⟩
  · exact .inl ⟨_, he⟩
  · exact .inl ⟨_, he⟩
  · exact .inr he

/-- A command goes on or is refused for a broken protocol (R330, R351). -/
theorem exec_next_or_refused (i : Instr) (s : State) :
    (∃ t, exec i s = .next t) ∨ exec i s = .refused .byteSourceProtocol := by
  cases hd : i.isDecode with
  | false => exact .inl (exec_goes_on hd s)
  | true => exact (exec_decode_ends (decodeFrame_keeps s) hd (decodeFrame_refl s)).next_or_refused

/-- A step goes on or is refused for a broken protocol (R330, R335, R351). -/
theorem step_next_or_refused (s : State) : (∃ t, step s = .next t) ∨ step s = .refused .byteSourceProtocol := by
  cases hh : s.halted with
  | true => exact .inl ⟨s, step_of_halted hh⟩
  | false =>
    cases hd : s.decoding with
    | true =>
      exact (step_decode_ends (decodeFrame_keeps { s with seq := .idle }) hh hd (decodeFrame_refl _)).next_or_refused
    | false =>
      rcases step_fetches hh hd with hr | ⟨words, -, hr⟩ | ⟨_, rest, _, -, -, -, hr⟩ | ⟨i, rest, hr⟩
      · exact .inl ⟨_, hr⟩
      · exact .inl ⟨_, hr⟩
      · exact .inl ⟨_, hr⟩
      · rw [hr]; exact exec_next_or_refused i _

/-! ### Where a decode is refused -/

/-- The answers to come serve a frame from byte number `pos` on up to one that breaks the protocol, which the frame needs (R272,
R351). -/
def State.BreaksFrom (s : State) (k : StreamKind) (w h : Half) (pos : Nat) : Prop :=
  ∃ as bad rest, s.bsReads = as ++ bad :: rest ∧
    answersServe k.ceiling (k.lineBytes w.toNat) pos as = true ∧
    pos + (streamOf as).length < k.lineBytes w.toNat * k.rows h.toNat ∧
    breaksProtocol k.ceiling (k.lineBytes w.toNat) (pos + (streamOf as).length) bad

theorem resumeTotal_refused {k : StreamKind} {w h : Half} {s : State}
    (he : resumeTotal k w h s = .refused .byteSourceProtocol) : s.BreaksFrom k w h 0 := by
  unfold resumeTotal at he
  split at he
  · cases he
  next total totals _ =>
    unfold runStream at he
    split at he
    · cases he
    · obtain ⟨as, bad, rest, hr, hs, hl, hb⟩ := runLines_broken _ 0 none [] [] _ nofun he
      simp only [Nat.mul_zero, Option.getD_none, List.length_nil, Nat.add_zero, Nat.zero_add] at hs hl hb
      exact ⟨as, bad, rest, hr, hs, by rwa [Nat.zero_add], by rwa [Nat.zero_add]⟩

theorem resumeRead_refused {j : StreamJob} {s : State} (hrow : j.row < j.kind.rows j.h.toNat)
    (hl : j.line0.length < j.kind.lineBytes j.w.toNat) (he : resumeRead j s = .refused .byteSourceProtocol) :
    s.BreaksFrom j.kind j.w j.h (j.kind.lineBytes j.w.toNat * j.row + j.line0.length) := by
  have hb := runLines_broken _ j.row (some j.line0) j.line1 j.line2 s (by rintro _ ⟨⟩; exact hl) he
  rwa [Nat.add_sub_cancel' (Nat.le_of_lt hrow)] at hb

/-- Only a byte-stream decoder is refused, and only for an answer that breaks the protocol (R351). -/
theorem exec_refused {i : Instr} {s : State} (he : exec i s = .refused .byteSourceProtocol) :
    ∃ k w h, i = StreamKind.instr k w h ∧ s.BreaksFrom k w h 0 := by
  cases hd : i.isDecode with
  | false =>
    obtain ⟨t, ht⟩ := exec_goes_on hd s
    rw [ht] at he; cases he
  | true =>
    rcases isDecode_iff.mp hd with hs | ⟨w, h, rfl⟩
    · obtain ⟨k, w, h, rfl⟩ := isStream_iff.mp hs
      rw [exec_stream_instr] at he
      exact ⟨k, w, h, rfl, (resumeTotal_refused he :)⟩
    · obtain ⟨t, ht⟩ := resumeInit_goes_on w h ((s.setBderr 0).request .bdInit)
      have hnext : exec (.decJpeg w h) s = .next t := ht
      rw [hnext] at he; cases he

/-! ### Where a step is refused -/

/-- A command is taken from the words that spell it (R113). -/
theorem fetchOperands_command {h : Word} {op : Op} {taken q rest : List Word} {i : Instr} (ho : headerOp h = .ok op)
    (ht : taken.length ≤ operandCount op h) (hf : fetchOperands h taken q = .command i rest) :
    decode (h :: (taken ++ q)) = .ok (i, rest) := by
  by_cases hl : operandCount op h ≤ (taken ++ q).length
  · rw [fetchOperands_of_enough ho ht hl] at hf
    split at hf <;> cases hf
    assumption
  · rw [fetchOperands_of_missing ho (Nat.lt_of_not_le hl)] at hf; cases hf

theorem fetchHeader_command {h : Word} {q rest : List Word} {i : Instr} (hf : fetchHeader h q = .command i rest) :
    decode (h :: q) = .ok (i, rest) := by
  cases ho : headerOp h with
  | error e => rw [fetchHeader_of_error q ho] at hf; cases hf
  | ok op => exact fetchOperands_command (taken := []) ho (Nat.zero_le _) (by rwa [fetchHeader_of_ok q ho] at hf)

/-- Taking words is refused only by the command taken (R113). -/
theorem runFetched_refused {f : Fetched} {s : State} {r : Refusal} (he : runFetched f s = .refused r) :
    ∃ i rest, f = .command i rest ∧ exec i { s with cmdq := rest, seq := .idle } = .refused r := by
  cases f with
  | wait words => cases he
  | illegal rest => cases he
  | command i rest => exact ⟨i, rest, rfl, he⟩

/-- A refused step of an idle engine is that of the command at the head of the queue (R113). -/
theorem step_refused_of_idle {s : State} {r : Refusal} (hh : s.halted = false) (hq : s.seq = .idle)
    (he : step s = .refused r) :
    ∃ i rest, decode s.cmdq = .ok (i, rest) ∧ exec i { s with cmdq := rest, seq := .idle } = .refused r := by
  rw [step_of_idle hh hq, fetchNext] at he
  split at he
  · cases he
  next h q hc =>
    obtain ⟨i, rest, hf, hx⟩ := runFetched_refused he
    exact ⟨i, rest, hc ▸ fetchHeader_command hf, hx⟩

/-- A refused step of an engine that awaits operand words is that of the command they complete (R113). -/
theorem step_refused_of_operands {s : State} {taken : List Word} {r : Refusal} (hh : s.halted = false)
    (hq : s.seq = .operands taken) (hp : operandsPending taken = true) (he : step s = .refused r) :
    ∃ i rest, decode (taken ++ s.cmdq) = .ok (i, rest) ∧ exec i { s with cmdq := rest, seq := .idle } = .refused r := by
  cases taken with
  | nil => cases hp
  | cons h ws =>
    obtain ⟨op, ho, hlt⟩ := operandsPending_cons.mp hp
    rw [step_of_operands hh hq, fetchMore] at he
    obtain ⟨i, rest, hf, hx⟩ := runFetched_refused he
    exact ⟨i, rest, fetchOperands_command ho (Nat.le_of_lt hlt) hf, hx⟩

/-- A refused step of a sound engine starts, or goes on with, a byte-stream decode that comes to an answer that breaks the
protocol (R351). -/
theorem step_refused {s : State} (h : s.Inv) (hh : s.halted = false) (he : step s = .refused .byteSourceProtocol) :
    ∃ k w e pos, s.runsStream k w e pos ∧ s.BreaksFrom k w e pos := by
  have hfits := h.sequencer
  rw [sequencerFits_eq] at hfits
  cases hq : s.seq with
  | idle =>
    obtain ⟨i, rest, hd, hx⟩ := step_refused_of_idle hh hq he
    obtain ⟨k, w, e, rfl, hb⟩ := exec_refused hx
    exact ⟨k, w, e, 0, .inl ⟨rest, hq, hd, rfl⟩, hb⟩
  | operands taken =>
    obtain ⟨i, rest, hd, hx⟩ := step_refused_of_operands hh hq (by rwa [hq] at hfits) he
    obtain ⟨k, w, e, rfl, hb⟩ := exec_refused hx
    exact ⟨k, w, e, 0, .inr (.inl ⟨taken, rest, hq, hd, rfl⟩), hb⟩
  | awaitTotal k w e =>
    rw [step_of_awaitTotal hh hq] at he
    exact ⟨k, w, e, 0, .inr (.inr (.inl ⟨hq, rfl⟩)), (resumeTotal_refused he :)⟩
  | awaitRead j =>
    obtain ⟨hrow, hl⟩ := awaitRead_bounds h hq
    rw [step_of_awaitRead hh hq] at he
    exact ⟨j.kind, j.w, j.h, _, .inr (.inr (.inr ⟨j, hq, rfl, rfl, rfl, rfl⟩)), (resumeRead_refused hrow hl he :)⟩
  | awaitInit w e =>
    obtain ⟨t, ht⟩ := resumeInit_goes_on w e { s with seq := .idle }
    rw [step_of_awaitInit hh hq, ht] at he; cases he
  | awaitMcu j =>
    obtain ⟨t, ht⟩ := resumeMcu_goes_on j { s with seq := .idle }
    rw [step_of_awaitMcu hh hq, ht] at he; cases he

/-- Settles O11: what a step can come to, and where it is refused. -/
theorem stepStopsOnlyOnBrokenProtocol : Obligations.StepStopsOnlyOnBrokenProtocol := by
  refine ⟨step_next_or_refused, fun s h he => ?_⟩
  have hh : s.halted = false := by
    by_contra hc
    rw [step_of_halted (by simpa using hc)] at he; cases he
  obtain ⟨k, w, e, pos, hruns, as, bad, rest, hr, hs, hl, hb⟩ := step_refused h hh he
  exact ⟨hh, k, w, e, pos, as, bad, rest, hruns, hr, hs, hl, hb⟩

end Sys2Proof.Machine
end

section
/-!
The `reset` pin (spec/70_reset_and_hazards.md R370, R371): what it drops, what it leaves, and how the answer to a dropped request
is ignored.
-/

namespace Sys2Proof.Machine

section

variable {s : State}

/-! ### One dropped request -/

/-- What it is to drop a request: the head of its queue goes, or, of an empty queue, its kind is noted (R371). -/
theorem dropRequest_drops {α : Type} (k : AnswerKind) (answers : List α) :
    RequestDropped k answers answers.tail s.dropped (s.dropRequest k answers).dropped := by
  refine ⟨fun a as hcome => ?_, fun hnone => ?_⟩
  · subst hcome; exact ⟨rfl, rfl⟩
  · subst hnone; exact ⟨rfl, rfl⟩

@[simp] theorem dropRequest_bsTotals {α : Type} (k : AnswerKind) (answers : List α) :
    (s.dropRequest k answers).bsTotals = s.bsTotals := by
  unfold State.dropRequest; split <;> rfl

@[simp] theorem dropRequest_bsReads {α : Type} (k : AnswerKind) (answers : List α) :
    (s.dropRequest k answers).bsReads = s.bsReads := by
  unfold State.dropRequest; split <;> rfl

@[simp] theorem dropRequest_bdInits {α : Type} (k : AnswerKind) (answers : List α) :
    (s.dropRequest k answers).bdInits = s.bdInits := by
  unfold State.dropRequest; split <;> rfl

@[simp] theorem dropRequest_bdMcus {α : Type} (k : AnswerKind) (answers : List α) :
    (s.dropRequest k answers).bdMcus = s.bdMcus := by
  unfold State.dropRequest; split <;> rfl

/-! ### The pending request, wait by wait -/

/-- An engine that does not decode has no request pending. -/
theorem dropPending_of_not_decoding (hd : s.decoding = false) : s.dropPending = s := by
  cases hq : s.seq with
  | idle | operands => simp only [State.dropPending, hq]
  | awaitTotal | awaitRead | awaitInit | awaitMcu => simp [State.decoding, hq] at hd

theorem dropPending_of_awaitTotal {k : StreamKind} {w h : Half} (hq : s.seq = .awaitTotal k w h) :
    s.dropPending = { s.dropRequest .total s.bsTotals with bsTotals := s.bsTotals.tail } := by
  simp only [State.dropPending, hq]

theorem dropPending_of_awaitRead {j : StreamJob} (hq : s.seq = .awaitRead j) :
    s.dropPending = { s.dropRequest .read s.bsReads with bsReads := s.bsReads.tail } := by
  simp only [State.dropPending, hq]

theorem dropPending_of_awaitInit {w h : Half} (hq : s.seq = .awaitInit w h) :
    s.dropPending = { s.dropRequest .init s.bdInits with bdInits := s.bdInits.tail } := by
  simp only [State.dropPending, hq]

theorem dropPending_of_awaitMcu {j : JpegJob} (hq : s.seq = .awaitMcu j) :
    s.dropPending = { s.dropRequest .mcu s.bdMcus with bdMcus := s.bdMcus.tail } := by
  simp only [State.dropPending, hq]

/-! ### The queues of the other requests stay -/

theorem dropPending_bsTotals (hne : ∀ k w h, s.seq ≠ .awaitTotal k w h) : s.dropPending.bsTotals = s.bsTotals := by
  cases hq : s.seq with
  | idle | operands => rw [dropPending_of_not_decoding (by simp only [State.decoding, hq])]
  | awaitTotal k w h => exact absurd hq (hne k w h)
  | awaitRead => simp only [dropPending_of_awaitRead hq, dropRequest_bsTotals]
  | awaitInit => simp only [dropPending_of_awaitInit hq, dropRequest_bsTotals]
  | awaitMcu => simp only [dropPending_of_awaitMcu hq, dropRequest_bsTotals]

theorem dropPending_bsReads (hne : ∀ j, s.seq ≠ .awaitRead j) : s.dropPending.bsReads = s.bsReads := by
  cases hq : s.seq with
  | idle | operands => rw [dropPending_of_not_decoding (by simp only [State.decoding, hq])]
  | awaitTotal => simp only [dropPending_of_awaitTotal hq, dropRequest_bsReads]
  | awaitRead j => exact absurd hq (hne j)
  | awaitInit => simp only [dropPending_of_awaitInit hq, dropRequest_bsReads]
  | awaitMcu => simp only [dropPending_of_awaitMcu hq, dropRequest_bsReads]

theorem dropPending_bdInits (hne : ∀ w h, s.seq ≠ .awaitInit w h) : s.dropPending.bdInits = s.bdInits := by
  cases hq : s.seq with
  | idle | operands => rw [dropPending_of_not_decoding (by simp only [State.decoding, hq])]
  | awaitTotal => simp only [dropPending_of_awaitTotal hq, dropRequest_bdInits]
  | awaitRead => simp only [dropPending_of_awaitRead hq, dropRequest_bdInits]
  | awaitInit w h => exact absurd hq (hne w h)
  | awaitMcu => simp only [dropPending_of_awaitMcu hq, dropRequest_bdInits]

theorem dropPending_bdMcus (hne : ∀ j, s.seq ≠ .awaitMcu j) : s.dropPending.bdMcus = s.bdMcus := by
  cases hq : s.seq with
  | idle | operands => rw [dropPending_of_not_decoding (by simp only [State.decoding, hq])]
  | awaitTotal => simp only [dropPending_of_awaitTotal hq, dropRequest_bdMcus]
  | awaitRead => simp only [dropPending_of_awaitRead hq, dropRequest_bdMcus]
  | awaitInit => simp only [dropPending_of_awaitInit hq, dropRequest_bdMcus]
  | awaitMcu j => exact absurd hq (hne j)

/-! ### The pin -/

@[simp] theorem assertReset_params : s.assertReset.params = s.params := rfl

@[simp] theorem assertReset_reqs : s.assertReset.reqs = s.reqs := rfl

@[simp] theorem assertReset_choices : s.assertReset.choices = s.choices := rfl

@[simp] theorem assertReset_bsTotals : s.assertReset.bsTotals = s.dropPending.bsTotals := rfl

@[simp] theorem assertReset_bsReads : s.assertReset.bsReads = s.dropPending.bsReads := rfl

@[simp] theorem assertReset_bdInits : s.assertReset.bdInits = s.dropPending.bdInits := rfl

@[simp] theorem assertReset_bdMcus : s.assertReset.bdMcus = s.dropPending.bdMcus := rfl

@[simp] theorem assertReset_dropped : s.assertReset.dropped = s.dropPending.dropped := rfl

/-- The pin drops the request of each of the four waits (R371). -/
theorem assertReset_drops_total {k : StreamKind} {w h : Half} (hq : s.seq = .awaitTotal k w h) :
    RequestDropped .total s.bsTotals s.assertReset.bsTotals s.dropped s.assertReset.dropped := by
  rw [assertReset_bsTotals, assertReset_dropped, dropPending_of_awaitTotal hq]
  exact dropRequest_drops .total s.bsTotals

theorem assertReset_drops_read {j : StreamJob} (hq : s.seq = .awaitRead j) :
    RequestDropped .read s.bsReads s.assertReset.bsReads s.dropped s.assertReset.dropped := by
  rw [assertReset_bsReads, assertReset_dropped, dropPending_of_awaitRead hq]
  exact dropRequest_drops .read s.bsReads

theorem assertReset_drops_init {w h : Half} (hq : s.seq = .awaitInit w h) :
    RequestDropped .init s.bdInits s.assertReset.bdInits s.dropped s.assertReset.dropped := by
  rw [assertReset_bdInits, assertReset_dropped, dropPending_of_awaitInit hq]
  exact dropRequest_drops .init s.bdInits

theorem assertReset_drops_mcu {j : JpegJob} (hq : s.seq = .awaitMcu j) :
    RequestDropped .mcu s.bdMcus s.assertReset.bdMcus s.dropped s.assertReset.dropped := by
  rw [assertReset_bdMcus, assertReset_dropped, dropPending_of_awaitMcu hq]
  exact dropRequest_drops .mcu s.bdMcus

/-! ### The answer to a dropped request -/

/-- Whatever the engine does, the answer to a dropped request takes its note and nothing else (R371). -/
theorem answerTotal_to_dropped (a : Word) : s.answerTotal .dropped a = s.ignoreAnswer .total := rfl

theorem answerRead_to_dropped (a : ReadAnswer) : s.answerRead .dropped a = s.ignoreAnswer .read := rfl

theorem answerInit_to_dropped (a : InitAnswer) : s.answerInit .dropped a = s.ignoreAnswer .init := rfl

theorem answerMcu_to_dropped (a : McuAnswer) : s.answerMcu .dropped a = s.ignoreAnswer .mcu := rfl

end

/-- Settles O17: the pin, wait by wait, and the answers that come after it. -/
theorem resetPinFromAnyState : Obligations.ResetPinFromAnyState := by
  intro s
  refine ⟨rfl, assertReset_params, assertReset_reqs, assertReset_choices, ?notes,
    dropPending_bsTotals, dropPending_bsReads, dropPending_bdInits, dropPending_bdMcus,
    fun _ _ _ => assertReset_drops_total, fun _ => assertReset_drops_read, fun _ _ => assertReset_drops_init,
    fun _ => assertReset_drops_mcu,
    answerTotal_to_dropped, answerRead_to_dropped, answerInit_to_dropped, answerMcu_to_dropped, ?total, ?read, ?init, ?mcu⟩
  case notes => exact fun hd => by rw [assertReset_dropped, dropPending_of_not_decoding hd]
  case total => exact fun _ _ _ v hq => by simp only [answerTotal_of_await hq, State.withMore, List.append_nil]
  case read => exact fun _ a hq => by simp only [answerRead_of_await hq, State.withMore, List.append_nil]
  case init => exact fun _ _ a hq => by simp only [answerInit_of_await hq, State.withMore, List.append_nil]
  case mcu => exact fun _ a hq => by simp only [answerMcu_of_await hq, State.withMore, List.append_nil]

end Sys2Proof.Machine
end
